-- ==== Sys2Proof/Word.lean ====
section
/-!
DEFINITION. The word types of the block (00_scope.md R11, R12): bytes, the 16-bit units and table entries,
the 32-bit registers and accumulator, and the 64-bit registers.
-/

namespace Sys2Proof

/-- One byte of LMEM, of a store, or of a private memory. -/
abbrev Byte := BitVec 8

/-- A 16-bit decode-table entry (30_encoding.md R80). -/
abbrev Entry := BitVec 16

/-- A 32-bit register, command word or accumulator. -/
abbrev Word32 := BitVec 32

/-- A 64-bit register. -/
abbrev Word64 := BitVec 64

end Sys2Proof
end

