-- ==== Sys2Proof/Syntax.lean ====
section
/-!
DEFINITION. The command set: one constructor per row of spec/opcode_table.json (30_encoding.md R73).
-/

namespace Sys2Proof

/-- A command. `n` is the 5-bit field N of the command word (30_encoding.md R71, R72). -/
inductive Instr where
  | brInit
  | brEnsure (n : BitVec 5)
  | brPeek (n : BitVec 5)
  | brPop (n : BitVec 5)
  | brRead (n : BitVec 5)
  | brReadByte
  | brReadU16
  | brReadU32
  | brReadBytes
  | brAlign
  | htBuild
  | htDecode
  | mcCopy
  | caDecompress
  | cbDecompress
  | ctxOpen
  | ctxGetSize
  | ctxRead
  | ctxClose
  deriving DecidableEq, Repr

end Sys2Proof
end

