-- ==== Sys2Proof/WellFormed.lean ====
section
/-!
DEFINITION. Which commands a legal command word can carry: the bit count is 0..16 (30_encoding.md R72, R75(c)).
-/

namespace Sys2Proof

/-- The legal range of the operand n (30_encoding.md R72). -/
def bitCountLegal (n : BitVec 5) : Bool := n.toNat ≤ 16

/-- A command is well formed when its bit count, if it has one, is legal. -/
def Instr.wellFormed : Instr → Bool
  | .brInit => true
  | .brEnsure n => bitCountLegal n
  | .brPeek n => bitCountLegal n
  | .brPop n => bitCountLegal n
  | .brRead n => bitCountLegal n
  | .brReadByte => true
  | .brReadU16 => true
  | .brReadU32 => true
  | .brReadBytes => true
  | .brAlign => true
  | .htBuild => true
  | .htDecode => true
  | .mcCopy => true
  | .caDecompress => true
  | .cbDecompress => true
  | .ctxOpen => true
  | .ctxGetSize => true
  | .ctxRead => true
  | .ctxClose => true

end Sys2Proof
end

