-- ==== Sys2Proof/Decode.lean ====
section
/-!
DEFINITION. The command word (30_encoding.md R70-R76): the decoder, total on every 32-bit word and refusing by name,
and the encoder, both from the same opcode map.
-/

namespace Sys2Proof

/-- Why a command word is illegal: the four cases of 30_encoding.md R75. -/
inductive DecodeError where
  /-- R75(a): RSV is not 0. -/
  | reservedBits
  /-- R75(b), R76: OPC is not in the opcode map. -/
  | unassignedOpcode
  /-- R75(c): the bit count of a bit command is above 16. -/
  | bitCountTooLarge
  /-- R75(d): N is not 0 in a command without a bit count. -/
  | strayBitCount
  deriving DecidableEq, Repr

/-- Field OPC of a command word (R71). -/
def opcField (w : Word32) : BitVec 8 := w.extractLsb' 0 8

/-- Field N of a command word (R71). -/
def nField (w : Word32) : BitVec 5 := w.extractLsb' 8 5

/-- Field RSV of a command word (R71). -/
def rsvField (w : Word32) : BitVec 19 := w.extractLsb' 13 19

/-- A command without a bit count: its N must be 0 (R75(d)). -/
def plainCommand (n : BitVec 5) (i : Instr) : Except DecodeError Instr :=
  if n = 0#5 then .ok i else .error .strayBitCount

/-- A bit command: its N must be at most 16 (R75(c)). -/
def bitCommand (n : BitVec 5) (i : BitVec 5 → Instr) : Except DecodeError Instr :=
  if bitCountLegal n then .ok (i n) else .error .bitCountTooLarge

/-- The opcode map (R73). -/
def decodeFields (opc : BitVec 8) (n : BitVec 5) : Except DecodeError Instr :=
  match opc with
  | 0x01#8 => plainCommand n .brInit
  | 0x02#8 => bitCommand n .brEnsure
  | 0x03#8 => bitCommand n .brPeek
  | 0x04#8 => bitCommand n .brPop
  | 0x05#8 => bitCommand n .brRead
  | 0x06#8 => plainCommand n .brReadByte
  | 0x07#8 => plainCommand n .brReadU16
  | 0x08#8 => plainCommand n .brReadU32
  | 0x09#8 => plainCommand n .brReadBytes
  | 0x0A#8 => plainCommand n .brAlign
  | 0x10#8 => plainCommand n .htBuild
  | 0x11#8 => plainCommand n .htDecode
  | 0x18#8 => plainCommand n .mcCopy
  | 0x20#8 => plainCommand n .caDecompress
  | 0x21#8 => plainCommand n .cbDecompress
  | 0x30#8 => plainCommand n .ctxOpen
  | 0x31#8 => plainCommand n .ctxGetSize
  | 0x32#8 => plainCommand n .ctxRead
  | 0x33#8 => plainCommand n .ctxClose
  | _ => .error .unassignedOpcode

/-- The decoder: legal words only (R75). -/
def decode (w : Word32) : Except DecodeError Instr :=
  if rsvField w = 0#19 then decodeFields (opcField w) (nField w) else .error .reservedBits

/-- The opcode of a command (R73). -/
def opcodeOf : Instr → BitVec 8
  | .brInit => 0x01#8
  | .brEnsure _ => 0x02#8
  | .brPeek _ => 0x03#8
  | .brPop _ => 0x04#8
  | .brRead _ => 0x05#8
  | .brReadByte => 0x06#8
  | .brReadU16 => 0x07#8
  | .brReadU32 => 0x08#8
  | .brReadBytes => 0x09#8
  | .brAlign => 0x0A#8
  | .htBuild => 0x10#8
  | .htDecode => 0x11#8
  | .mcCopy => 0x18#8
  | .caDecompress => 0x20#8
  | .cbDecompress => 0x21#8
  | .ctxOpen => 0x30#8
  | .ctxGetSize => 0x31#8
  | .ctxRead => 0x32#8
  | .ctxClose => 0x33#8

/-- The field N a command carries: its bit count, or 0 (R71). -/
def bitCountOf : Instr → BitVec 5
  | .brEnsure n => n
  | .brPeek n => n
  | .brPop n => n
  | .brRead n => n
  | .brInit => 0#5
  | .brReadByte => 0#5
  | .brReadU16 => 0#5
  | .brReadU32 => 0#5
  | .brReadBytes => 0#5
  | .brAlign => 0#5
  | .htBuild => 0#5
  | .htDecode => 0#5
  | .mcCopy => 0#5
  | .caDecompress => 0#5
  | .cbDecompress => 0#5
  | .ctxOpen => 0#5
  | .ctxGetSize => 0#5
  | .ctxRead => 0#5
  | .ctxClose => 0#5

/-- The encoder: RSV, N, OPC from the top bit down (R71, R81). -/
def encode (i : Instr) : Word32 := 0#19 ++ (bitCountOf i ++ opcodeOf i)

/-- The command word that `nbits` table bits `w` stand for: the bits above `nbits` are 0. -/
def tableWord (nbits w : Nat) : Word32 := BitVec.ofNat 32 (w % 2 ^ nbits)

/-- The command the decoder reads from a table word; `none` where it refuses. A command reaches the block as one
32-bit register write (R70), so no byte order enters here. -/
def decodeTableWord (nbits w : Nat) : Option Instr :=
  match decode (tableWord nbits w) with
  | .ok i => some i
  | .error _ => none

end Sys2Proof
end

