-- ==== Sys2Proof/Config.lean ====
section
/-!
DEFINITION. What is fixed for one machine and is no state of the block (00_scope.md R10, 10_state.md R41):
the implementation parameters, the backing stores and the I/O oracle; and the free values, which nothing constrains.
-/

namespace Sys2Proof

/-- EXHAUSTION_POLICY (43_codec_a.md R179). -/
inductive ExhaustionPolicy where
  | padUntilFull
  | failOnPadding
  deriving DecidableEq, Repr

/-- R_REUSE_UPDATE (44_codec_b.md R207). -/
inductive ReuseUpdate where
  | swapWithR0
  | moveToFront
  deriving DecidableEq, Repr

/-- The parameters a model takes as arguments (00_scope.md R10). -/
structure Params where
  addrBits : Nat
  maxChunks : Nat
  rejectIncomplete : Bool
  exhaustion : ExhaustionPolicy
  reuse : ReuseUpdate
  deriving DecidableEq, Repr

/-- The defaults of 00_scope.md R10. -/
def Params.standard : Params where
  addrBits := 32
  maxChunks := 2 ^ 20
  rejectIncomplete := false
  exhaustion := .padUntilFull
  reuse := .swapWithR0

/-- Everything the step takes as given (10_state.md R41). `stores` lists the bytes of each handle's backing store;
`ioPlan` is the I/O oracle: call number k of StoreRead fails when entry k is `true` (20_memory.md R51).
No step changes it (notes/assumptions/1.md, 16.md). -/
structure World where
  params : Params
  stores : List (Word64 × List Byte)
  ioPlan : List Bool
  deriving DecidableEq, Repr

/-- The default parameters, no store, an oracle that never fails (DESIGN CHOICE, notes/assumptions/16.md). -/
def World.standard : World := { params := Params.standard, stores := [], ioPlan := [] }

/-- FREE VALUE: what a host read of ARG register number `k` returns while it holds no value, from one reset to the next;
the first argument counts the resets (notes/assumptions/10.md). -/
opaque Config.freeWord : Nat → Nat → Word64

/-- FREE VALUE: what a host read of the LMEM byte at an address returns while it holds no value, from one reset to the
next; the first argument counts the resets (notes/assumptions/10.md). -/
opaque Config.freeByte : Nat → Nat → Byte

end Sys2Proof
end

