-- ==== Sys2Proof/Machine/State.lean ====
section
/-!
DEFINITION. The state of the block as plain data (10_state.md), the reasons a step can stop, and the state right after
reset (70_reset_and_hazards.md R280).
-/

namespace Sys2Proof.Machine

/-- A byte memory: the cells that hold a value, addresses strictly rising. A byte that is not listed holds no value
(20_memory.md R50, R54). -/
abbrev Memory := List Host.Cell

/-- A bit-reader record (10_state.md R29); `stop` is its field `end`. Addresses are exact numbers
(notes/assumptions/8.md). -/
structure BitReader where
  start : Nat
  stop : Nat
  next : Nat
  bitbuf : Word32
  bitsleft : Nat
  realbits : Nat
  padused : Bool
  valid : Bool
  deriving DecidableEq, Repr

/-- The two codecs; the register field is 0 for A and 1 for B (10_state.md R36). -/
inductive Codec where
  | a
  | b
  deriving DecidableEq, Repr

/-- The context record (10_state.md R36). Sizes and counts are exact numbers (notes/assumptions/9.md). -/
structure Context where
  opened : Bool
  handle : Word64
  lsize : Nat
  codec : Codec
  order : Nat
  nchunks : Nat
  ssize : Nat
  tsize : Nat
  cstart : List Nat
  cacheValid : Bool
  cacheChunk : Nat
  cacheBuf : Memory
  deriving DecidableEq, Repr

/-- The half of an ARG register that the host has written while the register still holds no value
(notes/assumptions/11.md). -/
inductive ArgHalf where
  | low (v : Word32)
  | high (v : Word32)
  deriving DecidableEq, Repr

/-- What the outside does to the block between commands: the host's accesses to the register window (10_state.md R22)
and to LMEM (20_memory.md R50), and the platform's reset (70_reset_and_hazards.md R280). -/
inductive HostEvent where
  /-- A 32-bit write at a window offset; at offset 0 it is a CMD write (R23). -/
  | write32 (off : Nat) (v : Word32)
  /-- A 64-bit write at a window offset. -/
  | write64 (off : Nat) (v : Word64)
  /-- A 32-bit read at a window offset. -/
  | read32 (off : Nat)
  /-- A 64-bit read at a window offset. -/
  | read64 (off : Nat)
  /-- The host stores bytes into LMEM. -/
  | lmemWrite (addr : Nat) (bytes : List Byte)
  /-- The host loads one byte of LMEM. -/
  | lmemRead (addr : Nat)
  /-- The platform resets the block. -/
  | reset
  deriving DecidableEq, Repr

/-- Where the MODEL stops. The block's own faults are not these: they are next states with FAULT = 1
(60_exceptions.md R266). -/
inductive Fault where
  /-- Raised by a host load or store of an LMEM byte at or above 2^ADDR_BITS, which does not exist (20_memory.md R50).
  Safe (notes/assumptions/13.md). -/
  | hostAddressOutsideLmem
  /-- Raised by a host write to an ARG register or to LMEM while BUSY = 1, whose results "the rules do not define"
  (70_reset_and_hazards.md R288); no run reaches such a state. Safe (notes/assumptions/14.md). -/
  | hostWriteWhileBusy
  deriving DecidableEq, Repr

/-- What the model has no meaning for. -/
inductive Refusal where
  /-- Raised by an arm of `exec` whose command has no meaning yet; no arm is of this kind. Safe. -/
  | notModelled (mnemonic : String)
  /-- Raised by a host access to the register window that is no whole register and no half of one, or lies outside the
  window; the spec gives it no effect (10_state.md R22). Safe (notes/assumptions/12.md). -/
  | windowAccessShape
  deriving DecidableEq, Repr

/-- The whole machine (INVENTORY.md, State). -/
structure State where
  /-- The parameters of the step (10_state.md R41); no step changes them. -/
  world : World
  /-- LMEM (20_memory.md R50). -/
  lmem : Memory
  /-- STATUS.CODE (R24). -/
  code : BitVec 8
  /-- STATUS.BUSY (R24). -/
  busy : Bool
  /-- STATUS.FAULT (R24). -/
  fault : Bool
  /-- FAULTINFO.CAUSE (R25). -/
  cause : BitVec 8
  /-- FAULTINFO.OPC (R25). -/
  faultOpc : BitVec 8
  /-- ARG0..ARG5, each with the value it holds, if any (R26). -/
  args : Vector (Option Word64) 6
  /-- MODEL FIELD: a half written to an ARG register that holds no value yet (notes/assumptions/11.md). -/
  argHalf : Vector (Option ArgHalf) 6
  /-- RES0 (R28). -/
  res0 : Word64
  /-- BR0, the exposed bit reader (R29). -/
  br0 : BitReader
  /-- The context (R36). -/
  ctx : Context
  /-- MODEL FIELD: what the host does next (notes/assumptions/2.md). -/
  host : List HostEvent
  /-- MODEL FIELD: what the last host read returned (notes/assumptions/24.md). -/
  hostData : Word64
  /-- MODEL FIELD: StoreRead calls made so far, the index into the I/O oracle (notes/assumptions/16.md). -/
  ioCalls : Nat
  /-- MODEL FIELD: resets so far; each puts new free values in force (notes/assumptions/10.md). -/
  resets : Nat
  deriving DecidableEq, Repr

/-- BR0 after reset (R280). -/
def BitReader.reset : BitReader where
  start := 0
  stop := 0
  next := 0
  bitbuf := 0#32
  bitsleft := 0
  realbits := 0
  padused := false
  valid := false

/-- The context after reset (R280); `handle` and `cstart` hold no value in the spec
(DESIGN CHOICE, notes/assumptions/6.md, 7.md). -/
def Context.reset : Context where
  opened := false
  handle := 0#64
  lsize := 0
  codec := .a
  order := 0
  nchunks := 0
  ssize := 0
  tsize := 0
  cstart := []
  cacheValid := false
  cacheChunk := 0
  cacheBuf := []

/-- The block after reset, for given parameters and stores (R280). -/
def State.resetWith (w : World) : State where
  world := w
  lmem := []
  code := 0#8
  busy := false
  fault := false
  cause := 0#8
  faultOpc := 0#8
  args := Vector.replicate 6 none
  argHalf := Vector.replicate 6 none
  res0 := 0#64
  br0 := BitReader.reset
  ctx := Context.reset
  host := []
  hostData := 0#64
  ioCalls := 0
  resets := 0

/-- The block after reset with the default parameters (R280, 00_scope.md R10). -/
def State.reset : State := State.resetWith World.standard

end Sys2Proof.Machine
end

