-- ==== Sys2Proof/Machine/Ops.lean ====
section
/-!
DEFINITION. The named operations every command is made of: byte memories and their primitives (00_scope.md R14,
20_memory.md R53, R54), the outcome primitives finish, raise, fail and fault (00_scope.md R15), taking a fault
(60_exceptions.md R266), leaving it by reset (R267, 70_reset_and_hazards.md R280), and the collaborator
(20_memory.md R51).
-/

namespace Sys2Proof.Machine

/-! ### Outcome codes -/

/-- The status names (00_scope.md R19). -/
inductive Status where
  | ok
  | malformed
  | truncated
  | reference
  | metadata
  | io
  | illegal
  | state
  | capacity
  deriving DecidableEq, Repr

/-- STATUS.CODE of a status (60_exceptions.md R260). -/
def statusCode : Status → BitVec 8
  | .ok => 0#8
  | .malformed => 1#8
  | .truncated => 2#8
  | .reference => 3#8
  | .metadata => 4#8
  | .io => 5#8
  | .illegal => 6#8
  | .state => 7#8
  | .capacity => 8#8

/-- The fault causes (60_exceptions.md R265). -/
inductive Cause where
  | unwritten
  | memRange
  | brInvalid
  | brUnderflow
  | copyPrecond
  | overlap
  | cmdBusy
  deriving DecidableEq, Repr

/-- FAULTINFO.CAUSE of a cause (60_exceptions.md R265). -/
def causeCode : Cause → BitVec 8
  | .unwritten => 1#8
  | .memRange => 2#8
  | .brInvalid => 3#8
  | .brUnderflow => 4#8
  | .copyPrecond => 5#8
  | .overlap => 6#8
  | .cmdBusy => 7#8

/-- How a command or an internal function ends early (00_scope.md R15): `fail E_x`, or `fault(cause)`. -/
inductive Stop where
  | fail (e : Status)
  | fault (c : Cause)
  deriving DecidableEq, Repr

/-- A computation over `σ` that may stop early; the writes made before it stops stay in the state it leaves
(00_scope.md R15, 20_memory.md R54). -/
abbrev Run (σ α : Type) := EStateM Stop σ α

/-- Turns a memory primitive's fault into a stop. -/
def orFault {σ α : Type} : Except Cause α → Run σ α
  | .ok a => pure a
  | .error c => throw (.fault c)

/-- Runs a computation on one part of a larger state, keeping that part's writes however it ends. -/
def zoom {σ τ α : Type} (part : σ → τ) (put : τ → σ → σ) (f : Run τ α) : Run σ α := fun s =>
  match f (part s) with
  | .ok a t => .ok a (put t s)
  | .error e t => .error e (put t s)

/-- Applies `h` to the state when `f` ends in `fail E_x`, and passes the failure on; a fault passes unchanged. -/
def onFail {σ α : Type} (h : σ → σ) (f : Run σ α) : Run σ α := fun s =>
  match f s with
  | .ok a t => .ok a t
  | .error (.fail e) t => .error (.fail e) (h t)
  | .error (.fault c) t => .error (.fault c) t

/-! ### Byte order (20_memory.md R57) -/

/-- The number whose little-endian bytes are given. -/
def leNat : List Byte → Nat
  | [] => 0
  | b :: bs => b.toNat + 256 * leNat bs

/-- The `n` little-endian bytes of `v mod 2^(8n)` (00_scope.md R14). -/
def leBytes : Nat → Nat → List Byte
  | 0, _ => []
  | n + 1, v => BitVec.ofNat 8 v :: leBytes n (v / 256)

/-! ### Byte memories -/

/-- The canonical form of a memory: addresses strictly rising. A listed byte holds a value and an unlisted one holds
none (20_memory.md R50), so no listed entry equals what an unlisted address reads as. -/
abbrev Memory.wf (m : Memory) : Prop := m.Pairwise (fun c d => c.1 < d.1)

/-- One byte: `none` when it holds no value. -/
def readByte : Memory → Nat → Option Byte
  | [], _ => none
  | c :: cs, a => if c.1 = a then some c.2 else readByte cs a

/-- Writes one byte, keeping the canonical form. -/
def writeByte : Memory → Nat → Byte → Memory
  | [], a, b => [(a, b)]
  | c :: cs, a, b =>
    if a < c.1 then (a, b) :: c :: cs
    else if a = c.1 then (a, b) :: cs
    else c :: writeByte cs a b

/-- Writes bytes upward from an address. -/
def writeCells : Memory → Nat → List Byte → Memory
  | m, _, [] => m
  | m, a, b :: bs => writeCells (writeByte m a b) (a + 1) bs

/-- Reads `n` bytes upward; the first byte without a value faults (20_memory.md R54). -/
def readCells (m : Memory) : Nat → Nat → Except Cause (List Byte)
  | _, 0 => .ok []
  | a, n + 1 =>
    match readByte m a with
    | none => .error .unwritten
    | some b =>
      match readCells m (a + 1) n with
      | .ok bs => .ok (b :: bs)
      | .error c => .error c

/-- A byte memory together with the address above its last byte: LMEM, or one of the memories the host cannot address
(20_memory.md R50, R52). -/
structure Space where
  limit : Nat
  cells : Memory
  deriving DecidableEq, Repr

/-- MemReadBytes (00_scope.md R14, 20_memory.md R53, R54). -/
def memReadBytes (sp : Space) (a n : Nat) : Except Cause (List Byte) :=
  if n = 0 ∨ a + n ≤ sp.limit then readCells sp.cells a n else .error .memRange

/-- MemWriteBytes (00_scope.md R14, 20_memory.md R53). -/
def memWriteBytes (sp : Space) (a : Nat) (bs : List Byte) : Except Cause Space :=
  if bs.length = 0 ∨ a + bs.length ≤ sp.limit then .ok { sp with cells := writeCells sp.cells a bs }
  else .error .memRange

/-- MemRead (00_scope.md R14): little-endian. -/
def memRead (sp : Space) (a n : Nat) : Except Cause Nat :=
  match memReadBytes sp a n with
  | .ok bs => .ok (leNat bs)
  | .error c => .error c

/-- MemReadBytes on the memory being worked on. -/
def loadBytes (a n : Nat) : Run Space (List Byte) := fun sp =>
  match memReadBytes sp a n with
  | .ok bs => .ok bs sp
  | .error c => .error (.fault c) sp

/-- MemWriteBytes on the memory being worked on. -/
def storeBytes (a : Nat) (bs : List Byte) : Run Space Unit := fun sp =>
  match memWriteBytes sp a bs with
  | .ok sp' => .ok () sp'
  | .error c => .error (.fault c) sp

/-! ### Updates of the state -/

/-- BR0 becomes `r`. -/
def State.setBr0 (s : State) (r : BitReader) : State := { s with br0 := r }

/-- The context becomes `c`. -/
def State.setCtx (s : State) (c : Context) : State := { s with ctx := c }

/-- LMEM becomes `m`. -/
def State.setLmem (s : State) (m : Memory) : State := { s with lmem := m }

/-- RES0 becomes `v`. -/
def State.setRes0 (s : State) (v : Word64) : State := { s with res0 := v }

/-- One StoreRead call has been made. -/
def State.countIo (s : State) : State := { s with ioCalls := s.ioCalls + 1 }

/-- A CMD write that is accepted sets BUSY (10_state.md R21, R23). -/
def State.accept (s : State) : State := { s with busy := true }

/-- `finish(code)` (00_scope.md R15): CODE is written and BUSY cleared. -/
def State.finish (s : State) (e : Status) : State := { s with code := statusCode e, busy := false }

/-- Fault entry, the block's one exception (60_exceptions.md R266): FAULT, CAUSE and OPC are set and BUSY cleared;
CODE, RES0 and every earlier write stay. -/
def State.takeFault (s : State) (c : Cause) (opc : BitVec 8) : State :=
  { s with fault := true, cause := causeCode c, faultOpc := opc, busy := false }

/-- Reset, the only way out of a fault (60_exceptions.md R267, 70_reset_and_hazards.md R280). The world, the host's
pending actions and the model's own counters are not the block's and stay (notes/assumptions/15.md). -/
def State.resetBlock (s : State) : State :=
  { State.resetWith s.world with
    host := s.host
    hostData := s.hostData
    ioCalls := s.ioCalls
    resets := s.resets + 1 }

/-! ### Running a command -/

/-- A command's body, from an accepted command word to its one outcome (60_exceptions.md R268): finish(OK), a raised
status (R261), or fault entry (R266). Each is a next state. -/
def runCommand (i : Instr) (body : Run State Unit) (s : State) : Host.Outcome State Fault Refusal :=
  match body s with
  | .ok _ t => .next (t.finish .ok)
  | .error (.fail e) t => .next (t.finish e)
  | .error (.fault c) t => .next (t.takeFault c (opcodeOf i))

/-- LMEM as a memory of 2^ADDR_BITS bytes (20_memory.md R50). -/
def lmemSpace (s : State) : Space := { limit := 2 ^ s.world.params.addrBits, cells := s.lmem }

/-- Works on LMEM. -/
def onLmem {α : Type} (f : Run Space α) : Run State α := zoom lmemSpace (fun sp s => s.setLmem sp.cells) f

/-- Works on BR0 with LMEM as its input memory (10_state.md R30). -/
def onBr0 {α : Type} (f : Space → Run BitReader α) : Run State α := fun s =>
  zoom State.br0 (fun r t => t.setBr0 r) (f (lmemSpace s)) s

/-- RES0 <- zext_64(v) (30_encoding.md R84). -/
def setResult (v : Nat) : Run State Unit := modify fun s => s.setRes0 (BitVec.ofNat 64 v)

/-! ### The collaborator (20_memory.md R51) -/

/-- The bytes of a handle's backing store; a handle that is not listed has an empty one (notes/assumptions/16.md). -/
def storeBytesOf (w : World) (h : Word64) : List Byte := (w.stores.lookup h).getD []

/-- StoreLen(h), which never fails. -/
def storeLen (w : World) (h : Word64) : Nat := (storeBytesOf w h).length

/-- Whether the I/O oracle fails StoreRead call number `k`. -/
def ioFails (w : World) (k : Nat) : Bool := w.ioPlan.getD k false

/-- StoreRead(h, off, n): `none` is IOERR. -/
def storeRead (h : Word64) (off n : Nat) : Run State (Option (List Byte)) := fun s =>
  .ok
    (if off + n ≤ storeLen s.world h ∧ ioFails s.world s.ioCalls = false
      then some (((storeBytesOf s.world h).drop off).take n) else none)
    s.countIo

end Sys2Proof.Machine
end

