-- ==== Sys2Proof/Machine/Flags.lean ====
section
/-!
DEFINITION. The block's flags (10_state.md R38) and the register words that show them (R24, R25, R29, R37).
-/

namespace Sys2Proof.Machine

/-- padused after consuming `n` bits: set, and then sticky, when one of them is a pad bit (40_bit_reader.md R104). -/
def padusedAfter (r : BitReader) (n : Nat) : Bool := r.padused || r.realbits < n

/-- A flag as one register bit. -/
def flagBit (b : Bool) : BitVec 1 := BitVec.ofBool b

/-- STATUS (10_state.md R24): bits 31..10 reserved, FAULT, BUSY, CODE. -/
def statusWord (s : State) : Word32 := 0#22 ++ (flagBit s.fault ++ (flagBit s.busy ++ s.code))

/-- FAULTINFO (10_state.md R25): bits 31..16 reserved, OPC, CAUSE. -/
def faultInfoWord (s : State) : Word32 := 0#16 ++ (s.faultOpc ++ s.cause)

/-- VERSION (10_state.md R27). -/
def versionWord : Word32 := 7#32

/-- BR_FLAGS (10_state.md R29): bit 0 valid, bit 1 padused. -/
def brFlagsWord (r : BitReader) : Word32 := 0#30 ++ (flagBit r.padused ++ flagBit r.valid)

/-- BR_BITSLEFT (10_state.md R29): bits 5..0. -/
def brBitsleftWord (r : BitReader) : Word32 := 0#26 ++ BitVec.ofNat 6 r.bitsleft

/-- The codec bit: 0 is codec A, 1 is codec B (10_state.md R36). -/
def codecBit : Codec → BitVec 1
  | .a => 0#1
  | .b => 1#1

/-- CTX_FLAGS (10_state.md R37): bit 0 open, bit 1 cache_valid, bit 2 codec, bits 7..3 order. -/
def ctxFlagsWord (c : Context) : Word32 :=
  0#24 ++ (BitVec.ofNat 5 c.order ++ (codecBit c.codec ++ (flagBit c.cacheValid ++ flagBit c.opened)))

end Sys2Proof.Machine
end

