-- ==== Sys2Proof/Machine/Operands.lean ====
section
/-!
DEFINITION. Where a command's operands come from and how they are checked: the bit count (30_encoding.md R72), the ARG
registers (R74, 10_state.md R26), buffer ranges (20_memory.md R53) and overlaps (R56).
-/

namespace Sys2Proof.Machine

/-- The operand n of a bit command; above 16 it is illegal (30_encoding.md R72, R75(c)). A decoded command never is
(notes/assumptions/22.md). -/
def bitCount (n : BitVec 5) : Run State Nat :=
  if bitCountLegal n then pure n.toNat else throw (.fail .illegal)

/-- ARG[i] as an unsigned number; an ARG register without a value faults (10_state.md R26, 30_encoding.md R72). -/
def readArg (i : Fin 6) : Run State Nat := fun s =>
  match s.args.get i with
  | some v => .ok v.toNat s
  | none => .error (.fault .unwritten) s

/-- ARG[i] as a 64-bit word, for the handle, which is opaque (45_context.md R232). -/
def readArgWord (i : Fin 6) : Run State Word64 := fun s =>
  match s.args.get i with
  | some v => .ok v s
  | none => .error (.fault .unwritten) s

/-- The check "a + n > 2^ADDR_BITS: fault(F_MEM_RANGE)" of a command rule, n = 0 included
(notes/assumptions/21.md). -/
def requireLmem (a n : Nat) : Run State Unit := fun s =>
  if a + n ≤ 2 ^ s.world.params.addrBits then .ok () s else .error (.fault .memRange) s

/-- Whether [a, a+n) and [b, b+m) share an address (20_memory.md R56). -/
def rangesOverlap (a n b m : Nat) : Bool := 0 < n && 0 < m && a < b + m && b < a + n

/-- The check "ranges overlap: fault(F_OVERLAP)" of a command rule (20_memory.md R56). -/
def requireDisjoint (a n b m : Nat) : Run State Unit := fun s =>
  if rangesOverlap a n b m then .error (.fault .overlap) s else .ok () s

/-- The check "operand out of range: raise E_x" of a command rule (60_exceptions.md R268, item 6). -/
def requireOperand (ok : Bool) (e : Status) : Run State Unit := fun s =>
  if ok then .ok () s else .error (.fail e) s

end Sys2Proof.Machine
end

