-- ==== Sys2Proof/Machine/BitReader.lean ====
section
/-!
DEFINITION. The Bit Reader (40_bit_reader.md): its internal functions over any reader record and any input memory, and
the ten commands that apply them to BR0 over LMEM.
-/

namespace Sys2Proof.Machine

/-! ### Internal functions -/

/-- Init(r, start, size) (R101). -/
def initReader (start size : Nat) : BitReader where
  start := start
  stop := start + size
  next := start
  bitbuf := 0#32
  bitsleft := 0
  realbits := 0
  padused := false
  valid := true

/-- The accumulator padded with zero bits (R102). -/
def padReader (r : BitReader) : BitReader := { r with bitsleft := 32 }

/-- The accumulator with the unit `u` loaded below its valid bits (R102, 20_memory.md R59). -/
def refillReader (r : BitReader) (u : Nat) : BitReader :=
  { r with
    bitbuf := r.bitbuf ||| (BitVec.ofNat 32 u <<< (16 - r.bitsleft))
    next := r.next + 2
    bitsleft := r.bitsleft + 16
    realbits := r.realbits + 16 }

/-- Ensure(r, n) (R102). -/
def ensure (inp : Space) (n : Nat) : Run BitReader Unit := do
  let r ← get
  if n ≤ r.bitsleft then pure ()
  else if r.stop < r.next + 2 then set (padReader r)
  else do
    let u ← orFault (memRead inp r.next 2)
    set (refillReader r u)

/-- Peek(r, n) (R103). -/
def peek (n : Nat) : Run BitReader Nat := do
  let r ← get
  if r.bitsleft < n then throw (.fault .brUnderflow)
  else if n = 0 then pure 0
  else pure (r.bitbuf >>> (32 - n)).toNat

/-- The reader after `n` bits are discarded (R104). -/
def dropBits (r : BitReader) (n : Nat) : BitReader :=
  { r with
    padused := padusedAfter r n
    realbits := r.realbits - n
    bitbuf := r.bitbuf <<< n
    bitsleft := r.bitsleft - n }

/-- Pop(r, n) (R104). -/
def pop (n : Nat) : Run BitReader Nat := do
  let v ← peek n
  modify fun r => dropBits r n
  pure v

/-- ReadBits(r, n) (R105). -/
def readBits (inp : Space) (n : Nat) : Run BitReader Nat := do
  ensure inp n
  pop n

/-- The byte cursor moves on by `k`. -/
def advance (k : Nat) (r : BitReader) : BitReader := { r with next := r.next + k }

/-- ReadLit(r, k) (R106). -/
def readLit (inp : Space) (k : Nat) : Run BitReader Nat := do
  let r ← get
  if r.stop < r.next + k then pure 0
  else do
    let v ← orFault (memRead inp r.next k)
    modify (advance k)
    pure v

/-- The reading half of ReadBytes(r, dst, count) (R107); the caller stores the bytes, into a range it has already
checked. -/
def readBytes (inp : Space) (count : Nat) : Run BitReader (List Byte) := do
  let r ← get
  if r.stop < r.next + count then throw (.fail .truncated)
  else do
    let bs ← orFault (memReadBytes inp r.next count)
    modify (advance count)
    pure bs

/-- Align(r) (R117). -/
def alignReader (r : BitReader) : BitReader := { r with bitbuf := 0#32, bitsleft := 0, realbits := 0 }

/-- The common prologue of every command that uses BR0 (R118). -/
def prologue : Run State Unit := do
  let s ← get
  if s.br0.valid then pure () else throw (.fault .brInvalid)

/-! ### Commands -/

/-- BR_INIT (R100). -/
def execBrInit (s : State) : Host.Outcome State Fault Refusal :=
  runCommand .brInit (do
    let start ← readArg 0
    let size ← readArg 1
    requireLmem start size
    modify fun t => t.setBr0 (initReader start size)) s

/-- BR_ENSURE n (R108). -/
def execBrEnsure (n : BitVec 5) (s : State) : Host.Outcome State Fault Refusal :=
  runCommand (.brEnsure n) (do
    let k ← bitCount n
    prologue
    onBr0 fun inp => ensure inp k) s

/-- BR_PEEK n (R109). -/
def execBrPeek (n : BitVec 5) (s : State) : Host.Outcome State Fault Refusal :=
  runCommand (.brPeek n) (do
    let k ← bitCount n
    prologue
    let v ← onBr0 fun _ => peek k
    setResult v) s

/-- BR_POP n (R110). -/
def execBrPop (n : BitVec 5) (s : State) : Host.Outcome State Fault Refusal :=
  runCommand (.brPop n) (do
    let k ← bitCount n
    prologue
    let _ ← onBr0 fun _ => pop k) s

/-- BR_READ n (R111). -/
def execBrRead (n : BitVec 5) (s : State) : Host.Outcome State Fault Refusal :=
  runCommand (.brRead n) (do
    let k ← bitCount n
    prologue
    let v ← onBr0 fun inp => readBits inp k
    setResult v) s

/-- A literal read of `k` bytes through BR0 into RES0 (R112-R114). -/
def literalCommand (k : Nat) : Run State Unit := do
  prologue
  let v ← onBr0 fun inp => readLit inp k
  setResult v

/-- BR_READ_BYTE (R112). -/
def execBrReadByte (s : State) : Host.Outcome State Fault Refusal := runCommand .brReadByte (literalCommand 1) s

/-- BR_READ_U16 (R113). -/
def execBrReadU16 (s : State) : Host.Outcome State Fault Refusal := runCommand .brReadU16 (literalCommand 2) s

/-- BR_READ_U32 (R114). -/
def execBrReadU32 (s : State) : Host.Outcome State Fault Refusal := runCommand .brReadU32 (literalCommand 4) s

/-- BR_READ_BYTES (R115). -/
def execBrReadBytes (s : State) : Host.Outcome State Fault Refusal :=
  runCommand .brReadBytes (do
    prologue
    let dst ← readArg 0
    let count ← readArg 1
    requireLmem dst count
    let t ← get
    requireDisjoint dst count t.br0.start (t.br0.stop - t.br0.start)
    let bs ← onBr0 fun inp => readBytes inp count
    onLmem (storeBytes dst bs)) s

/-- BR_ALIGN (R116). -/
def execBrAlign (s : State) : Host.Outcome State Fault Refusal :=
  runCommand .brAlign (do
    prologue
    modify fun t => t.setBr0 (alignReader t.br0)) s

end Sys2Proof.Machine
end

