-- ==== Sys2Proof/Machine/Huffman.lean ====
section
/-!
DEFINITION. The Huffman table builder and symbol decoder (41_huffman.md): BuildTable and DecodeSym over any code lengths,
reader and table, and the commands HT_BUILD and HT_DECODE. Table entries: 30_encoding.md R80.
-/

namespace Sys2Proof.Machine

/-! ### Table entries (30_encoding.md R80) -/

/-- A fast record: length in bits 15..11, symbol in bits 10..0. -/
def fastRecord (len sym : Nat) : Entry := (BitVec.ofNat 16 len <<< 11) ||| BitVec.ofNat 16 sym

/-- A node record with children at `c` and `c + 1`. -/
def nodeRecord (c : Nat) : Entry := 0xC000#16 ||| BitVec.ofNat 16 c

/-- A leaf record. -/
def leafRecord (sym : Nat) : Entry := BitVec.ofNat 16 sym

/-- Whether an entry is a node record: bits 15..14 are both 1. -/
def isNode (e : Entry) : Bool := 0xC000#16 ≤ e

/-- The codeword length of a fast record, e[15:11]. -/
def fastLength (e : Entry) : Nat := (e >>> 11).toNat

/-- The symbol of a fast record, e[10:0]. -/
def fastSymbol (e : Entry) : Nat := (e &&& 0x07FF#16).toNat

/-- The first child index of a node record, e[13:0]. -/
def childIndex (e : Entry) : Nat := (e &&& 0x3FFF#16).toNat

/-! ### Limits (R131) -/

/-- TSIZE(tb, max_len, num_syms). -/
def tableSize (tb maxLen numSyms : Nat) : Nat := 2 ^ tb + 2 * numSyms * (maxLen - tb)

/-- The operand limits of R131: MAX_SYMS 2048, MAX_TABLE_BITS 12, MAX_CODEWORD_LEN 16, TSIZE at most 16384. -/
def tableLimits (numSyms tb maxLen : Nat) : Bool :=
  1 ≤ numSyms && numSyms ≤ 2048 && 1 ≤ tb && tb ≤ 12 && tb ≤ maxLen && maxLen ≤ 16 &&
    tableSize tb maxLen numSyms ≤ 16384

/-! ### BuildTable (R132) -/

/-- The symbols of codeword length `len`, in ascending order (R130, R136). -/
def symbolsOfLength (lens : List Nat) (len : Nat) : List Nat :=
  lens.zipIdx.filterMap fun p => if p.1 = len then some p.2 else none

/-- The Kraft check up to length `len` (R134): what is left of the code space, `none` when over-subscribed. -/
def kraftLeft (lens : List Nat) : Nat → Option Nat
  | 0 => some 1
  | len + 1 =>
    match kraftLeft lens len with
    | none => none
    | some left => if 2 * left < lens.count (len + 1) then none else some (2 * left - lens.count (len + 1))

/-- The direct slots of all symbols of one length (R136). -/
def directSlots (lens : List Nat) (tb len : Nat) : List Entry :=
  (symbolsOfLength lens len).flatMap fun sym => List.replicate (2 ^ (tb - len)) (fastRecord len sym)

/-- The direct slots of the lengths 1..len, in order (R136). -/
def directPart (lens : List Nat) (tb : Nat) : Nat → List Entry
  | 0 => []
  | len + 1 => directPart lens tb len ++ directSlots lens tb (len + 1)

/-- The walk from a direct slot to a codeword's leaf, `x` bits deep, allocating the nodes it lacks at the end of the
table (R137): the table and the leaf's index. -/
def trieDescend (code : Nat) : Nat → List Entry → Nat → List Entry × Nat
  | 0, table, node => (table, node)
  | x + 1, table, node =>
    if table.getD node 0#16 = 0#16 then
      trieDescend code x (table.set node (nodeRecord table.length) ++ [0#16, 0#16])
        (childIndex (nodeRecord table.length) + (code >>> x) % 2)
    else trieDescend code x table (childIndex (table.getD node 0#16) + (code >>> x) % 2)

/-- One codeword of length `len` above the direct width entered into the trie (R137). -/
def trieInsert (tb len : Nat) (table : List Entry) (code sym : Nat) : List Entry :=
  let walked := trieDescend code (len - tb) table (code >>> (len - tb))
  walked.1.set walked.2 (leafRecord sym)

/-- The symbols of one length entered in order, the codeword counting up (R137). -/
def trieSymbols (tb len : Nat) : List Nat → List Entry → Nat → List Entry × Nat
  | [], table, code => (table, code)
  | sym :: rest, table, code => trieSymbols tb len rest (trieInsert tb len table code sym) (code + 1)

/-- The lengths tb+1 .. tb+k in order, the codeword doubling after each (R137). -/
def trieLengths (lens : List Nat) (tb : Nat) : Nat → List Entry → Nat → List Entry × Nat
  | 0, table, code => (table, code)
  | k + 1, table, code =>
    let before := trieLengths lens tb k table code
    let after := trieSymbols tb (tb + k + 1) (symbolsOfLength lens (tb + k + 1)) before.1 before.2
    (after.1, after.2 * 2)

/-- The direct region: the direct slots and the 0x0000 filler above them (R136). -/
def directRegion (lens : List Nat) (tb : Nat) : List Entry :=
  let slots := directPart lens tb tb
  slots ++ List.replicate (2 ^ tb - slots.length) 0#16

/-- BuildTable(L, num_syms, tb, max_len), num_syms being the number of lengths: the entries 0..free-1, or `none` for
E_MALFORMED (R132-R137). -/
def buildTable (rejectIncomplete : Bool) (lens : List Nat) (tb maxLen : Nat) : Option (List Entry) :=
  if lens.any (fun l => maxLen < l) then none
  else
    match kraftLeft lens maxLen with
    | none => none
    | some left =>
      if left = 2 ^ maxLen then some (List.replicate (2 ^ tb) 0#16)
      else if rejectIncomplete && 0 < left then none
      else some (trieLengths lens tb (maxLen - tb) (directRegion lens tb) ((directPart lens tb tb).length * 2)).1

/-- BuildTable inside a unit: a failed build fails E_MALFORMED (R132). -/
def buildOrFail {σ : Type} (rejectIncomplete : Bool) (lens : List Nat) (tb maxLen : Nat) : Run σ (List Entry) :=
  match buildTable rejectIncomplete lens tb maxLen with
  | some table => pure table
  | none => throw (.fail .malformed)

/-! ### DecodeSym (R141) -/

/-- The trie walk: one bit a step, until an entry that is no node. The bound is never reached: each step pops a bit,
and a pop of an empty accumulator faults the same way (notes/assumptions/19.md). -/
def walkTrie (entry : Nat → Except Cause Entry) : Nat → Entry → Run BitReader Nat
  | 0, _ => throw (.fault .brUnderflow)
  | fuel + 1, e => do
    let b ← pop 1
    let e' ← orFault (entry (childIndex e + b))
    if isNode e' then walkTrie entry fuel e' else pure e'.toNat

/-- DecodeSym(r, T, tb, max_len), with T given by its entries. -/
def decodeSym (inp : Space) (entry : Nat → Except Cause Entry) (tb maxLen : Nat) : Run BitReader Nat := do
  ensure inp maxLen
  let i ← peek tb
  let e ← orFault (entry i)
  if isNode e then do
    let _ ← pop tb
    let r ← get
    walkTrie entry (r.bitsleft + 1) e
  else do
    let _ ← pop (fastLength e)
    pure (fastSymbol e)

/-- Entry i of a table in LMEM at `t` (20_memory.md R58). -/
def lmemEntry (sp : Space) (t i : Nat) : Except Cause Entry :=
  match memRead sp (t + 2 * i) 2 with
  | .ok v => .ok (BitVec.ofNat 16 v)
  | .error c => .error c

/-- Entry i of a table a codec built; a decode never passes its end (R141, notes/assumptions/23.md). -/
def listEntry (table : List Entry) (i : Nat) : Except Cause Entry := .ok (table.getD i 0#16)

/-! ### Commands -/

/-- HT_BUILD (R140). -/
def execHtBuild (s : State) : Host.Outcome State Fault Refusal :=
  runCommand .htBuild (do
    let lens ← readArg 0
    let n ← readArg 1
    let tb ← readArg 2
    let maxLen ← readArg 3
    let table ← readArg 4
    requireOperand (tableLimits n tb maxLen) .illegal
    requireLmem lens n
    requireLmem table (2 * tableSize tb maxLen n)
    requireDisjoint lens n table (2 * tableSize tb maxLen n)
    let bytes ← onLmem (loadBytes lens n)
    let t ← get
    let entries ← buildOrFail t.world.params.rejectIncomplete (bytes.map BitVec.toNat) tb maxLen
    onLmem (storeBytes table (entries.flatMap fun e => leBytes 2 e.toNat))) s

/-- HT_DECODE (R146). -/
def execHtDecode (s : State) : Host.Outcome State Fault Refusal :=
  runCommand .htDecode (do
    prologue
    let table ← readArg 0
    let tb ← readArg 1
    let maxLen ← readArg 2
    requireOperand (1 ≤ tb && tb ≤ 12 && tb ≤ maxLen && maxLen ≤ 16) .illegal
    let sym ← onBr0 fun inp => decodeSym inp (lmemEntry inp table) tb maxLen
    setResult sym) s

end Sys2Proof.Machine
end

