-- ==== Sys2Proof/Machine/MatchCopier.lean ====
section
/-!
DEFINITION. The Match Copier (42_match_copier.md): CopyMatch over any byte memory, and the command MC_COPY.
-/

namespace Sys2Proof.Machine

/-- The byte-by-byte loop of CopyMatch (R160): `count` bytes still to copy, the next to `cursor`. -/
def copyLoop (distance : Nat) : Nat → Nat → Run Space Unit
  | 0, _ => pure ()
  | count + 1, cursor => do
    let bs ← loadBytes (cursor - distance) 1
    storeBytes cursor bs
    copyLoop distance count (cursor + 1)

/-- The preconditions of CopyMatch (R160, R162). -/
def copyAllowed (outBegin cursor length distance bufend : Nat) : Bool :=
  outBegin ≤ cursor && 1 ≤ length && 1 ≤ distance && distance ≤ cursor - outBegin && cursor + length ≤ bufend

/-- CopyMatch(M, out_begin, cursor, length, distance, bufend) (R160, R161): the new cursor. -/
def copyMatch (outBegin cursor length distance bufend : Nat) : Run Space Nat :=
  if copyAllowed outBegin cursor length distance bufend then do
    copyLoop distance length cursor
    pure (cursor + length)
  else throw (.fault .copyPrecond)

/-- MC_COPY (R162). The operand min_length is read and has no effect (R161). -/
def execMcCopy (s : State) : Host.Outcome State Fault Refusal :=
  runCommand .mcCopy (do
    let outBegin ← readArg 0
    let cursor ← readArg 1
    let length ← readArg 2
    let distance ← readArg 3
    let bufend ← readArg 4
    let _ ← readArg 5
    requireLmem bufend 0
    let moved ← onLmem (copyMatch outBegin cursor length distance bufend)
    setResult moved) s

end Sys2Proof.Machine
end

