-- ==== Sys2Proof/Machine/CodecA.lean ====
section
/-!
DEFINITION. What both codecs share (a chunk to decode, and a session over it), and the Codec A Decompressor
(43_codec_a.md) with its command CA_DECOMPRESS.
-/

namespace Sys2Proof.Machine

/-! ### What both codecs share -/

/-- One chunk to decode (43_codec_a.md R176): the memory IN and where the chunk stands in it, where its output goes in
OUT, and the parameters. IN is not written while the chunk is decoded (notes/assumptions/18.md). -/
structure Job where
  inp : Space
  inBase : Nat
  inSize : Nat
  outBase : Nat
  outSize : Nat
  params : Params
  deriving DecidableEq, Repr

/-- A codec's session state (10_state.md R34, R35): its own bit reader, the memory OUT and the output position. -/
structure Sess where
  reader : BitReader
  out : Space
  pos : Nat
  deriving DecidableEq, Repr

/-- Works on the session's bit reader. -/
def onReader {α : Type} (f : Run BitReader α) : Run Sess α := zoom Sess.reader (fun r s => { s with reader := r }) f

/-- Works on the output memory. -/
def onOut {α : Type} (f : Run Space α) : Run Sess α := zoom Sess.out (fun sp s => { s with out := sp }) f

/-- The output position moves to `p`. -/
def moveTo (p : Nat) : Run Sess Unit := modify fun s => { s with pos := p }

/-- `OUT[out + pos] <- sym ; pos <- pos + 1` (43_codec_a.md R176, 44_codec_b.md R204). -/
def emitLiteral (job : Job) (sym : Nat) : Run Sess Unit := do
  let s ← get
  onOut (storeBytes (job.outBase + s.pos) [BitVec.ofNat 8 sym])
  moveTo (s.pos + 1)

/-- `pos <- CopyMatch(OUT, out, out + pos, length, dist, out + stop) - out` (43_codec_a.md R176, 44_codec_b.md R204). -/
def emitMatch (job : Job) (length dist stop : Nat) : Run Sess Unit := do
  let s ← get
  let cursor ← onOut (copyMatch job.outBase (job.outBase + s.pos) length dist (job.outBase + stop))
  moveTo (cursor - job.outBase)

/-- The EXHAUSTION_POLICY check at the end of a chunk (43_codec_a.md R179, 44_codec_b.md R209). -/
def exhaustionCheck (job : Job) : Run Sess Unit := do
  let s ← get
  if job.params.exhaustion = .failOnPadding ∧ s.reader.padused = true then throw (.fail .truncated) else pure ()

/-- Runs a session from its reader and position 0 over the memory OUT, whose writes stay however it ends. -/
def runSession (reader : BitReader) (f : Run Sess Unit) : Run Space Unit := fun out =>
  match f { reader := reader, out := out, pos := 0 } with
  | .ok _ s => .ok () s.out
  | .error e s => .error e s.out

/-! ### Codec A -/

/-- The 512 code lengths of a chunk header: the low nibble belongs to the even symbol (R173). -/
def headerLengths (header : List Byte) : List Nat :=
  header.flatMap fun h => [(h &&& 0x0F#8).toNat, (h >>> 4).toNat]

/-- MatchFields(r, sym) (R175, R177): length and distance. -/
def matchFields (inp : Space) (sym : Nat) : Run BitReader (Nat × Nat) := do
  ensure inp 16
  let raw ← pop (sym / 16 % 16)
  let dist := (1 <<< (sym / 16 % 16)) ||| raw
  if sym % 16 = 15 then do
    let ext ← readLit inp 1
    if 15 + ext = 15 + 255 then do
      let long ← readLit inp 2
      pure (long + 3, dist)
    else pure (15 + ext + 3, dist)
  else pure (sym % 16 + 3, dist)

/-- One pass of the loop of CaDecode (R176): a literal, or a match checked as R178 says. -/
def caItem (job : Job) (table : List Entry) : Run Sess Unit := do
  let sym ← onReader (decodeSym job.inp (listEntry table) 11 15)
  if sym < 256 then emitLiteral job sym
  else do
    let (length, dist) ← onReader (matchFields job.inp sym)
    let s ← get
    if s.pos < dist then throw (.fail .reference)
    else if job.outSize < s.pos + length then throw (.fail .reference)
    else emitMatch job length dist job.outSize

/-- The loop of CaDecode, at most out_size passes (R176, notes/assumptions/19.md). -/
def caLoop (job : Job) (table : List Entry) : Nat → Run Sess Unit
  | 0 => pure ()
  | fuel + 1 => do
    let s ← get
    if s.pos = job.outSize then pure ()
    else do
      caItem job table
      caLoop job table fuel

/-- CaDecode(IN, in, in_size, OUT, out, out_size) (R172-R176, R179), over OUT. -/
def caDecode (job : Job) : Run Space Unit :=
  if job.inSize < 256 then throw (.fail .truncated)
  else runSession (initReader (job.inBase + 256) (job.inSize - 256)) (do
    let header ← orFault (memReadBytes job.inp job.inBase 256)
    let table ← buildOrFail job.params.rejectIncomplete (headerLengths header) 11 15
    caLoop job table job.outSize
    exhaustionCheck job)

/-- CA_MAX_OUT (00_scope.md R10). -/
def caMaxOut : Nat := 65536

/-- The chunk a codec command names: input and output both in LMEM (R171, 44_codec_b.md R193). -/
def lmemJob (s : State) (inBase inSize outBase outSize : Nat) : Job where
  inp := lmemSpace s
  inBase := inBase
  inSize := inSize
  outBase := outBase
  outSize := outSize
  params := s.world.params

/-- CA_DECOMPRESS (R171). -/
def execCaDecompress (s : State) : Host.Outcome State Fault Refusal :=
  runCommand .caDecompress (do
    let inBase ← readArg 0
    let inSize ← readArg 1
    let outBase ← readArg 2
    let outSize ← readArg 3
    requireOperand (outSize ≤ caMaxOut) .illegal
    requireLmem inBase inSize
    requireLmem outBase outSize
    requireDisjoint inBase inSize outBase outSize
    let t ← get
    onLmem (caDecode (lmemJob t inBase inSize outBase outSize))) s

end Sys2Proof.Machine
end

