-- ==== Sys2Proof/Machine/CodecB.lean ====
section
/-!
DEFINITION. The Codec B Decompressor (44_codec_b.md) with its command CB_DECOMPRESS.
-/

namespace Sys2Proof.Machine

/-! ### Constants (R191, R211) -/

/-- NSLOTS(w): offset slots of window order 15, 16 and 17. -/
def numSlots (w : Nat) : Nat := if w = 15 then 30 else if w = 16 then 32 else 34

/-- NMAIN = 256 + 8 * NSLOTS. -/
def numMain (w : Nat) : Nat := 256 + 8 * numSlots w

/-- NLEN. -/
def numLen : Nat := 249

/-- EXTRA[slot] (R205, R211). -/
def slotExtra (slot : Nat) : Nat := if slot < 4 then 0 else min ((slot - 2) / 2) 17

/-- BASE[slot] (R205, R211). -/
def slotBase : Nat → Nat
  | 0 => 0
  | slot + 1 => slotBase slot + 2 ^ slotExtra slot

/-! ### The session (10_state.md R35) -/

/-- The recent-offset registers R0, R1, R2. -/
structure Recent where
  r0 : Nat
  r1 : Nat
  r2 : Nat
  deriving DecidableEq, Repr

/-- A codec B session: the shared part, the recent offsets, and the code lengths kept across its blocks. -/
structure CbSess where
  base : Sess
  recent : Recent
  mainLens : List Nat
  lenLens : List Nat
  deriving DecidableEq, Repr

/-- The decode tables of one block (R191). -/
structure CbTables where
  main : List Entry
  len : List Entry
  aligned : List Entry
  deriving DecidableEq, Repr

/-- Works on the session's shared part. -/
def onBase {α : Type} (f : Run Sess α) : Run CbSess α := zoom CbSess.base (fun b s => { s with base := b }) f

/-- Works on the session's bit reader. -/
def onCbReader {α : Type} (f : Run BitReader α) : Run CbSess α := onBase (onReader f)

/-- The session at its start, over the memory OUT (R192). -/
def sessionStart (job : Job) (w : Nat) (out : Space) : CbSess where
  base := { reader := initReader job.inBase job.inSize, out := out, pos := 0 }
  recent := { r0 := 1, r1 := 1, r2 := 1 }
  mainLens := List.replicate (numMain w) 0
  lenLens := List.replicate numLen 0

/-! ### Block header (R195, R196) -/

/-- BlockHeader(r, w): block type and block size (R195). -/
def blockHeader (inp : Space) (w : Nat) : Run BitReader (Nat × Nat) := do
  let btype ← readBits inp 3
  let std ← readBits inp 1
  if std = 1 then pure (btype, 32768)
  else do
    let size ← readBits inp 16
    if 16 ≤ w then do
      let low ← readBits inp 8
      pure (btype, (size <<< 8) ||| low)
    else pure (btype, size)

/-- The header checks (R196). -/
def headerLegal (btype bsize pos outSize : Nat) : Bool :=
  (btype = 1 || btype = 2 || btype = 3) && bsize ≠ 0 && pos + bsize ≤ outSize

/-! ### Code lengths (R198, R200-R203) -/

/-- `n` values of `k` bits each (R198, R200). -/
def readFields (inp : Space) (k : Nat) : Nat → Run BitReader (List Nat)
  | 0 => pure []
  | n + 1 => do
    let v ← readBits inp k
    let rest ← readFields inp k n
    pure (v :: rest)

/-- The length that the delta `p` gives at index `i`: (A[i] - p) mod 17 (R201, R202). -/
def deltaLength (lens : List Nat) (i p : Nat) : Nat := (lens.getD i 0 + 17 - p) % 17

/-- Put(A, i, v, limit), `run` times from index `i` on; an index at or above `limit` discards (R200, R202, R203). -/
def putRun (limit v : Nat) : Nat → List Nat → Nat → List Nat
  | 0, lens, _ => lens
  | run + 1, lens, i => putRun limit v run (if i < limit then lens.set i v else lens) (i + 1)

/-- The run presymbols 17, 18 and 19: how many lengths, and which (R202). -/
def runLength (inp : Space) (pre : List Entry) (lens : List Nat) (i p : Nat) : Run BitReader (Nat × Nat) := do
  if p = 17 then do
    let x ← readBits inp 4
    pure (4 + x, 0)
  else if p = 18 then do
    let x ← readBits inp 5
    pure (20 + x, 0)
  else do
    let x ← readBits inp 1
    let q ← decodeSym inp (listEntry pre) 6 15
    if 17 < q then throw (.fail .malformed) else pure (4 + x, deltaLength lens i q)

/-- The loop of ReadLens up to index `stop`, at most one pass for each length (R200-R202, notes/assumptions/19.md). -/
def lensLoop (inp : Space) (pre : List Entry) (stop limit : Nat) : Nat → List Nat → Nat → Run BitReader (List Nat)
  | 0, lens, _ => pure lens
  | fuel + 1, lens, i =>
    if stop ≤ i then pure lens
    else do
      let p ← decodeSym inp (listEntry pre) 6 15
      if p < 17 then lensLoop inp pre stop limit fuel (putRun limit (deltaLength lens i p) 1 lens i) (i + 1)
      else do
        let (run, v) ← runLength inp pre lens i p
        lensLoop inp pre stop limit fuel (putRun limit v run lens i) (i + run)

/-- ReadLens(r, A, start, num, limit): the new contents of A (R200). -/
def readLens (inp : Space) (reject : Bool) (lens : List Nat) (start num limit : Nat) : Run BitReader (List Nat) := do
  let precode ← readFields inp 4 20
  let pre ← buildOrFail reject precode 6 15
  lensLoop inp pre (start + num) limit num lens start

/-- AlignedLengths(r) and its table (R198). -/
def alignedTable (inp : Space) (reject : Bool) : Run BitReader (List Entry) := do
  let lens ← readFields inp 3 8
  buildOrFail reject lens 7 7

/-- The aligned-offset table, which only an aligned block has (R197). -/
def blockAligned (job : Job) (btype : Nat) : Run CbSess (List Entry) :=
  if btype = 2 then onCbReader (alignedTable job.inp job.params.rejectIncomplete) else pure []

/-- CodeLengths(r, btype) (R197): the tables of a verbatim or aligned block. -/
def codeLengths (job : Job) (w btype : Nat) : Run CbSess CbTables := do
  let aligned ← blockAligned job btype
  let s ← get
  let main1 ← onCbReader (readLens job.inp job.params.rejectIncomplete s.mainLens 0 256 (numMain w))
  let main2 ← onCbReader
    (readLens job.inp job.params.rejectIncomplete main1 256 (numMain w - 256) (numMain w))
  let len ← onCbReader (readLens job.inp job.params.rejectIncomplete s.lenLens 0 numLen numLen)
  modify fun t => { t with mainLens := main2, lenLens := len }
  let mainTable ← buildOrFail job.params.rejectIncomplete main2 11 16
  let lenTable ← buildOrFail job.params.rejectIncomplete len 10 16
  pure { main := mainTable, len := lenTable, aligned := aligned }

/-! ### Offsets and the recent-offset cache (R205, R207) -/

/-- The distance of recent slot 0, 1 or 2. -/
def recentDistance (q : Recent) (slot : Nat) : Nat := if slot = 0 then q.r0 else if slot = 1 then q.r1 else q.r2

/-- The cache after recent slot 0, 1 or 2 is used, under R_REUSE_UPDATE (R205, R207). -/
def reuseRecent (policy : ReuseUpdate) (q : Recent) (slot : Nat) : Recent :=
  if slot = 0 then q
  else if slot = 1 then { r0 := q.r1, r1 := q.r0, r2 := q.r2 }
  else
    match policy with
    | .swapWithR0 => { r0 := q.r2, r1 := q.r1, r2 := q.r0 }
    | .moveToFront => { r0 := q.r2, r1 := q.r0, r2 := q.r1 }

/-- The cache after a newly read distance (R205). -/
def pushRecent (q : Recent) (dist : Nat) : Recent := { r0 := dist, r1 := q.r0, r2 := q.r1 }

/-- A newly read explicit distance of `slot` ≥ 3 (R205). -/
def explicitDistance (inp : Space) (aligned : List Entry) (btype slot : Nat) : Run BitReader Nat := do
  if btype = 2 ∧ 3 ≤ slotExtra slot then do
    let high ← readBits inp (slotExtra slot - 3)
    let low ← decodeSym inp (listEntry aligned) 7 7
    pure (slotBase slot + (high <<< 3) + low - 2)
  else do
    let x ← readBits inp (slotExtra slot)
    pure (slotBase slot + x - 2)

/-- Offset(r, btype, slot) (R205). -/
def offset (job : Job) (aligned : List Entry) (btype slot : Nat) : Run CbSess Nat := do
  if slot < 3 then do
    let s ← get
    set { s with recent := reuseRecent job.params.reuse s.recent slot }
    pure (recentDistance s.recent slot)
  else do
    let dist ← onCbReader (explicitDistance job.inp aligned btype slot)
    modify fun s => { s with recent := pushRecent s.recent dist }
    pure dist

/-! ### Items and blocks (R194, R199, R204, R206) -/

/-- The length of a match from its length header (R204). -/
def matchLength (inp : Space) (len : List Entry) (lh : Nat) : Run BitReader Nat := do
  if lh = 7 then do
    let x ← decodeSym inp (listEntry len) 10 16
    pure (7 + x + 2)
  else pure (lh + 2)

/-- DecodeItem(r, btype), the block ending at position `bend` (R204, R206). -/
def cbItem (job : Job) (tables : CbTables) (btype bend : Nat) : Run CbSess Unit := do
  let sym ← onCbReader (decodeSym job.inp (listEntry tables.main) 11 16)
  if sym < 256 then onBase (emitLiteral job sym)
  else do
    let length ← onCbReader (matchLength job.inp tables.len ((sym - 256) % 8))
    let dist ← offset job tables.aligned btype ((sym - 256) / 8)
    let s ← get
    if bend < s.base.pos + length then throw (.fail .reference)
    else if s.base.pos < dist then throw (.fail .reference)
    else onBase (emitMatch job length dist bend)

/-- The items of one block, at most one for each byte of it (R194, notes/assumptions/19.md). -/
def cbItems (job : Job) (tables : CbTables) (btype bend : Nat) : Nat → Run CbSess Unit
  | 0 => pure ()
  | fuel + 1 => do
    let s ← get
    if s.base.pos = bend then pure ()
    else do
      cbItem job tables btype bend
      cbItems job tables btype bend fuel

/-- The header of an uncompressed block after its alignment: R0, R1 and R2 (R199). -/
def readRecent (inp : Space) : Run BitReader Recent := do
  ensure inp 1
  modify alignReader
  let r0 ← readLit inp 4
  let r1 ← readLit inp 4
  let r2 ← readLit inp 4
  pure { r0 := r0, r1 := r1, r2 := r2 }

/-- Uncompressed(r, bsize) (R199). -/
def uncompressed (job : Job) (bsize : Nat) : Run CbSess Unit := do
  let q ← onCbReader (readRecent job.inp)
  modify fun s => { s with recent := q }
  if q.r0 = 0 ∨ q.r1 = 0 ∨ q.r2 = 0 then throw (.fail .metadata)
  else do
    let bs ← onCbReader (readBytes job.inp bsize)
    let s ← get
    onBase (onOut (storeBytes (job.outBase + s.base.pos) bs))
    onBase (moveTo (s.base.pos + bsize))
    if bsize % 2 = 1 then do
      let _ ← onCbReader (readLit job.inp 1)
    else pure ()

/-- One block (R194-R196). -/
def cbBlock (job : Job) (w : Nat) : Run CbSess Unit := do
  let (btype, bsize) ← onCbReader (blockHeader job.inp w)
  let s ← get
  if headerLegal btype bsize s.base.pos job.outSize then
    if btype = 3 then uncompressed job bsize
    else do
      let tables ← codeLengths job w btype
      cbItems job tables btype (s.base.pos + bsize) bsize
  else throw (.fail .metadata)

/-- The blocks of a chunk, at most one for each byte of it (R194, notes/assumptions/19.md). -/
def cbBlocks (job : Job) (w : Nat) : Nat → Run CbSess Unit
  | 0 => pure ()
  | fuel + 1 => do
    let s ← get
    if s.base.pos = job.outSize then pure ()
    else do
      cbBlock job w
      cbBlocks job w fuel

/-! ### E8 translation (R208) -/

/-- The translation size (R208). -/
def e8Size : Int := 12000000

/-- The field that E8Undo writes over `a`, read at position `i`, if it writes one (R208). -/
def e8Field (a : Word32) (i : Nat) : Option Nat :=
  if 0 ≤ a.toInt ∧ a.toInt < e8Size then some ((a.toInt - i) % 2 ^ 32).toNat
  else if a.toInt < 0 ∧ -(i : Int) ≤ a.toInt then some ((a.toInt + e8Size) % 2 ^ 32).toNat
  else none

/-- One translation at position `i` of the chunk output (R208). -/
def e8Translate (outBase i : Nat) : Run Space Unit := do
  let bs ← loadBytes (outBase + i + 1) 4
  match e8Field (BitVec.ofNat 32 (leNat bs)) i with
  | some v => storeBytes (outBase + i + 1) (leBytes 4 v)
  | none => pure ()

/-- The loop of E8Undo over positions below `n - 10` (R208, notes/assumptions/19.md). -/
def e8Loop (outBase n : Nat) : Nat → Nat → Run Space Unit
  | 0, _ => pure ()
  | fuel + 1, i =>
    if i + 10 < n then do
      let bs ← loadBytes (outBase + i) 1
      if bs = [0xE8#8] then do
        e8Translate outBase i
        e8Loop outBase n fuel (i + 5)
      else e8Loop outBase n fuel (i + 1)
    else pure ()

/-- E8Undo(OUT, out, n) (R208). -/
def e8Undo (outBase n : Nat) : Run Space Unit :=
  if n ≤ 10 then pure () else e8Loop outBase n n 0

/-! ### CbDecode and the command -/

/-- CbDecode(IN, in, in_size, OUT, out, out_size, w) (R194), over OUT. -/
def cbDecode (job : Job) (w : Nat) : Run Space Unit := fun out =>
  let body : Run CbSess Unit := do
    cbBlocks job w job.outSize
    onBase (exhaustionCheck job)
    onBase (onOut (e8Undo job.outBase job.outSize))
  match body (sessionStart job w out) with
  | .ok _ s => .ok () s.base.out
  | .error e s => .error e s.base.out

/-- The window orders, and the output no larger than the window (R190, R193). -/
def windowLegal (w outSize : Nat) : Bool := (w = 15 || w = 16 || w = 17) && outSize ≤ 2 ^ w

/-- CB_DECOMPRESS (R193). -/
def execCbDecompress (s : State) : Host.Outcome State Fault Refusal :=
  runCommand .cbDecompress (do
    let inBase ← readArg 0
    let inSize ← readArg 1
    let outBase ← readArg 2
    let outSize ← readArg 3
    let w ← readArg 4
    requireOperand (windowLegal w outSize) .illegal
    requireLmem inBase inSize
    requireLmem outBase outSize
    requireDisjoint inBase inSize outBase outSize
    let t ← get
    onLmem (cbDecode (lmemJob t inBase inSize outBase outSize) w)) s

end Sys2Proof.Machine
end

