-- ==== Sys2Proof/Machine/Context.lean ====
section
/-!
DEFINITION. The System Decompression Context and its one-chunk cache (45_context.md): geometry, chunk index, EnsureChunk
and the four CTX commands.
-/

namespace Sys2Proof.Machine

/-! ### Geometry and index (R230, R231, R233, R234) -/

/-- ceil(lsize / 2^order) (R230). -/
def chunkCount (lsize order : Nat) : Nat := (lsize + 2 ^ order - 1) / 2 ^ order

/-- ulen(c) (R230). -/
def chunkLength (lsize order c : Nat) : Nat := min (2 ^ order) (lsize - c * 2 ^ order)

/-- The legal codec and chunk-order pairs (R231). -/
def legalCodec (codec order : Nat) : Option Codec :=
  if codec = 0 ∧ (order = 12 ∨ order = 13 ∨ order = 14) then some .a
  else if codec = 1 ∧ order = 15 then some .b
  else none

/-- The size of an index entry (R233). -/
def entrySize (lsize : Nat) : Nat := if 0xFFFFFFFF < lsize then 8 else 4

/-- The size T of the index region (R233). -/
def indexSize (lsize n : Nat) : Nat := if 1 ≤ n then (n - 1) * entrySize lsize else 0

/-- The unsigned little-endian entries of the index region (R233). -/
def indexEntries (esz : Nat) : Nat → List Byte → List Nat
  | 0, _ => []
  | k + 1, bs => leNat (bs.take esz) :: indexEntries esz k (bs.drop esz)

/-- cstart[0..n] from the index region's bytes; `payload` is S - T (R233, notes/assumptions/17.md). -/
def buildIndex (n esz payload : Nat) (region : List Byte) : List Nat :=
  if n = 0 then [payload] else 0 :: (indexEntries esz (n - 1) region ++ [payload])

/-- Chunk c's stored size is legal: not negative, not 0, at most its logical size (R234). -/
def chunkLegal (lsize order : Nat) (cstart : List Nat) (c : Nat) : Bool :=
  cstart.getD c 0 + 1 ≤ cstart.getD (c + 1) 0 &&
    cstart.getD (c + 1) 0 ≤ cstart.getD c 0 + chunkLength lsize order c

/-- The index validation over all chunks (R234). -/
def indexLegal (lsize order n : Nat) (cstart : List Nat) : Bool :=
  (List.range n).all fun c => chunkLegal lsize order cstart c

/-! ### Updates of the context -/

/-- The cache holds nothing. -/
def dropCache (s : State) : State := s.setCtx { s.ctx with cacheValid := false }

/-- The cache holds chunk c. -/
def holdChunk (c : Nat) (s : State) : State := s.setCtx { s.ctx with cacheChunk := c, cacheValid := true }

/-- A failed CTX_READ: the cache is dropped and RES0 is 0 (R240). -/
def failRead (s : State) : State := (dropCache s).setRes0 0#64

/-- Works on the cache buffer, `u` bytes of it (20_memory.md R52). -/
def onCache {α : Type} (u : Nat) (f : Run Space α) : Run State α :=
  zoom (fun s => { limit := u, cells := s.ctx.cacheBuf : Space })
    (fun sp s => s.setCtx { s.ctx with cacheBuf := sp.cells }) f

/-! ### EnsureChunk (R239) -/

/-- The chunk in the stage buffer: input in STAGE, output in the cache buffer (R239). -/
def stageJob (params : Params) (stored : List Byte) (u : Nat) : Job where
  inp := { limit := stored.length, cells := writeCells [] 0 stored }
  inBase := 0
  inSize := stored.length
  outBase := 0
  outSize := u
  params := params

/-- The stored bytes of a chunk of logical length `u` turned into its logical bytes, in the cache buffer: as they are
for a raw chunk (R236), else through the context's codec (R239). -/
def expandChunk (params : Params) (codec : Codec) (stored : List Byte) (u : Nat) : Run Space Unit :=
  if stored.length = u then storeBytes 0 stored
  else
    match codec with
    | .a => caDecode (stageJob params stored u)
    | .b => cbDecode (stageJob params stored u) 15

/-- EnsureChunk(c) (R239). -/
def ensureChunk (c : Nat) : Run State Unit := do
  let s ← get
  if s.ctx.cacheValid = true ∧ s.ctx.cacheChunk = c then pure ()
  else do
    set (dropCache s)
    let first := s.ctx.cstart.getD c 0
    let stored ← storeRead s.ctx.handle (s.ctx.tsize + first) (s.ctx.cstart.getD (c + 1) 0 - first)
    match stored with
    | none => throw (.fail .io)
    | some bs => do
      let u := chunkLength s.ctx.lsize s.ctx.order c
      onCache u (expandChunk s.world.params s.ctx.codec bs u)
      modify (holdChunk c)

/-! ### Commands -/

/-- The context CTX_OPEN leaves on success (R232). The cache buffer keeps its bytes, which nothing can read. -/
def openedContext (c : Context) (h : Word64) (lsize : Nat) (codec : Codec) (order n ssize tsize : Nat)
    (cstart : List Nat) : Context :=
  { c with
    opened := true
    handle := h
    lsize := lsize
    codec := codec
    order := order
    nchunks := n
    ssize := ssize
    tsize := tsize
    cstart := cstart
    cacheValid := false
    cacheChunk := 0 }

/-- The index region of CTX_OPEN: nothing is read when it is empty (R232). -/
def readIndex (h : Word64) (size : Nat) : Run State (List Byte) := do
  if size = 0 then pure []
  else do
    let b ← storeRead h 0 size
    match b with
    | none => throw (.fail .io)
    | some bs => pure bs

/-- CTX_OPEN once codec and order are known to be legal (R232, R233, R234). -/
def openChecked (h : Word64) (lsize : Nat) (codec : Codec) (order : Nat) : Run State Unit := do
  requireOperand (lsize < 2 ^ 63) .metadata
  let s ← get
  let n := chunkCount lsize order
  requireOperand (n ≤ s.world.params.maxChunks) .capacity
  let ssize := storeLen s.world h
  let tsize := indexSize lsize n
  requireOperand (tsize ≤ ssize) .metadata
  let region ← readIndex h tsize
  let cstart := buildIndex n (entrySize lsize) (ssize - tsize) region
  requireOperand (indexLegal lsize order n cstart) .metadata
  modify fun t => t.setCtx (openedContext t.ctx h lsize codec order n ssize tsize cstart)

/-- CTX_OPEN (R232). -/
def execCtxOpen (s : State) : Host.Outcome State Fault Refusal :=
  runCommand .ctxOpen (do
    let t ← get
    requireOperand (!t.ctx.opened) .state
    let h ← readArgWord 0
    let lsize ← readArg 1
    let codec ← readArg 2
    let order ← readArg 3
    match legalCodec codec order with
    | none => throw (.fail .metadata)
    | some cd => openChecked h lsize cd order) s

/-- CTX_GET_SIZE (R237). -/
def execCtxGetSize (s : State) : Host.Outcome State Fault Refusal :=
  runCommand .ctxGetSize (do
    let t ← get
    requireOperand t.ctx.opened .state
    setResult t.ctx.lsize) s

/-- The bytes of the read [p, p+m) that lie in chunk c, copied to their place after `dst` (R238). -/
def copyChunk (p m dst c : Nat) : Run State Unit := do
  onFail failRead (ensureChunk c)
  let s ← get
  let cs := 2 ^ s.ctx.order
  let lo := max p (c * cs)
  let hi := min (p + m) ((c + 1) * cs)
  let bs ← onCache (chunkLength s.ctx.lsize s.ctx.order c) (loadBytes (lo - c * cs) (hi - lo))
  onLmem (storeBytes (dst + (lo - p)) bs)

/-- The chunks c, c+1, ..., `count` of them (R238). -/
def copyChunks (p m dst : Nat) : Nat → Nat → Run State Unit
  | 0, _ => pure ()
  | count + 1, c => do
    copyChunk p m dst c
    copyChunks p m dst count (c + 1)

/-- CTX_READ of an open context (R238). -/
def readOpened (p cnt dst : Nat) : Run State Unit := do
  let s ← get
  if s.ctx.lsize ≤ p then setResult 0
  else do
    let m := min cnt (s.ctx.lsize - p)
    requireLmem dst m
    if m = 0 then setResult 0
    else do
      let cs := 2 ^ s.ctx.order
      copyChunks p m dst ((p + m - 1) / cs + 1 - p / cs) (p / cs)
      setResult m

/-- CTX_READ (R238). -/
def execCtxRead (s : State) : Host.Outcome State Fault Refusal :=
  runCommand .ctxRead (do
    let t ← get
    if t.ctx.opened then do
      let p ← readArg 0
      let cnt ← readArg 1
      let dst ← readArg 2
      readOpened p cnt dst
    else do
      setResult 0
      throw (.fail .state)) s

/-- CTX_CLOSE (R242). -/
def execCtxClose (s : State) : Host.Outcome State Fault Refusal :=
  runCommand .ctxClose (modify fun t => t.setCtx { t.ctx with opened := false, cacheValid := false }) s

end Sys2Proof.Machine
end

