-- ==== Sys2Proof/Machine/Dispatch.lean ====
section
/-! DEFINITION. One arm per command (30_encoding.md R73): the meaning of each. -/

namespace Sys2Proof.Machine

def exec (i : Instr) (s : State) : Host.Outcome State Fault Refusal :=
  match i with
  | .brInit => Sys2Proof.Machine.execBrInit s
  | .brEnsure n => Sys2Proof.Machine.execBrEnsure n s
  | .brPeek n => Sys2Proof.Machine.execBrPeek n s
  | .brPop n => Sys2Proof.Machine.execBrPop n s
  | .brRead n => Sys2Proof.Machine.execBrRead n s
  | .brReadByte => Sys2Proof.Machine.execBrReadByte s
  | .brReadU16 => Sys2Proof.Machine.execBrReadU16 s
  | .brReadU32 => Sys2Proof.Machine.execBrReadU32 s
  | .brReadBytes => Sys2Proof.Machine.execBrReadBytes s
  | .brAlign => Sys2Proof.Machine.execBrAlign s
  | .htBuild => Sys2Proof.Machine.execHtBuild s
  | .htDecode => Sys2Proof.Machine.execHtDecode s
  | .mcCopy => Sys2Proof.Machine.execMcCopy s
  | .caDecompress => Sys2Proof.Machine.execCaDecompress s
  | .cbDecompress => Sys2Proof.Machine.execCbDecompress s
  | .ctxOpen => Sys2Proof.Machine.execCtxOpen s
  | .ctxGetSize => Sys2Proof.Machine.execCtxGetSize s
  | .ctxRead => Sys2Proof.Machine.execCtxRead s
  | .ctxClose => Sys2Proof.Machine.execCtxClose s

end Sys2Proof.Machine
end

