-- ==== Sys2Proof/Machine/HostPort.lean ====
section
/-!
DEFINITION. The host's side of the block: the register window (10_state.md R22), the CMD write that starts a command
(R21, R23), LMEM outside commands (20_memory.md R50) and reset (70_reset_and_hazards.md R280).
-/

namespace Sys2Proof.Machine

/-! ### CMD -/

/-- An illegal command word does finish(E_ILLEGAL) and changes nothing else (30_encoding.md R75). -/
def illegalWord (s : State) : Host.Outcome State Fault Refusal := .next (s.accept.finish .illegal)

/-- A CMD write (10_state.md R23; check order 60_exceptions.md R268, items 1 to 3): ignored while FAULT = 1, a fault
while BUSY = 1, else the command runs with BUSY = 1 as one atomic step (10_state.md R21). -/
def writeCmd (w : Word32) (s : State) : Host.Outcome State Fault Refusal :=
  if s.fault then .next s
  else if s.busy then .next (s.takeFault .cmdBusy 0#8)
  else
    match decode w with
    | .ok i => exec i s.accept
    | .error _ => illegalWord s

/-! ### The register window (10_state.md R22) -/

/-- The ARG register whose low half stands at an offset. -/
def argAt (off : Nat) : Option (Fin 6) :=
  match off with
  | 0x010 => some 0
  | 0x018 => some 1
  | 0x020 => some 2
  | 0x028 => some 3
  | 0x030 => some 4
  | 0x038 => some 5
  | _ => none

/-- The read-only 64-bit register at an offset. -/
def wideAt (s : State) (off : Nat) : Option Word64 :=
  match off with
  | 0x040 => some s.res0
  | 0x048 => some (BitVec.ofNat 64 s.br0.start)
  | 0x050 => some (BitVec.ofNat 64 s.br0.stop)
  | 0x058 => some (BitVec.ofNat 64 s.br0.next)
  | 0x078 => some (BitVec.ofNat 64 s.ctx.lsize)
  | 0x080 => some (BitVec.ofNat 64 s.ctx.nchunks)
  | 0x088 => some (BitVec.ofNat 64 s.ctx.cacheChunk)
  | 0x090 => some (BitVec.ofNat 64 s.ctx.ssize)
  | _ => none

/-- The 32-bit register at an offset; CMD reads 0. -/
def narrowAt (s : State) (off : Nat) : Option Word32 :=
  match off with
  | 0x000 => some 0#32
  | 0x004 => some (statusWord s)
  | 0x008 => some (faultInfoWord s)
  | 0x00C => some versionWord
  | 0x060 => some s.br0.bitbuf
  | 0x064 => some (brBitsleftWord s.br0)
  | 0x068 => some (brFlagsWord s.br0)
  | 0x070 => some (ctxFlagsWord s.ctx)
  | _ => none

/-- The reserved offsets: they read 0 and ignore writes. The gaps 0x06C and 0x074 of the register table are read as
reserved too (DEDUCED, notes/assumptions/12.md). -/
def reservedOffset (off : Nat) : Bool :=
  (0x098 ≤ off && off < 0x100) || (0x06C ≤ off && off < 0x070) || (0x074 ≤ off && off < 0x078)

/-- The low half of a 64-bit register. -/
def lowHalf (v : Word64) : Word32 := v.extractLsb' 0 32

/-- The high half of a 64-bit register. -/
def highHalf (v : Word64) : Word32 := v.extractLsb' 32 32

/-- A host read returns `v`. -/
def State.hostReads (s : State) (v : Word64) : State := { s with hostData := v }

/-- ARG[i] becomes `v`; a half written before is part of no value any more. -/
def State.setArg (s : State) (i : Fin 6) (v : Word64) : State :=
  { s with args := s.args.set i (some v), argHalf := s.argHalf.set i none }

/-- A half of ARG[i] is written, and the register still holds no value (notes/assumptions/11.md). -/
def State.setArgHalf (s : State) (i : Fin 6) (h : ArgHalf) : State := { s with argHalf := s.argHalf.set i (some h) }

/-- What an ARG register shows the host: its value; else the half written so far, and a free value elsewhere
(notes/assumptions/10.md). -/
def argShown (s : State) (i : Fin 6) : Word64 :=
  match s.args.get i with
  | some v => v
  | none =>
    match s.argHalf.get i with
    | none => Config.freeWord s.resets i
    | some (.low v) => highHalf (Config.freeWord s.resets i) ++ v
    | some (.high v) => v ++ lowHalf (Config.freeWord s.resets i)

/-- A 64-bit host read; "a read of CMD returns 0". -/
def read64 (off : Nat) (s : State) : Host.Outcome State Fault Refusal :=
  match argAt off with
  | some i => .next (s.hostReads (argShown s i))
  | none =>
    match wideAt s off with
    | some v => .next (s.hostReads v)
    | none => if off = 0x000 || reservedOffset off then .next (s.hostReads 0#64) else .refused .windowAccessShape

/-- The half of a 64-bit register a 32-bit read sees: the low half at the register's offset, the high half 4 above. -/
def halfAt (s : State) (off : Nat) : Option Word32 :=
  match wideAt s off with
  | some v => some (lowHalf v)
  | none => if 4 ≤ off then (wideAt s (off - 4)).map highHalf else none

/-- A 32-bit host read. -/
def read32 (off : Nat) (s : State) : Host.Outcome State Fault Refusal :=
  match narrowAt s off with
  | some v => .next (s.hostReads (v.setWidth 64))
  | none =>
    match halfAt s off with
    | some v => .next (s.hostReads (v.setWidth 64))
    | none =>
      match argAt off with
      | some i => .next (s.hostReads ((lowHalf (argShown s i)).setWidth 64))
      | none =>
        match argAt (off - 4) with
        | some i => .next (s.hostReads ((highHalf (argShown s i)).setWidth 64))
        | none => if reservedOffset off then .next (s.hostReads 0#64) else .refused .windowAccessShape

/-- A host write to an ARG register; while BUSY = 1 the rules do not define it (70_reset_and_hazards.md R288). -/
def writeArg (i : Fin 6) (v : Word64) (s : State) : Host.Outcome State Fault Refusal :=
  if s.busy then .fault .hostWriteWhileBusy else .next (s.setArg i v)

/-- The state after the low half of ARG[i] is written: a register that holds no value gets one once both halves are
written (DESIGN CHOICE, notes/assumptions/11.md). -/
def State.setArgLow (s : State) (i : Fin 6) (v : Word32) : State :=
  match s.args.get i, s.argHalf.get i with
  | some w, _ => s.setArg i (highHalf w ++ v)
  | none, some (.high h) => s.setArg i (h ++ v)
  | none, _ => s.setArgHalf i (.low v)

/-- The state after the high half of ARG[i] is written. -/
def State.setArgHigh (s : State) (i : Fin 6) (v : Word32) : State :=
  match s.args.get i, s.argHalf.get i with
  | some w, _ => s.setArg i (v ++ lowHalf w)
  | none, some (.low l) => s.setArg i (v ++ l)
  | none, _ => s.setArgHalf i (.high v)

/-- Whether a host write at an offset meets no writable register: it lies in a read-only register, in half of one, or in
the reserved range. CMD, at 0x000, is writable. -/
def ignoresWrites (s : State) (off : Nat) : Bool :=
  (off ≠ 0x000 && (narrowAt s off).isSome) || (halfAt s off).isSome || reservedOffset off

/-- A 64-bit host write: ARG registers take it, read-only registers and reserved offsets ignore it. -/
def write64 (off : Nat) (v : Word64) (s : State) : Host.Outcome State Fault Refusal :=
  match argAt off with
  | some i => writeArg i v s
  | none => if ignoresWrites s off then .next s else .refused .windowAccessShape

/-- A 32-bit host write: CMD starts a command, half of an ARG register is replaced, read-only registers, their halves
and reserved offsets ignore it. -/
def write32 (off : Nat) (v : Word32) (s : State) : Host.Outcome State Fault Refusal :=
  if off = 0x000 then writeCmd v s
  else
    match argAt off with
    | some i => if s.busy then .fault .hostWriteWhileBusy else .next (s.setArgLow i v)
    | none =>
      match argAt (off - 4) with
      | some i => if s.busy then .fault .hostWriteWhileBusy else .next (s.setArgHigh i v)
      | none => if ignoresWrites s off then .next s else .refused .windowAccessShape

/-! ### LMEM outside commands (20_memory.md R50) -/

/-- The host stores bytes into LMEM. -/
def lmemWrite (addr : Nat) (bytes : List Byte) (s : State) : Host.Outcome State Fault Refusal :=
  if s.busy then .fault .hostWriteWhileBusy
  else
    match memWriteBytes (lmemSpace s) addr bytes with
    | .ok sp => .next (s.setLmem sp.cells)
    | .error _ => .fault .hostAddressOutsideLmem

/-- The host loads a byte of LMEM; one without a value shows a free value (notes/assumptions/10.md). -/
def lmemRead (addr : Nat) (s : State) : Host.Outcome State Fault Refusal :=
  if addr < 2 ^ s.world.params.addrBits then
    match readByte s.lmem addr with
    | some b => .next (s.hostReads (b.setWidth 64))
    | none => .next (s.hostReads ((Config.freeByte s.resets addr).setWidth 64))
  else .fault .hostAddressOutsideLmem

/-! ### One host action -/

/-- What one host action does. -/
def hostAction (e : HostEvent) (s : State) : Host.Outcome State Fault Refusal :=
  match e with
  | .write32 off v => write32 off v s
  | .write64 off v => write64 off v s
  | .read32 off => read32 off s
  | .read64 off => read64 off s
  | .lmemWrite addr bytes => lmemWrite addr bytes s
  | .lmemRead addr => lmemRead addr s
  | .reset => .next s.resetBlock

/-- The state with the first pending host action taken. -/
def State.nextActions (s : State) (rest : List HostEvent) : State := { s with host := rest }

/-- One step: the host's next action; with none pending the block is idle and keeps all state
(60_exceptions.md R276, 70_reset_and_hazards.md R281). -/
def hostStep (s : State) : Host.Outcome State Fault Refusal :=
  match s.host with
  | [] => .next s
  | e :: rest => hostAction e (s.nextActions rest)

/-- The host action that puts a command word before the block: a CMD write (10_state.md R23). -/
def pendCommand (s : State) (w : Word32) : State := s.nextActions (.write32 0x000 w :: s.host)

end Sys2Proof.Machine
end

