-- ==== Sys2Proof/Machine/Step.lean ====
section
/-! DEFINITION. One step of the machine: the host's next action, which for a CMD write runs a whole command
(10_state.md R21). -/

namespace Sys2Proof.Machine

/-- One step. -/
def step (s : State) : Host.Outcome State Fault Refusal := hostStep s

/-- The state whose very next step is the CMD write of the table word: commands are not fetched from memory but written
by the host (10_state.md R39, notes/assumptions/2.md). -/
def State.withFetchWord (s : State) (nbits w : Nat) : State := pendCommand s (tableWord nbits w)

end Sys2Proof.Machine
end

