-- ==== Sys2Proof/Safety.lean ====
section
/-!
DEFINITION. The terms the claims use: what it means that bytes hold values and that memory is unchanged, the bit stream a
reader gives (20_memory.md R59, 40_bit_reader.md R120), canonical codes (41_huffman.md R130), what the bits of both
codecs' formats stand for (43_codec_a.md, 44_codec_b.md), the invariants of the bit
reader (10_state.md R30), of the context (45_context.md R233, R234) and of the whole machine.
-/

namespace Sys2Proof.Machine

/-! ### Memory -/

/-- The bytes `bs` stand at `a`. -/
def HoldsBytes (m : Memory) (a : Nat) (bs : List Byte) : Prop := ∀ i (h : i < bs.length), readByte m (a + i) = some bs[i]

/-- The `n` bytes at `a` hold values. -/
def Written (m : Memory) (a n : Nat) : Prop := ∀ i < n, (readByte m (a + i)).isSome = true

/-- Every byte outside lo..hi-1 reads as before. -/
def UnchangedOutside (m m' : Memory) (lo hi : Nat) : Prop := ∀ a, a < lo ∨ hi ≤ a → readByte m' a = readByte m a

/-- The two memories read alike at lo..hi-1. -/
def AgreeOn (m m' : Memory) (lo hi : Nat) : Prop := ∀ a, lo ≤ a → a < hi → readByte m' a = readByte m a

/-- [a, a+n) and [b, b+m) share no address (20_memory.md R56). -/
def Disjoint (a n b m : Nat) : Prop := ∀ x, a ≤ x → x < a + n → b ≤ x → x < b + m → False

/-- Every byte lies in LMEM. -/
def BelowLimit (m : Memory) (limit : Nat) : Prop := ∀ c ∈ m, c.1 < limit

/-- What the store read of a handle gives when it succeeds (20_memory.md R51). -/
def storeSlice (w : World) (h : Word64) (off n : Nat) : List Byte := ((storeBytesOf w h).drop off).take n

/-! ### The bit stream (R59) -/

/-- The 16-bit little-endian unit at `a`; a byte without a value counts 0. -/
def unitAt (m : Memory) (a : Nat) : Nat := ((readByte m a).getD 0#8).toNat + 256 * ((readByte m (a + 1)).getD 0#8).toNat

/-- Bit `i` of what the reader will give from now on: first the valid bits of the accumulator, then the whole units at
the cursor, from bit 15 of each down, then zeros without end (R59, R102, R119). -/
def upcomingBit (m : Memory) (r : BitReader) (i : Nat) : Bool :=
  if i < r.bitsleft then r.bitbuf.getMsbD i
  else if r.next + 2 * ((i - r.bitsleft) / 16) + 2 ≤ r.stop then
    (unitAt m (r.next + 2 * ((i - r.bitsleft) / 16))).testBit (15 - (i - r.bitsleft) % 16)
  else false

/-- The number whose `n` bits, most significant first, are given (R59). -/
def bitsValue (bit : Nat → Bool) : Nat → Nat
  | 0 => 0
  | n + 1 => 2 * bitsValue bit n + (bit n).toNat

/-- The invariants of a bit reader (10_state.md R30). -/
structure ReaderOk (r : BitReader) : Prop where
  /-- "cursor never exceeds input end". -/
  start_le : r.start ≤ r.next
  next_le : r.next ≤ r.stop
  left_le : r.bitsleft ≤ 32
  real_le : r.realbits ≤ r.bitsleft
  /-- Below the bits that came from the input the accumulator is 0. -/
  clear : r.bitbuf.toNat % 2 ^ (32 - r.realbits) = 0
  /-- A valid bit that did not come from the input is a pad bit, and those come only once the input is exhausted. -/
  padded : r.realbits = r.bitsleft ∨ r.stop < r.next + 2
  /-- A pad bit is consumed only once the input is exhausted. -/
  padused : r.padused = true → r.stop < r.next + 2

/-- The `n` bits of a number, most significant first. -/
def bitsOf (v n : Nat) : List Bool := (List.range n).map fun i => v.testBit (n - 1 - i)

/-- What the reader will give from now on starts with the bits `bs`. -/
def StreamStarts (m : Memory) (r : BitReader) (bs : List Bool) : Prop := ∀ i (h : i < bs.length), upcomingBit m r i = bs[i]

/-- What the reader `t` will give is what `r` will give after `n` bits. -/
def StreamMoves (m : Memory) (r t : BitReader) (n : Nat) : Prop := ∀ i, upcomingBit m t i = upcomingBit m r (n + i)

/-- The little-endian value of the `k` bytes at `a`, 0 when they pass `stop` (40_bit_reader.md R106). -/
def literalAt (m : Memory) (stop a k : Nat) : Nat :=
  if stop < a + k then 0 else leNat ((List.range k).map fun i => (readByte m (a + i)).getD 0#8)

/-- A bit reader over written input inside its memory. -/
def ReadsWritten (inp : Space) (r : BitReader) : Prop :=
  ReaderOk r ∧ r.stop ≤ inp.limit ∧ Written inp.cells r.next (r.stop - r.next)

/-! ### Canonical codes (R130) -/

/-- 2^max_len times the Kraft sum of the lengths (00_scope.md R18, 41_huffman.md R130). -/
def kraftSum (lens : List Nat) (maxLen : Nat) : Nat := (lens.map fun l => if l = 0 then 0 else 2 ^ (maxLen - l)).sum

/-- The first codeword of length `len + 1` (R130). -/
def firstCode (lens : List Nat) : Nat → Nat
  | 0 => 0
  | len + 1 => 2 * (firstCode lens len + lens.count (len + 1))

/-- The codeword of symbol `s` (R130): codewords of one length count up in symbol order. -/
def codeword (lens : List Nat) (s : Nat) : Nat :=
  firstCode lens (lens.getD s 0 - 1) + (lens.take s).count (lens.getD s 0)

/-- The lengths are of a code the table builder accepts (R133, R134, R135): none above `maxLen`, not over-subscribed, and,
when incomplete codes are rejected, complete or empty. -/
def CodeAccepted (reject : Bool) (lens : List Nat) (maxLen : Nat) : Prop :=
  (∀ l ∈ lens, l ≤ maxLen) ∧ kraftSum lens maxLen ≤ 2 ^ maxLen ∧
    (reject = true → kraftSum lens maxLen = 2 ^ maxLen ∨ kraftSum lens maxLen = 0)

/-- The codeword of a symbol as bits. -/
def codeBits (lens : List Nat) (sym : Nat) : List Bool := bitsOf (codeword lens sym) (lens.getD sym 0)

/-- A symbol the code can send: a used one, or, in the empty code, symbol 0, which takes no bits (R135). -/
def Sendable (lens : List Nat) (sym : Nat) : Prop := 1 ≤ lens.getD sym 0 ∨ (sym = 0 ∧ ∀ l ∈ lens, l = 0)

/-- The bytes of a table's entries, each little-endian (30_encoding.md R80). -/
def entryBytes (table : List Entry) : List Byte := table.flatMap fun e : Entry => [e.setWidth 8, (e >>> 8).setWidth 8]

/-! ### Expansion of literals and matches (42_match_copier.md R163) -/

/-- What both codecs' items mean. -/
inductive LzItem where
  | literal (b : Byte)
  | copy (length dist : Nat)
  deriving DecidableEq, Repr

/-- The output after one more item, at most `limit` bytes; `none` for a match that reaches back too far or runs past the
limit (43_codec_a.md R178, 44_codec_b.md R206). -/
def expandItem (limit : Nat) (out : List Byte) : LzItem → Option (List Byte)
  | .literal b => if out.length < limit then some (out ++ [b]) else none
  | .copy length dist =>
    if dist ≤ out.length ∧ out.length + length ≤ limit then
      some (out ++ (List.range length).map fun i => out.getD (out.length - dist + i % dist) 0#8)
    else none

/-- The output after more items. -/
def expandItems (limit : Nat) : List Byte → List LzItem → Option (List Byte)
  | out, [] => some out
  | out, x :: xs =>
    match expandItem limit out x with
    | some out' => expandItems limit out' xs
    | none => none

/-! ### What codec A's bits stand for (43_codec_a.md R173, R175, R177) -/

/-- A chunk header from the 512 lengths: the low nibble is the even symbol's (R173). -/
def caHeader (lens : List Nat) : List Byte :=
  (List.range 256).map fun i => BitVec.ofNat 8 (lens.getD (2 * i) 0 + 16 * lens.getD (2 * i + 1) 0)

/-- An item whose fields are bits alone: a literal, or a match with the length header `lh` below 15, the offset exponent
`k` and the offset bits `raw`. -/
inductive CaToken where
  | literal (b : Byte)
  | copy (lh k raw : Nat)
  deriving DecidableEq, Repr

/-- The symbol that announces an item (R175). -/
def CaToken.symbol : CaToken → Nat
  | .literal b => b.toNat
  | .copy lh k _ => 256 + 16 * k + lh

/-- The bits of an item: its codeword, then the offset bits (R177). -/
def CaToken.bits (lens : List Nat) : CaToken → List Bool
  | .literal b => codeBits lens b.toNat
  | .copy lh k raw => codeBits lens (256 + 16 * k + lh) ++ bitsOf raw k

/-- What an item stands for (R177). -/
def CaToken.meaning : CaToken → LzItem
  | .literal b => .literal b
  | .copy lh k raw => .copy (lh + 3) (2 ^ k + raw)

/-- The fields are in range and the code can send the symbol. -/
def CaToken.Legal (lens : List Nat) (t : CaToken) : Prop :=
  Sendable lens t.symbol ∧
    match t with
    | .literal _ => True
    | .copy lh k raw => lh < 15 ∧ k < 16 ∧ raw < 2 ^ k

/-! ### What codec B's bits stand for (44_codec_b.md R195-R206) -/

/-- EXTRA and BASE of the offset slots (R211). -/
def offsetSlots : List (Nat × Nat) :=
  [(0, 0), (0, 1), (0, 2), (0, 3), (1, 4), (1, 6), (2, 8), (2, 12), (3, 16), (3, 24), (4, 32), (4, 48), (5, 64),
    (5, 96), (6, 128), (6, 192), (7, 256), (7, 384), (8, 512), (8, 768), (9, 1024), (9, 1536), (10, 2048), (10, 3072),
    (11, 4096), (11, 6144), (12, 8192), (12, 12288), (13, 16384), (13, 24576), (14, 32768), (14, 49152), (15, 65536),
    (15, 98304)]

/-- One presymbol of a length section with its bits (R200, R202): a delta `p`, 4 + x zeros, 20 + x zeros, or 4 + x copies of
one delta `q`. -/
inductive LenOp where
  | delta (p : Nat)
  | zeros (x : Nat)
  | moreZeros (x : Nat)
  | copies (x q : Nat)
  deriving DecidableEq, Repr

/-- How many lengths an operation writes. -/
def LenOp.run : LenOp → Nat
  | .delta _ => 1
  | .zeros x => 4 + x
  | .moreZeros x => 20 + x
  | .copies x _ => 4 + x

/-- The length it writes, `old` being the old one where it starts (R201, R202). -/
def LenOp.value (old : Nat) : LenOp → Nat
  | .delta p => (old + 17 - p) % 17
  | .zeros _ => 0
  | .moreZeros _ => 0
  | .copies _ q => (old + 17 - q) % 17

/-- Its bits in the precode. -/
def LenOp.bits (precode : List Nat) : LenOp → List Bool
  | .delta p => codeBits precode p
  | .zeros x => codeBits precode 17 ++ bitsOf x 4
  | .moreZeros x => codeBits precode 18 ++ bitsOf x 5
  | .copies x q => codeBits precode 19 ++ bitsOf x 1 ++ codeBits precode q

/-- Its fields are in range and the precode can send it. -/
def LenOp.Legal (precode : List Nat) : LenOp → Prop
  | .delta p => p ≤ 16 ∧ Sendable precode p
  | .zeros x => x < 16 ∧ Sendable precode 17
  | .moreZeros x => x < 32 ∧ Sendable precode 18
  | .copies x q => x < 2 ∧ q ≤ 17 ∧ Sendable precode 19 ∧ Sendable precode q

/-- The array after an operation at index `i`; what runs past its end is discarded (R203). -/
def LenOp.apply (op : LenOp) (lens : List Nat) (i : Nat) : List Nat :=
  lens.zipIdx.map fun x => if i ≤ x.2 ∧ x.2 < i + op.run then op.value (lens.getD i 0) else x.1

/-- The array after operations from index `i` on. -/
def applyOps : List LenOp → List Nat → Nat → List Nat
  | [], lens, _ => lens
  | op :: ops, lens, i => applyOps ops (op.apply lens i) (i + op.run)

/-- Every operation starts below `stop`, and the last one reaches it. -/
def OpsFit (stop : Nat) : List LenOp → Nat → Prop
  | [], i => stop ≤ i
  | op :: ops, i => i < stop ∧ OpsFit stop ops (i + op.run)

/-- A section of code lengths (R200): the precode's 20 lengths of 4 bits, then the operations. -/
structure LenSection where
  precode : List Nat
  ops : List LenOp
  deriving DecidableEq, Repr

/-- The bits of a section. -/
def LenSection.bits (x : LenSection) : List Bool :=
  (x.precode.flatMap fun p => bitsOf p 4) ++ x.ops.flatMap (LenOp.bits x.precode)

/-- A section for the indices from `start` up to `stop`. -/
structure LenSection.Legal (reject : Bool) (start stop : Nat) (x : LenSection) : Prop where
  count : x.precode.length = 20
  nibbles : ∀ p ∈ x.precode, p < 16
  accepted : CodeAccepted reject x.precode 15
  ops : ∀ op ∈ x.ops, op.Legal x.precode
  fit : OpsFit stop x.ops start

/-- An item of a verbatim or aligned block (R204, R205): a literal, or a match of an offset slot with its offset bits `x` and
the length header `lh`, which is followed by the length symbol `len` when it is 7. -/
inductive CbToken where
  | literal (b : Byte)
  | copy (slot x lh len : Nat)
  deriving DecidableEq, Repr

/-- The lengths of the codes of one block: main, length and aligned-offset code (R197, R198). -/
structure CbCodes where
  main : List Nat
  len : List Nat
  aligned : List Nat
  deriving DecidableEq, Repr

/-- The bits of an offset (R205): for a slot with 3 or more extra bits an aligned block sends the low 3 in a code. -/
def offsetBits (btype : Nat) (aligned : List Nat) (slot x : Nat) : List Bool :=
  if btype = 2 ∧ 3 ≤ (offsetSlots.getD slot (0, 0)).1 then
    bitsOf (x / 8) ((offsetSlots.getD slot (0, 0)).1 - 3) ++ codeBits aligned (x % 8)
  else bitsOf x (offsetSlots.getD slot (0, 0)).1

/-- The bits of an item (R204). -/
def CbToken.bits (btype : Nat) (codes : CbCodes) : CbToken → List Bool
  | .literal b => codeBits codes.main b.toNat
  | .copy slot x lh len =>
    codeBits codes.main (256 + 8 * slot + lh) ++ (if lh = 7 then codeBits codes.len len else []) ++
      offsetBits btype codes.aligned slot x

/-- The fields are in range and the codes can send the symbols. -/
def CbToken.Legal (btype : Nat) (codes : CbCodes) : CbToken → Prop
  | .literal b => Sendable codes.main b.toNat
  | .copy slot x lh len =>
    slot < 34 ∧ lh < 8 ∧ Sendable codes.main (256 + 8 * slot + lh) ∧ (lh = 7 → Sendable codes.len len) ∧
      x < 2 ^ (offsetSlots.getD slot (0, 0)).1 ∧
      (btype = 2 → 3 ≤ (offsetSlots.getD slot (0, 0)).1 → Sendable codes.aligned (x % 8))

/-- The recent offsets and the output after one item, the block ending at `bend` (R204-R207). -/
def cbStep (policy : ReuseUpdate) (bend : Nat) (q : Recent) (out : List Byte) : CbToken → Option (Recent × List Byte)
  | .literal b => (expandItem bend out (.literal b)).map fun out' => (q, out')
  | .copy slot x lh len =>
    let length := if lh = 7 then 9 + len else lh + 2
    let dist := if slot < 3 then recentDistance q slot else (offsetSlots.getD slot (0, 0)).2 + x - 2
    let next := if slot < 3 then reuseRecent policy q slot else pushRecent q dist
    (expandItem bend out (.copy length dist)).map fun out' => (next, out')

/-- The recent offsets and the output after more items. -/
def cbSteps (policy : ReuseUpdate) (bend : Nat) : Recent → List Byte → List CbToken → Option (Recent × List Byte)
  | q, out, [] => some (q, out)
  | q, out, t :: ts =>
    match cbStep policy bend q out t with
    | some (q', out') => cbSteps policy bend q' out' ts
    | none => none

/-- The bits of a block header (R195): the type, then the default-size flag, or the size in 16 bits, 24 for the window
orders 16 and 17. -/
def blockHeaderBits (w btype size : Nat) (byDefault : Bool) : List Bool :=
  bitsOf btype 3 ++ [byDefault] ++ (if byDefault then [] else bitsOf size (if w = 15 then 16 else 24))

/-- How far a codec B session is: the code lengths kept across blocks, the recent offsets and the output. -/
structure CbProgress where
  mainLens : List Nat
  lenLens : List Nat
  recent : Recent
  out : List Byte
  deriving DecidableEq, Repr

/-- A session at its start (R192). -/
def CbProgress.start (w : Nat) : CbProgress where
  mainLens := List.replicate (if w = 15 then 496 else if w = 16 then 512 else 528) 0
  lenLens := List.replicate 249 0
  recent := { r0 := 1, r1 := 1, r2 := 1 }
  out := []

/-- A verbatim (type 1) or aligned (type 2) block: its size and how the header gives it, the aligned code's lengths, the
three sections of code lengths, and the items (R195, R197). -/
structure CbBlock where
  btype : Nat
  size : Nat
  byDefault : Bool
  alignedLens : List Nat
  main1 : LenSection
  main2 : LenSection
  len : LenSection
  tokens : List CbToken
  deriving DecidableEq, Repr

/-- The code lengths of a block, from those of the block before (R197, R203). -/
def CbBlock.codes (p : CbProgress) (b : CbBlock) : CbCodes where
  main := applyOps b.main2.ops (applyOps b.main1.ops p.mainLens 0) 256
  len := applyOps b.len.ops p.lenLens 0
  aligned := b.alignedLens

/-- The bits of a block (R194, R197, R198). -/
def CbBlock.bits (w : Nat) (p : CbProgress) (b : CbBlock) : List Bool :=
  blockHeaderBits w b.btype b.size b.byDefault ++
    (if b.btype = 2 then b.alignedLens.flatMap fun l => bitsOf l 3 else []) ++
    b.main1.bits ++ b.main2.bits ++ b.len.bits ++ b.tokens.flatMap (CbToken.bits b.btype (b.codes p))

/-- A block that can follow: its header passes (R196), its codes are accepted, its items can be sent. -/
structure CbBlock.Legal (reject : Bool) (outSize : Nat) (p : CbProgress) (b : CbBlock) : Prop where
  btype : b.btype = 1 ∨ b.btype = 2
  size : 1 ≤ b.size ∧ p.out.length + b.size ≤ outSize
  byDefault : b.byDefault = true → b.size = 32768
  aligned : b.btype = 2 →
    b.alignedLens.length = 8 ∧ (∀ l ∈ b.alignedLens, l < 8) ∧ CodeAccepted reject b.alignedLens 7
  main1 : b.main1.Legal reject 0 256
  main2 : b.main2.Legal reject 256 p.mainLens.length
  len : b.len.Legal reject 0 249
  mainCode : CodeAccepted reject (b.codes p).main 16
  lenCode : CodeAccepted reject (b.codes p).len 16
  tokens : ∀ t ∈ b.tokens, t.Legal b.btype (b.codes p)

/-- The session goes from `p` to `q` over blocks whose bits, one after another, are `bs`, and every block gives exactly its
size (R194). -/
inductive CbStream (params : Params) (w outSize : Nat) : CbProgress → List Bool → CbProgress → Prop where
  | done (p : CbProgress) : CbStream params w outSize p [] p
  | block (p q : CbProgress) (b : CbBlock) (recent : Recent) (out : List Byte) (bs : List Bool) :
      b.Legal params.rejectIncomplete outSize p →
      cbSteps params.reuse (p.out.length + b.size) p.recent p.out b.tokens = some (recent, out) →
      out.length = p.out.length + b.size →
      CbStream params w outSize { mainLens := (b.codes p).main, lenLens := (b.codes p).len, recent := recent, out := out }
        bs q →
      CbStream params w outSize p (b.bits w p ++ bs) q

/-- An uncompressed block (R199): how the header gives its size, its three recent offsets, its bytes. -/
structure RawBlock where
  byDefault : Bool
  recent : Recent
  bytes : List Byte
  deriving DecidableEq, Repr

/-- The units of an uncompressed block's header, type 3, aligned with bits 0 (R195, R199). -/
def RawBlock.units (w : Nat) (b : RawBlock) : List Nat :=
  if b.byDefault then [0x7000]
  else if w = 15 then [0x6000 + b.bytes.length / 16, b.bytes.length % 16 * 4096]
  else [0x6000 + b.bytes.length / 4096, b.bytes.length / 256 % 16 * 4096 + b.bytes.length % 256 * 16]

/-- An uncompressed block as bytes: the header, the recent offsets, the bytes, and a pad byte after an odd number of them. -/
def RawBlock.encode (w : Nat) (b : RawBlock) : List Byte :=
  (b.units w).flatMap (leBytes 2) ++ leBytes 4 b.recent.r0 ++ leBytes 4 b.recent.r1 ++ leBytes 4 b.recent.r2 ++ b.bytes ++
    (if b.bytes.length % 2 = 1 then [0#8] else [])

/-- A block with a size its header can give and recent offsets that are not 0. -/
def RawBlock.Legal (b : RawBlock) : Prop :=
  1 ≤ b.bytes.length ∧ (b.byDefault = true → b.bytes.length = 32768) ∧
    (1 ≤ b.recent.r0 ∧ b.recent.r0 < 2 ^ 32) ∧ (1 ≤ b.recent.r1 ∧ b.recent.r1 < 2 ^ 32) ∧
    (1 ≤ b.recent.r2 ∧ b.recent.r2 < 2 ^ 32)

/-! ### The chunk index (R230, R233) -/

/-- cstart[k] for `n` chunks and entries of `esz` bytes, from the bytes of the store (R233). -/
def chunkStart (bytes : List Byte) (n esz k : Nat) : Nat :=
  if k = n then bytes.length - (n - 1) * esz
  else if k = 0 then 0
  else leNat ((bytes.drop ((k - 1) * esz)).take esz)

/-! ### Reset (70_reset_and_hazards.md R280) -/

/-- Every field for which R280 gives a value has it, and every read-back register shows it. -/
structure AtResetValues (t : State) : Prop where
  status : t.code = 0#8 ∧ t.busy = false ∧ t.fault = false
  faultInfo : t.cause = 0#8 ∧ t.faultOpc = 0#8
  args : ∀ i : Fin 6, t.args.get i = none
  res0 : t.res0 = 0#64
  cursor : t.br0.start = 0 ∧ t.br0.stop = 0 ∧ t.br0.next = 0
  accumulator : t.br0.bitbuf = 0#32 ∧ t.br0.bitsleft = 0 ∧ t.br0.realbits = 0
  flags : t.br0.padused = false ∧ t.br0.valid = false
  closed : t.ctx.opened = false ∧ t.ctx.cacheValid = false
  sizes : t.ctx.lsize = 0 ∧ t.ctx.codec = .a ∧ t.ctx.order = 0 ∧ t.ctx.nchunks = 0 ∧ t.ctx.ssize = 0 ∧ t.ctx.tsize = 0 ∧
    t.ctx.cacheChunk = 0
  buffer : ∀ a, readByte t.ctx.cacheBuf a = none
  lmem : ∀ a, readByte t.lmem a = none
  version : narrowAt t 0x00C = some 7#32
  narrow : ∀ off ∈ [0x004, 0x008, 0x060, 0x064, 0x068, 0x070], narrowAt t off = some 0#32
  wide : ∀ off ∈ [0x040, 0x048, 0x050, 0x058, 0x078, 0x080, 0x088, 0x090], wideAt t off = some 0#64

/-! ### Invariants -/

/-- The chunk index of an open context is what OPEN validated (45_context.md R231-R234), and a valid cache holds all
bytes of a chunk (R239). -/
structure ContextOk (w : World) (c : Context) : Prop where
  buf_wf : Memory.wf c.cacheBuf
  closed : c.opened = false → c.cacheValid = false
  pair : c.opened = true →
    c.codec = .a ∧ (c.order = 12 ∨ c.order = 13 ∨ c.order = 14) ∨ c.codec = .b ∧ c.order = 15
  size : c.opened = true → c.lsize < 2 ^ 63
  count : c.opened = true → c.nchunks = chunkCount c.lsize c.order ∧ c.nchunks ≤ w.params.maxChunks
  stored : c.opened = true → c.ssize = storeLen w c.handle
  region : c.opened = true → c.tsize = indexSize c.lsize c.nchunks ∧ c.tsize ≤ c.ssize
  index : c.opened = true →
    c.cstart = buildIndex c.nchunks (entrySize c.lsize) (c.ssize - c.tsize) (storeSlice w c.handle 0 c.tsize)
  legal : c.opened = true → indexLegal c.lsize c.order c.nchunks c.cstart = true
  cached : c.cacheValid = true →
    c.cacheChunk < c.nchunks ∧ Written c.cacheBuf 0 (chunkLength c.lsize c.order c.cacheChunk)

/-- The invariant of the machine between steps. -/
structure Inv (s : State) : Prop where
  /-- LMEM is in canonical form and lies within its 2^ADDR_BITS addresses (20_memory.md R50). -/
  lmem_wf : Memory.wf s.lmem
  lmem_range : BelowLimit s.lmem (2 ^ s.world.params.addrBits)
  /-- No command is running between steps (10_state.md R21). -/
  busy : s.busy = false
  /-- "Codes 9-255 are never written" (60_exceptions.md R260). -/
  code : s.code.toNat ≤ 8
  /-- FAULTINFO is 0 while FAULT = 0 (10_state.md R25). -/
  noFault : s.fault = false → s.cause = 0#8 ∧ s.faultOpc = 0#8
  /-- Only the causes 1-6 are recorded; F_CMD_BUSY cannot arise (60_exceptions.md R265, R266). -/
  cause : s.fault = true → 1 ≤ s.cause.toNat ∧ s.cause.toNat ≤ 6
  /-- BR0 (10_state.md R30), inside LMEM; untouched until BR_INIT. -/
  reader : ReaderOk s.br0
  reader_range : s.br0.stop ≤ 2 ^ s.world.params.addrBits
  reader_fresh : s.br0.valid = false → s.br0 = BitReader.reset
  /-- The context. -/
  ctx : ContextOk s.world s.ctx

/-- Decoding chunk `k`'s stored bytes, over an output buffer without values, gives the bytes `cells`
(45_context.md R236, R239). -/
def ChunkDecodes (w : World) (c : Context) (k : Nat) (cells : Memory) : Prop :=
  expandChunk w.params c.codec
      (storeSlice w c.handle (c.tsize + c.cstart.getD k 0) (c.cstart.getD (k + 1) 0 - c.cstart.getD k 0))
      (chunkLength c.lsize c.order k) { limit := chunkLength c.lsize c.order k, cells := [] } =
    .ok () { limit := chunkLength c.lsize c.order k, cells := cells }

/-- A valid cache holds what decoding its chunk gives (20_memory.md R68, 45_context.md R239, R244). -/
def CacheCoherent (s : State) : Prop :=
  s.ctx.cacheValid = true →
    ∃ cells : Memory, ChunkDecodes s.world s.ctx s.ctx.cacheChunk cells ∧
      AgreeOn cells s.ctx.cacheBuf 0 (chunkLength s.ctx.lsize s.ctx.order s.ctx.cacheChunk)

/-- The I/O oracle never fails a call. -/
def OracleNeverFails (w : World) : Prop := ∀ k, ioFails w k = false

/-! ### Commands -/

/-- `t` as a command leaves it that completes: CODE 0 (OK), BUSY 0 (60_exceptions.md R260). -/
def completed (t : State) : State := { t with code := 0#8, busy := false }

/-- `t` as a command leaves it that ends with the status code `e` (60_exceptions.md R261). -/
def reported (e : BitVec 8) (t : State) : State := { t with code := e, busy := false }

/-- `t` as a command leaves it that faults with the cause `c`: CODE stays (60_exceptions.md R266). -/
def faulted (i : Instr) (c : BitVec 8) (t : State) : State :=
  { t with fault := true, cause := c, faultOpc := opcodeOf i, busy := false }

/-- The ARG registers a command reads (30_encoding.md R73, column "operands"). -/
def operandRegisters : Instr → List (Fin 6)
  | .brInit => [0, 1]
  | .brEnsure _ => []
  | .brPeek _ => []
  | .brPop _ => []
  | .brRead _ => []
  | .brReadByte => []
  | .brReadU16 => []
  | .brReadU32 => []
  | .brReadBytes => [0, 1]
  | .brAlign => []
  | .htBuild => [0, 1, 2, 3, 4]
  | .htDecode => [0, 1, 2]
  | .mcCopy => [0, 1, 2, 3, 4, 5]
  | .caDecompress => [0, 1, 2, 3]
  | .cbDecompress => [0, 1, 2, 3, 4]
  | .ctxOpen => [0, 1, 2, 3]
  | .ctxGetSize => []
  | .ctxRead => [0, 1, 2]
  | .ctxClose => []

/-- ARG[i] holds the number `v`. -/
def ArgIs (s : State) (i : Fin 6) (v : Nat) : Prop := ∃ w : Word64, s.args.get i = some w ∧ w.toNat = v

end Sys2Proof.Machine
end

