-- ==== Sys2Proof/Certificates/Slice0/Obligations.lean ====
section
/-!
DEFINITION. The statements about the block, each from the numbered rules of spec/. In them a command's next state is
`completed t`, `reported e t` or `faulted i c t`: the state `t` with CODE 0, with the status code e, or with FAULT set and
the cause c (60_exceptions.md R260, R265, R266).
-/

open Sys2Proof Sys2Proof.Machine

/-! ### Encoding (30_encoding.md) -/

/-- R71, R73, R81: the decoder reads back every command the encoder writes, with every bit count. -/
def Obligations.DecodeEncodeAgree : Prop :=
  ∀ i : Instr, i.wellFormed = true → decode (encode i) = .ok i

/-- R71, R75: a word that decodes is the encoding of what it decodes to, so no bit of it is ignored. -/
def Obligations.LegalWordIsTheEncodingOfItsCommand : Prop :=
  ∀ (w : Word32) (i : Instr), decode w = .ok i → i.wellFormed = true ∧ encode i = w

/-- R73: words written out from the opcode map decode to their commands. -/
def Obligations.EncodingsOfTheSpecDecode : Prop :=
  decode 0x00000001#32 = .ok .brInit ∧ decode 0x00000405#32 = .ok (.brRead 4#5) ∧
    decode 0x00001004#32 = .ok (.brPop 16#5) ∧ decode 0x0000000A#32 = .ok .brAlign ∧
    decode 0x00000011#32 = .ok .htDecode ∧ decode 0x00000018#32 = .ok .mcCopy ∧
    decode 0x00000021#32 = .ok .cbDecompress ∧ decode 0x00000033#32 = .ok .ctxClose

/-- R75: a word is refused exactly in the cases (a) to (d), and writing it only reports E_ILLEGAL. -/
def Obligations.IllegalWordOnlyReportsEIllegal : Prop :=
  ∀ w : Word32,
    let opc := w.toNat % 256
    let n := w.toNat / 256 % 32
    let rsv := w.toNat / 8192
    let assigned := [1, 2, 3, 4, 5, 6, 7, 8, 9, 10, 16, 17, 24, 32, 33, 48, 49, 50, 51]
    let illegal := rsv ≠ 0 ∨ opc ∉ assigned ∨ (opc ∈ [2, 3, 4, 5] ∧ 16 < n) ∨ (opc ∉ [2, 3, 4, 5] ∧ n ≠ 0)
    ((∃ e, decode w = .error e) ↔ illegal) ∧
      ∀ (s : State) (rest : List HostEvent), illegal → s.fault = false → s.busy = false →
        s.host = .write32 0x000 w :: rest → step s = .next { s with host := rest, code := 6#8 }

/-! ### Steps, faults and reset -/

/-- R21, R23: with a legal command word before it, the block runs exactly that command, BUSY set, as one step. -/
def Obligations.StepRunsTheDecodedCommand : Prop :=
  (∀ (s : State) (w : Word32) (i : Instr) (rest : List HostEvent), s.host = .write32 0x000 w :: rest →
      decode w = .ok i → s.fault = false → s.busy = false → step s = exec i { s with host := rest, busy := true }) ∧
    ∀ (s : State) (nbits w : Nat) (i : Instr), decodeTableWord nbits w = some i → s.fault = false → s.busy = false →
      step (s.withFetchWord nbits w) = exec i { s with busy := true }

/-- R23: a CMD write is ignored while FAULT = 1, faults with F_CMD_BUSY while BUSY = 1, and else starts its command. -/
def Obligations.CmdWriteIsIgnoredFaultsOrStarts : Prop :=
  ∀ (s : State) (w : Word32) (rest : List HostEvent), s.host = .write32 0x000 w :: rest →
    (s.fault = true → step s = .next { s with host := rest }) ∧
    (s.fault = false → s.busy = true →
      step s = .next { s with host := rest, fault := true, cause := 7#8, faultOpc := 0#8, busy := false }) ∧
    (s.fault = false → s.busy = false → ∀ i, decode w = .ok i →
      step s = exec i { s with host := rest, busy := true })

/-- R266, R267: a faulted block leaves that state by reset only, and keeps its first cause and every result. -/
def Obligations.FaultIsLeftOnlyByReset : Prop :=
  ∀ (s : State) (e : HostEvent) (rest : List HostEvent), s.fault = true → s.host = e :: rest →
    (e = .reset → ∃ t, step s = .next t ∧ t.fault = false ∧ t.cause = 0#8 ∧ t.faultOpc = 0#8) ∧
    (e ≠ .reset → ∀ t, step s = .next t →
      t.fault = true ∧ t.cause = s.cause ∧ t.faultOpc = s.faultOpc ∧ t.code = s.code ∧ t.busy = s.busy ∧
        t.res0 = s.res0 ∧ t.br0 = s.br0 ∧ t.ctx = s.ctx ∧ t.ioCalls = s.ioCalls) ∧
    (∀ w, e = .write32 0x000 w → step s = .next { s with host := rest })

/-- R280: what reset leaves, from any state. -/
def Obligations.ResetLeavesTheSpecValues : Prop :=
  AtResetValues State.reset ∧
    ∀ (s : State) (rest : List HostEvent), s.host = .reset :: rest →
      ∃ t, step s = .next t ∧ AtResetValues t ∧ t.world = s.world ∧ t.host = rest

/-- The machine's invariant (R21, R25, R30, R50, R234, R260) holds before and after every step. -/
def Obligations.EveryStepKeepsTheInvariant : Prop :=
  ∀ s t : State, Inv s → step s = .next t → Inv t

/-- The machine's invariant holds right after reset, whatever the parameters and stores (R280). -/
def Obligations.ResetMeetsTheInvariant : Prop :=
  Inv State.reset ∧ ∀ w : World, Inv (State.resetWith w)

/-! ### What every command does and leaves alone -/

/-- R266, R268: every command, with every operand and from every state, ends in exactly one outcome: a status, or a fault
that keeps CODE and RES0; BUSY is clear; ARG registers, parameters and stores are never written (R26, R41). -/
def Obligations.EveryCommandHasOneOutcome : Prop :=
  ∀ (i : Instr) (s : State), ∃ t, exec i s = .next t ∧ t.busy = false ∧ t.args = s.args ∧ t.world = s.world ∧
    t.host = s.host ∧ t.hostData = s.hostData ∧ t.argHalf = s.argHalf ∧ t.resets = s.resets ∧
    ((t.fault = s.fault ∧ t.cause = s.cause ∧ t.faultOpc = s.faultOpc ∧ t.code.toNat ≤ 8) ∨
      (t.fault = true ∧ 1 ≤ t.cause.toNat ∧ t.cause.toNat ≤ 6 ∧ t.faultOpc = opcodeOf i ∧ t.code = s.code ∧
        t.res0 = s.res0))

/-- R74: a command's effects do not depend on an ARG register that is not listed for it. -/
def Obligations.CommandsReadOnlyTheirOperands : Prop :=
  ∀ (i : Instr) (s t : State) (args : Vector (Option Word64) 6),
    (∀ k ∈ operandRegisters i, args.get k = s.args.get k) → exec i s = .next t →
      exec i { s with args := args } = .next { t with args := args }

/-- R26, R74, R268: an operand register without a value faults with F_UNWRITTEN, once the unit's state allows the
command, and nothing else changes. -/
def Obligations.UnwrittenOperandFaults : Prop :=
  ∀ (i : Instr) (s : State) (k : Fin 6), k ∈ operandRegisters i → s.args.get k = none →
    (i = .brReadBytes ∨ i = .htDecode → s.br0.valid = true) → (i = .ctxOpen → s.ctx.opened = false) →
    (i = .ctxRead → s.ctx.opened = true) → exec i s = .next (faulted i 1#8 s)

/-- R28: a command without a result leaves RES0, and so does every command but CTX_READ when it ends in an error or a
fault. -/
def Obligations.ResultRegisterKeptWithoutResult : Prop :=
  ∀ (i : Instr) (s t : State), exec i s = .next t → s.fault = false →
    ((∀ n, i ≠ .brPeek n) ∧ (∀ n, i ≠ .brRead n) ∧
        i ∉ ([.brReadByte, .brReadU16, .brReadU32, .htDecode, .mcCopy, .ctxGetSize, .ctxRead] : List Instr) →
      t.res0 = s.res0) ∧
    (i ≠ .ctxRead → t.fault = true ∨ t.code ≠ 0#8 → t.res0 = s.res0)

/-- R30, R68: only the BR commands and HT_DECODE change BR0; only CTX_OPEN, CTX_READ and CTX_CLOSE change the context, and
CTX_READ no more of it than the cache; only CTX_OPEN and CTX_READ call the collaborator. -/
def Obligations.CommandsChangeOnlyTheirOwnUnit : Prop :=
  ∀ (i : Instr) (s t : State), exec i s = .next t →
    (i ∈ ([.htBuild, .mcCopy, .caDecompress, .cbDecompress, .ctxOpen, .ctxGetSize, .ctxRead, .ctxClose] : List Instr) →
      t.br0 = s.br0) ∧
    (i ∉ ([.ctxOpen, .ctxRead, .ctxClose] : List Instr) → t.ctx = s.ctx) ∧
    (i ∉ ([.ctxOpen, .ctxRead] : List Instr) → t.ioCalls = s.ioCalls) ∧
    (i = .ctxRead →
      { t.ctx with
        cacheValid := s.ctx.cacheValid, cacheChunk := s.ctx.cacheChunk, cacheBuf := s.ctx.cacheBuf } = s.ctx)

/-- R55, R84: LMEM changes only where the storing commands' operands say, and not at all under any other command. -/
def Obligations.MemoryChangesOnlyInTheOutputRange : Prop :=
  ∀ (i : Instr) (s t : State), exec i s = .next t →
    (i ∉ ([.brReadBytes, .htBuild, .mcCopy, .caDecompress, .cbDecompress, .ctxRead] : List Instr) →
      ∀ a, readByte t.lmem a = readByte s.lmem a) ∧
    (i = .brReadBytes → ∀ dst count, ArgIs s 0 dst → ArgIs s 1 count →
      UnchangedOutside s.lmem t.lmem dst (dst + count)) ∧
    (i = .htBuild → ∀ n tb maxLen table, ArgIs s 1 n → ArgIs s 2 tb → ArgIs s 3 maxLen → ArgIs s 4 table →
      UnchangedOutside s.lmem t.lmem table (table + 2 * tableSize tb maxLen n)) ∧
    (i = .mcCopy → ∀ cursor length, ArgIs s 1 cursor → ArgIs s 2 length →
      UnchangedOutside s.lmem t.lmem cursor (cursor + length)) ∧
    (i = .caDecompress ∨ i = .cbDecompress → ∀ out size, ArgIs s 2 out → ArgIs s 3 size →
      UnchangedOutside s.lmem t.lmem out (out + size)) ∧
    (i = .ctxRead → ∀ p count dst, ArgIs s 0 p → ArgIs s 1 count → ArgIs s 2 dst →
      UnchangedOutside s.lmem t.lmem dst (dst + min count (s.ctx.lsize - p)))

/-! ### The bit reader (40_bit_reader.md) -/

/-- R100, R101: BR_INIT. -/
def Obligations.BrInitSetsTheReader : Prop :=
  decode 0x00000001#32 = .ok .brInit ∧
  ∀ s : State, exec .brInit s = .next (
    match s.args.get 0, s.args.get 1 with
    | some start, some size =>
      if 2 ^ s.world.params.addrBits < start.toNat + size.toNat then faulted .brInit 2#8 s
      else completed { s with br0 :=
        { start := start.toNat, stop := start.toNat + size.toNat, next := start.toNat, bitbuf := 0#32, bitsleft := 0,
          realbits := 0, padused := false, valid := true } }
    | _, _ => faulted .brInit 1#8 s)

/-- R108, R102: BR_ENSURE completes by doing nothing, by padding, or by loading one unit. -/
def Obligations.BrEnsureRefillsOrPads : Prop :=
  (∀ n : BitVec 5, decode (0#19 ++ (n ++ 0x02#8)) =
    if n.toNat ≤ 16 then .ok (.brEnsure n) else .error .bitCountTooLarge) ∧
  ∀ (n : BitVec 5) (s : State), n.toNat ≤ 16 → s.br0.stop ≤ 2 ^ s.world.params.addrBits →
    exec (.brEnsure n) s = .next (
      if s.br0.valid = false then faulted (.brEnsure n) 3#8 s
      else if n.toNat ≤ s.br0.bitsleft then completed s
      else if s.br0.stop < s.br0.next + 2 then completed { s with br0 := { s.br0 with bitsleft := 32 } }
      else
        match readByte s.lmem s.br0.next, readByte s.lmem (s.br0.next + 1) with
        | some low, some high =>
          completed { s with br0 := { s.br0 with
            bitbuf := s.br0.bitbuf ||| ((high ++ low).setWidth 32 <<< (16 - s.br0.bitsleft))
            next := s.br0.next + 2
            bitsleft := s.br0.bitsleft + 16
            realbits := s.br0.realbits + 16 } }
        | _, _ => faulted (.brEnsure n) 1#8 s)

/-- R109, R103: BR_PEEK completes with the next n bits and consumes nothing. -/
def Obligations.BrPeekReturnsTheNextBits : Prop :=
  (∀ n : BitVec 5, decode (0#19 ++ (n ++ 0x03#8)) =
    if n.toNat ≤ 16 then .ok (.brPeek n) else .error .bitCountTooLarge) ∧
  ∀ (n : BitVec 5) (s : State), n.toNat ≤ 16 →
    exec (.brPeek n) s = .next (
      if s.br0.valid = false then faulted (.brPeek n) 3#8 s
      else if s.br0.bitsleft < n.toNat then faulted (.brPeek n) 4#8 s
      else completed { s with res0 := (s.br0.bitbuf >>> (32 - n.toNat)).setWidth 64 })

/-- R110, R104: BR_POP completes with the next n bits discarded, and sets padused when one was no input bit. -/
def Obligations.BrPopDiscardsTheNextBits : Prop :=
  (∀ n : BitVec 5, decode (0#19 ++ (n ++ 0x04#8)) =
    if n.toNat ≤ 16 then .ok (.brPop n) else .error .bitCountTooLarge) ∧
  ∀ (n : BitVec 5) (s : State), n.toNat ≤ 16 →
    exec (.brPop n) s = .next (
      if s.br0.valid = false then faulted (.brPop n) 3#8 s
      else if s.br0.bitsleft < n.toNat then faulted (.brPop n) 4#8 s
      else completed { s with br0 := { s.br0 with
        padused := s.br0.padused || decide (s.br0.realbits < n.toNat)
        realbits := s.br0.realbits - n.toNat
        bitbuf := s.br0.bitbuf <<< n.toNat
        bitsleft := s.br0.bitsleft - n.toNat } })

/-- R59, R105, R111, R119, R120: BR_READ completes with the number whose bits are the next n bits of the stream, the
stream moves on by n, and padused is set exactly when a bit beyond the input's whole units was consumed. -/
def Obligations.BrReadTakesTheNextBitsOfTheStream : Prop :=
  ∀ (n : BitVec 5) (s : State), n.toNat ≤ 16 → s.br0.valid = true → ReaderOk s.br0 →
    s.br0.stop ≤ 2 ^ s.world.params.addrBits → Written s.lmem s.br0.next (s.br0.stop - s.br0.next) →
    ∃ r : BitReader,
      exec (.brRead n) s = .next (completed { s with
        br0 := r, res0 := BitVec.ofNat 64 (bitsValue (upcomingBit s.lmem s.br0) n.toNat) }) ∧
      (∀ i, upcomingBit s.lmem r i = upcomingBit s.lmem s.br0 (n.toNat + i)) ∧
      r.padused = (s.br0.padused ||
        decide (s.br0.realbits + 16 * ((s.br0.stop - s.br0.next) / 2) < n.toNat)) ∧
      r.start = s.br0.start ∧ r.stop = s.br0.stop ∧ r.valid = true ∧ ReaderOk r

/-- R82, which the spec itself infers from R108 to R111: BR_READ n is BR_ENSURE n, then BR_POP n, with the value BR_PEEK n
gives in between. -/
def Obligations.BrReadIsEnsurePeekPop : Prop :=
  ∀ (n : BitVec 5) (s s1 : State), n.toNat ≤ 16 → s.fault = false → exec (.brEnsure n) s = .next s1 →
    (s1.fault = false → ∃ s2 s3, exec (.brPeek n) s1 = .next s2 ∧ exec (.brPop n) s1 = .next s3 ∧
      exec (.brRead n) s = .next { s3 with res0 := s2.res0 }) ∧
    (s1.fault = true → exec (.brRead n) s = .next { s1 with faultOpc := opcodeOf (.brRead n) })

/-- R106, R112, R113, R114: a literal read of 1, 2 or 4 bytes completes with the little-endian value at the cursor, or
with 0 and the cursor in place when fewer bytes are left. -/
def Obligations.LiteralReadsTakeBytesAtTheCursor : Prop :=
  decode 0x00000006#32 = .ok .brReadByte ∧ decode 0x00000007#32 = .ok .brReadU16 ∧
  decode 0x00000008#32 = .ok .brReadU32 ∧
  ∀ (i : Instr) (k : Nat) (s : State), (i, k) ∈ ([(.brReadByte, 1), (.brReadU16, 2), (.brReadU32, 4)] : List (Instr × Nat)) →
    s.br0.stop ≤ 2 ^ s.world.params.addrBits →
    (s.br0.valid = false → exec i s = .next (faulted i 3#8 s)) ∧
    (s.br0.valid = true → s.br0.stop < s.br0.next + k → exec i s = .next (completed { s with res0 := 0#64 })) ∧
    (s.br0.valid = true → s.br0.next + k ≤ s.br0.stop → ∀ bs : List Byte, bs.length = k →
      HoldsBytes s.lmem s.br0.next bs →
      exec i s = .next (completed { s with
        br0 := { s.br0 with next := s.br0.next + k }, res0 := BitVec.ofNat 64 (leNat bs) })) ∧
    (s.br0.valid = true → s.br0.next + k ≤ s.br0.stop →
      (∃ j < k, readByte s.lmem (s.br0.next + j) = none) → exec i s = .next (faulted i 1#8 s))

/-- R107, R115: BR_READ_BYTES completes with the next `count` bytes of the input copied to `dst`, the accumulator
untouched; its other endings change nothing but the status or the fault. -/
def Obligations.BrReadBytesCopiesOrRefuses : Prop :=
  ∀ (s : State) (dst count : Nat), s.br0.valid = true → ArgIs s 0 dst → ArgIs s 1 count →
    s.br0.stop ≤ 2 ^ s.world.params.addrBits →
    (2 ^ s.world.params.addrBits < dst + count → exec .brReadBytes s = .next (faulted .brReadBytes 2#8 s)) ∧
    (dst + count ≤ 2 ^ s.world.params.addrBits → ¬ Disjoint dst count s.br0.start (s.br0.stop - s.br0.start) →
      exec .brReadBytes s = .next (faulted .brReadBytes 6#8 s)) ∧
    (dst + count ≤ 2 ^ s.world.params.addrBits → Disjoint dst count s.br0.start (s.br0.stop - s.br0.start) →
      (s.br0.stop < s.br0.next + count → exec .brReadBytes s = .next (reported 2#8 s)) ∧
      (s.br0.next + count ≤ s.br0.stop → Written s.lmem s.br0.next count →
        ∃ m : Memory, exec .brReadBytes s = .next (completed { s with
            lmem := m, br0 := { s.br0 with next := s.br0.next + count } }) ∧
          (∀ j < count, readByte m (dst + j) = readByte s.lmem (s.br0.next + j)) ∧
          UnchangedOutside s.lmem m dst (dst + count)))

/-- R116, R117: BR_ALIGN completes with the accumulator discarded, the cursor and padused in place. -/
def Obligations.BrAlignDiscardsTheAccumulator : Prop :=
  decode 0x0000000A#32 = .ok .brAlign ∧
  ∀ s : State, exec .brAlign s = .next (
    if s.br0.valid = false then faulted .brAlign 3#8 s
    else completed { s with br0 := { s.br0 with bitbuf := 0#32, bitsleft := 0, realbits := 0 } })

/-- R118: every command that uses BR0, but BR_INIT, faults with F_BR_INVALID before the first BR_INIT. -/
def Obligations.ReaderCommandsNeedInit : Prop :=
  ∀ (n : BitVec 5) (i : Instr) (s : State), n.toNat ≤ 16 →
    i ∈ ([.brEnsure n, .brPeek n, .brPop n, .brRead n, .brReadByte, .brReadU16, .brReadU32, .brReadBytes, .brAlign,
      .htDecode] : List Instr) →
    s.br0.valid = false → exec i s = .next (faulted i 3#8 s)

/-- R121: the bit reader's results depend on no byte of LMEM outside its input range. -/
def Obligations.BitReaderReadsOnlyItsInput : Prop :=
  ∀ (n : BitVec 5) (i : Instr) (s t : State) (m : Memory),
    i ∈ ([.brEnsure n, .brPeek n, .brPop n, .brRead n, .brReadByte, .brReadU16, .brReadU32, .brAlign] : List Instr) →
    s.br0.start ≤ s.br0.next → AgreeOn s.lmem m s.br0.start s.br0.stop → exec i s = .next t →
    exec i { s with lmem := m } = .next { t with lmem := m }

/-! ### Huffman tables (41_huffman.md) -/

/-- R131, R134, R135, R136, R137, R140: HT_BUILD completes exactly when the code is accepted, under either value of
REJECT_INCOMPLETE; the table then holds BuildTable's entries, each little-endian, and no other byte of LMEM changes, the
table's entries above them included. Else it reports E_MALFORMED and changes nothing else. -/
def Obligations.HtBuildAcceptsExactlyPrefixCodes : Prop :=
  ∀ (s : State) (a n tb maxLen table : Nat) (lens : List Byte),
    ArgIs s 0 a → ArgIs s 1 n → ArgIs s 2 tb → ArgIs s 3 maxLen → ArgIs s 4 table →
    1 ≤ n → n ≤ 2048 → 1 ≤ tb → tb ≤ 12 → tb ≤ maxLen → maxLen ≤ 16 →
    2 ^ tb + 2 * n * (maxLen - tb) ≤ 16384 →
    a + n ≤ 2 ^ s.world.params.addrBits →
    table + 2 * (2 ^ tb + 2 * n * (maxLen - tb)) ≤ 2 ^ s.world.params.addrBits →
    Disjoint a n table (2 * (2 ^ tb + 2 * n * (maxLen - tb))) →
    lens.length = n → HoldsBytes s.lmem a lens →
    (CodeAccepted s.world.params.rejectIncomplete (lens.map BitVec.toNat) maxLen →
      ∃ (entries : List Entry) (m : Memory),
        buildTable s.world.params.rejectIncomplete (lens.map BitVec.toNat) tb maxLen = some entries ∧
        2 ^ tb ≤ entries.length ∧ entries.length ≤ 2 ^ tb + 2 * n * (maxLen - tb) ∧
        exec .htBuild s = .next (completed { s with lmem := m }) ∧
        HoldsBytes m table (entryBytes entries) ∧ UnchangedOutside s.lmem m table (table + 2 * entries.length)) ∧
    (¬ CodeAccepted s.world.params.rejectIncomplete (lens.map BitVec.toNat) maxLen →
      exec .htBuild s = .next (reported 1#8 s))

/-- R131, R140: HT_BUILD with operands outside the limits reports E_ILLEGAL; a range that passes the end of LMEM, ranges
that overlap and a length byte without a value fault. Nothing else changes. -/
def Obligations.HtBuildRefusesIllegalOperands : Prop :=
  ∀ (s : State) (a n tb maxLen table : Nat),
    ArgIs s 0 a → ArgIs s 1 n → ArgIs s 2 tb → ArgIs s 3 maxLen → ArgIs s 4 table →
    let legal := 1 ≤ n ∧ n ≤ 2048 ∧ 1 ≤ tb ∧ tb ≤ 12 ∧ tb ≤ maxLen ∧ maxLen ≤ 16 ∧
      2 ^ tb + 2 * n * (maxLen - tb) ≤ 16384
    let bytes := 2 * (2 ^ tb + 2 * n * (maxLen - tb))
    let inside := a + n ≤ 2 ^ s.world.params.addrBits ∧ table + bytes ≤ 2 ^ s.world.params.addrBits
    (¬ legal → exec .htBuild s = .next (reported 6#8 s)) ∧
    (legal → ¬ inside → exec .htBuild s = .next (faulted .htBuild 2#8 s)) ∧
    (legal → inside → ¬ Disjoint a n table bytes → exec .htBuild s = .next (faulted .htBuild 6#8 s)) ∧
    (legal → inside → Disjoint a n table bytes → (∃ j < n, readByte s.lmem (a + j) = none) →
      exec .htBuild s = .next (faulted .htBuild 1#8 s))

/-- R148, which the spec itself infers from R134: BuildTable fails on every over-subscribed array; the source's own example
is complete and builds. -/
def Obligations.OverSubscribedCodesFailToBuild : Prop :=
  (∀ (reject : Bool) (lens : List Nat) (tb maxLen : Nat), 2 ^ maxLen < kraftSum lens maxLen →
    buildTable reject lens tb maxLen = none) ∧
  buildTable false [1, 1] 1 1 = some [0x0800#16, 0x0801#16] ∧
  buildTable false [1, 1, 2] 2 2 = none ∧ buildTable false [1, 1, 1] 2 2 = none

/-- R138, R146, R147: HT_DECODE through a table that BuildTable made returns the symbol whose canonical codeword the
stream starts with, and consumes exactly that codeword. -/
def Obligations.HtDecodeInvertsTheCanonicalCode : Prop :=
  ∀ (s : State) (lens : List Nat) (table : List Entry) (a tb maxLen sym : Nat),
    buildTable false lens tb maxLen = some table → tableLimits lens.length tb maxLen = true →
    ArgIs s 0 a → ArgIs s 1 tb → ArgIs s 2 maxLen →
    HoldsBytes s.lmem a (table.flatMap fun e : Entry => [e.setWidth 8, (e >>> 8).setWidth 8]) →
    a + 2 * table.length ≤ 2 ^ s.world.params.addrBits →
    s.br0.valid = true → ReaderOk s.br0 → s.br0.stop ≤ 2 ^ s.world.params.addrBits →
    Written s.lmem s.br0.next (s.br0.stop - s.br0.next) →
    sym < lens.length → 1 ≤ lens.getD sym 0 →
    bitsValue (upcomingBit s.lmem s.br0) (lens.getD sym 0) = codeword lens sym →
    ∃ r : BitReader, exec .htDecode s = .next (completed { s with br0 := r, res0 := BitVec.ofNat 64 sym }) ∧
      (∀ i, upcomingBit s.lmem r i = upcomingBit s.lmem s.br0 (lens.getD sym 0 + i)) ∧
      r.start = s.br0.start ∧ r.stop = s.br0.stop ∧ r.valid = true

/-- R141, R146, R80: with the bits buffered, HT_DECODE completes with the fast record that the next tb bits select,
whatever made the table (for a record of
length 17 to 23, which no table of BuildTable's holds, the pop is the model's reading of R104, DEDUCED,
notes/assumptions/20.md); operands outside the limits report E_ILLEGAL. -/
def Obligations.HtDecodeFollowsAFastRecord : Prop :=
  ∀ (s : State) (a tb maxLen : Nat), s.br0.valid = true → ArgIs s 0 a → ArgIs s 1 tb → ArgIs s 2 maxLen →
    (¬ (1 ≤ tb ∧ tb ≤ 12 ∧ tb ≤ maxLen ∧ maxLen ≤ 16) → exec .htDecode s = .next (reported 6#8 s)) ∧
    (1 ≤ tb → tb ≤ 12 → tb ≤ maxLen → maxLen ≤ 16 → maxLen ≤ s.br0.bitsleft →
      ∀ e : Entry, HoldsBytes s.lmem (a + 2 * (s.br0.bitbuf >>> (32 - tb)).toNat) [e.setWidth 8, (e >>> 8).setWidth 8] →
        a + 2 * (s.br0.bitbuf >>> (32 - tb)).toNat + 2 ≤ 2 ^ s.world.params.addrBits →
        e.toNat < 0xC000 → (e >>> 11).toNat ≤ s.br0.bitsleft →
        exec .htDecode s = .next (completed { s with
          res0 := BitVec.ofNat 64 (e.toNat % 2048)
          br0 := { s.br0 with
            padused := s.br0.padused || decide (s.br0.realbits < e.toNat / 2048)
            realbits := s.br0.realbits - e.toNat / 2048
            bitbuf := s.br0.bitbuf <<< (e.toNat / 2048)
            bitsleft := s.br0.bitsleft - e.toNat / 2048 } }))

/-! ### The match copier (42_match_copier.md) -/

/-- R160, R162, and R163, which the spec itself infers from R160: MC_COPY completes with the bytes at `distance` before the
cursor repeated with that period, and the new cursor in RES0. -/
def Obligations.McCopyExpandsPeriodically : Prop :=
  ∀ (s : State) (ob c len d be ml : Nat), ArgIs s 0 ob → ArgIs s 1 c → ArgIs s 2 len → ArgIs s 3 d → ArgIs s 4 be →
    ArgIs s 5 ml → be ≤ 2 ^ s.world.params.addrBits → ob ≤ c → 1 ≤ len → 1 ≤ d → d ≤ c - ob → c + len ≤ be →
    Written s.lmem (c - d) (min d len) →
    ∃ m : Memory, exec .mcCopy s = .next (completed { s with lmem := m, res0 := BitVec.ofNat 64 (c + len) }) ∧
      (∀ i < len, readByte m (c + i) = readByte s.lmem (c - d + i % d)) ∧ UnchangedOutside s.lmem m c (c + len)

/-- R162, R291: a buffer end outside LMEM faults with F_MEM_RANGE, and a broken precondition with F_COPY_PRECOND. -/
def Obligations.McCopyFaultsOnBrokenPreconditions : Prop :=
  ∀ (s : State) (ob c len d be ml : Nat), ArgIs s 0 ob → ArgIs s 1 c → ArgIs s 2 len → ArgIs s 3 d → ArgIs s 4 be →
    ArgIs s 5 ml →
    (2 ^ s.world.params.addrBits < be → exec .mcCopy s = .next (faulted .mcCopy 2#8 s)) ∧
    (be ≤ 2 ^ s.world.params.addrBits → ¬ (ob ≤ c ∧ 1 ≤ len ∧ 1 ≤ d ∧ d ≤ c - ob ∧ c + len ≤ be) →
      exec .mcCopy s = .next (faulted .mcCopy 5#8 s))

/-! ### Codec A (43_codec_a.md) -/

/-- R171, R135: a chunk with an all-zero header completes and yields out_size zero bytes. -/
def Obligations.CaZeroHeaderYieldsZeroBytes : Prop :=
  ∀ (s : State) (inBase inSize outBase outSize : Nat), ArgIs s 0 inBase → ArgIs s 1 inSize → ArgIs s 2 outBase →
    ArgIs s 3 outSize → outSize ≤ 65536 → inBase + inSize ≤ 2 ^ s.world.params.addrBits →
    outBase + outSize ≤ 2 ^ s.world.params.addrBits → Disjoint inBase inSize outBase outSize → 256 ≤ inSize →
    Written s.lmem inBase inSize → (∀ i < 256, readByte s.lmem (inBase + i) = some 0#8) →
    ∃ m : Memory, exec .caDecompress s = .next (completed { s with lmem := m }) ∧
      (∀ i < outSize, readByte m (outBase + i) = some 0#8) ∧ UnchangedOutside s.lmem m outBase (outBase + outSize)

/-- R173 to R179: a chunk whose header gives an accepted code and whose body starts with the bits of items expands them:
literals, and matches whose length needs no extension. It completes when they fill the output (under fail_on_padding,
E_TRUNCATED when a bit beyond the body's whole units was consumed); a match that reaches back too far or passes the end
ends it with E_REFERENCE, the bytes before it kept. -/
def Obligations.CaDecompressExpandsItsItems : Prop :=
  ∀ (s : State) (inBase inSize outBase outSize : Nat) (lens : List Nat) (tokens : List CaToken), ArgIs s 0 inBase →
    ArgIs s 1 inSize → ArgIs s 2 outBase → ArgIs s 3 outSize → outSize ≤ 65536 →
    inBase + inSize ≤ 2 ^ s.world.params.addrBits → outBase + outSize ≤ 2 ^ s.world.params.addrBits →
    Disjoint inBase inSize outBase outSize → 256 ≤ inSize → Written s.lmem inBase inSize →
    lens.length = 512 → HoldsBytes s.lmem inBase (caHeader lens) →
    CodeAccepted s.world.params.rejectIncomplete lens 15 → (∀ t ∈ tokens, t.Legal lens) →
    StreamStarts s.lmem (initReader (inBase + 256) (inSize - 256)) (tokens.flatMap (CaToken.bits lens)) →
    let padded := 16 * ((inSize - 256) / 2) < (tokens.flatMap (CaToken.bits lens)).length
    (∀ out, expandItems outSize [] (tokens.map CaToken.meaning) = some out → out.length = outSize →
      ∃ m : Memory, HoldsBytes m outBase out ∧ UnchangedOutside s.lmem m outBase (outBase + outSize) ∧
        exec .caDecompress s = .next (
          if s.world.params.exhaustion = .failOnPadding ∧ padded then reported 2#8 { s with lmem := m }
          else completed { s with lmem := m })) ∧
    (∀ (before : List CaToken) (last : CaToken) (out : List Byte), tokens = before ++ [last] →
      expandItems outSize [] (before.map CaToken.meaning) = some out → out.length < outSize →
      expandItem outSize out last.meaning = none →
      ∃ m : Memory, HoldsBytes m outBase out ∧ UnchangedOutside s.lmem m outBase (outBase + out.length) ∧
        exec .caDecompress s = .next (reported 3#8 { s with lmem := m }))

/-- R175, R177: MatchFields gives the distance 2^k plus the next k bits, and the length from the symbol, or from the
byte, or the byte and the word, at the byte cursor. -/
def Obligations.CaMatchFieldsReadLengthAndDistance : Prop :=
  ∀ (inp : Space) (r : BitReader) (lh k : Nat), ReadsWritten inp r → lh < 16 → k < 16 →
    ∃ e : BitReader, ensure inp 16 r = .ok () e ∧
      let dist := 2 ^ k + bitsValue (upcomingBit inp.cells r) k
      let x := literalAt inp.cells e.stop e.next 1
      let after := if e.stop < e.next + 1 then e.next else e.next + 1
      (lh < 15 → matchFields inp (256 + 16 * k + lh) r = .ok (lh + 3, dist) (dropBits e k)) ∧
      (lh = 15 → x ≠ 255 →
        matchFields inp (256 + 16 * k + lh) r = .ok (15 + x + 3, dist) { dropBits e k with next := after }) ∧
      (lh = 15 → x = 255 →
        matchFields inp (256 + 16 * k + lh) r = .ok (literalAt inp.cells e.stop (e.next + 1) 2 + 3, dist)
          { dropBits e k with next := if e.stop < e.next + 3 then e.next + 1 else e.next + 3 })

/-- R264, R171, R176: whatever bytes the chunk has, CA_DECOMPRESS ends with one of its statuses, never a fault, changes no
byte outside its output, and has filled the output when the status is OK. -/
def Obligations.CaDecompressNeverFaultsOnInput : Prop :=
  ∀ (s : State) (inBase inSize outBase outSize : Nat), ArgIs s 0 inBase → ArgIs s 1 inSize → ArgIs s 2 outBase →
    ArgIs s 3 outSize → outSize ≤ 65536 → inBase + inSize ≤ 2 ^ s.world.params.addrBits →
    outBase + outSize ≤ 2 ^ s.world.params.addrBits → Disjoint inBase inSize outBase outSize →
    Written s.lmem inBase inSize →
    ∃ (e : BitVec 8) (m : Memory), exec .caDecompress s = .next (reported e { s with lmem := m }) ∧
      e ∈ ([0#8, 1#8, 2#8, 3#8] : List (BitVec 8)) ∧ UnchangedOutside s.lmem m outBase (outBase + outSize) ∧
      (e = 0#8 → Written m outBase outSize)

/-! ### Codec B (44_codec_b.md) -/

/-- R194, R195, R199, R208, R209: a chunk of uncompressed blocks completes with their bytes, E8Undo applied. First one
block of explicit 16-bit size, whatever its alignment bits and recent offsets are; then any number of blocks for every
window order, each with the default-size flag or an explicit size of 16 or 24 bits. -/
def Obligations.CbUncompressedBlockIsCopied : Prop :=
  (∀ (s : State) (inBase inSize outBase outSize : Nat), ArgIs s 0 inBase → ArgIs s 1 inSize → ArgIs s 2 outBase →
      ArgIs s 3 outSize → ArgIs s 4 15 → 1 ≤ outSize → outSize ≤ 32768 →
      inBase + inSize ≤ 2 ^ s.world.params.addrBits → outBase + outSize ≤ 2 ^ s.world.params.addrBits →
      Disjoint inBase inSize outBase outSize → 16 + outSize ≤ inSize → Written s.lmem inBase inSize →
      unitAt s.lmem inBase = 0x6000 + outSize / 16 → unitAt s.lmem (inBase + 2) / 4096 = outSize % 16 →
      (∀ k < 3, ∃ j < 4, readByte s.lmem (inBase + 4 + 4 * k + j) ≠ some 0#8) →
      (∀ j < outSize, readByte s.lmem (inBase + 16 + j) ≠ some 0xE8#8) →
      ∃ m : Memory, exec .cbDecompress s = .next (completed { s with lmem := m }) ∧
        (∀ j < outSize, readByte m (outBase + j) = readByte s.lmem (inBase + 16 + j)) ∧
        UnchangedOutside s.lmem m outBase (outBase + outSize)) ∧
  ∀ (s : State) (inBase inSize outBase outSize w : Nat) (blocks : List RawBlock), ArgIs s 0 inBase → ArgIs s 1 inSize →
    ArgIs s 2 outBase → ArgIs s 3 outSize → ArgIs s 4 w → w ∈ [15, 16, 17] → outSize ≤ 2 ^ w →
    inBase + inSize ≤ 2 ^ s.world.params.addrBits → outBase + outSize ≤ 2 ^ s.world.params.addrBits →
    Disjoint inBase inSize outBase outSize → (∀ b ∈ blocks, b.Legal) →
    (blocks.flatMap (RawBlock.encode w)).length ≤ inSize → HoldsBytes s.lmem inBase (blocks.flatMap (RawBlock.encode w)) →
    (blocks.flatMap RawBlock.bytes).length = outSize →
    ∃ m0 m : Memory, HoldsBytes m0 outBase (blocks.flatMap RawBlock.bytes) ∧
      UnchangedOutside s.lmem m0 outBase (outBase + outSize) ∧
      e8Undo outBase outSize { limit := 2 ^ s.world.params.addrBits, cells := m0 } =
        .ok () { limit := 2 ^ s.world.params.addrBits, cells := m } ∧
      exec .cbDecompress s = .next (completed { s with lmem := m })

/-- R195, R196: BlockHeader reads the block type and the block size in each of its three forms, and a header that fails
its checks ends the block with E_METADATA, the output as it was. -/
def Obligations.CbBlockHeaderReadsTypeAndSize : Prop :=
  (∀ (inp : Space) (r : BitReader) (w btype size : Nat) (byDefault : Bool), ReadsWritten inp r → w ∈ [15, 16, 17] →
    btype < 8 → (byDefault = true → size = 32768) → (byDefault = false → size < 2 ^ (if w = 15 then 16 else 24)) →
    StreamStarts inp.cells r (blockHeaderBits w btype size byDefault) →
    ∃ t : BitReader, blockHeader inp w r = .ok (btype, size) t ∧ ReaderOk t ∧ t.stop = r.stop ∧
      StreamMoves inp.cells r t (blockHeaderBits w btype size byDefault).length) ∧
  ∀ (job : Job) (w btype size : Nat) (s : CbSess) (t : BitReader), blockHeader job.inp w s.base.reader = .ok (btype, size) t →
    ¬ ((btype = 1 ∨ btype = 2 ∨ btype = 3) ∧ size ≠ 0 ∧ s.base.pos + size ≤ job.outSize) →
    ∃ u : CbSess, cbBlock job w s = .error (.fail .metadata) u ∧ u.base.out = s.base.out

/-- R200 to R203: ReadLens turns the old lengths into the new ones as its section's operations say; a precode that is not
accepted, and a run of copies of a presymbol above 17, end in E_MALFORMED. -/
def Obligations.CbReadLensAppliesItsSection : Prop :=
  ∀ (inp : Space) (r : BitReader) (reject : Bool) (lens : List Nat) (start num : Nat) (x : LenSection), ReadsWritten inp r →
    start + num ≤ lens.length → lens.length ≤ 528 →
    (x.Legal reject start (start + num) → StreamStarts inp.cells r x.bits →
      ∃ t : BitReader, readLens inp reject lens start num lens.length r = .ok (applyOps x.ops lens start) t ∧ ReaderOk t ∧
        t.stop = r.stop ∧ StreamMoves inp.cells r t x.bits.length) ∧
    (x.precode.length = 20 → (∀ p ∈ x.precode, p < 16) → StreamStarts inp.cells r (x.precode.flatMap fun p => bitsOf p 4) →
      (¬ CodeAccepted reject x.precode 15 →
        ∃ t : BitReader, readLens inp reject lens start num lens.length r = .error (.fail .malformed) t) ∧
      (CodeAccepted reject x.precode 15 → (∀ op ∈ x.ops, op.Legal x.precode) → (x.ops.map LenOp.run).sum < num →
        ∀ y q : Nat, y < 2 → 17 < q → Sendable x.precode 19 → Sendable x.precode q →
        StreamStarts inp.cells r (x.bits ++ codeBits x.precode 19 ++ bitsOf y 1 ++ codeBits x.precode q) →
        ∃ t : BitReader, readLens inp reject lens start num lens.length r = .error (.fail .malformed) t))

/-- R204 to R207: DecodeItem on the bits of an item writes the literal, or copies the match, and updates the recent
offsets; a match that passes the block's end or reaches back too far fails with E_REFERENCE, the output as it was. -/
def Obligations.CbItemExpandsLiteralsAndMatches : Prop :=
  ∀ (job : Job) (tables : CbTables) (codes : CbCodes) (btype bend : Nat) (s : CbSess) (out : List Byte) (t : CbToken),
    ReadsWritten job.inp s.base.reader → codes.main.length ≤ 528 → codes.len.length ≤ 249 → codes.aligned.length ≤ 8 →
    buildTable job.params.rejectIncomplete codes.main 11 16 = some tables.main →
    buildTable job.params.rejectIncomplete codes.len 10 16 = some tables.len →
    (btype = 2 → buildTable job.params.rejectIncomplete codes.aligned 7 7 = some tables.aligned) →
    s.base.pos = out.length → HoldsBytes s.base.out.cells job.outBase out → out.length < bend →
    job.outBase + bend ≤ s.base.out.limit → 1 ≤ s.recent.r0 → 1 ≤ s.recent.r1 → 1 ≤ s.recent.r2 →
    t.Legal btype codes → StreamStarts job.inp.cells s.base.reader (t.bits btype codes) →
    (∀ (q : Recent) (out' : List Byte), cbStep job.params.reuse bend s.recent out t = some (q, out') →
      ∃ u : CbSess, cbItem job tables btype bend s = .ok () u ∧ u.recent = q ∧ u.mainLens = s.mainLens ∧
        u.lenLens = s.lenLens ∧ u.base.pos = out'.length ∧ u.base.out.limit = s.base.out.limit ∧
        HoldsBytes u.base.out.cells job.outBase out' ∧
        UnchangedOutside s.base.out.cells u.base.out.cells (job.outBase + out.length) (job.outBase + out'.length) ∧
        ReaderOk u.base.reader ∧ u.base.reader.stop = s.base.reader.stop ∧
        StreamMoves job.inp.cells s.base.reader u.base.reader (t.bits btype codes).length) ∧
    (cbStep job.params.reuse bend s.recent out t = none →
      ∃ u : CbSess, cbItem job tables btype bend s = .error (.fail .reference) u ∧ u.base.out = s.base.out)

/-- R192 to R209: a chunk whose bits are those of verbatim and aligned blocks expands them, the code lengths and recent
offsets carried from block to block; when they fill the output it completes with E8Undo applied, or, under
fail_on_padding, ends with E_TRUNCATED when a bit beyond the input's whole units was consumed. -/
def Obligations.CbDecompressExpandsItsBlocks : Prop :=
  ∀ (s : State) (inBase inSize outBase outSize w : Nat) (bits : List Bool) (q : CbProgress), ArgIs s 0 inBase →
    ArgIs s 1 inSize → ArgIs s 2 outBase → ArgIs s 3 outSize → ArgIs s 4 w → w ∈ [15, 16, 17] → outSize ≤ 2 ^ w →
    inBase + inSize ≤ 2 ^ s.world.params.addrBits → outBase + outSize ≤ 2 ^ s.world.params.addrBits →
    Disjoint inBase inSize outBase outSize → Written s.lmem inBase inSize →
    CbStream s.world.params w outSize (CbProgress.start w) bits q → q.out.length = outSize →
    StreamStarts s.lmem (initReader inBase inSize) bits →
    ∃ m0 : Memory, HoldsBytes m0 outBase q.out ∧ UnchangedOutside s.lmem m0 outBase (outBase + outSize) ∧
      (s.world.params.exhaustion = .failOnPadding ∧ 16 * (inSize / 2) < bits.length →
        exec .cbDecompress s = .next (reported 2#8 { s with lmem := m0 })) ∧
      (¬ (s.world.params.exhaustion = .failOnPadding ∧ 16 * (inSize / 2) < bits.length) →
        ∃ m : Memory,
          e8Undo outBase outSize { limit := 2 ^ s.world.params.addrBits, cells := m0 } =
            .ok () { limit := 2 ^ s.world.params.addrBits, cells := m } ∧
          exec .cbDecompress s = .next (completed { s with lmem := m }))

/-- R264, R193, R194: whatever bytes the chunk has, CB_DECOMPRESS ends with one of its statuses, never a fault, changes no
byte outside its output, and has filled the output when the status is OK. -/
def Obligations.CbDecompressNeverFaultsOnInput : Prop :=
  ∀ (s : State) (inBase inSize outBase outSize w : Nat), ArgIs s 0 inBase → ArgIs s 1 inSize → ArgIs s 2 outBase →
    ArgIs s 3 outSize → ArgIs s 4 w → w ∈ [15, 16, 17] → outSize ≤ 2 ^ w →
    inBase + inSize ≤ 2 ^ s.world.params.addrBits → outBase + outSize ≤ 2 ^ s.world.params.addrBits →
    Disjoint inBase inSize outBase outSize → Written s.lmem inBase inSize →
    ∃ (e : BitVec 8) (m : Memory), exec .cbDecompress s = .next (reported e { s with lmem := m }) ∧
      e ∈ ([0#8, 1#8, 2#8, 3#8, 4#8] : List (BitVec 8)) ∧ UnchangedOutside s.lmem m outBase (outBase + outSize) ∧
      (e = 0#8 → Written m outBase outSize)

/-- R171, R172, R193, R196: the checks of CA_DECOMPRESS and CB_DECOMPRESS before they decode, in their order, and an empty
input; CB_DECOMPRESS of an empty output completes without reading a byte. -/
def Obligations.DecompressCommandsCheckTheirOperands : Prop :=
  (∀ (s : State) (inBase inSize outBase outSize : Nat), ArgIs s 0 inBase → ArgIs s 1 inSize → ArgIs s 2 outBase →
      ArgIs s 3 outSize →
      (65536 < outSize → exec .caDecompress s = .next (reported 6#8 s)) ∧
      (outSize ≤ 65536 →
        2 ^ s.world.params.addrBits < inBase + inSize ∨ 2 ^ s.world.params.addrBits < outBase + outSize →
        exec .caDecompress s = .next (faulted .caDecompress 2#8 s)) ∧
      (outSize ≤ 65536 → inBase + inSize ≤ 2 ^ s.world.params.addrBits →
        outBase + outSize ≤ 2 ^ s.world.params.addrBits →
        (¬ Disjoint inBase inSize outBase outSize → exec .caDecompress s = .next (faulted .caDecompress 6#8 s)) ∧
        (Disjoint inBase inSize outBase outSize → inSize < 256 → exec .caDecompress s = .next (reported 2#8 s)))) ∧
  (∀ (s : State) (inBase inSize outBase outSize w : Nat), ArgIs s 0 inBase → ArgIs s 1 inSize → ArgIs s 2 outBase →
      ArgIs s 3 outSize → ArgIs s 4 w →
      (w ∉ [15, 16, 17] ∨ 2 ^ w < outSize → exec .cbDecompress s = .next (reported 6#8 s)) ∧
      (w ∈ [15, 16, 17] → outSize ≤ 2 ^ w →
        2 ^ s.world.params.addrBits < inBase + inSize ∨ 2 ^ s.world.params.addrBits < outBase + outSize →
        exec .cbDecompress s = .next (faulted .cbDecompress 2#8 s)) ∧
      (w ∈ [15, 16, 17] → outSize ≤ 2 ^ w → inBase + inSize ≤ 2 ^ s.world.params.addrBits →
        outBase + outSize ≤ 2 ^ s.world.params.addrBits →
        (¬ Disjoint inBase inSize outBase outSize → exec .cbDecompress s = .next (faulted .cbDecompress 6#8 s)) ∧
        (inSize = 0 → 1 ≤ outSize → exec .cbDecompress s = .next (reported 4#8 s)))) ∧
    ∀ (s : State) (inBase inSize outBase w : Nat), ArgIs s 0 inBase → ArgIs s 1 inSize → ArgIs s 2 outBase →
      ArgIs s 3 0 → ArgIs s 4 w → w ∈ [15, 16, 17] → inBase + inSize ≤ 2 ^ s.world.params.addrBits →
      outBase ≤ 2 ^ s.world.params.addrBits → exec .cbDecompress s = .next (completed s)

/-- R205, R207: how a match that names recent slot 0, 1 or 2 updates the recent offsets under each policy; the policy
does not matter for a newly read distance. -/
def Obligations.RecentOffsetsUpdateByPolicy : Prop :=
  Params.standard.reuse = .swapWithR0 ∧
  ∀ (job : Job) (aligned : List Entry) (btype : Nat) (s : CbSess) (q0 q1 q2 : Nat),
    s.recent = { r0 := q0, r1 := q1, r2 := q2 } →
    (offset job aligned btype 0 s = .ok q0 s) ∧
    (offset job aligned btype 1 s = .ok q1 { s with recent := { r0 := q1, r1 := q0, r2 := q2 } }) ∧
    (job.params.reuse = .swapWithR0 →
      offset job aligned btype 2 s = .ok q2 { s with recent := { r0 := q2, r1 := q1, r2 := q0 } }) ∧
    (job.params.reuse = .moveToFront →
      offset job aligned btype 2 s = .ok q2 { s with recent := { r0 := q2, r1 := q0, r2 := q1 } }) ∧
    (∀ slot dist t, 3 ≤ slot → offset job aligned btype slot s = .ok dist t →
      t.recent = { r0 := dist, r1 := q0, r2 := q1 } ∧
      ∀ p, offset { job with params := { job.params with reuse := p } } aligned btype slot s = .ok dist t)

/-- R208: E8Undo rewrites the field after a lone 0xE8 byte as the rule says, and changes nothing else. -/
def Obligations.E8UndoRewritesOneCall : Prop :=
  ∀ (sp : Space) (base n i : Nat) (a : Word32), base + n ≤ sp.limit → Written sp.cells base n → i + 10 < n →
    readByte sp.cells (base + i) = some 0xE8#8 →
    HoldsBytes sp.cells (base + i + 1) (leBytes 4 a.toNat) →
    (∀ j < i, readByte sp.cells (base + j) ≠ some 0xE8#8) →
    (∀ j, i + 5 ≤ j → j + 10 < n → readByte sp.cells (base + j) ≠ some 0xE8#8) →
    ∃ m : Memory, e8Undo base n sp = .ok () { sp with cells := m } ∧
      HoldsBytes m (base + i + 1) (leBytes 4
        (if 0 ≤ a.toInt ∧ a.toInt < 12000000 then a - BitVec.ofNat 32 i
          else if a.toInt < 0 ∧ -(i : Int) ≤ a.toInt then a + 12000000#32 else a).toNat) ∧
      UnchangedOutside sp.cells m (base + i + 1) (base + i + 5)

/-! ### The context (45_context.md) -/

/-- R232, R233, R234, R235: CTX_OPEN completes when every check passes, with the context the rule gives. For lsize = 0
the index has the one entry S - T, where R233 gives both 0 and S - T (DESIGN CHOICE, notes/assumptions/17.md). -/
def Obligations.CtxOpenBuildsTheContext : Prop :=
  ∀ (s : State) (h : Word64) (lsize codec order : Nat) (cd : Codec), s.ctx.opened = false →
    s.args.get 0 = some h → ArgIs s 1 lsize → ArgIs s 2 codec → ArgIs s 3 order →
    (codec = 0 ∧ cd = .a ∧ order ∈ [12, 13, 14]) ∨ (codec = 1 ∧ cd = .b ∧ order = 15) → lsize < 2 ^ 63 →
    let n := (lsize + 2 ^ order - 1) / 2 ^ order
    let esz := if 0xFFFFFFFF < lsize then 8 else 4
    let bytes := storeBytesOf s.world h
    n ≤ s.world.params.maxChunks → (n - 1) * esz ≤ bytes.length →
    ((n - 1) * esz = 0 ∨ ioFails s.world s.ioCalls = false) →
    (∀ c < n, chunkStart bytes n esz c < chunkStart bytes n esz (c + 1) ∧
      chunkStart bytes n esz (c + 1) - chunkStart bytes n esz c ≤ min (2 ^ order) (lsize - c * 2 ^ order)) →
    ∃ cstart : List Nat,
      exec .ctxOpen s = .next (completed { s with
        ioCalls := s.ioCalls + (if (n - 1) * esz = 0 then 0 else 1)
        ctx := { s.ctx with
          opened := true, handle := h, lsize := lsize, codec := cd, order := order, nchunks := n,
          ssize := bytes.length, tsize := (n - 1) * esz, cstart := cstart, cacheValid := false, cacheChunk := 0 } }) ∧
      cstart.length = n + 1 ∧ ∀ k ≤ n, cstart.getD k 0 = chunkStart bytes n esz k

/-- R231, R232, R234: each check of CTX_OPEN that fails gives its status and leaves the context as it was. -/
def Obligations.CtxOpenRefusesBadMetadata : Prop :=
  ∀ s : State, (s.ctx.opened = true → exec .ctxOpen s = .next (reported 7#8 s)) ∧
    ∀ (h : Word64) (lsize codec order : Nat), s.ctx.opened = false → s.args.get 0 = some h → ArgIs s 1 lsize →
      ArgIs s 2 codec → ArgIs s 3 order →
      let legal := (codec = 0 ∧ order ∈ [12, 13, 14]) ∨ (codec = 1 ∧ order = 15)
      let n := (lsize + 2 ^ order - 1) / 2 ^ order
      let esz := if 0xFFFFFFFF < lsize then 8 else 4
      let bytes := storeBytesOf s.world h
      (¬ legal ∨ 2 ^ 63 ≤ lsize → exec .ctxOpen s = .next (reported 4#8 s)) ∧
      (legal → lsize < 2 ^ 63 → s.world.params.maxChunks < n → exec .ctxOpen s = .next (reported 8#8 s)) ∧
      (legal → lsize < 2 ^ 63 → n ≤ s.world.params.maxChunks → bytes.length < (n - 1) * esz →
        exec .ctxOpen s = .next (reported 4#8 s)) ∧
      (legal → lsize < 2 ^ 63 → n ≤ s.world.params.maxChunks → 0 < (n - 1) * esz → (n - 1) * esz ≤ bytes.length →
        ioFails s.world s.ioCalls = true →
        exec .ctxOpen s = .next (reported 5#8 { s with ioCalls := s.ioCalls + 1 })) ∧
      (legal → lsize < 2 ^ 63 → n ≤ s.world.params.maxChunks → (n - 1) * esz ≤ bytes.length →
        ((n - 1) * esz = 0 ∨ ioFails s.world s.ioCalls = false) →
        ¬ (∀ c < n, chunkStart bytes n esz c < chunkStart bytes n esz (c + 1) ∧
          chunkStart bytes n esz (c + 1) - chunkStart bytes n esz c ≤ min (2 ^ order) (lsize - c * 2 ^ order)) →
        exec .ctxOpen s = .next (reported 4#8 { s with
          ioCalls := s.ioCalls + (if (n - 1) * esz = 0 then 0 else 1) }))

/-- R237, R242: CTX_GET_SIZE completes with the logical size of an open context and reports E_STATE on a closed one;
CTX_CLOSE completes in every state, with open and cache_valid 0. -/
def Obligations.CtxGetSizeAndCtxCloseAnswerEveryState : Prop :=
  decode 0x00000031#32 = .ok .ctxGetSize ∧
  (∀ s : State, exec .ctxGetSize s = .next (
    if s.ctx.opened = true then completed { s with res0 := BitVec.ofNat 64 s.ctx.lsize } else reported 7#8 s)) ∧
  decode 0x00000033#32 = .ok .ctxClose ∧
  ∀ s : State, exec .ctxClose s = .next (completed { s with
    ctx := { s.ctx with opened := false, cacheValid := false } })

/-- R238, R246: the endings of CTX_READ that copy nothing: a closed context, the end of the file, a destination outside
LMEM, a count of 0. -/
def Obligations.CtxReadEndingsWithoutCopy : Prop :=
  ∀ s : State, (s.ctx.opened = false → exec .ctxRead s = .next (reported 7#8 { s with res0 := 0#64 })) ∧
    ∀ p cnt dst : Nat, s.ctx.opened = true → ArgIs s 0 p → ArgIs s 1 cnt → ArgIs s 2 dst →
      (s.ctx.lsize ≤ p → exec .ctxRead s = .next (completed { s with res0 := 0#64 })) ∧
      (p < s.ctx.lsize → 2 ^ s.world.params.addrBits < dst + min cnt (s.ctx.lsize - p) →
        exec .ctxRead s = .next (faulted .ctxRead 2#8 s)) ∧
      (p < s.ctx.lsize → cnt = 0 → dst ≤ 2 ^ s.world.params.addrBits →
        exec .ctxRead s = .next (completed { s with res0 := 0#64 }))

/-- R238, R239, R246: a CTX_READ inside the cached chunk completes with the clamped count, copies the cached bytes and
calls no collaborator. -/
def Obligations.CtxReadCopiesFromTheCache : Prop :=
  ∀ (s : State) (p cnt dst : Nat), s.ctx.opened = true → ArgIs s 0 p → ArgIs s 1 cnt → ArgIs s 2 dst →
    s.ctx.cacheValid = true → p < s.ctx.lsize → 1 ≤ cnt →
    let m := min cnt (s.ctx.lsize - p)
    let base := s.ctx.cacheChunk * 2 ^ s.ctx.order
    base ≤ p → p + m ≤ base + 2 ^ s.ctx.order → dst + m ≤ 2 ^ s.world.params.addrBits →
    Written s.ctx.cacheBuf 0 (min (2 ^ s.ctx.order) (s.ctx.lsize - base)) →
    ∃ l : Memory, exec .ctxRead s = .next (completed { s with lmem := l, res0 := BitVec.ofNat 64 m }) ∧
      (∀ j < m, readByte l (dst + j) = readByte s.ctx.cacheBuf (p - base + j)) ∧
      UnchangedOutside s.lmem l dst (dst + m)

/-- R236, R238, R239: a CTX_READ inside one raw chunk that is not cached completes with the store's own bytes, and the
cache holds that chunk. -/
def Obligations.CtxReadFetchesARawChunk : Prop :=
  ∀ (s : State) (p cnt dst : Nat), s.ctx.opened = true → ArgIs s 0 p → ArgIs s 1 cnt → ArgIs s 2 dst →
    p < s.ctx.lsize → 1 ≤ cnt →
    let m := min cnt (s.ctx.lsize - p)
    let c := p / 2 ^ s.ctx.order
    let base := c * 2 ^ s.ctx.order
    let first := s.ctx.tsize + s.ctx.cstart.getD c 0
    let size := min (2 ^ s.ctx.order) (s.ctx.lsize - base)
    ¬ (s.ctx.cacheValid = true ∧ s.ctx.cacheChunk = c) → p + m ≤ base + 2 ^ s.ctx.order →
    dst + m ≤ 2 ^ s.world.params.addrBits → s.ctx.cstart.getD (c + 1) 0 = s.ctx.cstart.getD c 0 + size →
    first + size ≤ (storeBytesOf s.world s.ctx.handle).length → ioFails s.world s.ioCalls = false →
    ∃ l buf : Memory,
      exec .ctxRead s = .next (completed { s with
        lmem := l, res0 := BitVec.ofNat 64 m, ioCalls := s.ioCalls + 1
        ctx := { s.ctx with cacheValid := true, cacheChunk := c, cacheBuf := buf } }) ∧
      (∀ j < m, readByte l (dst + j) = (storeBytesOf s.world s.ctx.handle)[first + (p - base) + j]?) ∧
      (∀ j < size, readByte buf j = (storeBytesOf s.world s.ctx.handle)[first + j]?) ∧
      UnchangedOutside s.lmem l dst (dst + m)

/-- R238, R239, R244, R245: a CTX_READ over any chunks, raw or compressed, cached or not, completes with the bytes that
decoding each chunk gives, so that overlapping reads agree and a read across chunks is its parts one after another. The
last chunk is cached, and at most one collaborator call is made for each chunk. -/
def Obligations.CtxReadCopiesTheLogicalBytes : Prop :=
  ∀ (s : State) (p cnt dst : Nat) (chunk : Nat → Memory), Inv s → CacheCoherent s → OracleNeverFails s.world →
    s.ctx.opened = true → ArgIs s 0 p → ArgIs s 1 cnt → ArgIs s 2 dst → p < s.ctx.lsize → 1 ≤ cnt →
    let m := min cnt (s.ctx.lsize - p)
    let size := 2 ^ s.ctx.order
    let last := (p + m - 1) / size
    dst + m ≤ 2 ^ s.world.params.addrBits →
    (∀ c, p / size ≤ c → c ≤ last → ChunkDecodes s.world s.ctx c (chunk c)) →
    ∃ (l buf : Memory) (calls : Nat),
      exec .ctxRead s = .next (completed { s with
        lmem := l, res0 := BitVec.ofNat 64 m, ioCalls := s.ioCalls + calls
        ctx := { s.ctx with cacheValid := true, cacheChunk := last, cacheBuf := buf } }) ∧
      calls ≤ last - p / size + 1 ∧
      (∀ j < m, readByte l (dst + j) = readByte (chunk ((p + j) / size)) ((p + j) % size)) ∧
      AgreeOn (chunk last) buf 0 (min size (s.ctx.lsize - last * size)) ∧
      UnchangedOutside s.lmem l dst (dst + m)

/-- R240, R262: a CTX_READ of an open context that ends in an error has RES0 = 0 and an empty cache; a collaborator error
on the first chunk is E_IO, after one call. -/
def Obligations.CtxReadFailureReportsZeroBytes : Prop :=
  (∀ s t : State, s.ctx.opened = true → s.fault = false → exec .ctxRead s = .next t → t.fault = false → t.code ≠ 0#8 →
    t.res0 = 0#64 ∧ t.ctx.cacheValid = false) ∧
  ∀ (s : State) (p cnt dst : Nat), s.ctx.opened = true → ArgIs s 0 p → ArgIs s 1 cnt → ArgIs s 2 dst →
    p < s.ctx.lsize → 1 ≤ cnt → dst + min cnt (s.ctx.lsize - p) ≤ 2 ^ s.world.params.addrBits →
    ¬ (s.ctx.cacheValid = true ∧ s.ctx.cacheChunk = p / 2 ^ s.ctx.order) → ioFails s.world s.ioCalls = true →
    exec .ctxRead s = .next (reported 5#8 { s with
      res0 := 0#64, ioCalls := s.ioCalls + 1, ctx := { s.ctx with cacheValid := false } })

/-- R264: whatever the store holds, CTX_OPEN and CTX_READ with their operands written end with one of their statuses,
never a fault, from every state with the machine's invariant. -/
def Obligations.CtxOpenAndReadNeverFaultOnInput : Prop :=
  ∀ s : State, Inv s →
    ((∀ k ∈ operandRegisters .ctxOpen, (s.args.get k).isSome = true) →
      ∃ t, exec .ctxOpen s = .next t ∧ t.fault = s.fault ∧
        t.code ∈ ([0#8, 4#8, 5#8, 7#8, 8#8] : List (BitVec 8))) ∧
    ∀ p cnt dst : Nat, ArgIs s 0 p → ArgIs s 1 cnt → ArgIs s 2 dst →
      dst + min cnt (s.ctx.lsize - p) ≤ 2 ^ s.world.params.addrBits →
      ∃ t, exec .ctxRead s = .next t ∧ t.fault = s.fault ∧
        t.code ∈ ([0#8, 1#8, 2#8, 3#8, 4#8, 5#8, 7#8] : List (BitVec 8))

/-- R68, R239: in every state the block can reach, a valid cache holds what decoding its chunk gives. -/
def Obligations.CacheStaysCoherent : Prop :=
  ∀ s t : State, Inv s → CacheCoherent s → step s = .next t → CacheCoherent t

/-- R244: the bytes CTX_READ writes do not depend on the cache: reading with the cache dropped gives the same. -/
def Obligations.CacheIsTransparent : Prop :=
  ∀ s : State, Inv s → CacheCoherent s → OracleNeverFails s.world →
    ∃ t u : State, exec .ctxRead s = .next t ∧
      exec .ctxRead { s with ctx := { s.ctx with cacheValid := false } } = .next u ∧
      t.lmem = u.lmem ∧ t.res0 = u.res0 ∧ t.code = u.code ∧ t.fault = u.fault ∧ t.cause = u.cause

/-! ### The host's accesses (10_state.md) -/

/-- R22, R24, R25, R27, R28, R29, R37: the read-only registers. VERSION reads 7; the status registers show their fields at
their bit positions, reserved bits 0; a 64-bit register reads whole or in halves; host writes to read-only registers and
reserved offsets are ignored (one of 64 bits at a 32-bit register is taken as a write to that register, DEDUCED,
notes/assumptions/12.md), and reserved offsets read 0. -/
def Obligations.ReadOnlyRegistersReadAndIgnoreWrites : Prop :=
  (∀ (s : State) (rest : List HostEvent),
      (s.host = .read32 0x00C :: rest → step s = .next { s with host := rest, hostData := 0x00000007#64 }) ∧
      (∀ v : Word32, s.host = .write32 0x00C v :: .read32 0x00C :: rest →
        ∃ t, step s = .next t ∧ step t = .next { s with host := rest, hostData := 0x00000007#64 })) ∧
  (∀ (s : State) (off v : Nat) (rest : List HostEvent), s.br0.bitsleft < 64 → s.ctx.order < 32 →
      s.host = .read32 off :: rest →
      (off, v) ∈
        [(0x000, 0), (0x004, s.code.toNat + 256 * s.busy.toNat + 512 * s.fault.toNat),
          (0x008, s.cause.toNat + 256 * s.faultOpc.toNat), (0x060, s.br0.bitbuf.toNat), (0x064, s.br0.bitsleft),
          (0x068, s.br0.valid.toNat + 2 * s.br0.padused.toNat),
          (0x070, s.ctx.opened.toNat + 2 * s.ctx.cacheValid.toNat + 4 * (if s.ctx.codec = .b then 1 else 0) +
            8 * s.ctx.order)] →
      step s = .next { s with host := rest, hostData := BitVec.ofNat 64 v }) ∧
  (∀ (s : State) (off : Nat) (v : Word64) (rest : List HostEvent),
      (off, v) ∈
        [(0x040, s.res0), (0x048, BitVec.ofNat 64 s.br0.start), (0x050, BitVec.ofNat 64 s.br0.stop),
          (0x058, BitVec.ofNat 64 s.br0.next), (0x078, BitVec.ofNat 64 s.ctx.lsize),
          (0x080, BitVec.ofNat 64 s.ctx.nchunks), (0x088, BitVec.ofNat 64 s.ctx.cacheChunk),
          (0x090, BitVec.ofNat 64 s.ctx.ssize)] →
      (s.host = .read64 off :: rest → step s = .next { s with host := rest, hostData := v }) ∧
      (s.host = .read32 off :: rest →
        step s = .next { s with host := rest, hostData := BitVec.ofNat 64 (v.toNat % 2 ^ 32) }) ∧
      (s.host = .read32 (off + 4) :: rest →
        step s = .next { s with host := rest, hostData := BitVec.ofNat 64 (v.toNat / 2 ^ 32) })) ∧
    ∀ (s : State) (off : Nat) (rest : List HostEvent),
      (∀ v : Word32, off ∈ [0x004, 0x008, 0x00C, 0x040, 0x044, 0x048, 0x04C, 0x050, 0x054, 0x058, 0x05C, 0x060, 0x064,
          0x068, 0x070, 0x078, 0x07C, 0x080, 0x084, 0x088, 0x08C, 0x090, 0x094] ∨ (0x098 ≤ off ∧ off ≤ 0x0FF) →
        s.host = .write32 off v :: rest → step s = .next { s with host := rest }) ∧
      (∀ v : Word64, off ∈ [0x004, 0x008, 0x00C, 0x040, 0x048, 0x050, 0x058, 0x060, 0x064, 0x068, 0x070, 0x078,
          0x080, 0x088, 0x090] ∨ (0x098 ≤ off ∧ off ≤ 0x0FF) →
        s.host = .write64 off v :: rest → step s = .next { s with host := rest }) ∧
      (0x098 ≤ off → off ≤ 0x0FF → s.host = .read32 off :: rest →
        step s = .next { s with host := rest, hostData := 0#64 })

/-- R22, R26, R50, R53, R62, R65: a 64-bit host write gives an ARG register its value, which later reads return whole or in
halves; a host store to LMEM outside commands changes exactly its bytes, and a host load returns a byte's value; a read
changes no more than what the last read returned, so that reading again returns the same. -/
def Obligations.HostAccessesArgRegistersAndLmem : Prop :=
  (∀ (s : State) (k : Fin 6) (v : Word64) (rest : List HostEvent), s.busy = false →
    s.host = .write64 (0x010 + 8 * k.val) v :: rest →
    step s = .next { s with args := s.args.set k (some v), argHalf := s.argHalf.set k none, host := rest }) ∧
  (∀ (s : State) (k : Fin 6) (v : Word64) (rest : List HostEvent), s.args.get k = some v →
    (s.host = .read64 (0x010 + 8 * k.val) :: rest → step s = .next { s with host := rest, hostData := v }) ∧
    (s.host = .read32 (0x010 + 8 * k.val) :: rest →
      step s = .next { s with host := rest, hostData := BitVec.ofNat 64 (v.toNat % 2 ^ 32) }) ∧
    (s.host = .read32 (0x010 + 8 * k.val + 4) :: rest →
      step s = .next { s with host := rest, hostData := BitVec.ofNat 64 (v.toNat / 2 ^ 32) })) ∧
  (∀ (s : State) (a : Nat) (rest : List HostEvent),
      (∀ bs : List Byte, s.busy = false → a + bs.length ≤ 2 ^ s.world.params.addrBits →
        s.host = .lmemWrite a bs :: rest →
        ∃ m : Memory, step s = .next { s with host := rest, lmem := m } ∧ HoldsBytes m a bs ∧
          UnchangedOutside s.lmem m a (a + bs.length)) ∧
      (∀ b : Byte, a < 2 ^ s.world.params.addrBits → readByte s.lmem a = some b → s.host = .lmemRead a :: rest →
        step s = .next { s with host := rest, hostData := b.setWidth 64 })) ∧
  ∀ (s t : State) (e : HostEvent) (rest : List HostEvent),
    ((∃ off, e = .read32 off) ∨ (∃ off, e = .read64 off) ∨ ∃ a, e = .lmemRead a) → s.host = e :: rest → step s = .next t →
    t = { s with host := rest, hostData := t.hostData } ∧ step { t with host := e :: rest } = .next t
end

