-- ==== Sys2Proof/Laws/State.lean ====
section
/-!
SUPPORT. One lemma per field per update of the state, of a bit-reader record and of the context, each true by
unfolding, so that no later proof unfolds a record update.
-/

namespace Sys2Proof.Machine

/-! ### setBr0 -/

@[simp] theorem setBr0_world (s : State) (r : BitReader) : (s.setBr0 r).world = s.world := rfl
@[simp] theorem setBr0_lmem (s : State) (r : BitReader) : (s.setBr0 r).lmem = s.lmem := rfl
@[simp] theorem setBr0_code (s : State) (r : BitReader) : (s.setBr0 r).code = s.code := rfl
@[simp] theorem setBr0_busy (s : State) (r : BitReader) : (s.setBr0 r).busy = s.busy := rfl
@[simp] theorem setBr0_fault (s : State) (r : BitReader) : (s.setBr0 r).fault = s.fault := rfl
@[simp] theorem setBr0_cause (s : State) (r : BitReader) : (s.setBr0 r).cause = s.cause := rfl
@[simp] theorem setBr0_faultOpc (s : State) (r : BitReader) : (s.setBr0 r).faultOpc = s.faultOpc := rfl
@[simp] theorem setBr0_args (s : State) (r : BitReader) : (s.setBr0 r).args = s.args := rfl
@[simp] theorem setBr0_argHalf (s : State) (r : BitReader) : (s.setBr0 r).argHalf = s.argHalf := rfl
@[simp] theorem setBr0_res0 (s : State) (r : BitReader) : (s.setBr0 r).res0 = s.res0 := rfl
@[simp] theorem setBr0_br0 (s : State) (r : BitReader) : (s.setBr0 r).br0 = r := rfl
@[simp] theorem setBr0_ctx (s : State) (r : BitReader) : (s.setBr0 r).ctx = s.ctx := rfl
@[simp] theorem setBr0_host (s : State) (r : BitReader) : (s.setBr0 r).host = s.host := rfl
@[simp] theorem setBr0_hostData (s : State) (r : BitReader) : (s.setBr0 r).hostData = s.hostData := rfl
@[simp] theorem setBr0_ioCalls (s : State) (r : BitReader) : (s.setBr0 r).ioCalls = s.ioCalls := rfl
@[simp] theorem setBr0_resets (s : State) (r : BitReader) : (s.setBr0 r).resets = s.resets := rfl

/-! ### setCtx -/

@[simp] theorem setCtx_world (s : State) (c : Context) : (s.setCtx c).world = s.world := rfl
@[simp] theorem setCtx_lmem (s : State) (c : Context) : (s.setCtx c).lmem = s.lmem := rfl
@[simp] theorem setCtx_code (s : State) (c : Context) : (s.setCtx c).code = s.code := rfl
@[simp] theorem setCtx_busy (s : State) (c : Context) : (s.setCtx c).busy = s.busy := rfl
@[simp] theorem setCtx_fault (s : State) (c : Context) : (s.setCtx c).fault = s.fault := rfl
@[simp] theorem setCtx_cause (s : State) (c : Context) : (s.setCtx c).cause = s.cause := rfl
@[simp] theorem setCtx_faultOpc (s : State) (c : Context) : (s.setCtx c).faultOpc = s.faultOpc := rfl
@[simp] theorem setCtx_args (s : State) (c : Context) : (s.setCtx c).args = s.args := rfl
@[simp] theorem setCtx_argHalf (s : State) (c : Context) : (s.setCtx c).argHalf = s.argHalf := rfl
@[simp] theorem setCtx_res0 (s : State) (c : Context) : (s.setCtx c).res0 = s.res0 := rfl
@[simp] theorem setCtx_br0 (s : State) (c : Context) : (s.setCtx c).br0 = s.br0 := rfl
@[simp] theorem setCtx_ctx (s : State) (c : Context) : (s.setCtx c).ctx = c := rfl
@[simp] theorem setCtx_host (s : State) (c : Context) : (s.setCtx c).host = s.host := rfl
@[simp] theorem setCtx_hostData (s : State) (c : Context) : (s.setCtx c).hostData = s.hostData := rfl
@[simp] theorem setCtx_ioCalls (s : State) (c : Context) : (s.setCtx c).ioCalls = s.ioCalls := rfl
@[simp] theorem setCtx_resets (s : State) (c : Context) : (s.setCtx c).resets = s.resets := rfl

/-! ### setLmem -/

@[simp] theorem setLmem_world (s : State) (m : Memory) : (s.setLmem m).world = s.world := rfl
@[simp] theorem setLmem_lmem (s : State) (m : Memory) : (s.setLmem m).lmem = m := rfl
@[simp] theorem setLmem_code (s : State) (m : Memory) : (s.setLmem m).code = s.code := rfl
@[simp] theorem setLmem_busy (s : State) (m : Memory) : (s.setLmem m).busy = s.busy := rfl
@[simp] theorem setLmem_fault (s : State) (m : Memory) : (s.setLmem m).fault = s.fault := rfl
@[simp] theorem setLmem_cause (s : State) (m : Memory) : (s.setLmem m).cause = s.cause := rfl
@[simp] theorem setLmem_faultOpc (s : State) (m : Memory) : (s.setLmem m).faultOpc = s.faultOpc := rfl
@[simp] theorem setLmem_args (s : State) (m : Memory) : (s.setLmem m).args = s.args := rfl
@[simp] theorem setLmem_argHalf (s : State) (m : Memory) : (s.setLmem m).argHalf = s.argHalf := rfl
@[simp] theorem setLmem_res0 (s : State) (m : Memory) : (s.setLmem m).res0 = s.res0 := rfl
@[simp] theorem setLmem_br0 (s : State) (m : Memory) : (s.setLmem m).br0 = s.br0 := rfl
@[simp] theorem setLmem_ctx (s : State) (m : Memory) : (s.setLmem m).ctx = s.ctx := rfl
@[simp] theorem setLmem_host (s : State) (m : Memory) : (s.setLmem m).host = s.host := rfl
@[simp] theorem setLmem_hostData (s : State) (m : Memory) : (s.setLmem m).hostData = s.hostData := rfl
@[simp] theorem setLmem_ioCalls (s : State) (m : Memory) : (s.setLmem m).ioCalls = s.ioCalls := rfl
@[simp] theorem setLmem_resets (s : State) (m : Memory) : (s.setLmem m).resets = s.resets := rfl

/-! ### setRes0 -/

@[simp] theorem setRes0_world (s : State) (v : Word64) : (s.setRes0 v).world = s.world := rfl
@[simp] theorem setRes0_lmem (s : State) (v : Word64) : (s.setRes0 v).lmem = s.lmem := rfl
@[simp] theorem setRes0_code (s : State) (v : Word64) : (s.setRes0 v).code = s.code := rfl
@[simp] theorem setRes0_busy (s : State) (v : Word64) : (s.setRes0 v).busy = s.busy := rfl
@[simp] theorem setRes0_fault (s : State) (v : Word64) : (s.setRes0 v).fault = s.fault := rfl
@[simp] theorem setRes0_cause (s : State) (v : Word64) : (s.setRes0 v).cause = s.cause := rfl
@[simp] theorem setRes0_faultOpc (s : State) (v : Word64) : (s.setRes0 v).faultOpc = s.faultOpc := rfl
@[simp] theorem setRes0_args (s : State) (v : Word64) : (s.setRes0 v).args = s.args := rfl
@[simp] theorem setRes0_argHalf (s : State) (v : Word64) : (s.setRes0 v).argHalf = s.argHalf := rfl
@[simp] theorem setRes0_res0 (s : State) (v : Word64) : (s.setRes0 v).res0 = v := rfl
@[simp] theorem setRes0_br0 (s : State) (v : Word64) : (s.setRes0 v).br0 = s.br0 := rfl
@[simp] theorem setRes0_ctx (s : State) (v : Word64) : (s.setRes0 v).ctx = s.ctx := rfl
@[simp] theorem setRes0_host (s : State) (v : Word64) : (s.setRes0 v).host = s.host := rfl
@[simp] theorem setRes0_hostData (s : State) (v : Word64) : (s.setRes0 v).hostData = s.hostData := rfl
@[simp] theorem setRes0_ioCalls (s : State) (v : Word64) : (s.setRes0 v).ioCalls = s.ioCalls := rfl
@[simp] theorem setRes0_resets (s : State) (v : Word64) : (s.setRes0 v).resets = s.resets := rfl

/-! ### countIo -/

@[simp] theorem countIo_world (s : State) : s.countIo.world = s.world := rfl
@[simp] theorem countIo_lmem (s : State) : s.countIo.lmem = s.lmem := rfl
@[simp] theorem countIo_code (s : State) : s.countIo.code = s.code := rfl
@[simp] theorem countIo_busy (s : State) : s.countIo.busy = s.busy := rfl
@[simp] theorem countIo_fault (s : State) : s.countIo.fault = s.fault := rfl
@[simp] theorem countIo_cause (s : State) : s.countIo.cause = s.cause := rfl
@[simp] theorem countIo_faultOpc (s : State) : s.countIo.faultOpc = s.faultOpc := rfl
@[simp] theorem countIo_args (s : State) : s.countIo.args = s.args := rfl
@[simp] theorem countIo_argHalf (s : State) : s.countIo.argHalf = s.argHalf := rfl
@[simp] theorem countIo_res0 (s : State) : s.countIo.res0 = s.res0 := rfl
@[simp] theorem countIo_br0 (s : State) : s.countIo.br0 = s.br0 := rfl
@[simp] theorem countIo_ctx (s : State) : s.countIo.ctx = s.ctx := rfl
@[simp] theorem countIo_host (s : State) : s.countIo.host = s.host := rfl
@[simp] theorem countIo_hostData (s : State) : s.countIo.hostData = s.hostData := rfl
@[simp] theorem countIo_ioCalls (s : State) : s.countIo.ioCalls = s.ioCalls + 1 := rfl
@[simp] theorem countIo_resets (s : State) : s.countIo.resets = s.resets := rfl

/-! ### accept -/

@[simp] theorem accept_world (s : State) : s.accept.world = s.world := rfl
@[simp] theorem accept_lmem (s : State) : s.accept.lmem = s.lmem := rfl
@[simp] theorem accept_code (s : State) : s.accept.code = s.code := rfl
@[simp] theorem accept_busy (s : State) : s.accept.busy = true := rfl
@[simp] theorem accept_fault (s : State) : s.accept.fault = s.fault := rfl
@[simp] theorem accept_cause (s : State) : s.accept.cause = s.cause := rfl
@[simp] theorem accept_faultOpc (s : State) : s.accept.faultOpc = s.faultOpc := rfl
@[simp] theorem accept_args (s : State) : s.accept.args = s.args := rfl
@[simp] theorem accept_argHalf (s : State) : s.accept.argHalf = s.argHalf := rfl
@[simp] theorem accept_res0 (s : State) : s.accept.res0 = s.res0 := rfl
@[simp] theorem accept_br0 (s : State) : s.accept.br0 = s.br0 := rfl
@[simp] theorem accept_ctx (s : State) : s.accept.ctx = s.ctx := rfl
@[simp] theorem accept_host (s : State) : s.accept.host = s.host := rfl
@[simp] theorem accept_hostData (s : State) : s.accept.hostData = s.hostData := rfl
@[simp] theorem accept_ioCalls (s : State) : s.accept.ioCalls = s.ioCalls := rfl
@[simp] theorem accept_resets (s : State) : s.accept.resets = s.resets := rfl

/-! ### finish -/

@[simp] theorem finish_world (s : State) (e : Status) : (s.finish e).world = s.world := rfl
@[simp] theorem finish_lmem (s : State) (e : Status) : (s.finish e).lmem = s.lmem := rfl
@[simp] theorem finish_code (s : State) (e : Status) : (s.finish e).code = statusCode e := rfl
@[simp] theorem finish_busy (s : State) (e : Status) : (s.finish e).busy = false := rfl
@[simp] theorem finish_fault (s : State) (e : Status) : (s.finish e).fault = s.fault := rfl
@[simp] theorem finish_cause (s : State) (e : Status) : (s.finish e).cause = s.cause := rfl
@[simp] theorem finish_faultOpc (s : State) (e : Status) : (s.finish e).faultOpc = s.faultOpc := rfl
@[simp] theorem finish_args (s : State) (e : Status) : (s.finish e).args = s.args := rfl
@[simp] theorem finish_argHalf (s : State) (e : Status) : (s.finish e).argHalf = s.argHalf := rfl
@[simp] theorem finish_res0 (s : State) (e : Status) : (s.finish e).res0 = s.res0 := rfl
@[simp] theorem finish_br0 (s : State) (e : Status) : (s.finish e).br0 = s.br0 := rfl
@[simp] theorem finish_ctx (s : State) (e : Status) : (s.finish e).ctx = s.ctx := rfl
@[simp] theorem finish_host (s : State) (e : Status) : (s.finish e).host = s.host := rfl
@[simp] theorem finish_hostData (s : State) (e : Status) : (s.finish e).hostData = s.hostData := rfl
@[simp] theorem finish_ioCalls (s : State) (e : Status) : (s.finish e).ioCalls = s.ioCalls := rfl
@[simp] theorem finish_resets (s : State) (e : Status) : (s.finish e).resets = s.resets := rfl

/-! ### takeFault -/

@[simp] theorem takeFault_world (s : State) (c : Cause) (o : BitVec 8) : (s.takeFault c o).world = s.world := rfl
@[simp] theorem takeFault_lmem (s : State) (c : Cause) (o : BitVec 8) : (s.takeFault c o).lmem = s.lmem := rfl
@[simp] theorem takeFault_code (s : State) (c : Cause) (o : BitVec 8) : (s.takeFault c o).code = s.code := rfl
@[simp] theorem takeFault_busy (s : State) (c : Cause) (o : BitVec 8) : (s.takeFault c o).busy = false := rfl
@[simp] theorem takeFault_fault (s : State) (c : Cause) (o : BitVec 8) : (s.takeFault c o).fault = true := rfl
@[simp] theorem takeFault_cause (s : State) (c : Cause) (o : BitVec 8) : (s.takeFault c o).cause = causeCode c := rfl
@[simp] theorem takeFault_faultOpc (s : State) (c : Cause) (o : BitVec 8) : (s.takeFault c o).faultOpc = o := rfl
@[simp] theorem takeFault_args (s : State) (c : Cause) (o : BitVec 8) : (s.takeFault c o).args = s.args := rfl
@[simp] theorem takeFault_argHalf (s : State) (c : Cause) (o : BitVec 8) : (s.takeFault c o).argHalf = s.argHalf := rfl
@[simp] theorem takeFault_res0 (s : State) (c : Cause) (o : BitVec 8) : (s.takeFault c o).res0 = s.res0 := rfl
@[simp] theorem takeFault_br0 (s : State) (c : Cause) (o : BitVec 8) : (s.takeFault c o).br0 = s.br0 := rfl
@[simp] theorem takeFault_ctx (s : State) (c : Cause) (o : BitVec 8) : (s.takeFault c o).ctx = s.ctx := rfl
@[simp] theorem takeFault_host (s : State) (c : Cause) (o : BitVec 8) : (s.takeFault c o).host = s.host := rfl
@[simp] theorem takeFault_hostData (s : State) (c : Cause) (o : BitVec 8) : (s.takeFault c o).hostData = s.hostData := rfl
@[simp] theorem takeFault_ioCalls (s : State) (c : Cause) (o : BitVec 8) : (s.takeFault c o).ioCalls = s.ioCalls := rfl
@[simp] theorem takeFault_resets (s : State) (c : Cause) (o : BitVec 8) : (s.takeFault c o).resets = s.resets := rfl

/-! ### hostReads -/

@[simp] theorem hostReads_world (s : State) (v : Word64) : (s.hostReads v).world = s.world := rfl
@[simp] theorem hostReads_lmem (s : State) (v : Word64) : (s.hostReads v).lmem = s.lmem := rfl
@[simp] theorem hostReads_code (s : State) (v : Word64) : (s.hostReads v).code = s.code := rfl
@[simp] theorem hostReads_busy (s : State) (v : Word64) : (s.hostReads v).busy = s.busy := rfl
@[simp] theorem hostReads_fault (s : State) (v : Word64) : (s.hostReads v).fault = s.fault := rfl
@[simp] theorem hostReads_cause (s : State) (v : Word64) : (s.hostReads v).cause = s.cause := rfl
@[simp] theorem hostReads_faultOpc (s : State) (v : Word64) : (s.hostReads v).faultOpc = s.faultOpc := rfl
@[simp] theorem hostReads_args (s : State) (v : Word64) : (s.hostReads v).args = s.args := rfl
@[simp] theorem hostReads_argHalf (s : State) (v : Word64) : (s.hostReads v).argHalf = s.argHalf := rfl
@[simp] theorem hostReads_res0 (s : State) (v : Word64) : (s.hostReads v).res0 = s.res0 := rfl
@[simp] theorem hostReads_br0 (s : State) (v : Word64) : (s.hostReads v).br0 = s.br0 := rfl
@[simp] theorem hostReads_ctx (s : State) (v : Word64) : (s.hostReads v).ctx = s.ctx := rfl
@[simp] theorem hostReads_host (s : State) (v : Word64) : (s.hostReads v).host = s.host := rfl
@[simp] theorem hostReads_hostData (s : State) (v : Word64) : (s.hostReads v).hostData = v := rfl
@[simp] theorem hostReads_ioCalls (s : State) (v : Word64) : (s.hostReads v).ioCalls = s.ioCalls := rfl
@[simp] theorem hostReads_resets (s : State) (v : Word64) : (s.hostReads v).resets = s.resets := rfl

/-! ### setArg -/

@[simp] theorem setArg_world (s : State) (i : Fin 6) (v : Word64) : (s.setArg i v).world = s.world := rfl
@[simp] theorem setArg_lmem (s : State) (i : Fin 6) (v : Word64) : (s.setArg i v).lmem = s.lmem := rfl
@[simp] theorem setArg_code (s : State) (i : Fin 6) (v : Word64) : (s.setArg i v).code = s.code := rfl
@[simp] theorem setArg_busy (s : State) (i : Fin 6) (v : Word64) : (s.setArg i v).busy = s.busy := rfl
@[simp] theorem setArg_fault (s : State) (i : Fin 6) (v : Word64) : (s.setArg i v).fault = s.fault := rfl
@[simp] theorem setArg_cause (s : State) (i : Fin 6) (v : Word64) : (s.setArg i v).cause = s.cause := rfl
@[simp] theorem setArg_faultOpc (s : State) (i : Fin 6) (v : Word64) : (s.setArg i v).faultOpc = s.faultOpc := rfl
@[simp] theorem setArg_args (s : State) (i : Fin 6) (v : Word64) : (s.setArg i v).args = s.args.set i (some v) := rfl
@[simp] theorem setArg_argHalf (s : State) (i : Fin 6) (v : Word64) : (s.setArg i v).argHalf = s.argHalf.set i none := rfl
@[simp] theorem setArg_res0 (s : State) (i : Fin 6) (v : Word64) : (s.setArg i v).res0 = s.res0 := rfl
@[simp] theorem setArg_br0 (s : State) (i : Fin 6) (v : Word64) : (s.setArg i v).br0 = s.br0 := rfl
@[simp] theorem setArg_ctx (s : State) (i : Fin 6) (v : Word64) : (s.setArg i v).ctx = s.ctx := rfl
@[simp] theorem setArg_host (s : State) (i : Fin 6) (v : Word64) : (s.setArg i v).host = s.host := rfl
@[simp] theorem setArg_hostData (s : State) (i : Fin 6) (v : Word64) : (s.setArg i v).hostData = s.hostData := rfl
@[simp] theorem setArg_ioCalls (s : State) (i : Fin 6) (v : Word64) : (s.setArg i v).ioCalls = s.ioCalls := rfl
@[simp] theorem setArg_resets (s : State) (i : Fin 6) (v : Word64) : (s.setArg i v).resets = s.resets := rfl

/-! ### setArgHalf -/

@[simp] theorem setArgHalf_world (s : State) (i : Fin 6) (h : ArgHalf) : (s.setArgHalf i h).world = s.world := rfl
@[simp] theorem setArgHalf_lmem (s : State) (i : Fin 6) (h : ArgHalf) : (s.setArgHalf i h).lmem = s.lmem := rfl
@[simp] theorem setArgHalf_code (s : State) (i : Fin 6) (h : ArgHalf) : (s.setArgHalf i h).code = s.code := rfl
@[simp] theorem setArgHalf_busy (s : State) (i : Fin 6) (h : ArgHalf) : (s.setArgHalf i h).busy = s.busy := rfl
@[simp] theorem setArgHalf_fault (s : State) (i : Fin 6) (h : ArgHalf) : (s.setArgHalf i h).fault = s.fault := rfl
@[simp] theorem setArgHalf_cause (s : State) (i : Fin 6) (h : ArgHalf) : (s.setArgHalf i h).cause = s.cause := rfl
@[simp] theorem setArgHalf_faultOpc (s : State) (i : Fin 6) (h : ArgHalf) : (s.setArgHalf i h).faultOpc = s.faultOpc := rfl
@[simp] theorem setArgHalf_args (s : State) (i : Fin 6) (h : ArgHalf) : (s.setArgHalf i h).args = s.args := rfl
@[simp] theorem setArgHalf_argHalf (s : State) (i : Fin 6) (h : ArgHalf) : (s.setArgHalf i h).argHalf = s.argHalf.set i (some h) := rfl
@[simp] theorem setArgHalf_res0 (s : State) (i : Fin 6) (h : ArgHalf) : (s.setArgHalf i h).res0 = s.res0 := rfl
@[simp] theorem setArgHalf_br0 (s : State) (i : Fin 6) (h : ArgHalf) : (s.setArgHalf i h).br0 = s.br0 := rfl
@[simp] theorem setArgHalf_ctx (s : State) (i : Fin 6) (h : ArgHalf) : (s.setArgHalf i h).ctx = s.ctx := rfl
@[simp] theorem setArgHalf_host (s : State) (i : Fin 6) (h : ArgHalf) : (s.setArgHalf i h).host = s.host := rfl
@[simp] theorem setArgHalf_hostData (s : State) (i : Fin 6) (h : ArgHalf) : (s.setArgHalf i h).hostData = s.hostData := rfl
@[simp] theorem setArgHalf_ioCalls (s : State) (i : Fin 6) (h : ArgHalf) : (s.setArgHalf i h).ioCalls = s.ioCalls := rfl
@[simp] theorem setArgHalf_resets (s : State) (i : Fin 6) (h : ArgHalf) : (s.setArgHalf i h).resets = s.resets := rfl

/-! ### nextActions -/

@[simp] theorem nextActions_world (s : State) (q : List HostEvent) : (s.nextActions q).world = s.world := rfl
@[simp] theorem nextActions_lmem (s : State) (q : List HostEvent) : (s.nextActions q).lmem = s.lmem := rfl
@[simp] theorem nextActions_code (s : State) (q : List HostEvent) : (s.nextActions q).code = s.code := rfl
@[simp] theorem nextActions_busy (s : State) (q : List HostEvent) : (s.nextActions q).busy = s.busy := rfl
@[simp] theorem nextActions_fault (s : State) (q : List HostEvent) : (s.nextActions q).fault = s.fault := rfl
@[simp] theorem nextActions_cause (s : State) (q : List HostEvent) : (s.nextActions q).cause = s.cause := rfl
@[simp] theorem nextActions_faultOpc (s : State) (q : List HostEvent) : (s.nextActions q).faultOpc = s.faultOpc := rfl
@[simp] theorem nextActions_args (s : State) (q : List HostEvent) : (s.nextActions q).args = s.args := rfl
@[simp] theorem nextActions_argHalf (s : State) (q : List HostEvent) : (s.nextActions q).argHalf = s.argHalf := rfl
@[simp] theorem nextActions_res0 (s : State) (q : List HostEvent) : (s.nextActions q).res0 = s.res0 := rfl
@[simp] theorem nextActions_br0 (s : State) (q : List HostEvent) : (s.nextActions q).br0 = s.br0 := rfl
@[simp] theorem nextActions_ctx (s : State) (q : List HostEvent) : (s.nextActions q).ctx = s.ctx := rfl
@[simp] theorem nextActions_host (s : State) (q : List HostEvent) : (s.nextActions q).host = q := rfl
@[simp] theorem nextActions_hostData (s : State) (q : List HostEvent) : (s.nextActions q).hostData = s.hostData := rfl
@[simp] theorem nextActions_ioCalls (s : State) (q : List HostEvent) : (s.nextActions q).ioCalls = s.ioCalls := rfl
@[simp] theorem nextActions_resets (s : State) (q : List HostEvent) : (s.nextActions q).resets = s.resets := rfl

/-! ### resetBlock -/

@[simp] theorem resetBlock_world (s : State) : s.resetBlock.world = s.world := rfl
@[simp] theorem resetBlock_lmem (s : State) : s.resetBlock.lmem = [] := rfl
@[simp] theorem resetBlock_code (s : State) : s.resetBlock.code = 0#8 := rfl
@[simp] theorem resetBlock_busy (s : State) : s.resetBlock.busy = false := rfl
@[simp] theorem resetBlock_fault (s : State) : s.resetBlock.fault = false := rfl
@[simp] theorem resetBlock_cause (s : State) : s.resetBlock.cause = 0#8 := rfl
@[simp] theorem resetBlock_faultOpc (s : State) : s.resetBlock.faultOpc = 0#8 := rfl
@[simp] theorem resetBlock_args (s : State) : s.resetBlock.args = Vector.replicate 6 none := rfl
@[simp] theorem resetBlock_argHalf (s : State) : s.resetBlock.argHalf = Vector.replicate 6 none := rfl
@[simp] theorem resetBlock_res0 (s : State) : s.resetBlock.res0 = 0#64 := rfl
@[simp] theorem resetBlock_br0 (s : State) : s.resetBlock.br0 = BitReader.reset := rfl
@[simp] theorem resetBlock_ctx (s : State) : s.resetBlock.ctx = Context.reset := rfl
@[simp] theorem resetBlock_host (s : State) : s.resetBlock.host = s.host := rfl
@[simp] theorem resetBlock_hostData (s : State) : s.resetBlock.hostData = s.hostData := rfl
@[simp] theorem resetBlock_ioCalls (s : State) : s.resetBlock.ioCalls = s.ioCalls := rfl
@[simp] theorem resetBlock_resets (s : State) : s.resetBlock.resets = s.resets + 1 := rfl

/-! ### initReader -/

@[simp] theorem initReader_start (a n : Nat) : (initReader a n).start = a := rfl
@[simp] theorem initReader_stop (a n : Nat) : (initReader a n).stop = a + n := rfl
@[simp] theorem initReader_next (a n : Nat) : (initReader a n).next = a := rfl
@[simp] theorem initReader_bitbuf (a n : Nat) : (initReader a n).bitbuf = 0#32 := rfl
@[simp] theorem initReader_bitsleft (a n : Nat) : (initReader a n).bitsleft = 0 := rfl
@[simp] theorem initReader_realbits (a n : Nat) : (initReader a n).realbits = 0 := rfl
@[simp] theorem initReader_padused (a n : Nat) : (initReader a n).padused = false := rfl
@[simp] theorem initReader_valid (a n : Nat) : (initReader a n).valid = true := rfl

/-! ### padReader -/

@[simp] theorem padReader_start (r : BitReader) : (padReader r).start = r.start := rfl
@[simp] theorem padReader_stop (r : BitReader) : (padReader r).stop = r.stop := rfl
@[simp] theorem padReader_next (r : BitReader) : (padReader r).next = r.next := rfl
@[simp] theorem padReader_bitbuf (r : BitReader) : (padReader r).bitbuf = r.bitbuf := rfl
@[simp] theorem padReader_bitsleft (r : BitReader) : (padReader r).bitsleft = 32 := rfl
@[simp] theorem padReader_realbits (r : BitReader) : (padReader r).realbits = r.realbits := rfl
@[simp] theorem padReader_padused (r : BitReader) : (padReader r).padused = r.padused := rfl
@[simp] theorem padReader_valid (r : BitReader) : (padReader r).valid = r.valid := rfl

/-! ### refillReader -/

@[simp] theorem refillReader_start (r : BitReader) (u : Nat) : (refillReader r u).start = r.start := rfl
@[simp] theorem refillReader_stop (r : BitReader) (u : Nat) : (refillReader r u).stop = r.stop := rfl
@[simp] theorem refillReader_next (r : BitReader) (u : Nat) : (refillReader r u).next = r.next + 2 := rfl
@[simp] theorem refillReader_bitbuf (r : BitReader) (u : Nat) : (refillReader r u).bitbuf = r.bitbuf ||| (BitVec.ofNat 32 u <<< (16 - r.bitsleft)) := rfl
@[simp] theorem refillReader_bitsleft (r : BitReader) (u : Nat) : (refillReader r u).bitsleft = r.bitsleft + 16 := rfl
@[simp] theorem refillReader_realbits (r : BitReader) (u : Nat) : (refillReader r u).realbits = r.realbits + 16 := rfl
@[simp] theorem refillReader_padused (r : BitReader) (u : Nat) : (refillReader r u).padused = r.padused := rfl
@[simp] theorem refillReader_valid (r : BitReader) (u : Nat) : (refillReader r u).valid = r.valid := rfl

/-! ### dropBits -/

@[simp] theorem dropBits_start (r : BitReader) (n : Nat) : (dropBits r n).start = r.start := rfl
@[simp] theorem dropBits_stop (r : BitReader) (n : Nat) : (dropBits r n).stop = r.stop := rfl
@[simp] theorem dropBits_next (r : BitReader) (n : Nat) : (dropBits r n).next = r.next := rfl
@[simp] theorem dropBits_bitbuf (r : BitReader) (n : Nat) : (dropBits r n).bitbuf = r.bitbuf <<< n := rfl
@[simp] theorem dropBits_bitsleft (r : BitReader) (n : Nat) : (dropBits r n).bitsleft = r.bitsleft - n := rfl
@[simp] theorem dropBits_realbits (r : BitReader) (n : Nat) : (dropBits r n).realbits = r.realbits - n := rfl
@[simp] theorem dropBits_padused (r : BitReader) (n : Nat) : (dropBits r n).padused = padusedAfter r n := rfl
@[simp] theorem dropBits_valid (r : BitReader) (n : Nat) : (dropBits r n).valid = r.valid := rfl

/-! ### advance -/

@[simp] theorem advance_start (r : BitReader) (k : Nat) : (advance k r).start = r.start := rfl
@[simp] theorem advance_stop (r : BitReader) (k : Nat) : (advance k r).stop = r.stop := rfl
@[simp] theorem advance_next (r : BitReader) (k : Nat) : (advance k r).next = r.next + k := rfl
@[simp] theorem advance_bitbuf (r : BitReader) (k : Nat) : (advance k r).bitbuf = r.bitbuf := rfl
@[simp] theorem advance_bitsleft (r : BitReader) (k : Nat) : (advance k r).bitsleft = r.bitsleft := rfl
@[simp] theorem advance_realbits (r : BitReader) (k : Nat) : (advance k r).realbits = r.realbits := rfl
@[simp] theorem advance_padused (r : BitReader) (k : Nat) : (advance k r).padused = r.padused := rfl
@[simp] theorem advance_valid (r : BitReader) (k : Nat) : (advance k r).valid = r.valid := rfl

/-! ### alignReader -/

@[simp] theorem alignReader_start (r : BitReader) : (alignReader r).start = r.start := rfl
@[simp] theorem alignReader_stop (r : BitReader) : (alignReader r).stop = r.stop := rfl
@[simp] theorem alignReader_next (r : BitReader) : (alignReader r).next = r.next := rfl
@[simp] theorem alignReader_bitbuf (r : BitReader) : (alignReader r).bitbuf = 0#32 := rfl
@[simp] theorem alignReader_bitsleft (r : BitReader) : (alignReader r).bitsleft = 0 := rfl
@[simp] theorem alignReader_realbits (r : BitReader) : (alignReader r).realbits = 0 := rfl
@[simp] theorem alignReader_padused (r : BitReader) : (alignReader r).padused = r.padused := rfl
@[simp] theorem alignReader_valid (r : BitReader) : (alignReader r).valid = r.valid := rfl

/-! ### openedContext -/

@[simp] theorem openedContext_opened (c : Context) (h : Word64) (ls : Nat) (cd : Codec) (od n ss ts : Nat) (cs : List Nat) :
    (openedContext c h ls cd od n ss ts cs).opened = true := rfl
@[simp] theorem openedContext_handle (c : Context) (h : Word64) (ls : Nat) (cd : Codec) (od n ss ts : Nat) (cs : List Nat) :
    (openedContext c h ls cd od n ss ts cs).handle = h := rfl
@[simp] theorem openedContext_lsize (c : Context) (h : Word64) (ls : Nat) (cd : Codec) (od n ss ts : Nat) (cs : List Nat) :
    (openedContext c h ls cd od n ss ts cs).lsize = ls := rfl
@[simp] theorem openedContext_codec (c : Context) (h : Word64) (ls : Nat) (cd : Codec) (od n ss ts : Nat) (cs : List Nat) :
    (openedContext c h ls cd od n ss ts cs).codec = cd := rfl
@[simp] theorem openedContext_order (c : Context) (h : Word64) (ls : Nat) (cd : Codec) (od n ss ts : Nat) (cs : List Nat) :
    (openedContext c h ls cd od n ss ts cs).order = od := rfl
@[simp] theorem openedContext_nchunks (c : Context) (h : Word64) (ls : Nat) (cd : Codec) (od n ss ts : Nat) (cs : List Nat) :
    (openedContext c h ls cd od n ss ts cs).nchunks = n := rfl
@[simp] theorem openedContext_ssize (c : Context) (h : Word64) (ls : Nat) (cd : Codec) (od n ss ts : Nat) (cs : List Nat) :
    (openedContext c h ls cd od n ss ts cs).ssize = ss := rfl
@[simp] theorem openedContext_tsize (c : Context) (h : Word64) (ls : Nat) (cd : Codec) (od n ss ts : Nat) (cs : List Nat) :
    (openedContext c h ls cd od n ss ts cs).tsize = ts := rfl
@[simp] theorem openedContext_cstart (c : Context) (h : Word64) (ls : Nat) (cd : Codec) (od n ss ts : Nat) (cs : List Nat) :
    (openedContext c h ls cd od n ss ts cs).cstart = cs := rfl
@[simp] theorem openedContext_cacheValid (c : Context) (h : Word64) (ls : Nat) (cd : Codec) (od n ss ts : Nat) (cs : List Nat) :
    (openedContext c h ls cd od n ss ts cs).cacheValid = false := rfl
@[simp] theorem openedContext_cacheChunk (c : Context) (h : Word64) (ls : Nat) (cd : Codec) (od n ss ts : Nat) (cs : List Nat) :
    (openedContext c h ls cd od n ss ts cs).cacheChunk = 0 := rfl
@[simp] theorem openedContext_cacheBuf (c : Context) (h : Word64) (ls : Nat) (cd : Codec) (od n ss ts : Nat) (cs : List Nat) :
    (openedContext c h ls cd od n ss ts cs).cacheBuf = c.cacheBuf := rfl

end Sys2Proof.Machine
end

