-- ==== Sys2Proof/Laws/Run.lean ====
section
/-!
SUPPORT. Laws of computations that may stop (`Run`): how each way to build one acts on a state; what every ending keeps
(`Always`); and when one can only end well or in a failure (`Sound`).
-/

namespace Sys2Proof.Machine

variable {σ τ α β : Type}

/-! ### How a computation acts -/

@[simp] theorem pure_run (a : α) (s : σ) : (pure a : Run σ α) s = .ok a s := rfl

@[simp] theorem throw_run (e : Stop) (s : σ) : (throw e : Run σ α) s = .error e s := rfl

@[simp] theorem get_run (s : σ) : (get : Run σ σ) s = .ok s s := rfl

@[simp] theorem set_run (t s : σ) : (set t : Run σ PUnit) s = .ok ⟨⟩ t := rfl

@[simp] theorem modify_run (g : σ → σ) (s : σ) : (modify g : Run σ PUnit) s = .ok ⟨⟩ (g s) := rfl

theorem bind_run (x : Run σ α) (f : α → Run σ β) (s : σ) :
    (x >>= f) s = match x s with
      | .ok a t => f a t
      | .error e t => .error e t := by
  simp only [bind, EStateM.bind]
  cases x s <;> rfl

/-- A sequence goes on from where its first part ended well. -/
theorem bind_of_ok {x : Run σ α} {f : α → Run σ β} {s t : σ} {a : α} (h : x s = .ok a t) : (x >>= f) s = f a t := by
  rw [bind_run, h]

/-- A sequence stops where its first part stops. -/
theorem bind_of_error {x : Run σ α} {f : α → Run σ β} {s t : σ} {e : Stop} (h : x s = .error e t) :
    (x >>= f) s = .error e t := by
  rw [bind_run, h]

/-- If a sequence ends well, both its parts do. -/
theorem bind_ok_inv {x : Run σ α} {f : α → Run σ β} {s u : σ} {b : β} (h : (x >>= f) s = .ok b u) :
    ∃ a t, x s = .ok a t ∧ f a t = .ok b u := by
  rw [bind_run] at h
  split at h
  · exact ⟨_, _, ‹_›, h⟩
  · cases h

/-- If a sequence stops, one of its parts does. -/
theorem bind_error_inv {x : Run σ α} {f : α → Run σ β} {s u : σ} {e : Stop} (h : (x >>= f) s = .error e u) :
    x s = .error e u ∨ ∃ a t, x s = .ok a t ∧ f a t = .error e u := by
  rw [bind_run] at h
  split at h
  · exact .inr ⟨_, _, ‹_›, h⟩
  · cases h
    exact .inl ‹_›

@[simp] theorem orFault_ok (a : α) : (orFault (.ok a) : Run σ α) = pure a := rfl

@[simp] theorem orFault_error (c : Cause) : (orFault (.error c) : Run σ α) = throw (.fault c) := rfl

theorem zoom_of_ok {part : σ → τ} {put : τ → σ → σ} {f : Run τ α} {s : σ} {a : α} {t : τ} (h : f (part s) = .ok a t) :
    zoom part put f s = .ok a (put t s) := by
  simp only [zoom, h]

theorem zoom_of_error {part : σ → τ} {put : τ → σ → σ} {f : Run τ α} {s : σ} {e : Stop} {t : τ}
    (h : f (part s) = .error e t) : zoom part put f s = .error e (put t s) := by
  simp only [zoom, h]

/-- Everything a computation on a part can do to the whole. -/
theorem zoom_cases (part : σ → τ) (put : τ → σ → σ) (f : Run τ α) (s : σ) :
    (∃ a t, f (part s) = .ok a t ∧ zoom part put f s = .ok a (put t s)) ∨
      ∃ e t, f (part s) = .error e t ∧ zoom part put f s = .error e (put t s) := by
  cases h : f (part s) with
  | ok a t => exact .inl ⟨a, t, rfl, zoom_of_ok h⟩
  | error e t => exact .inr ⟨e, t, rfl, zoom_of_error h⟩

/-! ### What every ending keeps -/

/-- The state a computation leaves, however it ends. -/
def stateOf : EStateM.Result Stop σ α → σ
  | .ok _ s => s
  | .error _ s => s

@[simp] theorem stateOf_ok (a : α) (s : σ) : stateOf (.ok a s : EStateM.Result Stop σ α) = s := rfl

@[simp] theorem stateOf_error (e : Stop) (s : σ) : stateOf (.error e s : EStateM.Result Stop σ α) = s := rfl

/-- `P` relates every state to the state the computation leaves from it, however it ends. -/
def Always (P : σ → σ → Prop) (f : Run σ α) : Prop := ∀ s, P s (stateOf (f s))

theorem Always.ok {P : σ → σ → Prop} {f : Run σ α} (h : Always P f) {s t : σ} {a : α} (e : f s = .ok a t) : P s t := by
  have := h s
  rwa [e] at this

theorem Always.error {P : σ → σ → Prop} {f : Run σ α} (h : Always P f) {s t : σ} {e : Stop} (he : f s = .error e t) :
    P s t := by
  have := h s
  rwa [he] at this

theorem Always.mono {P Q : σ → σ → Prop} {f : Run σ α} (h : Always P f) (hPQ : ∀ s t, P s t → Q s t) : Always Q f :=
  fun s => hPQ _ _ (h s)

theorem Always.and {P Q : σ → σ → Prop} {f : Run σ α} (h : Always P f) (h' : Always Q f) :
    Always (fun s t => P s t ∧ Q s t) f := fun s => ⟨h s, h' s⟩

theorem always_pure {P : σ → σ → Prop} (hr : ∀ s, P s s) (a : α) : Always P (pure a : Run σ α) := fun s => hr s

theorem always_throw {P : σ → σ → Prop} (hr : ∀ s, P s s) (e : Stop) : Always P (throw e : Run σ α) := fun s => hr s

theorem always_get {P : σ → σ → Prop} (hr : ∀ s, P s s) : Always P (get : Run σ σ) := fun s => hr s

theorem always_modify {P : σ → σ → Prop} {g : σ → σ} (h : ∀ s, P s (g s)) : Always P (modify g : Run σ PUnit) := h

theorem always_orFault {P : σ → σ → Prop} (hr : ∀ s, P s s) (x : Except Cause α) : Always P (orFault x : Run σ α) := by
  cases x <;> exact fun s => hr s

theorem always_bind {P : σ → σ → Prop} (ht : ∀ s t u, P s t → P t u → P s u) {x : Run σ α} {f : α → Run σ β}
    (hx : Always P x) (hf : ∀ a, Always P (f a)) : Always P (x >>= f) := by
  intro s
  have h1 := hx s
  rw [bind_run]
  cases h : x s with
  | ok a t =>
    rw [h] at h1
    exact ht _ _ _ h1 (hf a t)
  | error e t => rwa [h] at h1

/-- A sequence that first looks at the state: what it does next may depend on the state it saw. -/
theorem always_get_bind {P : σ → σ → Prop} {f : σ → Run σ β} (hf : ∀ s, P s (stateOf (f s s))) :
    Always P ((get : Run σ σ) >>= f) := hf

theorem always_ite {P : σ → σ → Prop} {c : Prop} [Decidable c] {x y : Run σ α} (hx : Always P x) (hy : Always P y) :
    Always P (if c then x else y) := by
  split <;> assumption

theorem always_zoom {P : σ → σ → Prop} {Q : τ → τ → Prop} {part : σ → τ} {put : τ → σ → σ} {f : Run τ α}
    (hf : Always Q f) (h : ∀ s t, Q (part s) t → P s (put t s)) : Always P (zoom part put f) := by
  intro s
  rcases zoom_cases part put f s with ⟨a, t, e, z⟩ | ⟨e', t, e, z⟩
  · rw [z]
    exact h _ _ (hf.ok e)
  · rw [z]
    exact h _ _ (hf.error e)

theorem always_onFail {P : σ → σ → Prop} (ht : ∀ s t u, P s t → P t u → P s u) {g : σ → σ} (hg : ∀ s, P s (g s))
    {f : Run σ α} (hf : Always P f) : Always P (onFail g f) := by
  intro s
  have h1 := hf s
  unfold onFail
  cases h : f s with
  | ok a t => rwa [h] at h1
  | error e t =>
    rw [h] at h1
    cases e with
    | fail e => exact ht _ _ _ h1 (hg t)
    | fault c => exact h1

/-! ### Ending well or in a failure -/

/-- From a state with `I`, the computation ends well with `Q` of its value and `I` of its state, or in `fail E_x` with
`I` of its state; it never faults. -/
def Sound (I : σ → Prop) (f : Run σ α) (Q : α → σ → Prop) : Prop :=
  ∀ s, I s → match f s with
    | .ok a t => I t ∧ Q a t
    | .error (.fail _) t => I t
    | .error (.fault _) _ => False

theorem sound_pure {I : σ → Prop} {Q : α → σ → Prop} {a : α} (h : ∀ s, I s → Q a s) : Sound I (pure a) Q :=
  fun s hs => ⟨hs, h s hs⟩

theorem sound_fail {I : σ → Prop} {Q : α → σ → Prop} (e : Status) : Sound I (throw (.fail e) : Run σ α) Q :=
  fun _ hs => hs

theorem Sound.mono {I : σ → Prop} {f : Run σ α} {Q Q' : α → σ → Prop} (h : Sound I f Q)
    (hQ : ∀ a s, I s → Q a s → Q' a s) : Sound I f Q' := by
  intro s hs
  have := h s hs
  revert this
  cases f s with
  | ok a t => exact fun hh => ⟨hh.1, hQ _ _ hh.1 hh.2⟩
  | error e t => cases e <;> exact id

theorem sound_bind {I : σ → Prop} {x : Run σ α} {f : α → Run σ β} {Q : α → σ → Prop} {Q' : β → σ → Prop}
    (hx : Sound I x Q) (hf : ∀ a, Sound (fun s => I s ∧ Q a s) (f a) Q') : Sound I (x >>= f) Q' := by
  intro s hs
  have h1 := hx s hs
  rw [bind_run]
  revert h1
  cases x s with
  | ok a t =>
    intro h1
    have h2 := hf a t h1
    revert h2
    simp only
    cases f a t with
    | ok b u => exact fun hh => ⟨hh.1.1, hh.2⟩
    | error e u => cases e <;> [exact fun hh => hh.1; exact id]
  | error e t => cases e <;> exact id

/-! ### Commands -/

/-- Everything a command can do: finish with OK, end with a raised status, or take a fault (60_exceptions.md R268). -/
theorem runCommand_cases (i : Instr) (body : Run State Unit) (s : State) :
    (∃ t, body s = .ok () t ∧ runCommand i body s = .next (t.finish .ok)) ∨
      (∃ e t, body s = .error (.fail e) t ∧ runCommand i body s = .next (t.finish e)) ∨
        ∃ c t, body s = .error (.fault c) t ∧ runCommand i body s = .next (t.takeFault c (opcodeOf i)) := by
  unfold runCommand
  cases h : body s with
  | ok a t => exact .inl ⟨t, rfl, rfl⟩
  | error e t =>
    cases e with
    | fail e => exact .inr (.inl ⟨e, t, rfl, rfl⟩)
    | fault c => exact .inr (.inr ⟨c, t, rfl, rfl⟩)

theorem runCommand_of_ok {i : Instr} {body : Run State Unit} {s t : State} (h : body s = .ok () t) :
    runCommand i body s = .next (t.finish .ok) := by
  simp only [runCommand, h]

theorem runCommand_of_fail {i : Instr} {body : Run State Unit} {s t : State} {e : Status}
    (h : body s = .error (.fail e) t) : runCommand i body s = .next (t.finish e) := by
  simp only [runCommand, h]

theorem runCommand_of_fault {i : Instr} {body : Run State Unit} {s t : State} {c : Cause}
    (h : body s = .error (.fault c) t) : runCommand i body s = .next (t.takeFault c (opcodeOf i)) := by
  simp only [runCommand, h]

/-- What a relation that every ending of the body keeps says of the state a command leaves. -/
theorem runCommand_always {P : State → State → Prop} {i : Instr} {body : Run State Unit} (h : Always P body)
    {s t : State} (e : runCommand i body s = .next t) :
    ∃ u, P s u ∧ ((∃ c, t = u.finish c) ∨ ∃ c, t = u.takeFault c (opcodeOf i)) := by
  rcases runCommand_cases i body s with ⟨u, hu, hr⟩ | ⟨c, u, hu, hr⟩ | ⟨c, u, hu, hr⟩ <;> rw [hr] at e <;> cases e
  · exact ⟨u, h.ok hu, .inl ⟨_, rfl⟩⟩
  · exact ⟨u, h.error hu, .inl ⟨_, rfl⟩⟩
  · exact ⟨u, h.error hu, .inr ⟨_, rfl⟩⟩

/-! ### Operands -/

/-- Everything reading an ARG register can do (10_state.md R26). -/
theorem readArg_cases (i : Fin 6) (s : State) :
    (∃ v, s.args.get i = some v ∧ readArg i s = .ok v.toNat s) ∨
      s.args.get i = none ∧ readArg i s = .error (.fault .unwritten) s := by
  unfold readArg
  cases s.args.get i with
  | some v => exact .inl ⟨v, rfl, rfl⟩
  | none => exact .inr ⟨rfl, rfl⟩

theorem readArg_of_some {i : Fin 6} {s : State} {v : Word64} (h : s.args.get i = some v) :
    readArg i s = .ok v.toNat s := by
  simp only [readArg, h]

theorem readArg_of_none {i : Fin 6} {s : State} (h : s.args.get i = none) :
    readArg i s = .error (.fault .unwritten) s := by
  simp only [readArg, h]

theorem readArgWord_of_some {i : Fin 6} {s : State} {v : Word64} (h : s.args.get i = some v) :
    readArgWord i s = .ok v s := by
  simp only [readArgWord, h]

theorem readArgWord_of_none {i : Fin 6} {s : State} (h : s.args.get i = none) :
    readArgWord i s = .error (.fault .unwritten) s := by
  simp only [readArgWord, h]

theorem requireLmem_of_le {a n : Nat} {s : State} (h : a + n ≤ 2 ^ s.world.params.addrBits) :
    requireLmem a n s = .ok () s := by
  simp only [requireLmem, h, if_true]

theorem requireLmem_of_lt {a n : Nat} {s : State} (h : 2 ^ s.world.params.addrBits < a + n) :
    requireLmem a n s = .error (.fault .memRange) s := by
  simp only [requireLmem, Nat.not_le.mpr h, if_false]

theorem requireDisjoint_of_false {a n b m : Nat} {s : State} (h : rangesOverlap a n b m = false) :
    requireDisjoint a n b m s = .ok () s := by
  simp [requireDisjoint, h]

theorem requireDisjoint_of_true {a n b m : Nat} {s : State} (h : rangesOverlap a n b m = true) :
    requireDisjoint a n b m s = .error (.fault .overlap) s := by
  simp [requireDisjoint, h]

@[simp] theorem requireOperand_true (e : Status) (s : State) : requireOperand true e s = .ok () s := rfl

@[simp] theorem requireOperand_false (e : Status) (s : State) : requireOperand false e s = .error (.fail e) s := rfl

theorem bitCount_of_le {n : BitVec 5} (h : n.toNat ≤ 16) (s : State) : bitCount n s = .ok n.toNat s := by
  simp [bitCount, bitCountLegal, h]

theorem bitCount_of_lt {n : BitVec 5} (h : 16 < n.toNat) (s : State) : bitCount n s = .error (.fail .illegal) s := by
  simp [bitCount, bitCountLegal, Nat.not_le.mpr h]

/-- Operand reads and checks leave every state as it is, however they end. -/
theorem readArg_keeps (i : Fin 6) : Always Eq (readArg i) := by
  intro s
  unfold readArg
  split <;> rfl

theorem readArgWord_keeps (i : Fin 6) : Always Eq (readArgWord i) := by
  intro s
  unfold readArgWord
  split <;> rfl

theorem requireLmem_keeps (a n : Nat) : Always Eq (requireLmem a n) := by
  intro s
  unfold requireLmem
  split <;> rfl

theorem requireDisjoint_keeps (a n b m : Nat) : Always Eq (requireDisjoint a n b m) := by
  intro s
  unfold requireDisjoint
  split <;> rfl

theorem requireOperand_keeps (ok : Bool) (e : Status) : Always Eq (requireOperand ok e) := by
  intro s
  unfold requireOperand
  split <;> rfl

theorem bitCount_keeps (n : BitVec 5) : Always Eq (bitCount n) := by
  unfold bitCount
  exact always_ite (fun _ => rfl) (fun _ => rfl)

/-- Everything StoreRead can do (20_memory.md R51): it counts one call, and gives the bytes asked for, or IOERR. -/
theorem storeRead_run (h : Word64) (off n : Nat) (s : State) :
    (off + n ≤ storeLen s.world h ∧ ioFails s.world s.ioCalls = false ∧
        storeRead h off n s = .ok (some (((storeBytesOf s.world h).drop off).take n)) s.countIo) ∨
      storeRead h off n s = .ok none s.countIo := by
  unfold storeRead
  split
  · exact .inl ⟨‹_ ∧ _›.1, ‹_ ∧ _›.2, rfl⟩
  · exact .inr rfl

end Sys2Proof.Machine
end

