-- ==== Sys2Proof/Laws/Memory.lean ====
section
/-!
SUPPORT. Laws of byte memories: a read after a write, the canonical form, and what each memory primitive can do.
-/

namespace Sys2Proof.Machine

/-! ### One byte -/

@[simp] theorem readByte_nil (a : Nat) : readByte [] a = none := rfl

/-- A read after a write gives the byte written at its address and leaves every other address alone. -/
theorem readByte_writeByte (m : Memory) (a b : Nat) (v : Byte) :
    readByte (writeByte m a v) b = if b = a then some v else readByte m b := by
  induction m with
  | nil => simp [writeByte, readByte, eq_comm]
  | cons c cs ih =>
    unfold writeByte
    split
    · simp [readByte, eq_comm]
    · split
      · rename_i h
        subst h
        by_cases hb : b = c.1 <;> simp [readByte, hb, eq_comm]
      · rename_i h1 h2
        simp only [readByte, ih]
        by_cases hc : c.1 = b
        · have : ¬ b = a := by omega
          simp [hc, this]
        · simp [hc]

@[simp] theorem readByte_writeByte_same (m : Memory) (a : Nat) (v : Byte) : readByte (writeByte m a v) a = some v := by
  simp [readByte_writeByte]

theorem readByte_writeByte_other {a b : Nat} (h : b ≠ a) (m : Memory) (v : Byte) :
    readByte (writeByte m a v) b = readByte m b := by
  simp [readByte_writeByte, h]

/-- A cell of the memory after a write is the written one or an old one. -/
theorem mem_writeByte {m : Memory} {a : Nat} {v : Byte} {c : Host.Cell} (h : c ∈ writeByte m a v) :
    c = (a, v) ∨ c ∈ m := by
  induction m with
  | nil => simpa [writeByte] using h
  | cons d ds ih =>
    unfold writeByte at h
    split at h
    · simpa using h
    · split at h
      · rcases List.mem_cons.mp h with h | h
        · exact .inl h
        · exact .inr (List.mem_cons_of_mem _ h)
      · rcases List.mem_cons.mp h with h | h
        · exact .inr (h ▸ List.mem_cons_self)
        · rcases ih h with h | h
          · exact .inl h
          · exact .inr (List.mem_cons_of_mem _ h)

/-- Writing a byte keeps the canonical form. -/
theorem writeByte_wf {m : Memory} (h : m.wf) (a : Nat) (v : Byte) : Memory.wf (writeByte m a v) := by
  induction m with
  | nil => simp [Memory.wf, writeByte]
  | cons c cs ih =>
    have hc : (∀ d ∈ cs, c.1 < d.1) ∧ Memory.wf cs := List.pairwise_cons.mp h
    unfold writeByte
    split
    · rename_i hlt
      refine List.pairwise_cons.mpr ⟨fun d hd => ?_, h⟩
      rcases List.mem_cons.mp hd with rfl | hd
      · exact hlt
      · exact lt_trans hlt (hc.1 d hd)
    · split
      · rename_i heq
        exact List.pairwise_cons.mpr ⟨fun d hd => by have := hc.1 d hd; simp only; omega, hc.2⟩
      · refine List.pairwise_cons.mpr ⟨fun d hd => ?_, ih hc.2⟩
        rcases mem_writeByte hd with rfl | hd
        · simp only
          omega
        · exact hc.1 d hd

/-! ### Several bytes -/

theorem writeCells_wf {m : Memory} (h : m.wf) (a : Nat) (bs : List Byte) : Memory.wf (writeCells m a bs) := by
  induction bs generalizing m a with
  | nil => exact h
  | cons b bs ih => exact ih (writeByte_wf h a b) (a + 1)

/-- Reading one byte after writing several. -/
theorem readByte_writeCells (m : Memory) (a b : Nat) (bs : List Byte) :
    readByte (writeCells m a bs) b =
      if a ≤ b ∧ b < a + bs.length then bs[b - a]? else readByte m b := by
  induction bs generalizing m a with
  | nil => simp [writeCells]
  | cons v bs ih =>
    rw [writeCells, ih]
    by_cases h1 : a + 1 ≤ b ∧ b < a + 1 + bs.length
    · have h2 : a ≤ b ∧ b < a + (v :: bs).length := by
        simp only [List.length_cons]
        omega
      have h3 : b - a = (b - (a + 1)) + 1 := by omega
      rw [if_pos h1, if_pos h2, h3, List.getElem?_cons_succ]
    · rw [if_neg h1, readByte_writeByte]
      by_cases hb : b = a
      · subst hb
        simp
      · have h2 : ¬ (a ≤ b ∧ b < a + (v :: bs).length) := by
          simp only [List.length_cons]
          omega
        rw [if_neg hb, if_neg h2]

theorem readByte_writeCells_outside {a b : Nat} {bs : List Byte} (h : b < a ∨ a + bs.length ≤ b) (m : Memory) :
    readByte (writeCells m a bs) b = readByte m b := by
  rw [readByte_writeCells, if_neg (by omega)]

theorem readByte_writeCells_inside {i : Nat} {bs : List Byte} (h : i < bs.length) (m : Memory) (a : Nat) :
    readByte (writeCells m a bs) (a + i) = some bs[i] := by
  rw [readByte_writeCells, if_pos (by omega)]
  simp [h]

/-- Everything reading several bytes can do: give them all, each holding a value, or fault on one that holds none. -/
theorem readCells_ok_iff (m : Memory) (a n : Nat) (bs : List Byte) :
    readCells m a n = .ok bs ↔ bs.length = n ∧ ∀ i (h : i < bs.length), readByte m (a + i) = some bs[i] := by
  induction n generalizing a bs with
  | zero =>
    simp only [readCells, Except.ok.injEq]
    constructor
    · rintro rfl
      simp
    · rintro ⟨h, -⟩
      exact (List.length_eq_zero_iff.mp h).symm
  | succ n ih =>
    unfold readCells
    cases hb : readByte m a with
    | none =>
      simp only [reduceCtorEq, false_iff, not_and, not_forall]
      intro h
      exact ⟨0, by omega, by simp [hb]⟩
    | some b =>
      simp only
      constructor
      · cases hr : readCells m (a + 1) n with
        | error c => simp
        | ok cs =>
          simp only [Except.ok.injEq]
          rintro rfl
          obtain ⟨h1, h2⟩ := (ih (a + 1) cs).mp hr
          refine ⟨by simp [h1], fun i hi => ?_⟩
          cases i with
          | zero => simpa using hb
          | succ i =>
            have hi' : i < cs.length := by simpa using hi
            have := h2 i hi'
            rw [show a + (i + 1) = a + 1 + i by omega, this]
            simp
      · rintro ⟨h1, h2⟩
        cases bs with
        | nil => simp at h1
        | cons c cs =>
          have h0 := h2 0 (by simp)
          simp only [Nat.add_zero, List.getElem_cons_zero, hb, Option.some.injEq] at h0
          have := (ih (a + 1) cs).mpr ⟨by simpa using h1, fun i hi => by
            have := h2 (i + 1) (by simpa using hi)
            rw [show a + 1 + i = a + (i + 1) by omega, this]
            simp⟩
          rw [this, h0]

/-- A failed read is a read of a byte without a value. -/
theorem readCells_error {m : Memory} {a n : Nat} {c : Cause} (h : readCells m a n = .error c) :
    c = .unwritten ∧ ∃ i < n, readByte m (a + i) = none := by
  induction n generalizing a with
  | zero => simp [readCells] at h
  | succ n ih =>
    unfold readCells at h
    cases hb : readByte m a with
    | none =>
      rw [hb] at h
      cases h
      exact ⟨rfl, 0, by omega, hb⟩
    | some b =>
      rw [hb] at h
      simp only at h
      cases hr : readCells m (a + 1) n with
      | ok bs => rw [hr] at h; cases h
      | error d =>
        rw [hr] at h
        cases h
        obtain ⟨h1, i, hi, h2⟩ := ih hr
        exact ⟨h1, i + 1, by omega, by rw [show a + (i + 1) = a + 1 + i by omega, h2]⟩

/-! ### Primitives -/

/-- MemReadBytes answers exactly when the range exists and every byte holds a value (20_memory.md R53, R54). -/
theorem memReadBytes_ok_iff (sp : Space) (a n : Nat) (bs : List Byte) :
    memReadBytes sp a n = .ok bs ↔
      (n = 0 ∨ a + n ≤ sp.limit) ∧ bs.length = n ∧ ∀ i (h : i < bs.length), readByte sp.cells (a + i) = some bs[i] := by
  unfold memReadBytes
  split
  · simp [readCells_ok_iff, *]
  · simp [*]

/-- When MemReadBytes faults, and with which cause (20_memory.md R53, R54). -/
theorem memReadBytes_error {sp : Space} {a n : Nat} {c : Cause} (h : memReadBytes sp a n = .error c) :
    (c = .memRange ∧ n ≠ 0 ∧ sp.limit < a + n) ∨ (c = .unwritten ∧ ∃ i < n, readByte sp.cells (a + i) = none) := by
  unfold memReadBytes at h
  split at h
  · exact .inr (readCells_error h)
  · rename_i hr
    cases h
    exact .inl ⟨rfl, by omega, by omega⟩

/-- Everything MemWriteBytes can do (20_memory.md R53). -/
theorem memWriteBytes_cases (sp : Space) (a : Nat) (bs : List Byte) :
    ((bs.length = 0 ∨ a + bs.length ≤ sp.limit) ∧
        memWriteBytes sp a bs = .ok { sp with cells := writeCells sp.cells a bs }) ∨
      (bs.length ≠ 0 ∧ sp.limit < a + bs.length ∧ memWriteBytes sp a bs = .error .memRange) := by
  unfold memWriteBytes
  split
  · exact .inl ⟨‹_›, rfl⟩
  · exact .inr ⟨by omega, by omega, rfl⟩

/-- Loading bytes never changes the memory. -/
theorem loadBytes_keeps (a n : Nat) : Always Eq (loadBytes a n) := by
  intro sp
  unfold loadBytes
  split <;> rfl

/-- Everything storing bytes can do. -/
theorem storeBytes_cases (a : Nat) (bs : List Byte) (sp : Space) :
    ((bs.length = 0 ∨ a + bs.length ≤ sp.limit) ∧
        storeBytes a bs sp = .ok () { sp with cells := writeCells sp.cells a bs }) ∨
      (bs.length ≠ 0 ∧ sp.limit < a + bs.length ∧ storeBytes a bs sp = .error (.fault .memRange) sp) := by
  unfold storeBytes
  rcases memWriteBytes_cases sp a bs with ⟨h, e⟩ | ⟨h1, h2, e⟩ <;> rw [e]
  · exact .inl ⟨h, rfl⟩
  · exact .inr ⟨h1, h2, rfl⟩

/-- A memory changed at most in the addresses lo..hi-1, its size and canonical form kept. -/
structure ChangedWithin (lo hi : Nat) (sp sp' : Space) : Prop where
  limit : sp'.limit = sp.limit
  wf : sp.cells.wf → sp'.cells.wf
  outside : ∀ a, a < lo ∨ hi ≤ a → readByte sp'.cells a = readByte sp.cells a
  kept : ∀ a, (readByte sp.cells a).isSome → (readByte sp'.cells a).isSome

theorem ChangedWithin.refl (lo hi : Nat) (sp : Space) : ChangedWithin lo hi sp sp :=
  ⟨rfl, id, fun _ _ => rfl, fun _ => id⟩

theorem ChangedWithin.trans {lo hi : Nat} {s t u : Space} (h : ChangedWithin lo hi s t) (h' : ChangedWithin lo hi t u) :
    ChangedWithin lo hi s u :=
  ⟨h'.limit.trans h.limit, fun w => h'.wf (h.wf w), fun a ha => (h'.outside a ha).trans (h.outside a ha),
    fun a ha => h'.kept a (h.kept a ha)⟩

/-- Storing bytes changes at most the addresses it stores to. -/
theorem storeBytes_within {lo hi a : Nat} {bs : List Byte} (h1 : lo ≤ a) (h2 : a + bs.length ≤ hi) :
    Always (ChangedWithin lo hi) (storeBytes a bs) := by
  intro sp
  rcases storeBytes_cases a bs sp with ⟨-, e⟩ | ⟨-, -, e⟩ <;> rw [e]
  · refine ⟨rfl, fun w => writeCells_wf w _ _, fun b hb => readByte_writeCells_outside (by omega) _, fun b hb => ?_⟩
    simp only [stateOf_ok]
    rw [readByte_writeCells]
    split
    · rename_i h
      rw [List.getElem?_eq_getElem (by omega)]
      rfl
    · exact hb
  · exact ChangedWithin.refl ..

theorem loadBytes_within (lo hi a n : Nat) : Always (ChangedWithin lo hi) (loadBytes a n) :=
  (loadBytes_keeps a n).mono fun _ _ h => h ▸ ChangedWithin.refl ..

/-! ### Byte order -/

@[simp] theorem leBytes_length (n v : Nat) : (leBytes n v).length = n := by
  induction n generalizing v with
  | zero => rfl
  | succ n ih => simp [leBytes, ih]

/-- The bytes of a number, read back little-endian, give the number mod 2^(8n) (00_scope.md R14). -/
theorem leNat_leBytes (n v : Nat) : leNat (leBytes n v) = v % 2 ^ (8 * n) := by
  induction n generalizing v with
  | zero => simp [leBytes, leNat, Nat.mod_one]
  | succ n ih =>
    rw [leBytes, leNat, ih, BitVec.toNat_ofNat, Nat.mul_succ, Nat.add_comm (8 * n) 8, Nat.pow_add,
      show (256 : Nat) = 2 ^ 8 from rfl, Nat.mod_mul]

theorem leNat_lt (bs : List Byte) : leNat bs < 2 ^ (8 * bs.length) := by
  induction bs with
  | nil => simp [leNat]
  | cons b bs ih =>
    have := b.isLt
    rw [leNat, List.length_cons, Nat.mul_succ, Nat.pow_add]
    omega

/-! ### Reset -/

theorem reset_memory_wf : Memory.wf State.reset.lmem := by decide

end Sys2Proof.Machine
end

