-- ==== Sys2Proof/Laws/Reader.lean ====
section
/-!
SUPPORT. Laws of the bit reader's internal functions: everything each can do, and that each keeps the reader's
invariants (10_state.md R30).
-/

namespace Sys2Proof.Machine

/-! ### What each can do -/

/-- Everything Ensure can do (40_bit_reader.md R102). -/
theorem ensure_cases (inp : Space) (n : Nat) (r : BitReader) :
    (n ≤ r.bitsleft ∧ ensure inp n r = .ok () r) ∨
      (r.bitsleft < n ∧ r.stop < r.next + 2 ∧ ensure inp n r = .ok () (padReader r)) ∨
        (r.bitsleft < n ∧ r.next + 2 ≤ r.stop ∧
          ((∃ u, memRead inp r.next 2 = .ok u ∧ ensure inp n r = .ok () (refillReader r u)) ∨
            ∃ c, memRead inp r.next 2 = .error c ∧ ensure inp n r = .error (.fault c) r)) := by
  unfold ensure
  rw [bind_run, get_run]
  simp only
  by_cases h1 : n ≤ r.bitsleft
  · exact .inl ⟨h1, by rw [if_pos h1]; rfl⟩
  · rw [if_neg h1]
    by_cases h2 : r.stop < r.next + 2
    · exact .inr (.inl ⟨by omega, h2, by rw [if_pos h2]; rfl⟩)
    · rw [if_neg h2]
      refine .inr (.inr ⟨by omega, by omega, ?_⟩)
      cases h : memRead inp r.next 2 with
      | ok u => exact .inl ⟨u, rfl, rfl⟩
      | error c => exact .inr ⟨c, rfl, rfl⟩

/-- Everything Peek can do (R103). -/
theorem peek_cases (n : Nat) (r : BitReader) :
    (r.bitsleft < n ∧ peek n r = .error (.fault .brUnderflow) r) ∨
      (n ≤ r.bitsleft ∧ peek n r = .ok (r.bitbuf >>> (32 - n)).toNat r) := by
  unfold peek
  rw [bind_run, get_run]
  simp only
  by_cases h1 : r.bitsleft < n
  · exact .inl ⟨h1, by rw [if_pos h1]; rfl⟩
  · refine .inr ⟨by omega, ?_⟩
    rw [if_neg h1]
    by_cases h2 : n = 0
    · subst h2
      rw [if_pos rfl, BitVec.toNat_ushiftRight, Nat.shiftRight_eq_div_pow,
        Nat.div_eq_of_lt (by simpa using r.bitbuf.isLt)]
      rfl
    · rw [if_neg h2]
      rfl

/-- Everything Pop can do (R104). -/
theorem pop_cases (n : Nat) (r : BitReader) :
    (r.bitsleft < n ∧ pop n r = .error (.fault .brUnderflow) r) ∨
      (n ≤ r.bitsleft ∧ pop n r = .ok (r.bitbuf >>> (32 - n)).toNat (dropBits r n)) := by
  unfold pop
  rcases peek_cases n r with ⟨h, e⟩ | ⟨h, e⟩
  · exact .inl ⟨h, bind_of_error e⟩
  · exact .inr ⟨h, by rw [bind_of_ok e]; rfl⟩

/-- Everything ReadLit can do (R106). -/
theorem readLit_cases (inp : Space) (k : Nat) (r : BitReader) :
    (r.stop < r.next + k ∧ readLit inp k r = .ok 0 r) ∨
      (r.next + k ≤ r.stop ∧
        ((∃ v, memRead inp r.next k = .ok v ∧ readLit inp k r = .ok v (advance k r)) ∨
          ∃ c, memRead inp r.next k = .error c ∧ readLit inp k r = .error (.fault c) r)) := by
  unfold readLit
  rw [bind_run, get_run]
  simp only
  by_cases h1 : r.stop < r.next + k
  · exact .inl ⟨h1, by rw [if_pos h1]; rfl⟩
  · refine .inr ⟨by omega, ?_⟩
    rw [if_neg h1]
    cases h : memRead inp r.next k with
    | ok v => exact .inl ⟨v, rfl, rfl⟩
    | error c => exact .inr ⟨c, rfl, rfl⟩

/-- Everything the reading half of ReadBytes can do (R107). -/
theorem readBytes_cases (inp : Space) (n : Nat) (r : BitReader) :
    (r.stop < r.next + n ∧ readBytes inp n r = .error (.fail .truncated) r) ∨
      (r.next + n ≤ r.stop ∧
        ((∃ bs, memReadBytes inp r.next n = .ok bs ∧ readBytes inp n r = .ok bs (advance n r)) ∨
          ∃ c, memReadBytes inp r.next n = .error c ∧ readBytes inp n r = .error (.fault c) r)) := by
  unfold readBytes
  rw [bind_run, get_run]
  simp only
  by_cases h1 : r.stop < r.next + n
  · exact .inl ⟨h1, by rw [if_pos h1]; rfl⟩
  · refine .inr ⟨by omega, ?_⟩
    rw [if_neg h1]
    cases h : memReadBytes inp r.next n with
    | ok v => exact .inl ⟨v, rfl, rfl⟩
    | error c => exact .inr ⟨c, rfl, rfl⟩

/-- After Ensure(n) at least n bits are valid (R102). -/
theorem ensure_enough {inp : Space} {n : Nat} (hn : n ≤ 16) {r r' : BitReader} (h : ensure inp n r = .ok () r') :
    n ≤ r'.bitsleft := by
  rcases ensure_cases inp n r with ⟨h1, e⟩ | ⟨-, -, e⟩ | ⟨-, -, ⟨u, -, e⟩ | ⟨c, -, e⟩⟩ <;> rw [e] at h <;> cases h
  · exact h1
  · simp only [padReader_bitsleft]
    omega
  · simp only [refillReader_bitsleft]
    omega

/-- ReadBits never underflows (R105). -/
theorem readBits_cases (inp : Space) {n : Nat} (hn : n ≤ 16) (r : BitReader) :
    (∃ r', ensure inp n r = .ok () r' ∧ n ≤ r'.bitsleft ∧
        readBits inp n r = .ok (r'.bitbuf >>> (32 - n)).toNat (dropBits r' n)) ∨
      ∃ c, ensure inp n r = .error (.fault c) r ∧ readBits inp n r = .error (.fault c) r := by
  unfold readBits
  cases h : ensure inp n r with
  | ok a r' =>
    have hb := ensure_enough hn h
    rcases pop_cases n r' with ⟨h1, -⟩ | ⟨-, e⟩
    · omega
    · exact .inl ⟨r', rfl, hb, by rw [bind_of_ok h, e]⟩
  | error e r' =>
    rcases ensure_cases inp n r with ⟨-, e'⟩ | ⟨-, -, e'⟩ | ⟨-, -, ⟨u, -, e'⟩ | ⟨c, -, e'⟩⟩ <;> rw [e'] at h <;> cases h
    exact .inr ⟨c, rfl, bind_of_error e'⟩

/-! ### The invariants (R30) -/

theorem reset_readerOk : ReaderOk BitReader.reset :=
  ⟨le_rfl, le_rfl, by decide, le_rfl, by decide, .inl rfl, fun h => by cases h⟩

theorem initReader_ok (a n : Nat) : ReaderOk (initReader a n) :=
  ⟨le_rfl, Nat.le_add_right .., by simp, le_rfl, by simp, .inl rfl, fun h => by cases h⟩

theorem alignReader_ok {r : BitReader} (h : ReaderOk r) : ReaderOk (alignReader r) :=
  ⟨h.start_le, h.next_le, by simp, le_rfl, by simp, .inl rfl, h.padused⟩

theorem padReader_ok {r : BitReader} (h : ReaderOk r) (hx : r.stop < r.next + 2) : ReaderOk (padReader r) :=
  ⟨h.start_le, h.next_le, le_rfl, le_trans h.real_le h.left_le, h.clear, .inr hx, h.padused⟩

theorem advance_ok {r : BitReader} (h : ReaderOk r) {k : Nat} (hk : r.next + k ≤ r.stop) : ReaderOk (advance k r) :=
  ⟨by have := h.start_le; simp only [advance_start, advance_next]; omega, hk, h.left_le, h.real_le, h.clear,
    h.padded.imp id fun hx => by simp only [advance_stop, advance_next]; omega,
    fun hp => by have := h.padused hp; simp only [advance_stop, advance_next]; omega⟩

theorem refillReader_ok {r : BitReader} (h : ReaderOk r) {u : Nat} (hu : u < 2 ^ 16) (hb : r.bitsleft ≤ 16)
    (hs : r.next + 2 ≤ r.stop) : ReaderOk (refillReader r u) := by
  have hreal : r.realbits = r.bitsleft := h.padded.resolve_right (by omega)
  refine ⟨by have := h.start_le; simp only [refillReader_start, refillReader_next]; omega, hs,
    by simp only [refillReader_bitsleft]; omega, by simp [h.real_le], ?_, .inl (by simp [hreal]),
    fun hp => absurd (h.padused hp) (by omega)⟩
  have hc : r.bitbuf.toNat % 2 ^ (16 - r.bitsleft) = 0 := by
    have h1 := Nat.dvd_of_mod_eq_zero h.clear
    exact Nat.mod_eq_zero_of_dvd (dvd_trans (pow_dvd_pow 2 (by omega)) h1)
  have he : 32 - (r.realbits + 16) = 16 - r.bitsleft := by omega
  simp only [refillReader_bitbuf, refillReader_realbits, he, BitVec.toNat_or, BitVec.toNat_shiftLeft,
    BitVec.toNat_ofNat, Nat.shiftLeft_eq]
  have hlt : u * 2 ^ (16 - r.bitsleft) < 2 ^ 32 := by
    calc u * 2 ^ (16 - r.bitsleft) < 2 ^ 16 * 2 ^ (16 - r.bitsleft) := by
          exact Nat.mul_lt_mul_of_pos_right hu (by positivity)
      _ = 2 ^ (16 + (16 - r.bitsleft)) := by rw [← Nat.pow_add]
      _ ≤ 2 ^ 32 := Nat.pow_le_pow_right (by omega) (by omega)
  rw [Nat.mod_eq_of_lt (lt_trans hu (by norm_num)), Nat.mod_eq_of_lt hlt, Nat.or_mod_two_pow, hc,
    Nat.mul_mod_left]
  rfl

theorem dropBits_ok {r : BitReader} (h : ReaderOk r) {n : Nat} (hn : n ≤ r.bitsleft) : ReaderOk (dropBits r n) := by
  have h1 := h.left_le
  have h2 := h.real_le
  refine ⟨h.start_le, h.next_le, by simp only [dropBits_bitsleft]; omega,
    by simp only [dropBits_realbits, dropBits_bitsleft]; omega, ?_, ?_, ?_⟩
  · simp only [dropBits_bitbuf, dropBits_realbits, BitVec.toNat_shiftLeft, Nat.shiftLeft_eq]
    rw [Nat.mod_mod_of_dvd _ (pow_dvd_pow 2 (by omega))]
    obtain ⟨k, hk⟩ := Nat.dvd_of_mod_eq_zero h.clear
    apply Nat.mod_eq_zero_of_dvd
    by_cases hr : n ≤ r.realbits
    · rw [hk, Nat.mul_right_comm, ← Nat.pow_add]
      exact dvd_mul_of_dvd_left (pow_dvd_pow 2 (by omega)) _
    · have hz : r.bitbuf.toNat * 2 ^ n = k * 2 ^ (32 - r.realbits + n) := by
        rw [hk, Nat.mul_right_comm, ← Nat.pow_add, Nat.mul_comm]
      rw [hz]
      exact dvd_mul_of_dvd_right (pow_dvd_pow 2 (by omega)) _
  · rcases h.padded with hp | hp
    · exact .inl (by simp only [dropBits_realbits, dropBits_bitsleft]; omega)
    · exact .inr hp
  · intro hp
    simp only [dropBits_padused, padusedAfter, Bool.or_eq_true, decide_eq_true_eq] at hp
    rcases hp with hp | hp
    · exact h.padused hp
    · exact h.padded.resolve_left (by omega)

/-- A unit read from memory has 16 bits. -/
theorem memRead_two_lt {sp : Space} {a u : Nat} (h : memRead sp a 2 = .ok u) : u < 2 ^ 16 := by
  unfold memRead at h
  cases hb : memReadBytes sp a 2 with
  | error c => rw [hb] at h; cases h
  | ok bs =>
    rw [hb] at h
    cases h
    have hl := ((memReadBytes_ok_iff sp a 2 bs).mp hb).2.1
    have := leNat_lt bs
    rwa [hl] at this

/-- A reader relation every internal function keeps: the input range and the valid flag stay, and the invariants hold
afterwards if they held before. -/
def ReaderStep (r r' : BitReader) : Prop :=
  r'.start = r.start ∧ r'.stop = r.stop ∧ r'.valid = r.valid ∧ (ReaderOk r → ReaderOk r')

theorem ReaderStep.refl (r : BitReader) : ReaderStep r r := ⟨rfl, rfl, rfl, id⟩

theorem ReaderStep.trans {r s t : BitReader} (h : ReaderStep r s) (h' : ReaderStep s t) : ReaderStep r t :=
  ⟨h'.1.trans h.1, h'.2.1.trans h.2.1, h'.2.2.1.trans h.2.2.1, fun k => h'.2.2.2 (h.2.2.2 k)⟩

theorem ensure_step (inp : Space) {n : Nat} (hn : n ≤ 17) : Always ReaderStep (ensure inp n) := by
  intro r
  rcases ensure_cases inp n r with ⟨-, e⟩ | ⟨-, hx, e⟩ | ⟨hb, hs, ⟨u, hu, e⟩ | ⟨c, -, e⟩⟩ <;> rw [e]
  · exact .refl r
  · exact ⟨rfl, rfl, rfl, fun h => padReader_ok h hx⟩
  · exact ⟨rfl, rfl, rfl, fun h => refillReader_ok h (memRead_two_lt hu) (by omega) hs⟩
  · exact .refl r

theorem peek_step (n : Nat) : Always ReaderStep (peek n) := by
  intro r
  rcases peek_cases n r with ⟨-, e⟩ | ⟨-, e⟩ <;> rw [e] <;> exact .refl r

theorem pop_step (n : Nat) : Always ReaderStep (pop n) := by
  intro r
  rcases pop_cases n r with ⟨-, e⟩ | ⟨h, e⟩ <;> rw [e]
  · exact .refl r
  · exact ⟨rfl, rfl, rfl, fun k => dropBits_ok k h⟩

theorem readBits_step (inp : Space) {n : Nat} (hn : n ≤ 17) : Always ReaderStep (readBits inp n) :=
  always_bind (P := ReaderStep) (fun _ _ _ => .trans) (ensure_step inp hn) fun _ => pop_step n

theorem readLit_step (inp : Space) (k : Nat) : Always ReaderStep (readLit inp k) := by
  intro r
  rcases readLit_cases inp k r with ⟨-, e⟩ | ⟨hs, ⟨v, -, e⟩ | ⟨c, -, e⟩⟩ <;> rw [e]
  · exact .refl r
  · exact ⟨rfl, rfl, rfl, fun h => advance_ok h hs⟩
  · exact .refl r

theorem readBytes_step (inp : Space) (n : Nat) : Always ReaderStep (readBytes inp n) := by
  intro r
  rcases readBytes_cases inp n r with ⟨-, e⟩ | ⟨hs, ⟨v, -, e⟩ | ⟨c, -, e⟩⟩ <;> rw [e]
  · exact .refl r
  · exact ⟨rfl, rfl, rfl, fun h => advance_ok h hs⟩
  · exact .refl r

theorem orFault_step {α : Type} (x : Except Cause α) : Always ReaderStep (orFault x : Run BitReader α) :=
  always_orFault ReaderStep.refl x

theorem walkTrie_step (entry : Nat → Except Cause Entry) (fuel : Nat) (e : Entry) :
    Always ReaderStep (walkTrie entry fuel e) := by
  induction fuel generalizing e with
  | zero => exact always_throw ReaderStep.refl _
  | succ fuel ih =>
    unfold walkTrie
    refine always_bind (P := ReaderStep) (fun _ _ _ => .trans) (pop_step 1) fun b => ?_
    refine always_bind (P := ReaderStep) (fun _ _ _ => .trans) (orFault_step _) fun e' => ?_
    exact always_ite (ih e') (always_pure ReaderStep.refl _)

/-- Decoding a symbol keeps the reader's invariants, through any table (41_huffman.md R141). -/
theorem decodeSym_step (inp : Space) (entry : Nat → Except Cause Entry) (tb : Nat) {maxLen : Nat} (h : maxLen ≤ 16) :
    Always ReaderStep (decodeSym inp entry tb maxLen) := by
  unfold decodeSym
  refine always_bind (P := ReaderStep) (fun _ _ _ => .trans) (ensure_step inp (by omega)) fun _ => ?_
  refine always_bind (P := ReaderStep) (fun _ _ _ => .trans) (peek_step tb) fun i => ?_
  refine always_bind (P := ReaderStep) (fun _ _ _ => .trans) (orFault_step _) fun e => ?_
  refine always_ite ?_ ?_
  · refine always_bind (P := ReaderStep) (fun _ _ _ => .trans) (pop_step tb) fun _ => ?_
    exact always_get_bind fun r => walkTrie_step entry _ e r
  · exact always_bind (P := ReaderStep) (fun _ _ _ => .trans) (pop_step _) fun _ => always_pure ReaderStep.refl _

/-- Everything DecodeSym can do once its bits are there (R141): through a fast record, or through a node record. -/
theorem decodeSym_of_entry {inp : Space} {entry : Nat → Except Cause Entry} {tb maxLen : Nat} {r r' : BitReader}
    {e : Entry} (h1 : ensure inp maxLen r = .ok () r') (h2 : tb ≤ r'.bitsleft)
    (h3 : entry (r'.bitbuf >>> (32 - tb)).toNat = .ok e) :
    decodeSym inp entry tb maxLen r =
      if isNode e then walkTrie entry (r'.bitsleft - tb + 1) e (dropBits r' tb)
      else if r'.bitsleft < fastLength e then .error (.fault .brUnderflow) r'
      else .ok (fastSymbol e) (dropBits r' (fastLength e)) := by
  have hp : peek tb r' = .ok (r'.bitbuf >>> (32 - tb)).toNat r' :=
    (peek_cases tb r').resolve_left (fun h => absurd h.1 (by omega)) |>.2
  have ht : pop tb r' = .ok (r'.bitbuf >>> (32 - tb)).toNat (dropBits r' tb) :=
    (pop_cases tb r').resolve_left (fun h => absurd h.1 (by omega)) |>.2
  unfold decodeSym
  rw [bind_of_ok h1, bind_of_ok hp, h3]
  simp only [orFault_ok, bind_of_ok (pure_run e r')]
  split
  · rw [bind_of_ok ht, bind_of_ok (get_run _)]
    rfl
  · rcases pop_cases (fastLength e) r' with ⟨h, e'⟩ | ⟨h, e'⟩
    · rw [bind_of_error e', if_pos h]
    · rw [bind_of_ok e', if_neg (by omega)]
      rfl

end Sys2Proof.Machine
end

