-- ==== Sys2Proof/Laws/Output.lean ====
section
/-!
SUPPORT. Laws of the match copier, the codecs and the chunk expansion: each changes only the bytes of its output range,
keeps the memory's canonical form, and keeps its reader's invariants (20_memory.md R55).
-/

namespace Sys2Proof.Machine

/-! ### The match copier (42_match_copier.md R160) -/

theorem copyLoop_within {lo hi : Nat} (distance count cursor : Nat) (h1 : lo ≤ cursor) (h2 : cursor + count ≤ hi) :
    Always (ChangedWithin lo hi) (copyLoop distance count cursor) := by
  induction count generalizing cursor with
  | zero => exact always_pure (ChangedWithin.refl lo hi) _
  | succ count ih =>
    intro sp
    unfold copyLoop
    cases hl : loadBytes (cursor - distance) 1 sp with
    | error e t =>
      rw [bind_of_error hl]
      exact (loadBytes_within lo hi _ _).error hl
    | ok bs t =>
      rw [bind_of_ok hl]
      have hlen : bs.length = 1 := by
        unfold loadBytes at hl
        cases hb : memReadBytes sp (cursor - distance) 1 with
        | error c => rw [hb] at hl; cases hl
        | ok cs =>
          rw [hb] at hl
          cases hl
          exact ((memReadBytes_ok_iff _ _ _ _).mp hb).2.1
      refine ((loadBytes_within lo hi _ _).ok hl).trans ?_
      exact always_bind (P := ChangedWithin lo hi) (fun _ _ _ => .trans) (storeBytes_within h1 (by omega))
        (fun _ => ih (cursor + 1) (by omega) (by omega)) t

/-- CopyMatch changes at most the bytes between the cursor and bufend (R160). -/
theorem copyMatch_within {lo hi outBegin cursor length distance bufend : Nat} (h1 : lo ≤ cursor) (h2 : bufend ≤ hi) :
    Always (ChangedWithin lo hi) (copyMatch outBegin cursor length distance bufend) := by
  unfold copyMatch
  split
  · rename_i h
    simp only [copyAllowed, Bool.and_eq_true, decide_eq_true_eq] at h
    exact always_bind (P := ChangedWithin lo hi) (fun _ _ _ => .trans) (copyLoop_within _ _ _ h1 (by omega))
      fun _ => always_pure (ChangedWithin.refl lo hi) _
  · exact always_throw (ChangedWithin.refl lo hi) _

/-- CopyMatch answers with the cursor moved by the length, and only when its preconditions hold (R160). -/
theorem copyMatch_ok {outBegin cursor length distance bufend : Nat} {sp sp' : Space} {c : Nat}
    (h : copyMatch outBegin cursor length distance bufend sp = .ok c sp') :
    c = cursor + length ∧ copyAllowed outBegin cursor length distance bufend = true ∧
      copyLoop distance length cursor sp = .ok () sp' := by
  unfold copyMatch at h
  split at h
  · obtain ⟨a, t, h1, h2⟩ := bind_ok_inv h
    cases h2
    exact ⟨rfl, ‹_›, h1⟩
  · cases h

/-! ### Sessions -/

/-- What every part of a session keeps, once its position is inside the chunk: reader invariants, position inside the
chunk, output changed at most inside the chunk's output range. -/
def SessStep (job : Job) (s t : Sess) : Prop :=
  s.pos ≤ job.outSize →
    ReaderStep s.reader t.reader ∧ t.pos ≤ job.outSize ∧
      ChangedWithin job.outBase (job.outBase + job.outSize) s.out t.out

theorem SessStep.refl (job : Job) (s : Sess) : SessStep job s s := fun h => ⟨.refl _, h, .refl _ _ _⟩

theorem SessStep.trans {job : Job} {s t u : Sess} (h : SessStep job s t) (h' : SessStep job t u) : SessStep job s u :=
  fun k =>
    let a := h k
    let b := h' a.2.1
    ⟨a.1.trans b.1, b.2.1, a.2.2.trans b.2.2⟩

/-- Working on the reader leaves position and output as they are. -/
theorem onReader_ok {α : Type} {f : Run BitReader α} {s t : Sess} {a : α} (h : onReader f s = .ok a t) :
    ∃ r, f s.reader = .ok a r ∧ t = { s with reader := r } := by
  rcases zoom_cases Sess.reader (fun r s => { s with reader := r }) f s with ⟨a', r, h1, h2⟩ | ⟨e, r, h1, h2⟩ <;>
    rw [onReader, h2] at h <;> cases h
  exact ⟨r, h1, rfl⟩

theorem onReader_step (job : Job) {α : Type} {f : Run BitReader α} (h : Always ReaderStep f) :
    Always (SessStep job) (onReader f) :=
  always_zoom h fun _ _ hr k => ⟨hr, k, .refl _ _ _⟩

theorem onOut_step {job : Job} {α : Type} {f : Run Space α}
    (h : Always (ChangedWithin job.outBase (job.outBase + job.outSize)) f) : Always (SessStep job) (onOut f) :=
  always_zoom h fun _ _ hw k => ⟨.refl _, k, hw⟩

theorem moveTo_step {job : Job} {p : Nat} (h : p ≤ job.outSize) : Always (SessStep job) (moveTo p) :=
  always_modify fun _ _ => ⟨.refl _, h, .refl _ _ _⟩

/-- A literal emitted below the end of the chunk stays inside it. -/
theorem emitLiteral_step {job : Job} {s : Sess} (h : s.pos < job.outSize) (sym : Nat) :
    SessStep job s (stateOf (emitLiteral job sym s)) := by
  unfold emitLiteral
  rw [bind_of_ok (get_run s)]
  exact always_bind (P := SessStep job) (fun _ _ _ => .trans)
    (onOut_step (storeBytes_within (Nat.le_add_right ..) (by simp only [List.length_cons, List.length_nil]; omega)))
    (fun _ => moveTo_step (by omega)) s

/-- A match that ends inside the chunk stays inside it. -/
theorem emitMatch_step {job : Job} {stop : Nat} (h : stop ≤ job.outSize) (length dist : Nat) :
    Always (SessStep job) (emitMatch job length dist stop) := by
  intro s
  unfold emitMatch
  rw [bind_of_ok (get_run s)]
  have hw : Always (SessStep job)
      (onOut (copyMatch job.outBase (job.outBase + s.pos) length dist (job.outBase + stop))) :=
    onOut_step (copyMatch_within (Nat.le_add_right ..) (by omega))
  cases hc : onOut (copyMatch job.outBase (job.outBase + s.pos) length dist (job.outBase + stop)) s with
  | error e t =>
    rw [bind_of_error hc]
    exact hw.error hc
  | ok c t =>
    rw [bind_of_ok hc]
    refine (hw.ok hc).trans ?_
    have hcur : c ≤ job.outBase + stop := by
      rcases zoom_cases Sess.out (fun sp s => { s with out := sp })
        (copyMatch job.outBase (job.outBase + s.pos) length dist (job.outBase + stop)) s with
          ⟨a, u, h1, h2⟩ | ⟨e, u, h1, h2⟩ <;> rw [onOut, h2] at hc <;> cases hc
      obtain ⟨h3, h4, -⟩ := copyMatch_ok h1
      simp only [copyAllowed, Bool.and_eq_true, decide_eq_true_eq] at h4
      omega
    exact moveTo_step (by omega) t

theorem exhaustionCheck_step (job : Job) : Always (SessStep job) (exhaustionCheck job) := by
  unfold exhaustionCheck
  refine always_get_bind fun s => ?_
  split
  · exact .refl _ _
  · exact .refl _ _

/-- A session of a chunk changes at most the chunk's output range. -/
theorem runSession_within {job : Job} {f : Run Sess Unit} (h : Always (SessStep job) f) (r : BitReader) :
    Always (ChangedWithin job.outBase (job.outBase + job.outSize)) (runSession r f) := by
  intro out
  have h1 := h { reader := r, out := out, pos := 0 }
  unfold runSession
  cases hf : f { reader := r, out := out, pos := 0 } with
  | ok a s =>
    rw [hf] at h1
    exact (h1 (Nat.zero_le _)).2.2
  | error e s =>
    rw [hf] at h1
    exact (h1 (Nat.zero_le _)).2.2

theorem buildOrFail_keeps {σ : Type} (reject : Bool) (lens : List Nat) (tb maxLen : Nat) :
    Always Eq (buildOrFail reject lens tb maxLen : Run σ (List Entry)) := by
  unfold buildOrFail
  cases buildTable reject lens tb maxLen <;> exact fun _ => rfl

/-! ### Codec A (43_codec_a.md) -/

theorem matchFields_step (inp : Space) (sym : Nat) : Always ReaderStep (matchFields inp sym) := by
  unfold matchFields
  refine always_bind (P := ReaderStep) (fun _ _ _ => .trans) (ensure_step inp (by omega)) fun _ => ?_
  refine always_bind (P := ReaderStep) (fun _ _ _ => .trans) (pop_step _) fun raw => ?_
  refine always_ite ?_ (always_pure ReaderStep.refl _)
  refine always_bind (P := ReaderStep) (fun _ _ _ => .trans) (readLit_step inp 1) fun ext => ?_
  refine always_ite ?_ (always_pure ReaderStep.refl _)
  exact always_bind (P := ReaderStep) (fun _ _ _ => .trans) (readLit_step inp 2) fun _ => always_pure ReaderStep.refl _

theorem caItem_step {job : Job} (table : List Entry) {s : Sess} (h : s.pos < job.outSize) :
    SessStep job s (stateOf (caItem job table s)) := by
  unfold caItem
  have h1 := onReader_step job (decodeSym_step job.inp (listEntry table) 11 (maxLen := 15) (by omega))
  cases hd : onReader (decodeSym job.inp (listEntry table) 11 15) s with
  | error e t =>
    rw [bind_of_error hd]
    exact h1.error hd
  | ok sym t =>
    rw [bind_of_ok hd]
    refine (h1.ok hd).trans ?_
    obtain ⟨r, -, rfl⟩ := onReader_ok hd
    split
    · exact emitLiteral_step (s := { s with reader := r }) h sym
    · refine always_bind (P := SessStep job) (fun _ _ _ => .trans) (onReader_step job (matchFields_step _ _))
        (fun p => ?_) _
      refine always_get_bind fun u => ?_
      split
      · exact .refl _ _
      · split
        · exact .refl _ _
        · exact emitMatch_step le_rfl _ _ u

theorem caLoop_step (job : Job) (table : List Entry) (fuel : Nat) : Always (SessStep job) (caLoop job table fuel) := by
  induction fuel with
  | zero => exact always_pure (SessStep.refl job) _
  | succ fuel ih =>
    intro s
    unfold caLoop
    rw [bind_of_ok (get_run s)]
    split
    · exact .refl _ _
    · rename_i hne
      intro hle
      have h1 := caItem_step table (s := s) (job := job) (by omega)
      revert hle
      change SessStep job s _
      cases hc : caItem job table s with
      | error e t =>
        rw [bind_of_error hc]
        rwa [hc] at h1
      | ok a t =>
        rw [bind_of_ok hc]
        rw [hc] at h1
        exact h1.trans (ih t)

theorem memReadBytes_step (job : Job) (a n : Nat) :
    Always (SessStep job) (orFault (memReadBytes job.inp a n) : Run Sess (List Byte)) :=
  always_orFault (SessStep.refl job) _

/-- CaDecode changes at most its output range, however it ends (R176, R180). -/
theorem caDecode_within (job : Job) :
    Always (ChangedWithin job.outBase (job.outBase + job.outSize)) (caDecode job) := by
  unfold caDecode
  refine always_ite (always_throw (ChangedWithin.refl _ _) _) (runSession_within ?_ _)
  refine always_bind (P := SessStep job) (fun _ _ _ => .trans) (memReadBytes_step job _ _) fun header => ?_
  refine always_bind (P := SessStep job) (fun _ _ _ => .trans)
    ((buildOrFail_keeps _ _ _ _).mono fun _ _ h => h ▸ SessStep.refl job _) fun table => ?_
  exact always_bind (P := SessStep job) (fun _ _ _ => .trans) (caLoop_step job table _) fun _ => exhaustionCheck_step job

/-! ### Codec B (44_codec_b.md) -/

/-- What every part of a codec B session keeps. -/
def CbStep (job : Job) (s t : CbSess) : Prop := SessStep job s.base t.base

theorem CbStep.refl (job : Job) (s : CbSess) : CbStep job s s := SessStep.refl job _

theorem CbStep.trans {job : Job} {s t u : CbSess} (h : CbStep job s t) (h' : CbStep job t u) : CbStep job s u :=
  SessStep.trans h h'

theorem onBase_step {job : Job} {α : Type} {f : Run Sess α} (h : Always (SessStep job) f) :
    Always (CbStep job) (onBase f) :=
  always_zoom h fun _ _ k => k

theorem onCbReader_step (job : Job) {α : Type} {f : Run BitReader α} (h : Always ReaderStep f) :
    Always (CbStep job) (onCbReader f) :=
  onBase_step (onReader_step job h)

/-- Working on the reader leaves position and output as they are. -/
theorem onCbReader_ok {α : Type} {f : Run BitReader α} {s t : CbSess} {a : α} (h : onCbReader f s = .ok a t) :
    ∃ r, f s.base.reader = .ok a r ∧ t = { s with base := { s.base with reader := r } } := by
  unfold onCbReader onBase at h
  rcases zoom_cases CbSess.base (fun b s => { s with base := b }) (onReader f) s with ⟨a', r, h1, h2⟩ | ⟨e, r, h1, h2⟩ <;>
    rw [h2] at h <;> cases h
  obtain ⟨r', h3, rfl⟩ := onReader_ok h1
  exact ⟨r', h3, rfl⟩

theorem blockHeader_step (inp : Space) (w : Nat) : Always ReaderStep (blockHeader inp w) := by
  unfold blockHeader
  refine always_bind (P := ReaderStep) (fun _ _ _ => .trans) (readBits_step inp (by omega)) fun btype => ?_
  refine always_bind (P := ReaderStep) (fun _ _ _ => .trans) (readBits_step inp (by omega)) fun std => ?_
  refine always_ite (always_pure ReaderStep.refl _) ?_
  refine always_bind (P := ReaderStep) (fun _ _ _ => .trans) (readBits_step inp (by omega)) fun size => ?_
  refine always_ite ?_ (always_pure ReaderStep.refl _)
  exact always_bind (P := ReaderStep) (fun _ _ _ => .trans) (readBits_step inp (by omega)) fun _ =>
    always_pure ReaderStep.refl _

theorem readFields_step (inp : Space) {k : Nat} (hk : k ≤ 17) (n : Nat) : Always ReaderStep (readFields inp k n) := by
  induction n with
  | zero => exact always_pure ReaderStep.refl _
  | succ n ih =>
    unfold readFields
    refine always_bind (P := ReaderStep) (fun _ _ _ => .trans) (readBits_step inp hk) fun v => ?_
    exact always_bind (P := ReaderStep) (fun _ _ _ => .trans) ih fun _ => always_pure ReaderStep.refl _

theorem buildOrFail_step (reject : Bool) (lens : List Nat) (tb maxLen : Nat) :
    Always ReaderStep (buildOrFail reject lens tb maxLen : Run BitReader (List Entry)) :=
  (buildOrFail_keeps reject lens tb maxLen).mono fun _ _ h => h ▸ ReaderStep.refl _

theorem runLength_step (inp : Space) (pre : List Entry) (lens : List Nat) (i p : Nat) :
    Always ReaderStep (runLength inp pre lens i p) := by
  unfold runLength
  refine always_ite ?_ (always_ite ?_ ?_)
  · exact always_bind (P := ReaderStep) (fun _ _ _ => .trans) (readBits_step inp (by omega)) fun _ =>
      always_pure ReaderStep.refl _
  · exact always_bind (P := ReaderStep) (fun _ _ _ => .trans) (readBits_step inp (by omega)) fun _ =>
      always_pure ReaderStep.refl _
  · refine always_bind (P := ReaderStep) (fun _ _ _ => .trans) (readBits_step inp (by omega)) fun x => ?_
    refine always_bind (P := ReaderStep) (fun _ _ _ => .trans) (decodeSym_step inp _ 6 (by omega)) fun q => ?_
    exact always_ite (always_throw ReaderStep.refl _) (always_pure ReaderStep.refl _)

theorem lensLoop_step (inp : Space) (pre : List Entry) (stop limit fuel : Nat) (lens : List Nat) (i : Nat) :
    Always ReaderStep (lensLoop inp pre stop limit fuel lens i) := by
  induction fuel generalizing lens i with
  | zero => exact always_pure ReaderStep.refl _
  | succ fuel ih =>
    unfold lensLoop
    refine always_ite (always_pure ReaderStep.refl _) ?_
    refine always_bind (P := ReaderStep) (fun _ _ _ => .trans) (decodeSym_step inp _ 6 (by omega)) fun p => ?_
    refine always_ite (ih _ _) ?_
    exact always_bind (P := ReaderStep) (fun _ _ _ => .trans) (runLength_step inp pre lens i p) fun q => ih _ _

theorem readLens_step (inp : Space) (reject : Bool) (lens : List Nat) (start num limit : Nat) :
    Always ReaderStep (readLens inp reject lens start num limit) := by
  unfold readLens
  refine always_bind (P := ReaderStep) (fun _ _ _ => .trans) (readFields_step inp (by omega) 20) fun _ => ?_
  refine always_bind (P := ReaderStep) (fun _ _ _ => .trans) (buildOrFail_step _ _ _ _) fun _ => ?_
  exact lensLoop_step inp _ _ _ _ _ _

theorem alignedTable_step (inp : Space) (reject : Bool) : Always ReaderStep (alignedTable inp reject) := by
  unfold alignedTable
  exact always_bind (P := ReaderStep) (fun _ _ _ => .trans) (readFields_step inp (by omega) 8) fun _ =>
    buildOrFail_step _ _ _ _

theorem blockAligned_step (job : Job) (btype : Nat) : Always (CbStep job) (blockAligned job btype) := by
  unfold blockAligned
  exact always_ite (onCbReader_step job (alignedTable_step _ _)) (always_pure (CbStep.refl job) _)

theorem codeLengths_step (job : Job) (w btype : Nat) : Always (CbStep job) (codeLengths job w btype) := by
  unfold codeLengths
  refine always_bind (P := CbStep job) (fun _ _ _ => .trans) (blockAligned_step job btype) fun aligned => ?_
  refine always_get_bind fun s => ?_
  refine always_bind (P := CbStep job) (fun _ _ _ => .trans) (onCbReader_step job (readLens_step _ _ _ _ _ _))
    (fun main1 => ?_) s
  refine always_bind (P := CbStep job) (fun _ _ _ => .trans) (onCbReader_step job (readLens_step _ _ _ _ _ _))
    fun main2 => ?_
  refine always_bind (P := CbStep job) (fun _ _ _ => .trans) (onCbReader_step job (readLens_step _ _ _ _ _ _))
    fun len => ?_
  refine always_bind (P := CbStep job) (fun _ _ _ => .trans) (always_modify fun t => CbStep.refl job t) fun _ => ?_
  refine always_bind (P := CbStep job) (fun _ _ _ => .trans)
    ((buildOrFail_keeps _ _ _ _).mono fun _ _ h => h ▸ CbStep.refl job _) fun _ => ?_
  exact always_bind (P := CbStep job) (fun _ _ _ => .trans)
    ((buildOrFail_keeps _ _ _ _).mono fun _ _ h => h ▸ CbStep.refl job _) fun _ => always_pure (CbStep.refl job) _

/-- Slots need at most 17 extra bits (R205, R211). -/
theorem slotExtra_le (slot : Nat) : slotExtra slot ≤ 17 := by
  unfold slotExtra
  split <;> omega

theorem explicitDistance_step (inp : Space) (aligned : List Entry) (btype slot : Nat) :
    Always ReaderStep (explicitDistance inp aligned btype slot) := by
  unfold explicitDistance
  have hs := slotExtra_le slot
  refine always_ite ?_ ?_
  · refine always_bind (P := ReaderStep) (fun _ _ _ => .trans) (readBits_step inp (by omega)) fun _ => ?_
    exact always_bind (P := ReaderStep) (fun _ _ _ => .trans) (decodeSym_step inp _ 7 (by omega)) fun _ =>
      always_pure ReaderStep.refl _
  · exact always_bind (P := ReaderStep) (fun _ _ _ => .trans) (readBits_step inp hs) fun _ =>
      always_pure ReaderStep.refl _

theorem offset_step (job : Job) (aligned : List Entry) (btype slot : Nat) :
    Always (CbStep job) (offset job aligned btype slot) := by
  unfold offset
  refine always_ite (always_get_bind fun s => ?_) ?_
  · exact CbStep.refl job s
  · refine always_bind (P := CbStep job) (fun _ _ _ => .trans) (onCbReader_step job (explicitDistance_step _ _ _ _))
      fun dist => ?_
    exact always_bind (P := CbStep job) (fun _ _ _ => .trans) (always_modify fun t => CbStep.refl job t) fun _ =>
      always_pure (CbStep.refl job) _

theorem matchLength_step (inp : Space) (len : List Entry) (lh : Nat) :
    Always ReaderStep (matchLength inp len lh) := by
  unfold matchLength
  exact always_ite (always_bind (P := ReaderStep) (fun _ _ _ => .trans) (decodeSym_step inp _ 10 (by omega)) fun _ =>
    always_pure ReaderStep.refl _) (always_pure ReaderStep.refl _)

/-- An item of a block that is not full and ends with the chunk stays inside it (R204). -/
theorem cbItem_step {job : Job} (tables : CbTables) (btype : Nat) {s : CbSess} (h : s.base.pos < job.outSize) :
    CbStep job s (stateOf (cbItem job tables btype job.outSize s)) := by
  unfold cbItem
  have h1 := onCbReader_step job (decodeSym_step job.inp (listEntry tables.main) 11 (maxLen := 16) (by omega))
  cases hd : onCbReader (decodeSym job.inp (listEntry tables.main) 11 16) s with
  | error e t =>
    rw [bind_of_error hd]
    exact h1.error hd
  | ok sym t =>
    rw [bind_of_ok hd]
    refine (h1.ok hd).trans ?_
    obtain ⟨r, -, rfl⟩ := onCbReader_ok hd
    split
    · have h2 := emitLiteral_step (job := job) (s := { s.base with reader := r }) h sym
      rcases zoom_cases CbSess.base (fun b s => { s with base := b }) (emitLiteral job sym)
        { s with base := { s.base with reader := r } } with ⟨a, b, e1, e2⟩ | ⟨a, b, e1, e2⟩ <;>
      · rw [onBase, e2]
        rw [e1] at h2
        exact h2
    · refine always_bind (P := CbStep job) (fun _ _ _ => .trans) (onCbReader_step job (matchLength_step _ _ _))
        (fun length => ?_) _
      refine always_bind (P := CbStep job) (fun _ _ _ => .trans) (offset_step job _ _ _) fun dist => ?_
      refine always_get_bind fun u => ?_
      split
      · exact .refl _ _
      · split
        · exact .refl _ _
        · exact onBase_step (emitMatch_step le_rfl _ _) u

theorem cbItems_step_full (job : Job) (tables : CbTables) (btype fuel : Nat) :
    Always (CbStep job) (cbItems job tables btype job.outSize fuel) := by
  induction fuel with
  | zero => exact always_pure (CbStep.refl job) _
  | succ fuel ih =>
    intro s
    unfold cbItems
    rw [bind_of_ok (get_run s)]
    split
    · exact .refl _ _
    · rename_i hne
      intro hle
      have h1 := cbItem_step tables btype (s := s) (job := job) (by omega)
      revert hle
      change CbStep job s _
      cases hc : cbItem job tables btype job.outSize s with
      | error e t =>
        rw [bind_of_error hc]
        rwa [hc] at h1
      | ok a t =>
        rw [bind_of_ok hc]
        rw [hc] at h1
        exact h1.trans (ih t)

/-- What stays inside a shorter chunk stays inside the chunk. -/
theorem SessStep.widen {job : Job} {stop : Nat} {s t : Sess} (h : SessStep { job with outSize := stop } s t)
    (hs : s.pos ≤ stop) (hb : stop ≤ job.outSize) : SessStep job s t := fun _ =>
  let ⟨h1, h2, h3⟩ := h hs
  ⟨h1, le_trans h2 hb, h3.limit, h3.wf, fun a ha => h3.outside a (ha.imp id fun k => by simp only; omega), h3.kept⟩

/-- The items of a block do not look at the size of the chunk. -/
theorem cbItems_outSize (job : Job) (stop : Nat) (tables : CbTables) (btype bend fuel : Nat) :
    cbItems { job with outSize := stop } tables btype bend fuel = cbItems job tables btype bend fuel := by
  induction fuel with
  | zero => rfl
  | succ fuel ih =>
    unfold cbItems
    rw [ih]
    rfl

/-- The items of a block stay inside it (R204). -/
theorem cbItems_step {job : Job} (tables : CbTables) (btype fuel : Nat) {bend : Nat} {s : CbSess}
    (hs : s.base.pos ≤ bend) (hb : bend ≤ job.outSize) :
    CbStep job s (stateOf (cbItems job tables btype bend fuel s)) := by
  rw [← cbItems_outSize job bend]
  exact SessStep.widen (cbItems_step_full { job with outSize := bend } tables btype fuel s) hs hb

theorem readRecent_step (inp : Space) : Always ReaderStep (readRecent inp) := by
  unfold readRecent
  refine always_bind (P := ReaderStep) (fun _ _ _ => .trans) (ensure_step inp (by omega)) fun _ => ?_
  refine always_bind (P := ReaderStep) (fun _ _ _ => .trans)
    (always_modify fun r => ⟨rfl, rfl, rfl, alignReader_ok⟩) fun _ => ?_
  refine always_bind (P := ReaderStep) (fun _ _ _ => .trans) (readLit_step inp 4) fun _ => ?_
  refine always_bind (P := ReaderStep) (fun _ _ _ => .trans) (readLit_step inp 4) fun _ => ?_
  exact always_bind (P := ReaderStep) (fun _ _ _ => .trans) (readLit_step inp 4) fun _ => always_pure ReaderStep.refl _

/-- Work on the reader leaves the output position as it is. -/
theorem onCbReader_pos {α : Type} {f : Run BitReader α} {s t : CbSess} {a : α} (h : onCbReader f s = .ok a t) :
    t.base.pos = s.base.pos := by
  obtain ⟨r, -, rfl⟩ := onCbReader_ok h
  rfl

theorem memReadBytes_length {sp : Space} {a n : Nat} {bs : List Byte} (h : memReadBytes sp a n = .ok bs) :
    bs.length = n :=
  ((memReadBytes_ok_iff _ _ _ _).mp h).2.1

theorem readBytes_length {inp : Space} {n : Nat} {r r' : BitReader} {bs : List Byte}
    (h : readBytes inp n r = .ok bs r') : bs.length = n := by
  rcases readBytes_cases inp n r with ⟨-, e⟩ | ⟨-, ⟨bs', hb, e⟩ | ⟨c, -, e⟩⟩ <;> rw [e] at h <;> cases h
  exact memReadBytes_length hb

theorem uncompressed_step {job : Job} {bsize : Nat} {s : CbSess} (hs : s.base.pos + bsize ≤ job.outSize) :
    CbStep job s (stateOf (uncompressed job bsize s)) := by
  unfold uncompressed
  have h1 := onCbReader_step job (readRecent_step job.inp)
  cases hd : onCbReader (readRecent job.inp) s with
  | error e t =>
    rw [bind_of_error hd]
    exact h1.error hd
  | ok q t =>
    rw [bind_of_ok hd]
    refine (h1.ok hd).trans ?_
    have hp := onCbReader_pos hd
    rw [bind_of_ok (modify_run _ t)]
    split
    · exact .refl _ _
    · have h2 := onCbReader_step job (readBytes_step job.inp bsize)
      cases hr : onCbReader (readBytes job.inp bsize) { t with recent := q } with
      | error e u =>
        rw [bind_of_error hr]
        exact h2.error (s := { t with recent := q }) hr
      | ok bs u =>
        rw [bind_of_ok hr]
        refine CbStep.trans (t := u) (h2.ok (s := { t with recent := q }) hr) ?_
        have hp2 := onCbReader_pos hr
        obtain ⟨r, hr2, rfl⟩ := onCbReader_ok hr
        have hl := readBytes_length hr2
        rw [bind_of_ok (get_run _)]
        simp only at hp hp2 ⊢
        refine always_bind (P := CbStep job) (fun _ _ _ => .trans)
          (onBase_step (onOut_step (storeBytes_within (Nat.le_add_right ..) (by omega)))) (fun _ => ?_) _
        refine always_bind (P := CbStep job) (fun _ _ _ => .trans)
          (onBase_step (moveTo_step (by omega))) (fun _ => ?_)
        exact always_ite (always_bind (P := CbStep job) (fun _ _ _ => .trans)
          (onCbReader_step job (readLit_step _ _)) fun _ => always_pure (CbStep.refl job) _)
          (always_pure (CbStep.refl job) _)

/-- Work on code lengths leaves the output position as it is, when it ends well. -/
theorem codeLengths_pos {job : Job} {w btype : Nat} {s t : CbSess} {tables : CbTables}
    (h : codeLengths job w btype s = .ok tables t) : t.base.pos = s.base.pos := by
  unfold codeLengths at h
  obtain ⟨a1, s1, e1, h⟩ := bind_ok_inv h
  obtain ⟨a2, s2, e2, h⟩ := bind_ok_inv h
  cases e2
  obtain ⟨a3, s3, e3, h⟩ := bind_ok_inv h
  obtain ⟨a4, s4, e4, h⟩ := bind_ok_inv h
  obtain ⟨a5, s5, e5, h⟩ := bind_ok_inv h
  obtain ⟨a6, s6, e6, h⟩ := bind_ok_inv h
  cases e6
  obtain ⟨a7, s7, e7, h⟩ := bind_ok_inv h
  obtain ⟨a8, s8, e8, h⟩ := bind_ok_inv h
  cases h
  have k7 := (buildOrFail_keeps _ _ _ _).ok e7
  have k8 := (buildOrFail_keeps _ _ _ _).ok e8
  rw [← k8, ← k7]
  simp only [onCbReader_pos e5, onCbReader_pos e4, onCbReader_pos e3]
  unfold blockAligned at e1
  split at e1
  · exact onCbReader_pos e1
  · cases e1
    rfl

theorem cbBlock_step (job : Job) (w : Nat) : Always (CbStep job) (cbBlock job w) := by
  unfold cbBlock
  refine always_bind (P := CbStep job) (fun _ _ _ => .trans) (onCbReader_step job (blockHeader_step _ _)) fun p => ?_
  refine always_get_bind fun s => ?_
  split
  · rename_i hl
    simp only [headerLegal, Bool.and_eq_true, decide_eq_true_eq] at hl
    split
    · exact uncompressed_step hl.2
    · have h1 := codeLengths_step job w p.1
      cases hc : codeLengths job w p.1 s with
      | error e t =>
        rw [bind_of_error hc]
        exact h1.error hc
      | ok tables t =>
        rw [bind_of_ok hc]
        exact (h1.ok hc).trans (cbItems_step _ _ _ (by rw [codeLengths_pos hc]; omega) hl.2)
  · exact .refl _ _

theorem cbBlocks_step (job : Job) (w fuel : Nat) : Always (CbStep job) (cbBlocks job w fuel) := by
  induction fuel with
  | zero => exact always_pure (CbStep.refl job) _
  | succ fuel ih =>
    unfold cbBlocks
    refine always_get_bind fun s => ?_
    split
    · exact .refl _ _
    · exact always_bind (P := CbStep job) (fun _ _ _ => .trans) (cbBlock_step job w) (fun _ => ih) s

theorem e8Translate_within {outBase n i : Nat} (h : i + 10 < n) :
    Always (ChangedWithin outBase (outBase + n)) (e8Translate outBase i) := by
  unfold e8Translate
  refine always_bind (P := ChangedWithin outBase (outBase + n)) (fun _ _ _ => .trans) (loadBytes_within _ _ _ _)
    fun bs => ?_
  cases e8Field (BitVec.ofNat 32 (leNat bs)) i with
  | some v => exact storeBytes_within (by omega) (by rw [leBytes_length]; omega)
  | none => exact always_pure (ChangedWithin.refl _ _) _

theorem e8Loop_within (outBase n fuel i : Nat) : Always (ChangedWithin outBase (outBase + n)) (e8Loop outBase n fuel i) := by
  induction fuel generalizing i with
  | zero => exact always_pure (ChangedWithin.refl _ _) _
  | succ fuel ih =>
    unfold e8Loop
    split
    · refine always_bind (P := ChangedWithin outBase (outBase + n)) (fun _ _ _ => .trans) (loadBytes_within _ _ _ _)
        fun bs => ?_
      exact always_ite (always_bind (P := ChangedWithin outBase (outBase + n)) (fun _ _ _ => .trans)
        (e8Translate_within ‹_›) fun _ => ih _) (ih _)
    · exact always_pure (ChangedWithin.refl _ _) _

/-- E8 translation changes at most the chunk's output (R208). -/
theorem e8Undo_within (outBase n : Nat) : Always (ChangedWithin outBase (outBase + n)) (e8Undo outBase n) :=
  always_ite (always_pure (ChangedWithin.refl _ _) _) (e8Loop_within _ _ _ _)

/-- CbDecode changes at most its output range, however it ends (R194). -/
theorem cbDecode_within (job : Job) (w : Nat) :
    Always (ChangedWithin job.outBase (job.outBase + job.outSize)) (cbDecode job w) := by
  intro out
  have h : Always (CbStep job) (do
      cbBlocks job w job.outSize
      onBase (exhaustionCheck job)
      onBase (onOut (e8Undo job.outBase job.outSize))) := by
    refine always_bind (P := CbStep job) (fun _ _ _ => .trans) (cbBlocks_step job w _) fun _ => ?_
    refine always_bind (P := CbStep job) (fun _ _ _ => .trans) (onBase_step (exhaustionCheck_step job)) fun _ => ?_
    exact onBase_step (onOut_step (e8Undo_within _ _))
  have h1 := h (sessionStart job w out) (Nat.zero_le _)
  unfold cbDecode
  simp only
  revert h1
  cases (do
      cbBlocks job w job.outSize
      onBase (exhaustionCheck job)
      onBase (onOut (e8Undo job.outBase job.outSize)) : Run CbSess Unit) (sessionStart job w out) <;>
  exact fun h1 => h1.2.2

/-! ### Chunk expansion (45_context.md R239) -/

/-- Expanding a chunk changes at most the first `u` bytes of the cache buffer, however it ends. -/
theorem expandChunk_within (params : Params) (codec : Codec) (stored : List Byte) (u : Nat) :
    Always (ChangedWithin 0 u) (expandChunk params codec stored u) := by
  unfold expandChunk
  split
  · exact storeBytes_within le_rfl (by omega)
  · cases codec with
    | a => simpa [stageJob] using caDecode_within (stageJob params stored u)
    | b => simpa [stageJob] using cbDecode_within (stageJob params stored u) 15

end Sys2Proof.Machine
end

