-- ==== Sys2Proof/Laws/Context.lean ====
section
/-!
SUPPORT. Laws of the context: what working on a part of the state does, the shape of the chunk index, everything
EnsureChunk can do, and what a CTX_READ leaves alone (45_context.md).
-/

namespace Sys2Proof.Machine

/-! ### Working on a part of the state -/

theorem onLmem_cases {α : Type} (f : Run Space α) (s : State) :
    (∃ a sp, f (lmemSpace s) = .ok a sp ∧ onLmem f s = .ok a (s.setLmem sp.cells)) ∨
      ∃ e sp, f (lmemSpace s) = .error e sp ∧ onLmem f s = .error e (s.setLmem sp.cells) :=
  zoom_cases lmemSpace (fun sp s => s.setLmem sp.cells) f s

theorem onBr0_cases {α : Type} (f : Space → Run BitReader α) (s : State) :
    (∃ a r, f (lmemSpace s) s.br0 = .ok a r ∧ onBr0 f s = .ok a (s.setBr0 r)) ∨
      ∃ e r, f (lmemSpace s) s.br0 = .error e r ∧ onBr0 f s = .error e (s.setBr0 r) :=
  zoom_cases State.br0 (fun r t => t.setBr0 r) (f (lmemSpace s)) s

/-- The cache buffer as the memory of a chunk of `u` bytes. -/
def cacheSpace (u : Nat) (s : State) : Space := { limit := u, cells := s.ctx.cacheBuf }

theorem onCache_cases {α : Type} (u : Nat) (f : Run Space α) (s : State) :
    (∃ a sp, f (cacheSpace u s) = .ok a sp ∧ onCache u f s = .ok a (s.setCtx { s.ctx with cacheBuf := sp.cells })) ∨
      ∃ e sp, f (cacheSpace u s) = .error e sp ∧ onCache u f s = .error e (s.setCtx { s.ctx with cacheBuf := sp.cells }) :=
  zoom_cases (cacheSpace u) (fun sp s => s.setCtx { s.ctx with cacheBuf := sp.cells }) f s

/-- What a failure handler does: nothing to a good ending or a fault. -/
theorem onFail_cases {σ α : Type} (h : σ → σ) (f : Run σ α) (s : σ) :
    (∃ a t, f s = .ok a t ∧ onFail h f s = .ok a t) ∨
      (∃ e t, f s = .error (.fail e) t ∧ onFail h f s = .error (.fail e) (h t)) ∨
        ∃ c t, f s = .error (.fault c) t ∧ onFail h f s = .error (.fault c) t := by
  unfold onFail
  cases hf : f s with
  | ok a t => exact .inl ⟨a, t, rfl, rfl⟩
  | error e t =>
    cases e with
    | fail e => exact .inr (.inl ⟨e, t, rfl, rfl⟩)
    | fault c => exact .inr (.inr ⟨c, t, rfl, rfl⟩)

/-! ### The index (R233) -/

@[simp] theorem indexEntries_length (esz k : Nat) (bs : List Byte) : (indexEntries esz k bs).length = k := by
  induction k generalizing bs with
  | zero => rfl
  | succ k ih => simp [indexEntries, ih]

/-- cstart has an entry for every chunk and one above. -/
@[simp] theorem buildIndex_length (n esz payload : Nat) (region : List Byte) :
    (buildIndex n esz payload region).length = n + 1 := by
  unfold buildIndex
  split
  · simp_all
  · simp only [List.length_cons, List.length_append, indexEntries_length, List.length_nil]
    omega

/-- A validated chunk's start is below its end by at least 1 and at most its logical length (R234). -/
theorem indexLegal_chunk {lsize order n : Nat} {cstart : List Nat} (h : indexLegal lsize order n cstart = true) {c : Nat}
    (hc : c < n) :
    cstart.getD c 0 + 1 ≤ cstart.getD (c + 1) 0 ∧
      cstart.getD (c + 1) 0 ≤ cstart.getD c 0 + chunkLength lsize order c := by
  have := List.all_eq_true.mp h c (List.mem_range.mpr hc)
  simpa [chunkLegal] using this

/-! ### EnsureChunk (R239) -/

/-- The stored range of a chunk, as StoreRead is asked for it. -/
def chunkRead (s : State) (c : Nat) : Run State (Option (List Byte)) :=
  storeRead s.ctx.handle (s.ctx.tsize + s.ctx.cstart.getD c 0) (s.ctx.cstart.getD (c + 1) 0 - s.ctx.cstart.getD c 0)

/-- Everything EnsureChunk can do: find the chunk in the cache, fail E_IO, or drop the cache and expand the chunk. -/
theorem ensureChunk_cases (c : Nat) (s : State) :
    (s.ctx.cacheValid = true ∧ s.ctx.cacheChunk = c ∧ ensureChunk c s = .ok () s) ∨
      (¬ (s.ctx.cacheValid = true ∧ s.ctx.cacheChunk = c) ∧
        (ensureChunk c s = .error (.fail .io) (dropCache s).countIo ∨
          ∃ bs, chunkRead s c (dropCache s) = .ok (some bs) (dropCache s).countIo ∧
            ensureChunk c s =
              (onCache (chunkLength s.ctx.lsize s.ctx.order c)
                (expandChunk s.world.params s.ctx.codec bs (chunkLength s.ctx.lsize s.ctx.order c)) >>= fun _ =>
                  modify (holdChunk c)) (dropCache s).countIo)) := by
  unfold ensureChunk
  rw [bind_of_ok (get_run s)]
  by_cases h : s.ctx.cacheValid = true ∧ s.ctx.cacheChunk = c
  · exact .inl ⟨h.1, h.2, by rw [if_pos h]; rfl⟩
  · refine .inr ⟨h, ?_⟩
    rw [if_neg h, bind_of_ok (set_run _ _)]
    rcases storeRead_run s.ctx.handle (s.ctx.tsize + s.ctx.cstart.getD c 0)
      (s.ctx.cstart.getD (c + 1) 0 - s.ctx.cstart.getD c 0) (dropCache s) with ⟨-, -, e⟩ | e
    · exact .inr ⟨_, e, by rw [bind_of_ok e]⟩
    · exact .inl (by rw [bind_of_ok e]; rfl)

/-! ### What a CTX_READ leaves alone -/

/-- What every part of a CTX_READ keeps: everything but LMEM between lo and hi-1, RES0, the cache fields of the context,
and the count of StoreRead calls; and it never makes a byte of LMEM lose its value. -/
structure ReadStep (lo hi : Nat) (s t : State) : Prop where
  lmem : ChangedWithin lo hi (lmemSpace s) (lmemSpace t)
  ctx : { t.ctx with cacheValid := s.ctx.cacheValid, cacheChunk := s.ctx.cacheChunk, cacheBuf := s.ctx.cacheBuf } = s.ctx
  buf : s.ctx.cacheBuf.wf → t.ctx.cacheBuf.wf
  rest : { t with lmem := s.lmem, res0 := s.res0, ctx := s.ctx, ioCalls := s.ioCalls } = s

theorem ReadStep.refl (lo hi : Nat) (s : State) : ReadStep lo hi s s := ⟨.refl _ _ _, rfl, id, rfl⟩

theorem ReadStep.trans {lo hi : Nat} {s t u : State} (h : ReadStep lo hi s t) (h' : ReadStep lo hi t u) :
    ReadStep lo hi s u := by
  obtain ⟨a1, a2, a3, a4⟩ := h
  obtain ⟨b1, b2, b3, b4⟩ := h'
  refine ⟨a1.trans b1, ?_, fun k => b3 (a3 k), ?_⟩
  · rw [← a2, ← b2]
  · rw [← a4, ← b4]

theorem ensureChunk_readStep (lo hi c : Nat) : Always (ReadStep lo hi) (ensureChunk c) := by
  intro s
  rcases ensureChunk_cases c s with ⟨-, -, e⟩ | ⟨-, e | ⟨bs, -, e⟩⟩ <;> rw [e]
  · exact .refl lo hi s
  · exact ⟨.refl _ _ _, rfl, id, rfl⟩
  · refine ReadStep.trans (t := (dropCache s).countIo) ⟨.refl _ _ _, rfl, id, rfl⟩ ?_
    refine always_bind (P := ReadStep lo hi) (fun _ _ _ => .trans) ?_ (fun _ => ?_) _
    · exact always_zoom (expandChunk_within _ _ _ _) fun u sp h => ⟨.refl _ _ _, rfl, h.wf, rfl⟩
    · exact always_modify fun u => ⟨.refl _ _ _, rfl, id, rfl⟩

/-- Copying a chunk's part of a read stays inside the read's destination (R238). -/
theorem copyChunk_readStep {p m dst c : Nat} {s : State} (h : c * 2 ^ s.ctx.order < p + m) :
    ReadStep dst (dst + m) s (stateOf (copyChunk p m dst c s)) := by
  unfold copyChunk
  have hE : Always (ReadStep dst (dst + m)) (onFail failRead (ensureChunk c)) :=
    always_onFail (fun _ _ _ => .trans) (fun u => ⟨.refl _ _ _, rfl, id, rfl⟩) (ensureChunk_readStep _ _ c)
  cases hf : onFail failRead (ensureChunk c) s with
  | error e t =>
    rw [bind_of_error hf]
    exact hE.error hf
  | ok a t =>
    rw [bind_of_ok hf, bind_of_ok (get_run t)]
    have ht := hE.ok hf
    refine ht.trans ?_
    have ho : t.ctx.order = s.ctx.order := by rw [← ht.ctx]
    simp only [ho]
    rcases onCache_cases (chunkLength t.ctx.lsize s.ctx.order c) (loadBytes (max p (c * 2 ^ s.ctx.order) - c * 2 ^ s.ctx.order)
        (min (p + m) ((c + 1) * 2 ^ s.ctx.order) - max p (c * 2 ^ s.ctx.order))) t with
      ⟨bs, sp, e1, e2⟩ | ⟨e, sp, e1, e2⟩
    · rw [bind_of_ok e2]
      have hk := (loadBytes_keeps _ _).ok e1
      have hl : bs.length = min (p + m) ((c + 1) * 2 ^ s.ctx.order) - max p (c * 2 ^ s.ctx.order) := by
        unfold loadBytes at e1
        cases hb : memReadBytes (cacheSpace (chunkLength t.ctx.lsize s.ctx.order c) t)
            (max p (c * 2 ^ s.ctx.order) - c * 2 ^ s.ctx.order)
            (min (p + m) ((c + 1) * 2 ^ s.ctx.order) - max p (c * 2 ^ s.ctx.order)) with
        | error c => rw [hb] at e1; cases e1
        | ok cs => rw [hb] at e1; cases e1; exact memReadBytes_length hb
      subst hk
      exact always_zoom (storeBytes_within (lo := dst) (hi := dst + m) (by omega) (by omega))
        (fun u sp h => ⟨⟨rfl, h.wf, h.outside, h.kept⟩, rfl, id, rfl⟩) _
    · rw [bind_of_error e2]
      have hk := (loadBytes_keeps _ _).error e1
      subst hk
      exact ⟨.refl _ _ _, rfl, id, rfl⟩

end Sys2Proof.Machine
end

