-- ==== Sys2Proof/Laws/Formats.lean ====
section
/-!
SUPPORT. Laws of the terms the statements about the codecs use: bit strings, streams that start with one, and the
expansion of items.
-/

namespace Sys2Proof.Machine

@[simp] theorem bitsOf_length (v n : Nat) : (bitsOf v n).length = n := by simp [bitsOf]

@[simp] theorem codeBits_length (lens : List Nat) (sym : Nat) : (codeBits lens sym).length = lens.getD sym 0 :=
  bitsOf_length _ _

/-- A stream that starts with two strings starts with the first. -/
theorem StreamStarts.left {m : Memory} {r : BitReader} {a b : List Bool} (h : StreamStarts m r (a ++ b)) :
    StreamStarts m r a := by
  intro i hi
  have := h i (by rw [List.length_append]; omega)
  rwa [List.getElem_append_left hi] at this

/-- After the first string it starts with the second. -/
theorem StreamStarts.right {m : Memory} {r t : BitReader} {a b : List Bool} (h : StreamStarts m r (a ++ b))
    (hm : StreamMoves m r t a.length) : StreamStarts m t b := by
  intro i hi
  have := h (a.length + i) (by rw [List.length_append]; omega)
  rw [hm i, this, List.getElem_append_right (by omega)]
  simp

theorem StreamMoves.trans {m : Memory} {r t u : BitReader} {j k : Nat} (h : StreamMoves m r t j)
    (h' : StreamMoves m t u k) : StreamMoves m r u (j + k) := by
  intro i
  rw [h' i, h (k + i), Nat.add_assoc]

/-- Items one after another: first the first ones, then the rest. -/
theorem expandItems_append (limit : Nat) (out : List Byte) (a b : List LzItem) :
    expandItems limit out (a ++ b) = (expandItems limit out a).bind fun out' => expandItems limit out' b := by
  induction a generalizing out with
  | nil => rfl
  | cons x xs ih =>
    simp only [List.cons_append, expandItems]
    cases expandItem limit out x with
    | none => rfl
    | some out' => exact ih out'

/-- What an item does to the output: it only adds, and never beyond the limit. -/
theorem expandItem_grows {limit : Nat} {out out' : List Byte} {x : LzItem} (h : expandItem limit out x = some out') :
    out'.length ≤ limit ∧ ∃ more, out' = out ++ more := by
  cases x with
  | literal b =>
    simp only [expandItem] at h
    split at h
    · cases h
      exact ⟨by rw [List.length_append]; exact ‹_›, _, rfl⟩
    · cases h
  | copy length dist =>
    simp only [expandItem] at h
    split at h
    · cases h
      have hc := ‹dist ≤ out.length ∧ out.length + length ≤ limit›
      exact ⟨by rw [List.length_append, List.length_map, List.length_range]; exact hc.2, _, rfl⟩
    · cases h

/-- An operation on code lengths keeps their number. -/
@[simp] theorem LenOp.apply_length (op : LenOp) (lens : List Nat) (i : Nat) : (op.apply lens i).length = lens.length := by
  simp [LenOp.apply]

@[simp] theorem applyOps_length (ops : List LenOp) (lens : List Nat) (i : Nat) :
    (applyOps ops lens i).length = lens.length := by
  induction ops generalizing lens i with
  | nil => rfl
  | cons op ops ih => rw [applyOps, ih, LenOp.apply_length]

end Sys2Proof.Machine
end

