-- ==== Sys2Proof/Laws/PerInstr.lean ====
section
/-!
SUPPORT. Families of laws with one lemma per command.
-/

namespace Sys2Proof.Laws

/-- The encoder puts the opcode, the bit count and zeros where the decoder looks for them (30_encoding.md R71, R81). -/
def EncodeFields.Statement (i : Instr) : Prop :=
  opcField (encode i) = opcodeOf i ∧ nField (encode i) = bitCountOf i ∧ rsvField (encode i) = 0#19

/-- The fields of any word laid out as the encoder does. -/
theorem fields_of_layout (n : BitVec 5) (opc : BitVec 8) :
    opcField (0#19 ++ (n ++ opc)) = opc ∧ nField (0#19 ++ (n ++ opc)) = n ∧ rsvField (0#19 ++ (n ++ opc)) = 0#19 := by
  refine ⟨?_, ?_, ?_⟩ <;>
  · apply BitVec.eq_of_getLsbD_eq
    intro i hi
    simp only [opcField, nField, rsvField, BitVec.getLsbD_extractLsb', BitVec.getLsbD_append, BitVec.getLsbD_zero]
    grind

theorem EncodeFields.brInit : EncodeFields.Statement .brInit := fields_of_layout _ _
theorem EncodeFields.brEnsure (n : BitVec 5) : EncodeFields.Statement (.brEnsure n) := fields_of_layout _ _
theorem EncodeFields.brPeek (n : BitVec 5) : EncodeFields.Statement (.brPeek n) := fields_of_layout _ _
theorem EncodeFields.brPop (n : BitVec 5) : EncodeFields.Statement (.brPop n) := fields_of_layout _ _
theorem EncodeFields.brRead (n : BitVec 5) : EncodeFields.Statement (.brRead n) := fields_of_layout _ _
theorem EncodeFields.brReadByte : EncodeFields.Statement .brReadByte := fields_of_layout _ _
theorem EncodeFields.brReadU16 : EncodeFields.Statement .brReadU16 := fields_of_layout _ _
theorem EncodeFields.brReadU32 : EncodeFields.Statement .brReadU32 := fields_of_layout _ _
theorem EncodeFields.brReadBytes : EncodeFields.Statement .brReadBytes := fields_of_layout _ _
theorem EncodeFields.brAlign : EncodeFields.Statement .brAlign := fields_of_layout _ _
theorem EncodeFields.htBuild : EncodeFields.Statement .htBuild := fields_of_layout _ _
theorem EncodeFields.htDecode : EncodeFields.Statement .htDecode := fields_of_layout _ _
theorem EncodeFields.mcCopy : EncodeFields.Statement .mcCopy := fields_of_layout _ _
theorem EncodeFields.caDecompress : EncodeFields.Statement .caDecompress := fields_of_layout _ _
theorem EncodeFields.cbDecompress : EncodeFields.Statement .cbDecompress := fields_of_layout _ _
theorem EncodeFields.ctxOpen : EncodeFields.Statement .ctxOpen := fields_of_layout _ _
theorem EncodeFields.ctxGetSize : EncodeFields.Statement .ctxGetSize := fields_of_layout _ _
theorem EncodeFields.ctxRead : EncodeFields.Statement .ctxRead := fields_of_layout _ _
theorem EncodeFields.ctxClose : EncodeFields.Statement .ctxClose := fields_of_layout _ _

end Sys2Proof.Laws
end

