-- ==== Sys2Proof/Laws/Step.lean ====
section
/-!
SUPPORT. Laws of the host's side: everything a CMD write can do (10_state.md R23), a step with no action pending, and
the step that runs a pending command.
-/

namespace Sys2Proof.Machine


/-- Taking back the action just put first leaves the state as it was. -/
@[simp] theorem nextActions_self (s : State) (w : Word32) : (pendCommand s w).nextActions s.host = s := rfl

/-- Everything a CMD write can do, in the order of 60_exceptions.md R268. -/
theorem writeCmd_cases (w : Word32) (s : State) :
    (s.fault = true ∧ writeCmd w s = .next s) ∨
      (s.fault = false ∧ s.busy = true ∧ writeCmd w s = .next (s.takeFault .cmdBusy 0#8)) ∨
        (s.fault = false ∧ s.busy = false ∧
          ((∃ i, decode w = .ok i ∧ writeCmd w s = exec i s.accept) ∨
            ∃ e, decode w = .error e ∧ writeCmd w s = illegalWord s)) := by
  unfold writeCmd
  cases hf : s.fault with
  | true => exact .inl ⟨rfl, rfl⟩
  | false =>
    cases hb : s.busy with
    | true => exact .inr (.inl ⟨rfl, rfl, rfl⟩)
    | false =>
      refine .inr (.inr ⟨rfl, rfl, ?_⟩)
      cases hd : decode w with
      | ok i => exact .inl ⟨i, rfl, rfl⟩
      | error e => exact .inr ⟨e, rfl, rfl⟩

/-- An ARG register that holds a value shows it. -/
theorem argShown_of_some {s : State} {i : Fin 6} {v : Word64} (h : s.args.get i = some v) : argShown s i = v := by
  simp only [argShown, h]

/-- Everything a write to the low half of an ARG register can do: the register gets a value, from its own high half or
from the one written before, or it still holds none and the half is kept. -/
theorem setArgLow_cases (s : State) (i : Fin 6) (v : Word32) :
    (∃ w, s.args.get i = some w ∧ s.setArgLow i v = s.setArg i (highHalf w ++ v)) ∨
      (∃ h, s.args.get i = none ∧ s.argHalf.get i = some (.high h) ∧ s.setArgLow i v = s.setArg i (h ++ v)) ∨
        s.args.get i = none ∧ s.setArgLow i v = s.setArgHalf i (.low v) := by
  unfold State.setArgLow
  split
  · exact .inl ⟨_, ‹_›, rfl⟩
  · exact .inr (.inl ⟨_, ‹_›, ‹_›, rfl⟩)
  · exact .inr (.inr ⟨‹_›, rfl⟩)

/-- Everything a write to the high half of an ARG register can do. -/
theorem setArgHigh_cases (s : State) (i : Fin 6) (v : Word32) :
    (∃ w, s.args.get i = some w ∧ s.setArgHigh i v = s.setArg i (v ++ lowHalf w)) ∨
      (∃ l, s.args.get i = none ∧ s.argHalf.get i = some (.low l) ∧ s.setArgHigh i v = s.setArg i (v ++ l)) ∨
        s.args.get i = none ∧ s.setArgHigh i v = s.setArgHalf i (.high v) := by
  unfold State.setArgHigh
  split
  · exact .inl ⟨_, ‹_›, rfl⟩
  · exact .inr (.inl ⟨_, ‹_›, ‹_›, rfl⟩)
  · exact .inr (.inr ⟨‹_›, rfl⟩)

/-- A block with no host action pending keeps all its state (60_exceptions.md R276). -/
theorem step_idle {s : State} (h : s.host = []) : step s = .next s := by
  simp only [step, hostStep, h]

/-- A step takes the host's first pending action. -/
theorem step_action {s : State} {e : HostEvent} {rest : List HostEvent} (h : s.host = e :: rest) :
    step s = hostAction e (s.nextActions rest) := by
  simp only [step, hostStep, h]

/-- A step with a command word pending is the CMD write of that word. -/
theorem step_pendCommand (s : State) (w : Word32) : step (pendCommand s w) = writeCmd w s := rfl

end Sys2Proof.Machine
end

