-- ==== Sys2Proof/Tests/Slice0.lean ====
section
/-!
SUPPORT. Tests: ill-formed commands, a word of every command written out from the opcode map (30_encoding.md R73), one
step of each command against the spec's own examples (95_test_vectors.md and the rules' examples), and a witness for
every statement that has hypotheses.
-/

namespace Sys2Proof.Tests

open Sys2Proof.Machine

set_option Elab.async false

/-! ### Small states -/

/-- The state with the listed ARG values; ARG registers above them hold none. -/
def withArgs (vs : List Nat) (s : State) : State :=
  { s with args := Vector.ofFn fun i => (vs[i.val]?).map (BitVec.ofNat 64) }

/-- The state with bytes written to LMEM. -/
def withBytes (a : Nat) (bs : List Nat) (s : State) : State :=
  { s with lmem := writeCells s.lmem a (bs.map (BitVec.ofNat 8)) }

/-- The state whose LMEM holds these bytes from address 0 on, and no other. -/
def withImage (bs : List Nat) (s : State) : State :=
  { s with lmem := bs.zipIdx.map fun p => (p.2, BitVec.ofNat 8 p.1) }

/-- The state with BR0 just initialised. -/
def withReader (a n : Nat) (s : State) : State := { s with br0 := initReader a n }

/-- The state with one host action before it. -/
def pending (e : HostEvent) (s : State) : State := { s with host := [e] }

/-- The next state of an outcome, if it is one. -/
def nextOf : Host.Outcome State Fault Refusal → Option State
  | .next t => some t
  | .fault _ => none
  | .refused _ => none

/-- Input A of 95_test_vectors.md L2.1. -/
def inputA : State := withReader 0x100 5 (withBytes 0x100 [0x34, 0x12, 0x78, 0x56, 0xAB] State.reset)

/-- Input A after BR_ENSURE 4 (vector B2). -/
def afterB2 : State :=
  { inputA with br0 := { inputA.br0 with bitbuf := 0x12340000#32, bitsleft := 16, realbits := 16, next := 0x102 } }

/-- Input A with the first unit consumed (vector B5). -/
def afterB5 : State := { inputA with br0 := { inputA.br0 with next := 0x102 } }

/-- The table of 41_huffman.md R139 at 0x300, and BR0 over 80 5B (vector D1). -/
def tableState : State :=
  withReader 0x100 2 (withBytes 0x100 [0x80, 0x5B]
    (withBytes 0x300 [0x01, 0x08, 0x01, 0x08, 0x00, 0x10, 0x04, 0xC0, 0x02, 0x00, 0x03, 0x00] State.reset))

/-- A world with "ababa" as the store of handle 7. -/
def smallWorld : World :=
  { World.standard with stores := [(7#64, [0x61#8, 0x62#8, 0x61#8, 0x62#8, 0x61#8])] }

/-- An open context over that store: one raw chunk of 5 bytes, nothing cached. -/
def openState : State :=
  { State.resetWith smallWorld with
    ctx := { Context.reset with
      opened := true, handle := 7#64, lsize := 5, order := 12, nchunks := 1, ssize := 5, cstart := [0, 5] } }

/-- That context with its chunk cached. -/
def cachedState : State :=
  { openState with ctx := { openState.ctx with
    cacheValid := true
    cacheBuf := [(0, 0x61#8), (1, 0x62#8), (2, 0x61#8), (3, 0x62#8), (4, 0x61#8)] } }

/-! ### Well-formedness refuses (30_encoding.md R72, R75(c)) -/

theorem test_ensure_17_ill_formed : (Instr.brEnsure 17#5).wellFormed = false := by decide
theorem test_peek_17_ill_formed : (Instr.brPeek 17#5).wellFormed = false := by decide
theorem test_pop_31_ill_formed : (Instr.brPop 31#5).wellFormed = false := by decide
theorem test_read_17_ill_formed : (Instr.brRead 17#5).wellFormed = false := by decide
theorem test_read_16_well_formed : (Instr.brRead 16#5).wellFormed = true := by decide

/-! ### Decoding words written out from the opcode map (R71, R73, R81) -/

theorem test_decode_brInit : decode 0x00000001#32 = .ok .brInit := by rfl
theorem test_decode_brEnsure : decode 0x00000402#32 = .ok (.brEnsure 4#5) := by rfl
theorem test_decode_brPeek : decode 0x00000C03#32 = .ok (.brPeek 12#5) := by rfl
theorem test_decode_brPop : decode 0x00000404#32 = .ok (.brPop 4#5) := by rfl
theorem test_decode_brRead : decode 0x00001005#32 = .ok (.brRead 16#5) := by rfl
theorem test_decode_brReadByte : decode 0x00000006#32 = .ok .brReadByte := by rfl
theorem test_decode_brReadU16 : decode 0x00000007#32 = .ok .brReadU16 := by rfl
theorem test_decode_brReadU32 : decode 0x00000008#32 = .ok .brReadU32 := by rfl
theorem test_decode_brReadBytes : decode 0x00000009#32 = .ok .brReadBytes := by rfl
theorem test_decode_brAlign : decode 0x0000000A#32 = .ok .brAlign := by rfl
theorem test_decode_htBuild : decode 0x00000010#32 = .ok .htBuild := by rfl
theorem test_decode_htDecode : decode 0x00000011#32 = .ok .htDecode := by rfl
theorem test_decode_mcCopy : decode 0x00000018#32 = .ok .mcCopy := by rfl
theorem test_decode_caDecompress : decode 0x00000020#32 = .ok .caDecompress := by rfl
theorem test_decode_cbDecompress : decode 0x00000021#32 = .ok .cbDecompress := by rfl
theorem test_decode_ctxOpen : decode 0x00000030#32 = .ok .ctxOpen := by rfl
theorem test_decode_ctxGetSize : decode 0x00000031#32 = .ok .ctxGetSize := by rfl
theorem test_decode_ctxRead : decode 0x00000032#32 = .ok .ctxRead := by rfl
theorem test_decode_ctxClose : decode 0x00000033#32 = .ok .ctxClose := by rfl

/-- The four illegal cases of R75, vectors B21 to B24. -/
theorem test_decode_refuses :
    decode 0x00001102#32 = .error .bitCountTooLarge ∧ decode 0x00000106#32 = .error .strayBitCount ∧
      decode 0x00002001#32 = .error .reservedBits ∧ decode 0x00000000#32 = .error .unassignedOpcode := by
  refine ⟨?_, ?_, ?_, ?_⟩ <;> rfl

theorem test_decodeTableWord : decodeTableWord 32 0x00000405 = some (.brRead 4#5) := by rfl

/-! ### The bit reader (vectors B1 to B28) -/

theorem test_brInit :
    (nextOf (exec .brInit (withArgs [0x100, 5] State.reset))).map (fun t => (t.br0.start, t.br0.stop, t.br0.next)) =
      some (0x100, 0x105, 0x100) := by decide +kernel

/-- Vector B20. -/
theorem test_brInit_range :
    (nextOf (exec .brInit (withArgs [0xFFFFFFFF, 2] State.reset))).map faultInfoWord = some 0x00000102#32 := by
  decide +kernel

theorem test_brEnsure :
    (nextOf (exec (.brEnsure 4#5) inputA)).map (fun t => (t.br0.bitbuf, t.br0.bitsleft, t.br0.next)) =
      some (0x12340000#32, 16, 0x102) := by decide +kernel

/-- Vector B12: one trailing byte is never loaded as bits. -/
theorem test_brEnsure_pads :
    (nextOf (exec (.brEnsure 1#5) (withReader 0x100 1 (withBytes 0x100 [1] State.reset)))).map
      (fun t => (t.br0.bitsleft, t.br0.next)) = some (32, 0x100) := by decide +kernel

theorem test_brPeek : (nextOf (exec (.brPeek 12#5) afterB2)).map (·.res0) = some 0x123#64 := by decide +kernel

/-- Vector B16. -/
theorem test_brPeek_underflow :
    (nextOf (exec (.brPeek 1#5) inputA)).map (fun t => (statusWord t, faultInfoWord t)) =
      some (0x00000200#32, 0x00000304#32) := by decide +kernel

theorem test_brPop :
    (nextOf (exec (.brPop 4#5) afterB2)).map (fun t => (t.br0.bitbuf, t.br0.bitsleft)) = some (0x23400000#32, 12) := by
  decide +kernel

theorem test_brRead :
    (nextOf (exec (.brRead 4#5) inputA)).map (fun t => (t.res0, t.br0.bitsleft)) = some (1#64, 12) := by decide +kernel

/-- Vector B14: past the end the bits are 0, and padused is set. -/
theorem test_brRead_past_end :
    (nextOf (exec (.brRead 5#5) (withReader 0x100 0 State.reset))).map
      (fun t => (t.res0, t.br0.bitsleft, t.br0.padused)) = some (0#64, 27, true) := by decide +kernel

theorem test_brReadByte :
    (nextOf (exec .brReadByte afterB5)).map (fun t => (t.res0, t.br0.next)) = some (0x78#64, 0x103) := by decide +kernel

theorem test_brReadU16 : (nextOf (exec .brReadU16 inputA)).map (·.res0) = some 0x1234#64 := by decide +kernel

/-- Vector B8: with three bytes left the U32 read gives 0 and leaves the cursor. -/
theorem test_brReadU32 :
    (nextOf (exec .brReadU32 afterB5)).map (fun t => (t.res0, t.br0.next)) = some (0#64, 0x102) := by decide +kernel

theorem test_brReadBytes :
    (nextOf (exec .brReadBytes (withArgs [0x200, 3] afterB5))).map
      (fun t => (readByte t.lmem 0x200, readByte t.lmem 0x202, readByte t.lmem 0x203, t.br0.next)) =
      some (some 0x78#8, some 0xAB#8, none, 0x105) := by decide +kernel

/-- Vector B25. -/
theorem test_brReadBytes_truncated :
    (nextOf (exec .brReadBytes (withArgs [0x200, 4] afterB5))).map (fun t => (t.code, readByte t.lmem 0x200)) =
      some (2#8, none) := by decide +kernel

theorem test_brAlign :
    (nextOf (exec .brAlign afterB2)).map (fun t => (t.br0.bitbuf, t.br0.bitsleft, t.br0.next)) =
      some (0#32, 0, 0x102) := by decide +kernel

/-! ### Huffman tables (vectors H3, H5, D1) -/

theorem test_htBuild :
    (nextOf (exec .htBuild (withArgs [0, 4, 2, 3, 0x300] (withBytes 0 [2, 1, 3, 3] State.reset)))).map
      (fun t => (List.range 13).map fun i => readByte t.lmem (0x300 + i)) =
      some [some 0x01#8, some 0x08#8, some 0x01#8, some 0x08#8, some 0x00#8, some 0x10#8, some 0x04#8, some 0xC0#8,
        some 0x02#8, some 0x00#8, some 0x03#8, some 0x00#8, none] := by decide +kernel

theorem test_htBuild_over_subscribed :
    (nextOf (exec .htBuild (withArgs [0, 3, 2, 2, 0x300] (withBytes 0 [1, 1, 2] State.reset)))).map
      (fun t => (t.code, readByte t.lmem 0x300)) = some (1#8, none) := by decide +kernel

theorem test_htDecode :
    (nextOf (exec .htDecode (withArgs [0x300, 2, 3] tableState))).map (fun t => (t.res0, t.br0.bitsleft)) =
      some (1#64, 15) := by decide +kernel

/-- The third symbol of vector D1 goes through the trie: bits 110 give symbol 2. -/
theorem test_htDecode_trie :
    (nextOf (exec .htDecode (withArgs [0x300, 2, 3] { tableState with
      br0 := { tableState.br0 with bitbuf := 0xDC000000#32, bitsleft := 13, realbits := 13, next := 0x102 } }))).map
      (fun t => (t.res0, t.br0.bitsleft)) = some (2#64, 10) := by decide +kernel

/-! ### The match copier (vectors M1, M9) -/

theorem test_mcCopy :
    (nextOf (exec .mcCopy (withArgs [0x200, 0x202, 6, 2, 0x208, 0] (withBytes 0x200 [0x61, 0x62] State.reset)))).map
      (fun t => (t.res0, (List.range 9).map fun i => readByte t.lmem (0x200 + i))) =
      some (0x208#64, [some 0x61#8, some 0x62#8, some 0x61#8, some 0x62#8, some 0x61#8, some 0x62#8, some 0x61#8,
        some 0x62#8, none]) := by decide +kernel

theorem test_mcCopy_passes_bufend :
    (nextOf (exec .mcCopy (withArgs [0x200, 0x202, 7, 2, 0x208, 0] (withBytes 0x200 [0x61, 0x62] State.reset)))).map
      faultInfoWord = some 0x00001805#32 := by decide +kernel

/-! ### The codecs (vector A1, 44_codec_b.md R212's kind of uncompressed chunk) -/

/-- HDR of 43_codec_a.md R182, then the body 00 18. -/
def chunkA1 : List Nat :=
  (List.range 258).map fun i =>
    if i = 0x30 then 0x20 else if i = 0x31 then 0x02 else if i = 0x80 then 0x03 else if i = 0x88 then 0x02
    else if i = 0x8F then 0x30 else if i = 257 then 0x18 else 0

theorem test_caDecompress :
    (nextOf (exec .caDecompress (withArgs [0, 258, 0x8000, 5] (withImage chunkA1 State.reset)))).map
      (fun t => (t.code, (List.range 6).map fun i => readByte t.lmem (0x8000 + i))) =
      some (0#8, [some 0x61#8, some 0x62#8, some 0x61#8, some 0x62#8, some 0x61#8, none]) := by decide +kernel

/-- Vector A11's kind: no complete header. -/
theorem test_caDecompress_truncated :
    (nextOf (exec .caDecompress (withArgs [0, 4, 0x8000, 5] (withBytes 0 [0, 0, 0, 0] State.reset)))).map (·.code) =
      some 2#8 := by decide +kernel

/-- One uncompressed block of 2 bytes, by hand from 44_codec_b.md R195 and R199: bits 011 0 and size 2, aligned, three
recent offsets 1, then "hi". -/
def chunkB : List Nat :=
  [0x00, 0x60, 0x00, 0x20, 1, 0, 0, 0, 1, 0, 0, 0, 1, 0, 0, 0, 0x68, 0x69]

theorem test_cbDecompress :
    (nextOf (exec .cbDecompress (withArgs [0, 18, 0x8000, 2, 15] (withBytes 0 chunkB State.reset)))).map
      (fun t => (t.code, readByte t.lmem 0x8000, readByte t.lmem 0x8001, readByte t.lmem 0x8002)) =
      some (0#8, some 0x68#8, some 0x69#8, none) := by decide +kernel

/-- 44_codec_b.md R193: an empty input has block type 0. -/
theorem test_cbDecompress_empty_input :
    (nextOf (exec .cbDecompress (withArgs [0, 0, 0x8000, 2, 15] State.reset))).map (·.code) = some 4#8 := by
  decide +kernel

/-! ### The context (45_context.md R232, R237, R238, R242) -/

theorem test_ctxOpen :
    (nextOf (exec .ctxOpen (withArgs [7, 5, 0, 12] (State.resetWith smallWorld)))).map
      (fun t => (t.code, t.ctx.nchunks, t.ctx.ssize, t.ctx.cstart)) = some (0#8, 1, 5, [0, 5]) := by decide +kernel

theorem test_ctxOpen_twice : (nextOf (exec .ctxOpen openState)).map (·.code) = some 7#8 := by decide +kernel

theorem test_ctxGetSize : (nextOf (exec .ctxGetSize openState)).map (·.res0) = some 5#64 := by decide +kernel

/-- A read of 10 bytes at 3 is clamped to the last two. -/
theorem test_ctxRead :
    (nextOf (exec .ctxRead (withArgs [3, 10, 0x40] openState))).map
      (fun t => (t.res0, readByte t.lmem 0x40, readByte t.lmem 0x41, readByte t.lmem 0x42, t.ctx.cacheValid)) =
      some (2#64, some 0x62#8, some 0x61#8, none, true) := by decide +kernel

theorem test_ctxRead_closed :
    (nextOf (exec .ctxRead State.reset)).map (fun t => (t.code, t.res0)) = some (7#8, 0#64) := by decide +kernel

theorem test_ctxClose :
    (nextOf (exec .ctxClose cachedState)).map (fun t => (ctxFlagsWord t.ctx, t.ctx.lsize)) =
      some (0x00000060#32, 5) := by decide +kernel

/-! ### Steps -/

/-- The interface runs the table's word as the first command after reset. -/
theorem test_step_withFetchWord :
    (nextOf (step (State.withFetchWord State.reset 32 0x00000033))).map (·.code) = some 0#8 := by decide +kernel

theorem test_step_illegal_word :
    (nextOf (step (State.withFetchWord State.reset 32 0))).map statusWord = some 0x00000006#32 := by decide +kernel

/-- A half written to a register without a value gives it none, so BR_INIT faults with F_UNWRITTEN (R26, R282). -/
theorem test_half_write_gives_no_value :
    ((nextOf (step (pending (.write32 0x010 5#32) State.reset))).bind fun t =>
      nextOf (exec .brInit { t with args := t.args.set 1 (some 1#64) })).map faultInfoWord = some 0x00000101#32 := by
  decide +kernel

theorem test_both_halves_give_the_value :
    ((nextOf (step (pending (.write32 0x010 5#32) State.reset))).bind fun t =>
      nextOf (step (pending (.write32 0x014 6#32) t))).map (·.args.get 0) = some (some 0x0000000600000005#64) := by
  decide +kernel

/-- A 64-bit write to STATUS is ignored (R22). -/
theorem test_write64_readOnly :
    (nextOf (step (pending (.write64 0x004 1#64) { State.reset with fault := true }))).map statusWord = some 0x00000200#32 := by decide +kernel

/-! ### Witnesses: each statement's hypotheses met together, clause by clause -/

theorem argIs_of {s : State} {i : Fin 6} {v : Nat} (h : (s.args.get i).map BitVec.toNat = some v) : ArgIs s i v := by
  unfold ArgIs
  cases hw : s.args.get i with
  | none => simp [hw] at h
  | some w => exact ⟨w, rfl, by simpa [hw] using h⟩

theorem disjoint_of {a n b m : Nat} (h : a + n ≤ b ∨ b + m ≤ a) : Disjoint a n b m := fun _ _ _ _ _ => by omega

theorem overlap_of {a n b m : Nat} (x : Nat) (h : a ≤ x ∧ x < a + n ∧ b ≤ x ∧ x < b + m) : ¬ Disjoint a n b m :=
  fun hd => hd x h.1 h.2.1 h.2.2.1 h.2.2.2

/-- A state with FAULT set, by an underflow of BR_PEEK. -/
def faultedState : State := { State.reset with fault := true, cause := 4#8, faultOpc := 3#8 }

/-- A state with a command running. -/
def busyState : State := { State.reset with busy := true }

/-- A CMD write pending. -/
def cmd (w : Word32) (s : State) : State := pending (.write32 0x000 w) s

theorem witness_DecodeEncodeAgree : (Instr.brRead 16#5).wellFormed = true := by decide

theorem witness_LegalWordIsTheEncodingOfItsCommand : decode 0x00001005#32 = .ok (.brRead 16#5) := by rfl

/-- One word for each of the cases (a) to (d) of R75, each at its boundary. -/
theorem witness_IllegalWordOnlyReportsEIllegal :
    (∀ w ∈ [0x00002001, 0x0000000B, 0x00001102, 0x00000106],
      w / 8192 ≠ 0 ∨ w % 256 ∉ [1, 2, 3, 4, 5, 6, 7, 8, 9, 10, 16, 17, 24, 32, 33, 48, 49, 50, 51] ∨
        (w % 256 ∈ [2, 3, 4, 5] ∧ 16 < w / 256 % 32) ∨ (w % 256 ∉ [2, 3, 4, 5] ∧ w / 256 % 32 ≠ 0)) ∧
      State.reset.fault = false ∧ State.reset.busy = false ∧
        (cmd 0x00001102#32 State.reset).host = [.write32 0x000 0x00001102#32] := by decide

theorem witness_StepRunsTheDecodedCommand :
    (cmd 0x33#32 State.reset).host = [.write32 0x000 0x33#32] ∧ decode 0x33#32 = .ok .ctxClose ∧
      (cmd 0x33#32 State.reset).fault = false ∧ (cmd 0x33#32 State.reset).busy = false ∧
      decodeTableWord 32 0x33 = some .ctxClose := ⟨rfl, rfl, rfl, rfl, rfl⟩

theorem witness_CmdWriteIsIgnoredFaultsOrStarts :
    ((cmd 0x33#32 faultedState).host = [.write32 0x000 0x33#32] ∧ (cmd 0x33#32 faultedState).fault = true) ∧
      ((cmd 0x33#32 busyState).host = [.write32 0x000 0x33#32] ∧ (cmd 0x33#32 busyState).fault = false ∧
        (cmd 0x33#32 busyState).busy = true) ∧
      ((cmd 0x33#32 State.reset).host = [.write32 0x000 0x33#32] ∧ (cmd 0x33#32 State.reset).fault = false ∧
        (cmd 0x33#32 State.reset).busy = false ∧ decode 0x33#32 = .ok .ctxClose) :=
  ⟨⟨rfl, rfl⟩, ⟨rfl, rfl, rfl⟩, rfl, rfl, rfl, rfl⟩

theorem witness_FaultIsLeftOnlyByReset :
    (pending .reset faultedState).fault = true ∧ (pending .reset faultedState).host = [.reset] ∧
      (pending (.read64 0x040) faultedState).host = [.read64 0x040] ∧
      (∃ t, step (pending (.read64 0x040) faultedState) = .next t) ∧
      (cmd 0x33#32 faultedState).host = [.write32 0x000 0x33#32] :=
  ⟨rfl, rfl, rfl, ⟨_, rfl⟩, rfl⟩

theorem witness_ResetLeavesTheSpecValues : (pending .reset cachedState).host = [.reset] := rfl

/-- The machine's invariant at a state with an open context, a cached chunk and an action pending. -/
theorem inv_cached (e : HostEvent) : Inv (pending e cachedState) where
  lmem_wf := List.Pairwise.nil
  lmem_range := fun c hc => by cases hc
  busy := rfl
  code := Nat.zero_le _
  noFault := fun _ => ⟨rfl, rfl⟩
  cause := fun h => by cases h
  reader := reset_readerOk
  reader_range := Nat.zero_le _
  reader_fresh := fun _ => rfl
  ctx := {
    buf_wf := show Memory.wf cachedState.ctx.cacheBuf by decide
    closed := fun h => by cases h
    pair := fun _ => .inl ⟨rfl, .inl rfl⟩
    size := fun _ => show (5 : Nat) < 2 ^ 63 by decide +kernel
    count := fun _ => show 1 = chunkCount 5 12 ∧ 1 ≤ smallWorld.params.maxChunks by decide +kernel
    stored := fun _ => show 5 = storeLen smallWorld 7#64 by decide +kernel
    region := fun _ => show 0 = indexSize 5 1 ∧ 0 ≤ 5 by decide +kernel
    index := fun _ => show [0, 5] = buildIndex 1 (entrySize 5) (5 - 0) (storeSlice smallWorld 7#64 0 0) by decide +kernel
    legal := fun _ => show indexLegal 5 12 1 [0, 5] = true by decide +kernel
    cached := fun _ => ⟨show 0 < 1 by decide, fun i hi =>
      show (readByte cachedState.ctx.cacheBuf (0 + i)).isSome = true by
        have h : ∀ i < 5, (readByte cachedState.ctx.cacheBuf (0 + i)).isSome = true := by decide
        have hc : chunkLength 5 12 0 = 5 := by decide +kernel
        have hi' : i < chunkLength 5 12 0 := hi
        exact h i (by rwa [hc] at hi')⟩ }

theorem expand_cached :
    expandChunk Params.standard .a [0x61#8, 0x62#8, 0x61#8, 0x62#8, 0x61#8] 5 { limit := 5, cells := [] } =
      .ok () { limit := 5, cells := cachedState.ctx.cacheBuf } := by
  rfl

theorem decodes_cached : ChunkDecodes smallWorld cachedState.ctx 0 cachedState.ctx.cacheBuf := by
  have h1 : storeSlice smallWorld 7#64 (0 + 0) (5 - 0) = [0x61#8, 0x62#8, 0x61#8, 0x62#8, 0x61#8] := by decide +kernel
  have h2 : chunkLength 5 12 0 = 5 := by decide +kernel
  show expandChunk Params.standard .a (storeSlice smallWorld 7#64 (0 + 0) (5 - 0)) (chunkLength 5 12 0)
    { limit := chunkLength 5 12 0, cells := [] } = .ok () { limit := chunkLength 5 12 0, cells := cachedState.ctx.cacheBuf }
  rw [h1, h2]
  exact expand_cached

theorem coherent_cached (e : HostEvent) : CacheCoherent (pending e cachedState) :=
  fun _ => ⟨_, decodes_cached, fun _ _ _ => rfl⟩

theorem oracle_never_fails : OracleNeverFails smallWorld := by
  intro k
  rfl

theorem witness_EveryStepKeepsTheInvariant :
    Inv (pending .reset cachedState) ∧ ∃ t, step (pending .reset cachedState) = .next t := ⟨inv_cached _, _, rfl⟩

theorem witness_CommandsReadOnlyTheirOperands :
    (∀ k ∈ operandRegisters .brInit,
      (withArgs [0x100, 5, 9] State.reset).args.get k = (withArgs [0x100, 5] State.reset).args.get k) ∧
      (nextOf (exec .brInit (withArgs [0x100, 5] State.reset))).isSome = true := by decide +kernel

/-- Reader, table, copier, codec and context commands, and the two whose unit state matters. -/
theorem witness_UnwrittenOperandFaults :
    (1 ∈ operandRegisters .brInit ∧ (withArgs [0x100] State.reset).args.get 1 = none) ∧
      (1 ∈ operandRegisters .brReadBytes ∧ (withArgs [0x100] inputA).args.get 1 = none ∧
        (withArgs [0x100] inputA).br0.valid = true) ∧
      (5 ∈ operandRegisters .mcCopy ∧ (withArgs [1, 2, 3, 4, 5] State.reset).args.get 5 = none) ∧
      (0 ∈ operandRegisters .ctxOpen ∧ State.reset.args.get 0 = none ∧ State.reset.ctx.opened = false) ∧
      (2 ∈ operandRegisters .ctxRead ∧ (withArgs [0, 1] openState).args.get 2 = none ∧
        (withArgs [0, 1] openState).ctx.opened = true) := by decide +kernel

/-- A command without a result, and one with a result that ends in a fault. -/
theorem witness_ResultRegisterKeptWithoutResult :
    (nextOf (exec .brAlign afterB2)).isSome = true ∧ afterB2.fault = false ∧
      (nextOf (exec (.brPeek 1#5) inputA)).map (·.fault) = some true ∧ inputA.fault = false := by decide +kernel

theorem witness_CommandsChangeOnlyTheirOwnUnit :
    (nextOf (exec .ctxClose cachedState)).isSome = true ∧ (nextOf (exec .brAlign afterB2)).isSome = true ∧
      (nextOf (exec .ctxRead (withArgs [3, 10, 0x40] openState))).isSome = true := by decide +kernel

/-- One completing form for each clause. -/
theorem witness_MemoryChangesOnlyInTheOutputRange :
    (nextOf (exec .brAlign afterB2)).isSome = true ∧
      (nextOf (exec .brReadBytes (withArgs [0x200, 3] afterB5))).map (·.code) = some 0#8 ∧
      (nextOf (exec .htBuild (withArgs [0, 2, 1, 1, 0x300] (withBytes 0 [1, 1] State.reset)))).map (·.code) =
        some 0#8 ∧
      (nextOf (exec .mcCopy (withArgs [0, 1, 1, 1, 2, 0] (withBytes 0 [7] State.reset)))).map (·.code) = some 0#8 ∧
      (nextOf (exec .cbDecompress (withArgs [0, 18, 0x8000, 2, 15] (withBytes 0 chunkB State.reset)))).map (·.code) =
        some 0#8 ∧
      (nextOf (exec .ctxRead (withArgs [3, 10, 0x40] openState))).map (·.code) = some 0#8 := by decide +kernel

theorem witness_MemoryOperands :
    ArgIs (withArgs [0x200, 3] afterB5) 0 0x200 ∧ ArgIs (withArgs [0x200, 3] afterB5) 1 3 :=
  ⟨argIs_of (by decide +kernel), argIs_of (by decide +kernel)⟩

theorem witness_BrEnsureRefillsOrPads :
    (16#5).toNat ≤ 16 ∧ inputA.br0.stop ≤ 2 ^ inputA.world.params.addrBits := by decide +kernel

theorem witness_BrPeekReturnsTheNextBits : (16#5).toNat ≤ 16 ∧ (0#5).toNat ≤ 16 := by decide

theorem witness_BrPopDiscardsTheNextBits : (16#5).toNat ≤ 16 ∧ (0#5).toNat ≤ 16 := by decide

theorem readerOk_inputA : ReaderOk inputA.br0 := initReader_ok 0x100 5

theorem witness_BrReadTakesTheNextBitsOfTheStream :
    (16#5).toNat ≤ 16 ∧ inputA.br0.valid = true ∧ ReaderOk inputA.br0 ∧
      inputA.br0.stop ≤ 2 ^ inputA.world.params.addrBits ∧
      Written inputA.lmem inputA.br0.next (inputA.br0.stop - inputA.br0.next) :=
  ⟨by decide, rfl, readerOk_inputA, by decide +kernel, by unfold Written; decide +kernel⟩

/-- A completing BR_ENSURE, and one that faults on a unit without values. -/
theorem witness_BrReadIsEnsurePeekPop :
    (16#5).toNat ≤ 16 ∧ inputA.fault = false ∧
      (nextOf (exec (.brEnsure 16#5) inputA)).map (·.fault) = some false ∧
      (withReader 0x100 2 State.reset).fault = false ∧
      (nextOf (exec (.brEnsure 16#5) (withReader 0x100 2 State.reset))).map (·.fault) = some true := by decide +kernel

/-- For BR_READ_U32: no reader, one byte short, exactly four bytes left, and a byte without a value. -/
theorem witness_LiteralReadsTakeBytesAtTheCursor :
    (Instr.brReadU32, 4) ∈ ([(.brReadByte, 1), (.brReadU16, 2), (.brReadU32, 4)] : List (Instr × Nat)) ∧
      State.reset.br0.stop ≤ 2 ^ State.reset.world.params.addrBits ∧ State.reset.br0.valid = false ∧
      (afterB5.br0.valid = true ∧ afterB5.br0.stop ≤ 2 ^ afterB5.world.params.addrBits ∧
        afterB5.br0.stop < afterB5.br0.next + 4) ∧
      ((withReader 0x100 4 inputA).br0.stop ≤ 2 ^ inputA.world.params.addrBits ∧
        (withReader 0x100 4 inputA).br0.next + 4 ≤ (withReader 0x100 4 inputA).br0.stop ∧
        HoldsBytes inputA.lmem 0x100 [0x34#8, 0x12#8, 0x78#8, 0x56#8]) ∧
      ((withReader 0x102 4 inputA).br0.next + 4 ≤ (withReader 0x102 4 inputA).br0.stop ∧
        ∃ j < 4, readByte inputA.lmem (0x102 + j) = none) := by
  unfold HoldsBytes
  decide +kernel

/-- The four endings: beyond LMEM, overlapping by one byte, one byte short, and exactly the bytes left. -/
theorem witness_BrReadBytesCopiesOrRefuses :
    (afterB5.br0.valid = true ∧ afterB5.br0.stop ≤ 2 ^ afterB5.world.params.addrBits ∧
        ArgIs (withArgs [0xFFFFFFFF, 2] afterB5) 0 0xFFFFFFFF ∧ ArgIs (withArgs [0xFFFFFFFF, 2] afterB5) 1 2 ∧
        2 ^ afterB5.world.params.addrBits < 0xFFFFFFFF + 2) ∧
      (ArgIs (withArgs [0x104, 2] afterB5) 0 0x104 ∧ ArgIs (withArgs [0x104, 2] afterB5) 1 2 ∧
        0x104 + 2 ≤ 2 ^ afterB5.world.params.addrBits ∧
        ¬ Disjoint 0x104 2 afterB5.br0.start (afterB5.br0.stop - afterB5.br0.start)) ∧
      (ArgIs (withArgs [0x105, 4] afterB5) 0 0x105 ∧ ArgIs (withArgs [0x105, 4] afterB5) 1 4 ∧
        Disjoint 0x105 4 afterB5.br0.start (afterB5.br0.stop - afterB5.br0.start) ∧
        afterB5.br0.stop < afterB5.br0.next + 4) ∧
      (ArgIs (withArgs [0x105, 3] afterB5) 0 0x105 ∧ ArgIs (withArgs [0x105, 3] afterB5) 1 3 ∧
        Disjoint 0x105 3 afterB5.br0.start (afterB5.br0.stop - afterB5.br0.start) ∧
        afterB5.br0.next + 3 ≤ afterB5.br0.stop ∧ Written afterB5.lmem afterB5.br0.next 3) := by
  unfold Written
  and_intros <;>
    first
    | exact argIs_of (by decide +kernel)
    | exact disjoint_of (by decide +kernel)
    | exact overlap_of 0x104 (by decide +kernel)
    | decide +kernel

theorem witness_ReaderCommandsNeedInit : (16#5).toNat ≤ 16 ∧ State.reset.br0.valid = false := by decide

/-- A memory that differs from input A's outside its input range. -/
theorem witness_BitReaderReadsOnlyItsInput :
    inputA.br0.start ≤ inputA.br0.next ∧
      AgreeOn inputA.lmem (writeByte inputA.lmem 0x105 9#8) inputA.br0.start inputA.br0.stop ∧
      (nextOf (exec (.brRead 16#5) inputA)).isSome = true :=
  ⟨by decide, fun a _ h => readByte_writeByte_other (by
    have : a < 0x105 := h
    omega) _ _, by decide +kernel⟩

/-- A complete code, a length above max_len, and an incomplete code when those are rejected. -/
theorem witness_HtBuildAcceptsExactlyPrefixCodes :
    (ArgIs (withArgs [0, 2, 1, 1, 2] State.reset) 0 0 ∧ ArgIs (withArgs [0, 2, 1, 1, 2] State.reset) 1 2 ∧
        ArgIs (withArgs [0, 2, 1, 1, 2] State.reset) 2 1 ∧ ArgIs (withArgs [0, 2, 1, 1, 2] State.reset) 3 1 ∧
        ArgIs (withArgs [0, 2, 1, 1, 2] State.reset) 4 2 ∧ 2 ^ 1 + 2 * 2 * (1 - 1) ≤ 16384 ∧
        2 + 2 * (2 ^ 1 + 2 * 2 * (1 - 1)) ≤ 2 ^ State.reset.world.params.addrBits ∧
        Disjoint 0 2 2 (2 * (2 ^ 1 + 2 * 2 * (1 - 1)))) ∧
      (HoldsBytes (withBytes 0 [1, 1] State.reset).lmem 0 [1#8, 1#8] ∧
        CodeAccepted State.reset.world.params.rejectIncomplete ([1#8, 1#8].map BitVec.toNat) 1) ∧
      (HoldsBytes (withBytes 0 [1, 2] State.reset).lmem 0 [1#8, 2#8] ∧
        ¬ CodeAccepted false ([1#8, 2#8].map BitVec.toNat) 1) ∧
      (HoldsBytes (withBytes 0 [1, 0] State.reset).lmem 0 [1#8, 0#8] ∧
        ¬ CodeAccepted true ([1#8, 0#8].map BitVec.toNat) 1) := by
  unfold HoldsBytes CodeAccepted
  and_intros <;>
    first
    | exact argIs_of (by decide +kernel)
    | exact disjoint_of (by decide +kernel)
    | decide +kernel

/-- table_bits 13, one above the limit; a table that passes the end of LMEM by one byte; a table that overlaps the lengths
by one byte; and a length byte without a value. -/
theorem witness_HtBuildRefusesIllegalOperands :
    (ArgIs (withArgs [0, 2, 13, 16, 2] State.reset) 0 0 ∧ ArgIs (withArgs [0, 2, 13, 16, 2] State.reset) 1 2 ∧
        ArgIs (withArgs [0, 2, 13, 16, 2] State.reset) 2 13 ∧ ArgIs (withArgs [0, 2, 13, 16, 2] State.reset) 3 16 ∧
        ArgIs (withArgs [0, 2, 13, 16, 2] State.reset) 4 2 ∧ ¬ (13 ≤ 12)) ∧
      (ArgIs (withArgs [0, 2, 1, 1, 0xFFFFFFFD] State.reset) 4 0xFFFFFFFD ∧ 2 ^ 1 + 2 * 2 * (1 - 1) ≤ 16384 ∧
        ¬ (0xFFFFFFFD + 2 * (2 ^ 1 + 2 * 2 * (1 - 1)) ≤ 2 ^ State.reset.world.params.addrBits)) ∧
      (ArgIs (withArgs [0, 2, 1, 1, 1] State.reset) 4 1 ∧ ¬ Disjoint 0 2 1 (2 * (2 ^ 1 + 2 * 2 * (1 - 1)))) ∧
      (Disjoint 0 2 2 (2 * (2 ^ 1 + 2 * 2 * (1 - 1))) ∧
        ∃ j < 2, readByte (withBytes 0 [1] State.reset).lmem (0 + j) = none) := by
  and_intros <;>
    first
    | exact argIs_of (by decide +kernel)
    | exact disjoint_of (by decide +kernel)
    | exact overlap_of 1 (by decide +kernel)
    | decide +kernel

theorem witness_OverSubscribedCodesFailToBuild :
    2 ^ 2 < kraftSum [1, 1, 2] 2 := by decide

/-- The table of R139 and a stream that starts with the codeword 0 of symbol 1. -/
theorem witness_HtDecodeInvertsTheCanonicalCode :
    buildTable false [2, 1, 3, 3] 2 3 = some [0x0801#16, 0x0801#16, 0x1000#16, 0xC004#16, 0x0002#16, 0x0003#16] ∧
      tableLimits 4 2 3 = true ∧ ArgIs (withArgs [0x300, 2, 3] tableState) 0 0x300 ∧
      ArgIs (withArgs [0x300, 2, 3] tableState) 1 2 ∧ ArgIs (withArgs [0x300, 2, 3] tableState) 2 3 ∧
      HoldsBytes tableState.lmem 0x300
        [0x01#8, 0x08#8, 0x01#8, 0x08#8, 0x00#8, 0x10#8, 0x04#8, 0xC0#8, 0x02#8, 0x00#8, 0x03#8, 0x00#8] ∧
      0x300 + 2 * 6 ≤ 2 ^ tableState.world.params.addrBits ∧ tableState.br0.valid = true ∧ ReaderOk tableState.br0 ∧
      tableState.br0.stop ≤ 2 ^ tableState.world.params.addrBits ∧
      Written tableState.lmem tableState.br0.next (tableState.br0.stop - tableState.br0.next) ∧
      1 < [2, 1, 3, 3].length ∧ 1 ≤ [2, 1, 3, 3].getD 1 0 ∧
      bitsValue (upcomingBit tableState.lmem tableState.br0) ([2, 1, 3, 3].getD 1 0) = codeword [2, 1, 3, 3] 1 := by
  unfold HoldsBytes Written
  and_intros <;>
    first
    | exact argIs_of (by decide +kernel)
    | exact initReader_ok 0x100 2
    | decide +kernel

/-- The same table, and a stream that starts with the codeword 110 of symbol 2, which goes through the trie. -/
theorem witness_HtDecodeInvertsTheCanonicalCode_trie :
    2 < [2, 1, 3, 3].length ∧ 1 ≤ [2, 1, 3, 3].getD 2 0 ∧ ReaderOk (withReader 0x200 2 tableState).br0 ∧
      Written (withBytes 0x200 [0x00, 0xC0] tableState).lmem 0x200 2 ∧
      bitsValue (upcomingBit (withBytes 0x200 [0x00, 0xC0] tableState).lmem (withReader 0x200 2 tableState).br0)
        ([2, 1, 3, 3].getD 2 0) = codeword [2, 1, 3, 3] 2 ∧
      (nextOf (exec .htDecode (withArgs [0x300, 2, 3]
        (withReader 0x200 2 (withBytes 0x200 [0x00, 0xC0] tableState))))).map (·.res0) = some 2#64 := by
  unfold Written
  and_intros <;>
    first
    | exact initReader_ok 0x200 2
    | decide +kernel

/-- The table of R139 with the first unit loaded: slot 1 holds the fast record of symbol 1. -/
def tableLoaded : State :=
  withArgs [0x300, 2, 3] { tableState with
    br0 := { tableState.br0 with bitbuf := 0x5B800000#32, bitsleft := 16, realbits := 16, next := 0x102 } }

/-- Illegal operands (table_bits 13), and a fast record. -/
theorem witness_HtDecodeFollowsAFastRecord :
    (tableLoaded.br0.valid = true ∧ ArgIs (withArgs [0x300, 13, 16] tableState) 0 0x300 ∧
        ArgIs (withArgs [0x300, 13, 16] tableState) 1 13 ∧ ArgIs (withArgs [0x300, 13, 16] tableState) 2 16 ∧
        ¬ (1 ≤ 13 ∧ 13 ≤ 12 ∧ 13 ≤ 16 ∧ 16 ≤ 16)) ∧
      ArgIs tableLoaded 0 0x300 ∧ ArgIs tableLoaded 1 2 ∧ ArgIs tableLoaded 2 3 ∧ 3 ≤ tableLoaded.br0.bitsleft ∧
      HoldsBytes tableLoaded.lmem (0x300 + 2 * (tableLoaded.br0.bitbuf >>> (32 - 2)).toNat) [0x01#8, 0x08#8] ∧
      0x300 + 2 * (tableLoaded.br0.bitbuf >>> (32 - 2)).toNat + 2 ≤ 2 ^ tableLoaded.world.params.addrBits ∧
      (0x0801#16).toNat < 0xC000 ∧ (0x0801#16 >>> 11).toNat ≤ tableLoaded.br0.bitsleft := by
  unfold HoldsBytes
  and_intros <;>
    first
    | exact argIs_of (by decide +kernel)
    | decide +kernel

/-- Vector M1's operands, the copy filling the buffer exactly. -/
def copyState (be : Nat) : State :=
  withArgs [0x200, 0x202, 6, 2, be, 0] (withBytes 0x200 [0x61, 0x62] State.reset)

theorem witness_McCopyExpandsPeriodically :
    ArgIs (copyState 0x208) 0 0x200 ∧ ArgIs (copyState 0x208) 1 0x202 ∧ ArgIs (copyState 0x208) 2 6 ∧
      ArgIs (copyState 0x208) 3 2 ∧ ArgIs (copyState 0x208) 4 0x208 ∧ ArgIs (copyState 0x208) 5 0 ∧
      0x208 ≤ 2 ^ (copyState 0x208).world.params.addrBits ∧ 2 ≤ 0x202 - 0x200 ∧ 0x202 + 6 ≤ 0x208 ∧
      Written (copyState 0x208).lmem (0x202 - 2) (min 2 6) := by
  unfold Written
  and_intros <;>
    first
    | exact argIs_of (by decide +kernel)
    | decide +kernel

/-- A buffer end one above LMEM, and one below the end of the copy. -/
theorem witness_McCopyFaultsOnBrokenPreconditions :
    (ArgIs (copyState 0x100000001) 0 0x200 ∧ ArgIs (copyState 0x100000001) 1 0x202 ∧ ArgIs (copyState 0x100000001) 2 6 ∧
        ArgIs (copyState 0x100000001) 3 2 ∧ ArgIs (copyState 0x100000001) 4 0x100000001 ∧
        ArgIs (copyState 0x100000001) 5 0 ∧ 2 ^ (copyState 0x100000001).world.params.addrBits < 0x100000001) ∧
      (ArgIs (copyState 0x207) 4 0x207 ∧ 0x207 ≤ 2 ^ (copyState 0x207).world.params.addrBits ∧ ¬ (0x202 + 6 ≤ 0x207)) := by
  and_intros <;>
    first
    | exact argIs_of (by decide +kernel)
    | decide +kernel

/-- Codec operands over an all-zero header that just fits. -/
def zeroHeader : State :=
  withArgs [0, 256, 256, 1] (withImage (List.replicate 256 0) State.reset)

theorem witness_CaZeroHeaderYieldsZeroBytes :
    ArgIs zeroHeader 0 0 ∧ ArgIs zeroHeader 1 256 ∧ ArgIs zeroHeader 2 256 ∧ ArgIs zeroHeader 3 1 ∧
      0 + 256 ≤ 2 ^ zeroHeader.world.params.addrBits ∧ 256 + 1 ≤ 2 ^ zeroHeader.world.params.addrBits ∧
      Disjoint 0 256 256 1 ∧ Written zeroHeader.lmem 0 256 ∧ ∀ i < 256, readByte zeroHeader.lmem (0 + i) = some 0#8 := by
  unfold Written
  and_intros <;>
    first
    | exact argIs_of (by decide +kernel)
    | exact disjoint_of (by decide +kernel)
    | decide +kernel

/-- The lengths of 43_codec_a.md R182. -/
def lensR182 : List Nat :=
  (List.range 512).map fun i =>
    if i = 0x61 then 2 else if i = 0x62 then 2 else if i = 0x110 then 2 else if i = 0x100 then 3
    else if i = 0x11F then 3 else 0

/-- The chunk of R182 with its first body, and one with the body 00 20: 'a', then a match of distance 2. -/
def stateR182 (high : Nat) : State :=
  withArgs [0, 258, 0x8000, 5] (withImage (chunkA1.set 257 high) State.reset)

theorem accepted_lensR182 : CodeAccepted false lensR182 15 := by
  unfold CodeAccepted
  decide +kernel

theorem legal_literal : (CaToken.literal 0x61#8).Legal lensR182 :=
  ⟨.inl (by decide +kernel), trivial⟩

theorem legal_literal_b : (CaToken.literal 0x62#8).Legal lensR182 :=
  ⟨.inl (by decide +kernel), trivial⟩

theorem legal_copy : (CaToken.copy 0 1 0).Legal lensR182 :=
  ⟨.inl (by decide +kernel), by decide⟩

/-- The items 'a', 'b' and a match fill the output; the items 'a' and the match reach back too far. -/
theorem witness_CaDecompressExpandsItsItems :
    (ArgIs (stateR182 0x18) 0 0 ∧ ArgIs (stateR182 0x18) 1 258 ∧ ArgIs (stateR182 0x18) 2 0x8000 ∧
        ArgIs (stateR182 0x18) 3 5 ∧ 0x8000 + 5 ≤ 2 ^ (stateR182 0x18).world.params.addrBits ∧ Disjoint 0 258 0x8000 5 ∧
        Written (stateR182 0x18).lmem 0 258 ∧ lensR182.length = 512 ∧ HoldsBytes (stateR182 0x18).lmem 0 (caHeader lensR182) ∧
        CodeAccepted (stateR182 0x18).world.params.rejectIncomplete lensR182 15) ∧
      ((∀ t ∈ [CaToken.literal 0x61#8, .literal 0x62#8, .copy 0 1 0], t.Legal lensR182) ∧
        StreamStarts (stateR182 0x18).lmem (initReader (0 + 256) (258 - 256))
          ([CaToken.literal 0x61#8, .literal 0x62#8, .copy 0 1 0].flatMap (CaToken.bits lensR182)) ∧
        expandItems 5 [] ([CaToken.literal 0x61#8, .literal 0x62#8, .copy 0 1 0].map CaToken.meaning) =
          some [0x61#8, 0x62#8, 0x61#8, 0x62#8, 0x61#8]) ∧
      (HoldsBytes (stateR182 0x20).lmem 0 (caHeader lensR182) ∧
        (∀ t ∈ [CaToken.literal 0x61#8, .copy 0 1 0], t.Legal lensR182) ∧
        StreamStarts (stateR182 0x20).lmem (initReader (0 + 256) (258 - 256))
          ([CaToken.literal 0x61#8, .copy 0 1 0].flatMap (CaToken.bits lensR182)) ∧
        expandItems 5 [] ([CaToken.literal 0x61#8].map CaToken.meaning) = some [0x61#8] ∧
        expandItem 5 [0x61#8] (CaToken.copy 0 1 0).meaning = none) := by
  have legal : ∀ t ∈ [CaToken.literal 0x61#8, .literal 0x62#8, .copy 0 1 0], t.Legal lensR182 := by
    simp [legal_literal, legal_literal_b, legal_copy]
  unfold Written HoldsBytes StreamStarts
  and_intros <;>
    first
    | exact argIs_of (by decide +kernel)
    | exact disjoint_of (by decide +kernel)
    | exact accepted_lensR182
    | exact legal
    | exact fun t ht => legal t (by simp at ht ⊢; tauto)
    | decide +kernel

/-- A reader over four bytes: the offset bit from the first unit, then the byte 0xFF and no word after it. -/
def matchInput (third : Nat) : State := withReader 0 4 (withBytes 0 [0, 0, third, 1] State.reset)

/-- The length header 14, and 15 with a byte that ends the length, and with one that does not. -/
theorem witness_CaMatchFieldsReadLengthAndDistance :
    ReadsWritten (lmemSpace (matchInput 5)) (matchInput 5).br0 ∧ literalAt (matchInput 5).lmem 4 2 1 ≠ 255 ∧
      ReadsWritten (lmemSpace (matchInput 255)) (matchInput 255).br0 ∧ literalAt (matchInput 255).lmem 4 2 1 = 255 ∧
      (14 < 15 ∧ 15 < 16) := by
  unfold ReadsWritten Written
  and_intros <;>
    first
    | exact initReader_ok 0 4
    | decide +kernel

theorem witness_CaDecompressNeverFaultsOnInput :
    ArgIs zeroHeader 0 0 ∧ ArgIs zeroHeader 1 256 ∧ ArgIs zeroHeader 2 256 ∧ ArgIs zeroHeader 3 1 ∧ 1 ≤ 65536 ∧
      Disjoint 0 256 256 1 ∧ Written zeroHeader.lmem 0 256 :=
  ⟨witness_CaZeroHeaderYieldsZeroBytes.1, witness_CaZeroHeaderYieldsZeroBytes.2.1,
    witness_CaZeroHeaderYieldsZeroBytes.2.2.1, witness_CaZeroHeaderYieldsZeroBytes.2.2.2.1, by decide,
    disjoint_of (by decide), witness_CaZeroHeaderYieldsZeroBytes.2.2.2.2.2.2.2.1⟩

/-- An output one byte too long, a range one byte beyond LMEM, an overlap of one byte, a header one byte short. -/
theorem witness_DecompressCommandsCheckTheirOperands_ca :
    (ArgIs (withArgs [0, 256, 256, 65537] State.reset) 3 65537 ∧ 65536 < 65537) ∧
      (ArgIs (withArgs [0xFFFFFF01, 256, 0, 1] State.reset) 0 0xFFFFFF01 ∧
        2 ^ State.reset.world.params.addrBits < 0xFFFFFF01 + 256) ∧
      (ArgIs (withArgs [0, 256, 255, 1] State.reset) 2 255 ∧ ¬ Disjoint 0 256 255 1) ∧
      (ArgIs (withArgs [0, 255, 255, 1] State.reset) 1 255 ∧ Disjoint 0 255 255 1 ∧ 255 < 256) := by
  and_intros <;>
    first
    | exact argIs_of (by decide +kernel)
    | exact disjoint_of (by decide +kernel)
    | exact overlap_of 255 (by decide +kernel)
    | decide +kernel

/-- Codec B operands over one uncompressed block of 2 bytes. -/
def blockState (outSize w : Nat) : State := withArgs [0, 18, 0x8000, outSize, w] (withBytes 0 chunkB State.reset)

theorem witness_DecompressCommandsCheckTheirOperands_empty :
    ArgIs (blockState 0 17) 0 0 ∧ ArgIs (blockState 0 17) 1 18 ∧ ArgIs (blockState 0 17) 2 0x8000 ∧
      ArgIs (blockState 0 17) 3 0 ∧ ArgIs (blockState 0 17) 4 17 ∧ 17 ∈ [15, 16, 17] ∧
      0 + 18 ≤ 2 ^ (blockState 0 17).world.params.addrBits ∧ 0x8000 ≤ 2 ^ (blockState 0 17).world.params.addrBits := by
  and_intros <;>
    first
    | exact argIs_of (by decide +kernel)
    | decide +kernel

theorem witness_CbUncompressedBlockIsCopied :
    ArgIs (blockState 2 15) 0 0 ∧ ArgIs (blockState 2 15) 1 18 ∧ ArgIs (blockState 2 15) 2 0x8000 ∧
      ArgIs (blockState 2 15) 3 2 ∧ ArgIs (blockState 2 15) 4 15 ∧
      0 + 18 ≤ 2 ^ (blockState 2 15).world.params.addrBits ∧ 0x8000 + 2 ≤ 2 ^ (blockState 2 15).world.params.addrBits ∧
      Disjoint 0 18 0x8000 2 ∧ 16 + 2 ≤ 18 ∧ Written (blockState 2 15).lmem 0 18 ∧
      unitAt (blockState 2 15).lmem 0 = 0x6000 + 2 / 16 ∧ unitAt (blockState 2 15).lmem (0 + 2) / 4096 = 2 % 16 ∧
      (∀ k < 3, ∃ j < 4, readByte (blockState 2 15).lmem (0 + 4 + 4 * k + j) ≠ some 0#8) ∧
      ∀ j < 2, readByte (blockState 2 15).lmem (0 + 16 + j) ≠ some 0xE8#8 := by
  unfold Written
  and_intros <;>
    first
    | exact argIs_of (by decide +kernel)
    | exact disjoint_of (by decide +kernel)
    | decide +kernel

/-- Two uncompressed blocks, of one byte and of two, for window order 16. -/
def rawBlocks : List RawBlock :=
  [{ byDefault := false, recent := { r0 := 1, r1 := 1, r2 := 1 }, bytes := [0x68#8] },
    { byDefault := false, recent := { r0 := 2, r1 := 1, r2 := 0xFFFFFFFF }, bytes := [0x69#8, 0x6A#8] }]

/-- A chunk of them. -/
def rawState : State :=
  withArgs [0, 36, 0x8000, 3, 16] { State.reset with lmem := writeCells [] 0 (rawBlocks.flatMap (RawBlock.encode 16)) }

theorem witness_CbUncompressedBlockIsCopied_blocks :
    ArgIs rawState 0 0 ∧ ArgIs rawState 1 36 ∧ ArgIs rawState 2 0x8000 ∧ ArgIs rawState 3 3 ∧ ArgIs rawState 4 16 ∧
      16 ∈ [15, 16, 17] ∧ 3 ≤ 2 ^ 16 ∧ 0x8000 + 3 ≤ 2 ^ rawState.world.params.addrBits ∧ Disjoint 0 36 0x8000 3 ∧
      (∀ b ∈ rawBlocks, b.Legal) ∧ (rawBlocks.flatMap (RawBlock.encode 16)).length ≤ 36 ∧
      HoldsBytes rawState.lmem 0 (rawBlocks.flatMap (RawBlock.encode 16)) ∧
      (rawBlocks.flatMap RawBlock.bytes).length = 3 := by
  unfold HoldsBytes RawBlock.Legal
  and_intros <;>
    first
    | exact argIs_of (by decide +kernel)
    | exact disjoint_of (by decide +kernel)
    | decide +kernel

/-- Bits as the little-endian units that hold them, the first bit in bit 15 of the first unit; `n` units, from the number
the bits are. -/
def packUnits (n v : Nat) : List Nat :=
  (List.range n).flatMap fun i => [v >>> (16 * (n - 1 - i)) % 256, v >>> (16 * (n - 1 - i) + 8) % 256]

/-- A precode that sends the presymbols 16, 17 and 18. -/
def runPrecode : List Nat := (List.range 20).map fun i => if i = 18 then 1 else if i = 17 ∨ i = 16 then 2 else 0

/-- Main lengths 1 for 'A' and for symbol 281 (slot 3, length header 1); an empty length code. -/
def runSection1 : LenSection :=
  ⟨runPrecode, [.moreZeros 31, .zeros 10, .delta 16, .moreZeros 31, .moreZeros 31, .moreZeros 31, .moreZeros 17]⟩
def runSection2 : LenSection :=
  ⟨runPrecode, [.moreZeros 5, .delta 16, .moreZeros 31, .moreZeros 31, .moreZeros 31, .moreZeros 31, .zeros 6]⟩
def runSection3 : LenSection :=
  ⟨runPrecode, [.moreZeros 31, .moreZeros 31, .moreZeros 31, .moreZeros 31, .moreZeros 25]⟩

/-- A verbatim block of 'A' and a match of distance 1 and length 3. -/
def verbatimBlock : CbBlock where
  btype := 1
  size := 4
  byDefault := false
  alignedLens := []
  main1 := runSection1
  main2 := runSection2
  len := runSection3
  tokens := [.literal 0x41#8, .copy 3 0 1 0]

/-- Its 368 bits as a number. -/
def verbatimNumber : Nat :=
  0x20004000000000000000022107fa9f7df440000000000000000884059f7df7f6000000000000000022107df7df65

/-- Its chunk. -/
def verbatimState : State :=
  withArgs [0, 46, 0x8000, 4, 15] (withImage (packUnits 23 verbatimNumber) State.reset)

theorem verbatim_bits : verbatimBlock.bits 15 (CbProgress.start 15) = bitsOf verbatimNumber 368 := by decide +kernel

/-- The lengths of its main code, and of its length code. -/
def verbatimMain : List Nat := (List.range 496).map fun i => if i = 65 ∨ i = 281 then 1 else 0

theorem verbatim_codes :
    verbatimBlock.codes (CbProgress.start 15) = { main := verbatimMain, len := List.replicate 249 0, aligned := [] } := by
  decide +kernel

theorem accepted_runPrecode : CodeAccepted false runPrecode 15 := by
  unfold CodeAccepted
  decide +kernel

theorem accepted_verbatimMain : CodeAccepted false verbatimMain 16 := by
  unfold CodeAccepted
  decide +kernel

theorem accepted_empty : CodeAccepted false (List.replicate 249 0) 16 := by
  unfold CodeAccepted
  decide +kernel

/-- Its items can be sent in any code that has a length for each of its two symbols. -/
theorem legal_verbatim_tokens {codes : CbCodes} (h1 : 1 ≤ codes.main.getD 65 0) (h2 : 1 ≤ codes.main.getD 281 0) :
    ∀ t ∈ verbatimBlock.tokens, t.Legal 1 codes := by
  intro t ht
  simp only [verbatimBlock, List.mem_cons, List.not_mem_nil, or_false] at ht
  rcases ht with rfl | rfl
  · exact Or.inl h1
  · exact ⟨by decide, by decide, Or.inl h2, fun h => absurd h (by decide), by decide, fun h => absurd h (by decide)⟩

theorem start_length : (CbProgress.start 15).mainLens.length = 496 := by decide +kernel

theorem legal_runSection {x : LenSection} {start stop : Nat} (hp : x.precode = runPrecode)
    (h : ∀ op ∈ x.ops, (∃ k < 32, op = .moreZeros k) ∨ (∃ k < 16, op = .zeros k) ∨ op = .delta 16)
    (hf : OpsFit stop x.ops start) : x.Legal false start stop where
  count := by rw [hp]; decide
  nibbles := by rw [hp]; decide
  accepted := by rw [hp]; exact accepted_runPrecode
  ops := by
    rw [hp]
    intro op ho
    rcases h op ho with ⟨k, hk, rfl⟩ | ⟨k, hk, rfl⟩ | rfl
    · exact ⟨hk, .inl (by decide)⟩
    · exact ⟨hk, .inl (by decide)⟩
    · exact ⟨by decide, .inl (by decide)⟩
  fit := hf

theorem legal_verbatim : verbatimBlock.Legal false 4 (CbProgress.start 15) where
  btype := .inl rfl
  size := by decide
  byDefault := fun h => by cases h
  aligned := fun h => by cases h
  main1 := legal_runSection rfl (by simp [verbatimBlock, runSection1]) (by simp [verbatimBlock, runSection1, OpsFit, LenOp.run])
  main2 := legal_runSection rfl (by simp [verbatimBlock, runSection2])
    (by rw [start_length]; simp [verbatimBlock, runSection2, OpsFit, LenOp.run])
  len := legal_runSection rfl (by simp [verbatimBlock, runSection3]) (by simp [verbatimBlock, runSection3, OpsFit, LenOp.run])
  mainCode := by rw [verbatim_codes]; exact accepted_verbatimMain
  lenCode := by rw [verbatim_codes]; exact accepted_empty
  tokens := by
    rw [verbatim_codes]
    exact legal_verbatim_tokens (by decide +kernel) (by decide +kernel)

theorem verbatim_expands :
    cbSteps Params.standard.reuse ((CbProgress.start 15).out.length + verbatimBlock.size) (CbProgress.start 15).recent
        (CbProgress.start 15).out verbatimBlock.tokens =
      some ({ r0 := 1, r1 := 1, r2 := 1 }, List.replicate 4 0x41#8) := by decide +kernel

/-- The session after the verbatim block. -/
def verbatimEnd : CbProgress where
  mainLens := verbatimMain
  lenLens := List.replicate 249 0
  recent := { r0 := 1, r1 := 1, r2 := 1 }
  out := List.replicate 4 0x41#8

theorem stream_done {params : Params} {w outSize : Nat} {p q : CbProgress} (h : p = q) :
    CbStream params w outSize p [] q := h ▸ CbStream.done p

theorem verbatim_ends :
    CbStream Params.standard 15 4
      { mainLens := (verbatimBlock.codes (CbProgress.start 15)).main,
        lenLens := (verbatimBlock.codes (CbProgress.start 15)).len, recent := { r0 := 1, r1 := 1, r2 := 1 },
        out := List.replicate 4 0x41#8 } [] verbatimEnd := stream_done (by decide +kernel)

theorem stream_verbatim : StreamStarts verbatimState.lmem (initReader 0 46) (bitsOf verbatimNumber 368) := by
  unfold StreamStarts
  decide +kernel

/-- The header's bits are the first 20: type 1, an explicit size of 4; and a type-1 block of size 4 is too large for an
output of 3 bytes. -/
theorem witness_CbBlockHeaderReadsTypeAndSize :
    ReadsWritten (lmemSpace verbatimState) (initReader 0 46) ∧ 4 < 2 ^ 16 ∧
      StreamStarts verbatimState.lmem (initReader 0 46) (blockHeaderBits 15 1 4 false) ∧
      (∃ t, blockHeader (lmemSpace verbatimState) 15 (initReader 0 46) = .ok (1, 4) t) ∧
      ¬ ((1 = 1 ∨ 1 = 2 ∨ 1 = 3) ∧ 4 ≠ 0 ∧ 0 + 4 ≤ 3) := by
  refine ⟨⟨initReader_ok 0 46, by decide +kernel, ?_⟩, by decide, ?_, ⟨_, rfl⟩, by decide⟩
  · unfold Written
    decide +kernel
  · unfold StreamStarts
    decide +kernel

/-- A stream of one unit or more of given bits. -/
def bitsState (n v : Nat) : State := withImage (packUnits n v) State.reset

/-- The precode whose presymbols 0, 18 and 19 have the lengths 1, 2 and 2. -/
def copyPrecode : List Nat := (List.range 20).map fun i => if i = 0 then 1 else if i = 18 ∨ i = 19 then 2 else 0

theorem accepted_copyPrecode : CodeAccepted false copyPrecode 15 := by
  unfold CodeAccepted
  decide +kernel

/-- A section of one delta; a precode of three 1s, which is over-subscribed; and a run of copies of presymbol 18. -/
theorem witness_CbReadLensAppliesItsSection :
    ReadsWritten (lmemSpace (bitsState 6 (0x10000000000000000022 * 2 ^ 16 + 0x6800))) (initReader 0 12) ∧
      (LenSection.mk copyPrecode [.delta 0]).Legal false 0 1 ∧
      StreamStarts (bitsState 6 (0x10000000000000000022 * 2 ^ 16)).lmem (initReader 0 12)
        (LenSection.mk copyPrecode [.delta 0]).bits ∧
      (¬ CodeAccepted false (1 :: 1 :: 1 :: List.replicate 17 0) 15 ∧
        StreamStarts (bitsState 6 (0x11100000000000000000 * 2 ^ 16)).lmem (initReader 0 12)
          ((1 :: 1 :: 1 :: List.replicate 17 0).flatMap fun p => bitsOf p 4)) ∧
      (CodeAccepted false copyPrecode 15 ∧ (([.delta 0] : List LenOp).map LenOp.run).sum < 2 ∧ 17 < 18 ∧
        Sendable copyPrecode 19 ∧ Sendable copyPrecode 18 ∧
        StreamStarts (bitsState 6 (0x10000000000000000022 * 2 ^ 16 + 0x6800)).lmem (initReader 0 12)
          ((LenSection.mk copyPrecode [.delta 0]).bits ++ codeBits copyPrecode 19 ++ bitsOf 0 1 ++
            codeBits copyPrecode 18)) := by
  refine ⟨⟨initReader_ok 0 12, by decide +kernel, ?_⟩, ?_, ?_, ⟨?_, ?_⟩, accepted_copyPrecode, by decide, by decide,
    .inl (by decide), .inl (by decide), ?_⟩
  · unfold Written
    decide +kernel
  · exact {
      count := by decide
      nibbles := by decide
      accepted := accepted_copyPrecode
      ops := by
        intro op ho
        simp only [List.mem_cons, List.not_mem_nil, or_false] at ho
        subst ho
        exact ⟨by decide, .inl (by decide)⟩
      fit := by simp [OpsFit, LenOp.run] }
  · unfold StreamStarts
    decide +kernel
  · unfold CodeAccepted
    decide +kernel
  · unfold StreamStarts
    decide +kernel
  · unfold StreamStarts
    decide +kernel

/-- The tables of the verbatim block. -/
def verbatimTables : CbTables where
  main := (buildTable Params.standard.rejectIncomplete verbatimMain 11 16).getD []
  len := (buildTable Params.standard.rejectIncomplete (List.replicate 249 0) 10 16).getD []
  aligned := []

theorem verbatimTables_main :
    buildTable Params.standard.rejectIncomplete verbatimMain 11 16 = some verbatimTables.main := by decide +kernel

theorem verbatimTables_len :
    buildTable Params.standard.rejectIncomplete (List.replicate 249 0) 10 16 = some verbatimTables.len := by decide +kernel

/-- A session over the two item bits 0 1 of the verbatim block's codes, with the output before it. -/
def itemSession (out : List Byte) : CbSess where
  base := { reader := initReader 0 2, out := { limit := 8, cells := writeCells [] 0 out }, pos := out.length }
  recent := { r0 := 1, r1 := 1, r2 := 1 }
  mainLens := []
  lenLens := []

/-- A job that reads one unit. -/
def itemJob (v : Nat) : Job where
  inp := lmemSpace (bitsState 1 v)
  inBase := 0
  inSize := 2
  outBase := 0
  outSize := 4
  params := Params.standard

/-- A literal; a match; and the same match with nothing before it. -/
theorem witness_CbItemExpandsLiteralsAndMatches :
    (buildTable Params.standard.rejectIncomplete verbatimMain 11 16 = some verbatimTables.main ∧
        buildTable Params.standard.rejectIncomplete (List.replicate 249 0) 10 16 = some verbatimTables.len) ∧
      (ReadsWritten (itemJob 0).inp (initReader 0 2) ∧
        StreamStarts (itemJob 0).inp.cells (initReader 0 2)
          ((CbToken.literal 0x41#8).bits 1 { main := verbatimMain, len := List.replicate 249 0, aligned := [] }) ∧
        cbStep .swapWithR0 4 { r0 := 1, r1 := 1, r2 := 1 } [] (.literal 0x41#8) =
          some ({ r0 := 1, r1 := 1, r2 := 1 }, [0x41#8])) ∧
      (StreamStarts (itemJob 0x8000).inp.cells (initReader 0 2)
          ((CbToken.copy 3 0 1 0).bits 1 { main := verbatimMain, len := List.replicate 249 0, aligned := [] }) ∧
        HoldsBytes (writeCells [] 0 [0x41#8]) 0 [0x41#8] ∧
        cbStep .swapWithR0 4 { r0 := 1, r1 := 1, r2 := 1 } [0x41#8] (.copy 3 0 1 0) =
          some ({ r0 := 1, r1 := 1, r2 := 1 }, [0x41#8, 0x41#8, 0x41#8, 0x41#8])) ∧
      cbStep .swapWithR0 4 { r0 := 1, r1 := 1, r2 := 1 } [] (.copy 3 0 1 0) = none := by
  refine ⟨⟨verbatimTables_main, verbatimTables_len⟩,
    ⟨⟨initReader_ok 0 2, by decide +kernel, ?_⟩, ?_, by decide⟩, ⟨?_, ?_, by decide⟩, by decide⟩
  · unfold Written
    decide +kernel
  · unfold StreamStarts
    decide +kernel
  · unfold StreamStarts
    decide +kernel
  · unfold HoldsBytes
    decide +kernel

theorem witness_CbDecompressExpandsItsBlocks :
    ArgIs verbatimState 0 0 ∧ ArgIs verbatimState 1 46 ∧ ArgIs verbatimState 2 0x8000 ∧ ArgIs verbatimState 3 4 ∧
      ArgIs verbatimState 4 15 ∧ 0x8000 + 4 ≤ 2 ^ verbatimState.world.params.addrBits ∧ Disjoint 0 46 0x8000 4 ∧
      Written verbatimState.lmem 0 46 ∧
      ∃ q, CbStream Params.standard 15 4 (CbProgress.start 15) (bitsOf verbatimNumber 368) q ∧ q.out.length = 4 ∧
        StreamStarts verbatimState.lmem (initReader 0 46) (bitsOf verbatimNumber 368) := by
  refine ⟨argIs_of (by decide +kernel), argIs_of (by decide +kernel), argIs_of (by decide +kernel),
    argIs_of (by decide +kernel), argIs_of (by decide +kernel), by decide +kernel, disjoint_of (by decide), ?_,
    verbatimEnd, ?_, rfl, stream_verbatim⟩
  · unfold Written
    decide +kernel
  · rw [← List.append_nil (bitsOf verbatimNumber 368), ← verbatim_bits]
    exact CbStream.block _ _ _ _ _ _ legal_verbatim verbatim_expands rfl verbatim_ends

/-- An output exactly as large as the window. -/
theorem witness_CbDecompressNeverFaultsOnInput :
    ArgIs (blockState 0x8000 15) 0 0 ∧ ArgIs (blockState 0x8000 15) 1 18 ∧ ArgIs (blockState 0x8000 15) 2 0x8000 ∧
      ArgIs (blockState 0x8000 15) 3 0x8000 ∧ ArgIs (blockState 0x8000 15) 4 15 ∧ 15 ∈ [15, 16, 17] ∧ 0x8000 ≤ 2 ^ 15 ∧
      0 + 18 ≤ 2 ^ (blockState 0x8000 15).world.params.addrBits ∧
      0x8000 + 0x8000 ≤ 2 ^ (blockState 0x8000 15).world.params.addrBits ∧ Disjoint 0 18 0x8000 0x8000 ∧
      Written (blockState 0x8000 15).lmem 0 18 := by
  unfold Written
  and_intros <;>
    first
    | exact argIs_of (by decide +kernel)
    | exact disjoint_of (by decide +kernel)
    | decide +kernel

/-- Window order 18, an output one above the window, a range beyond LMEM, an overlap of one byte, an empty input. -/
theorem witness_DecompressCommandsCheckTheirOperands_cb :
    (ArgIs (blockState 2 18) 4 18 ∧ 18 ∉ [15, 16, 17]) ∧ (ArgIs (blockState 0x8001 15) 3 0x8001 ∧ 2 ^ 15 < 0x8001) ∧
      (ArgIs (withArgs [0, 1, 0xFFFFFFFF, 2, 15] State.reset) 2 0xFFFFFFFF ∧
        2 ^ State.reset.world.params.addrBits < 0xFFFFFFFF + 2) ∧
      (ArgIs (withArgs [0, 2, 1, 2, 15] State.reset) 2 1 ∧ ¬ Disjoint 0 2 1 2) ∧
      (ArgIs (withArgs [0, 0, 1, 1, 15] State.reset) 1 0 ∧ ArgIs (withArgs [0, 0, 1, 1, 15] State.reset) 3 1) := by
  and_intros <;>
    first
    | exact argIs_of (by decide +kernel)
    | exact overlap_of 1 (by decide +kernel)
    | decide +kernel

/-- A codec B session over an empty job, its recent offsets 1, 2 and 3. -/
def session : CbSess :=
  { base := { reader := initReader 0 0, out := { limit := 0, cells := [] }, pos := 0 }
    recent := { r0 := 1, r1 := 2, r2 := 3 }, mainLens := [], lenLens := [] }

/-- Both policies, and slot 3, the first explicit one, whose distance is 1. -/
theorem witness_RecentOffsetsUpdateByPolicy :
    session.recent = { r0 := 1, r1 := 2, r2 := 3 } ∧
      (lmemJob State.reset 0 0 0 0).params.reuse = .swapWithR0 ∧
      ({ lmemJob State.reset 0 0 0 0 with
        params := { Params.standard with reuse := .moveToFront } } : Job).params.reuse = .moveToFront ∧
      ∃ t, offset (lmemJob State.reset 0 0 0 0) [] 1 3 session = .ok 1 t := ⟨rfl, rfl, rfl, _, rfl⟩

/-- Eleven bytes, E8 first: position 0 is the only one that can start a translation. -/
def e8Memory : Memory := writeCells [] 0 ([0xE8, 5, 0, 0, 0, 0, 0, 0, 0, 0, 0].map (BitVec.ofNat 8))

theorem witness_E8UndoRewritesOneCall :
    0 + 11 ≤ (Space.mk 11 e8Memory).limit ∧ Written e8Memory 0 11 ∧ 0 + 10 < 11 ∧
      readByte e8Memory (0 + 0) = some 0xE8#8 ∧ HoldsBytes e8Memory (0 + 0 + 1) (leBytes 4 (5#32).toNat) ∧
      (∀ j < 0, readByte e8Memory (0 + j) ≠ some 0xE8#8) ∧
      ∀ j, 0 + 5 ≤ j → j + 10 < 11 → readByte e8Memory (0 + j) ≠ some 0xE8#8 := by
  unfold Written HoldsBytes
  refine ⟨by decide, by decide, by decide, by decide, by decide, by decide, fun j _ _ => by omega⟩

/-- A context closed before, over the store of handle 7. -/
def openArgs (vs : List Nat) : State := withArgs vs (State.resetWith smallWorld)

/-- A legal pair of each codec, and the one chunk of the store, whose stored size is its logical size. -/
theorem witness_CtxOpenBuildsTheContext :
    (openArgs [7, 5, 0, 12]).ctx.opened = false ∧ (openArgs [7, 5, 0, 12]).args.get 0 = some 7#64 ∧
      ArgIs (openArgs [7, 5, 0, 12]) 1 5 ∧ ArgIs (openArgs [7, 5, 0, 12]) 2 0 ∧ ArgIs (openArgs [7, 5, 0, 12]) 3 12 ∧
      12 ∈ [12, 13, 14] ∧ (ArgIs (openArgs [7, 5, 1, 15]) 2 1 ∧ ArgIs (openArgs [7, 5, 1, 15]) 3 15) ∧ 5 < 2 ^ 63 ∧
      (5 + 2 ^ 12 - 1) / 2 ^ 12 ≤ smallWorld.params.maxChunks ∧
      ((5 + 2 ^ 12 - 1) / 2 ^ 12 - 1) * 4 ≤ (storeBytesOf smallWorld 7#64).length ∧
      ((5 + 2 ^ 12 - 1) / 2 ^ 12 - 1) * 4 = 0 ∧
      ∀ c < 1, chunkStart (storeBytesOf smallWorld 7#64) 1 4 c < chunkStart (storeBytesOf smallWorld 7#64) 1 4 (c + 1) ∧
        chunkStart (storeBytesOf smallWorld 7#64) 1 4 (c + 1) - chunkStart (storeBytesOf smallWorld 7#64) 1 4 c ≤
          min (2 ^ 12) (5 - c * 2 ^ 12) := by
  and_intros <;>
    first
    | exact argIs_of (by decide +kernel)
    | decide +kernel

/-- The same world with an oracle that fails the first call. -/
def failingWorld : World := { smallWorld with ioPlan := [true] }

/-- An open context, an illegal pair, a size of 2^63, a capacity exceeded by one chunk, a store shorter than its index,
a failing oracle over a two-chunk file, and a chunk stored larger than its logical size. -/
theorem witness_CtxOpenRefusesBadMetadata :
    openState.ctx.opened = true ∧
      (ArgIs (openArgs [7, 5, 0, 15]) 2 0 ∧ ArgIs (openArgs [7, 5, 0, 15]) 3 15 ∧
        ¬ ((0 = 0 ∧ 15 ∈ [12, 13, 14]) ∨ (0 = 1 ∧ 15 = 15))) ∧
      (ArgIs (openArgs [7, 2 ^ 63, 0, 12]) 1 (2 ^ 63)) ∧
      (ArgIs (openArgs [7, 2 ^ 32 + 1, 0, 12]) 1 (2 ^ 32 + 1) ∧
        smallWorld.params.maxChunks < (2 ^ 32 + 1 + 2 ^ 12 - 1) / 2 ^ 12) ∧
      (ArgIs (openArgs [9, 4097, 0, 12]) 1 4097 ∧
        (storeBytesOf smallWorld 9#64).length < ((4097 + 2 ^ 12 - 1) / 2 ^ 12 - 1) * 4) ∧
      (0 < ((4097 + 2 ^ 12 - 1) / 2 ^ 12 - 1) * 4 ∧
        ((4097 + 2 ^ 12 - 1) / 2 ^ 12 - 1) * 4 ≤ (storeBytesOf failingWorld 7#64).length ∧
        ioFails failingWorld 0 = true) ∧
      (ArgIs (openArgs [7, 4, 0, 12]) 1 4 ∧ ((4 + 2 ^ 12 - 1) / 2 ^ 12 - 1) * 4 = 0 ∧
        ¬ (∀ c < 1, chunkStart (storeBytesOf smallWorld 7#64) 1 4 c < chunkStart (storeBytesOf smallWorld 7#64) 1 4 (c + 1) ∧
          chunkStart (storeBytesOf smallWorld 7#64) 1 4 (c + 1) - chunkStart (storeBytesOf smallWorld 7#64) 1 4 c ≤
            min (2 ^ 12) (4 - c * 2 ^ 12))) := by
  and_intros <;>
    first
    | exact argIs_of (by decide +kernel)
    | decide +kernel

/-- Closed; at the end of the file; a destination one byte beyond LMEM; a count of 0. -/
theorem witness_CtxReadEndingsWithoutCopy :
    State.reset.ctx.opened = false ∧
      (ArgIs (withArgs [5, 1, 0] openState) 0 5 ∧ openState.ctx.opened = true ∧ openState.ctx.lsize ≤ 5) ∧
      (ArgIs (withArgs [4, 1, 2 ^ 32] openState) 2 (2 ^ 32) ∧ 4 < openState.ctx.lsize ∧
        2 ^ openState.world.params.addrBits < 2 ^ 32 + min 1 (openState.ctx.lsize - 4)) ∧
      (ArgIs (withArgs [4, 0, 2 ^ 32] openState) 1 0 ∧ 2 ^ 32 ≤ 2 ^ openState.world.params.addrBits) := by
  and_intros <;>
    first
    | exact argIs_of (by decide +kernel)
    | decide +kernel

/-- The last two bytes of the cached chunk, the count clamped. -/
theorem witness_CtxReadCopiesFromTheCache :
    cachedState.ctx.opened = true ∧ ArgIs (withArgs [3, 10, 0x40] cachedState) 0 3 ∧
      ArgIs (withArgs [3, 10, 0x40] cachedState) 1 10 ∧ ArgIs (withArgs [3, 10, 0x40] cachedState) 2 0x40 ∧
      cachedState.ctx.cacheValid = true ∧ 3 < cachedState.ctx.lsize ∧
      cachedState.ctx.cacheChunk * 2 ^ cachedState.ctx.order ≤ 3 ∧
      3 + min 10 (cachedState.ctx.lsize - 3) ≤
        cachedState.ctx.cacheChunk * 2 ^ cachedState.ctx.order + 2 ^ cachedState.ctx.order ∧
      0x40 + min 10 (cachedState.ctx.lsize - 3) ≤ 2 ^ cachedState.world.params.addrBits ∧
      Written cachedState.ctx.cacheBuf 0
        (min (2 ^ cachedState.ctx.order)
          (cachedState.ctx.lsize - cachedState.ctx.cacheChunk * 2 ^ cachedState.ctx.order)) := by
  unfold Written
  and_intros <;>
    first
    | exact argIs_of (by decide +kernel)
    | decide +kernel

theorem witness_CtxReadFetchesARawChunk :
    openState.ctx.opened = true ∧ ArgIs (withArgs [3, 10, 0x40] openState) 0 3 ∧
      ArgIs (withArgs [3, 10, 0x40] openState) 1 10 ∧ ArgIs (withArgs [3, 10, 0x40] openState) 2 0x40 ∧
      3 < openState.ctx.lsize ∧ openState.ctx.cacheValid = false ∧
      3 + min 10 (openState.ctx.lsize - 3) ≤ 3 / 2 ^ openState.ctx.order * 2 ^ openState.ctx.order + 2 ^ openState.ctx.order ∧
      0x40 + min 10 (openState.ctx.lsize - 3) ≤ 2 ^ openState.world.params.addrBits ∧
      openState.ctx.cstart.getD (3 / 2 ^ openState.ctx.order + 1) 0 =
        openState.ctx.cstart.getD (3 / 2 ^ openState.ctx.order) 0 +
          min (2 ^ openState.ctx.order) (openState.ctx.lsize - 3 / 2 ^ openState.ctx.order * 2 ^ openState.ctx.order) ∧
      openState.ctx.tsize + openState.ctx.cstart.getD (3 / 2 ^ openState.ctx.order) 0 +
          min (2 ^ openState.ctx.order) (openState.ctx.lsize - 3 / 2 ^ openState.ctx.order * 2 ^ openState.ctx.order) ≤
        (storeBytesOf openState.world openState.ctx.handle).length ∧
      ioFails openState.world openState.ioCalls = false := by
  and_intros <;>
    first
    | exact argIs_of (by decide +kernel)
    | decide +kernel

/-- A read of the one cached chunk, clamped at its end. -/
theorem witness_CtxReadCopiesTheLogicalBytes :
    Inv (withArgs [3, 10, 0x40] (pending .reset cachedState)) ∧
      CacheCoherent (withArgs [3, 10, 0x40] (pending .reset cachedState)) ∧ OracleNeverFails smallWorld ∧
      cachedState.ctx.opened = true ∧ ArgIs (withArgs [3, 10, 0x40] cachedState) 0 3 ∧
      ArgIs (withArgs [3, 10, 0x40] cachedState) 1 10 ∧ ArgIs (withArgs [3, 10, 0x40] cachedState) 2 0x40 ∧
      3 < cachedState.ctx.lsize ∧ 0x40 + min 10 (cachedState.ctx.lsize - 3) ≤ 2 ^ cachedState.world.params.addrBits ∧
      (3 + min 10 (cachedState.ctx.lsize - 3) - 1) / 2 ^ cachedState.ctx.order = 0 ∧
      ChunkDecodes cachedState.world cachedState.ctx 0 cachedState.ctx.cacheBuf :=
  ⟨{ inv_cached .reset with }, coherent_cached .reset, oracle_never_fails, rfl, argIs_of (by decide +kernel),
    argIs_of (by decide +kernel), argIs_of (by decide +kernel), by decide +kernel, by decide +kernel, by decide +kernel,
    decodes_cached⟩

/-- An open context whose first read the oracle fails. -/
def ioState : State := withArgs [3, 10, 0x40] { openState with world := failingWorld }

theorem witness_CtxReadFailureReportsZeroBytes :
    (ioState.ctx.opened = true ∧ ioState.fault = false ∧
        (nextOf (exec .ctxRead ioState)).map (fun t => (t.fault, t.code)) = some (false, 5#8)) ∧
      ArgIs ioState 0 3 ∧ ArgIs ioState 1 10 ∧ ArgIs ioState 2 0x40 ∧ 3 < ioState.ctx.lsize ∧
      0x40 + min 10 (ioState.ctx.lsize - 3) ≤ 2 ^ ioState.world.params.addrBits ∧ ioState.ctx.cacheValid = false ∧
      ioFails ioState.world ioState.ioCalls = true := by
  and_intros <;>
    first
    | exact argIs_of (by decide +kernel)
    | decide +kernel

/-- A state with the invariant whose operands are those of a CTX_READ (and, read as CTX_OPEN's, all written). -/
def readState : State := withArgs [3, 10, 0x40, 0] (pending .reset cachedState)

theorem witness_CtxOpenAndReadNeverFaultOnInput :
    Inv readState ∧ (∀ k ∈ operandRegisters .ctxOpen, (readState.args.get k).isSome = true) ∧ ArgIs readState 0 3 ∧
      ArgIs readState 1 10 ∧ ArgIs readState 2 0x40 ∧
      0x40 + min 10 (readState.ctx.lsize - 3) ≤ 2 ^ readState.world.params.addrBits :=
  ⟨{ inv_cached .reset with }, by decide +kernel, argIs_of (by decide +kernel), argIs_of (by decide +kernel),
    argIs_of (by decide +kernel), by decide +kernel⟩

theorem witness_CacheStaysCoherent :
    Inv (cmd 0x32#32 cachedState) ∧ CacheCoherent (cmd 0x32#32 cachedState) ∧
      ∃ t, step (cmd 0x32#32 cachedState) = .next t := ⟨inv_cached _, coherent_cached _, _, rfl⟩

theorem witness_CacheIsTransparent :
    Inv readState ∧ CacheCoherent readState ∧ OracleNeverFails readState.world :=
  ⟨{ inv_cached .reset with }, coherent_cached .reset, oracle_never_fails⟩

theorem witness_ReadOnlyRegistersReadAndIgnoreWrites_version : (pending (.read32 0x00C) State.reset).host = [.read32 0x00C] ∧
    ({ State.reset with host := [.write32 0x00C 5#32, .read32 0x00C] } : State).host =
      [.write32 0x00C 5#32, .read32 0x00C] := ⟨rfl, rfl⟩

/-- STATUS of a faulted block, at 0x004. -/
theorem witness_ReadOnlyRegistersReadAndIgnoreWrites_status :
    faultedState.br0.bitsleft < 64 ∧ faultedState.ctx.order < 32 ∧
      (pending (.read32 0x004) faultedState).host = [.read32 0x004] ∧
      (0x004, 512) ∈ [(0x000, 0), (0x004, faultedState.code.toNat + 256 * faultedState.busy.toNat +
        512 * faultedState.fault.toNat)] := by decide

theorem witness_ReadOnlyRegistersReadAndIgnoreWrites_wide :
    (pending (.read64 0x040) afterB2).host = [.read64 0x040] ∧ (pending (.read32 0x040) afterB2).host = [.read32 0x040] ∧
      (pending (.read32 0x044) afterB2).host = [.read32 (0x040 + 4)] ∧
      (0x040, afterB2.res0) ∈ [(0x040, afterB2.res0)] := ⟨rfl, rfl, rfl, by simp⟩

/-- RES0, its high half, and the first and last reserved offsets. -/
theorem witness_ReadOnlyRegistersReadAndIgnoreWrites_writes :
    0x040 ∈ [0x040, 0x044] ∧ (pending (.write32 0x044 1#32) State.reset).host = [.write32 0x044 1#32] ∧
      (pending (.write64 0x040 1#64) State.reset).host = [.write64 0x040 1#64] ∧
      (0x004 ∈ [0x004, 0x008] ∧ (pending (.write64 0x004 1#64) State.reset).host = [.write64 0x004 1#64]) ∧
      (0x098 ≤ 0x098 ∧ 0x098 ≤ 0x0FF ∧ (pending (.read32 0x098) State.reset).host = [.read32 0x098]) ∧
      (0x098 ≤ 0x0FF ∧ 0x0FF ≤ 0x0FF ∧ (pending (.read32 0x0FF) State.reset).host = [.read32 0x0FF]) :=
  ⟨by decide, rfl, rfl, ⟨by decide, rfl⟩, ⟨by decide, by decide, rfl⟩, by decide, by decide, rfl⟩

/-- A write to the last ARG register, and its reads: whole, low half, high half. -/
theorem witness_HostAccessesArgRegistersAndLmem_args :
    (State.reset.busy = false ∧
      (pending (.write64 0x038 1#64) State.reset).host = [.write64 (0x010 + 8 * (5 : Fin 6).val) 1#64]) ∧
      (withArgs [0, 0, 0, 0, 0, 7] State.reset).args.get 5 = some 7#64 ∧
      (pending (.read64 0x038) State.reset).host = [.read64 (0x010 + 8 * (5 : Fin 6).val)] ∧
      (pending (.read32 0x038) State.reset).host = [.read32 (0x010 + 8 * (5 : Fin 6).val)] ∧
      (pending (.read32 0x03C) State.reset).host = [.read32 (0x010 + 8 * (5 : Fin 6).val + 4)] :=
  ⟨⟨rfl, rfl⟩, by decide +kernel, rfl, rfl, rfl⟩

/-- A read of a byte without a value, of an ARG register without one, and of RES0. -/
theorem witness_HostAccessesArgRegistersAndLmem_reads :
    (∃ t, step (pending (.lmemRead 0x100) State.reset) = .next t) ∧
      (∃ t, step (pending (.read64 0x010) State.reset) = .next t) ∧
      ∃ t, step (pending (.read32 0x040) State.reset) = .next t := ⟨⟨_, rfl⟩, ⟨_, rfl⟩, _, rfl⟩

/-- A store that ends at the last address of LMEM, and a load of a byte that holds a value. -/
theorem witness_HostAccessesArgRegistersAndLmem_lmem :
    (State.reset.busy = false ∧ 0xFFFFFFFF + [7#8].length ≤ 2 ^ State.reset.world.params.addrBits ∧
        (pending (.lmemWrite 0xFFFFFFFF [7#8]) State.reset).host = [.lmemWrite 0xFFFFFFFF [7#8]]) ∧
      (0x100 < 2 ^ inputA.world.params.addrBits ∧ readByte inputA.lmem 0x100 = some 0x34#8 ∧
        (pending (.lmemRead 0x100) inputA).host = [.lmemRead 0x100]) := by decide +kernel

end Sys2Proof.Tests
end

/-! ## Laws of endings: which causes a command can fault with -/

namespace Sys2Proof.Machine

section
variable {σ τ α β : Type}

/-- The computation never faults with F_CMD_BUSY, which only a CMD write itself can raise (60_exceptions.md R265). -/
structure NeverBusy (f : Run σ α) : Prop where
  ne : ∀ s t, f s ≠ .error (.fault .cmdBusy) t

theorem NeverBusy.pure (a : α) : NeverBusy (pure a : Run σ α) := ⟨fun _ _ => nofun⟩

theorem NeverBusy.fail (e : Status) : NeverBusy (throw (.fail e) : Run σ α) := ⟨fun _ _ => nofun⟩

theorem NeverBusy.fault {c : Cause} (h : c ≠ .cmdBusy) : NeverBusy (throw (.fault c) : Run σ α) := by
  refine ⟨?_⟩
  rintro s t ⟨⟩
  exact h rfl

theorem NeverBusy.get : NeverBusy (get : Run σ σ) := ⟨fun _ _ => nofun⟩

theorem NeverBusy.set (t : σ) : NeverBusy (set t : Run σ PUnit) := ⟨fun _ _ => nofun⟩

theorem NeverBusy.modify (g : σ → σ) : NeverBusy (modify g : Run σ PUnit) := ⟨fun _ _ => nofun⟩

theorem NeverBusy.bind {x : Run σ α} {f : α → Run σ β} (hx : NeverBusy x) (hf : ∀ a, NeverBusy (f a)) :
    NeverBusy (x >>= f) := by
  refine ⟨fun s u h => ?_⟩
  rcases bind_error_inv h with h | ⟨a, t, -, h⟩
  · exact hx.ne s u h
  · exact (hf a).ne t u h

theorem NeverBusy.ite {c : Prop} [Decidable c] {x y : Run σ α} (hx : NeverBusy x) (hy : NeverBusy y) :
    NeverBusy (if c then x else y) := by
  split <;> assumption

theorem NeverBusy.orFault {x : Except Cause α} (h : x ≠ .error .cmdBusy) : NeverBusy (orFault x : Run σ α) := by
  cases x with
  | ok a => exact .pure a
  | error c => exact .fault fun e => h (congrArg Except.error e)

theorem NeverBusy.zoom {part : σ → τ} {put : τ → σ → σ} {f : Run τ α} (h : NeverBusy f) :
    NeverBusy (zoom part put f) := by
  refine ⟨fun s t e => ?_⟩
  rcases zoom_cases part put f s with ⟨a, u, -, hz⟩ | ⟨x, u, hu, hz⟩ <;> rw [hz] at e <;> cases e
  exact h.ne _ _ hu

theorem memReadBytes_not_cmdBusy (sp : Space) (a n : Nat) : memReadBytes sp a n ≠ .error .cmdBusy := by
  intro h
  rcases memReadBytes_error h with ⟨h, -⟩ | ⟨h, -⟩ <;> cases h

theorem memRead_not_cmdBusy (sp : Space) (a n : Nat) : memRead sp a n ≠ .error .cmdBusy := by
  unfold memRead
  cases h : memReadBytes sp a n with
  | ok bs => nofun
  | error c =>
    rintro ⟨⟩
    exact memReadBytes_not_cmdBusy sp a n h

theorem loadBytes_neverBusy (a n : Nat) : NeverBusy (loadBytes a n) := by
  refine ⟨fun sp t h => ?_⟩
  unfold loadBytes at h
  cases hb : memReadBytes sp a n with
  | ok bs => rw [hb] at h; cases h
  | error c =>
    rw [hb] at h
    cases h
    exact memReadBytes_not_cmdBusy sp a n hb

theorem storeBytes_neverBusy (a : Nat) (bs : List Byte) : NeverBusy (storeBytes a bs) := by
  refine ⟨fun sp t h => ?_⟩
  rcases storeBytes_cases a bs sp with ⟨-, e⟩ | ⟨-, -, e⟩ <;> rw [e] at h <;> cases h

theorem buildOrFail_neverBusy (reject : Bool) (lens : List Nat) (tb maxLen : Nat) :
    NeverBusy (buildOrFail reject lens tb maxLen : Run σ (List Entry)) := by
  unfold buildOrFail
  cases buildTable reject lens tb maxLen with
  | some table => exact .pure _
  | none => exact .fail _

end

/-! ### The bit reader and the symbol decoder -/

theorem ensure_neverBusy (inp : Space) (n : Nat) : NeverBusy (ensure inp n) :=
  .bind .get fun _ => .ite (.pure _) (.ite (.set _) (.bind (.orFault (memRead_not_cmdBusy _ _ _)) fun _ => .set _))

theorem peek_neverBusy (n : Nat) : NeverBusy (peek n) :=
  .bind .get fun _ => .ite (.fault nofun) (.ite (.pure _) (.pure _))

theorem pop_neverBusy (n : Nat) : NeverBusy (pop n) :=
  .bind (peek_neverBusy n) fun _ => .bind (.modify _) fun _ => .pure _

theorem readBits_neverBusy (inp : Space) (n : Nat) : NeverBusy (readBits inp n) :=
  .bind (ensure_neverBusy inp n) fun _ => pop_neverBusy n

theorem readLit_neverBusy (inp : Space) (k : Nat) : NeverBusy (readLit inp k) :=
  .bind .get fun _ => .ite (.pure _)
    (.bind (.orFault (memRead_not_cmdBusy _ _ _)) fun _ => .bind (.modify _) fun _ => .pure _)

theorem readBytes_neverBusy (inp : Space) (n : Nat) : NeverBusy (readBytes inp n) :=
  .bind .get fun _ => .ite (.fail _)
    (.bind (.orFault (memReadBytes_not_cmdBusy _ _ _)) fun _ => .bind (.modify _) fun _ => .pure _)

/-- The entries of a table answer or fault, but never with F_CMD_BUSY. -/
def EntriesNeverBusy (entry : Nat → Except Cause Entry) : Prop := ∀ i, entry i ≠ .error .cmdBusy

theorem listEntry_neverBusy (table : List Entry) : EntriesNeverBusy (listEntry table) := fun _ => nofun

theorem lmemEntry_neverBusy (sp : Space) (t : Nat) : EntriesNeverBusy (lmemEntry sp t) := by
  intro i
  unfold lmemEntry
  cases h : memRead sp (t + 2 * i) 2 with
  | ok v => nofun
  | error c =>
    rintro ⟨⟩
    exact memRead_not_cmdBusy _ _ _ h

theorem walkTrie_neverBusy {entry : Nat → Except Cause Entry} (he : EntriesNeverBusy entry) (fuel : Nat) (e : Entry) :
    NeverBusy (walkTrie entry fuel e) := by
  induction fuel generalizing e with
  | zero => exact .fault nofun
  | succ fuel ih =>
    exact .bind (pop_neverBusy 1) fun _ => .bind (.orFault (he _)) fun e' => .ite (ih e') (.pure _)

theorem decodeSym_neverBusy (inp : Space) {entry : Nat → Except Cause Entry} (he : EntriesNeverBusy entry)
    (tb maxLen : Nat) : NeverBusy (decodeSym inp entry tb maxLen) :=
  .bind (ensure_neverBusy inp maxLen) fun _ => .bind (peek_neverBusy tb) fun _ => .bind (.orFault (he _)) fun e =>
    .ite (.bind (pop_neverBusy tb) fun _ => .bind .get fun _ => walkTrie_neverBusy he _ e)
      (.bind (pop_neverBusy _) fun _ => .pure _)

theorem decodeList_neverBusy (inp : Space) (table : List Entry) (tb maxLen : Nat) :
    NeverBusy (decodeSym inp (listEntry table) tb maxLen) :=
  decodeSym_neverBusy inp (listEntry_neverBusy table) tb maxLen

/-! ### The match copier and codec A -/

theorem copyLoop_neverBusy (distance count cursor : Nat) : NeverBusy (copyLoop distance count cursor) := by
  induction count generalizing cursor with
  | zero => exact .pure _
  | succ count ih =>
    exact .bind (loadBytes_neverBusy _ _) fun _ => .bind (storeBytes_neverBusy _ _) fun _ => ih _

theorem copyMatch_neverBusy (outBegin cursor length distance bufend : Nat) :
    NeverBusy (copyMatch outBegin cursor length distance bufend) :=
  .ite (.bind (copyLoop_neverBusy _ _ _) fun _ => .pure _) (.fault nofun)

theorem emitLiteral_neverBusy (job : Job) (sym : Nat) : NeverBusy (emitLiteral job sym) :=
  .bind .get fun _ => .bind (.zoom (storeBytes_neverBusy _ _)) fun _ => .modify _

theorem emitMatch_neverBusy (job : Job) (length dist stop : Nat) : NeverBusy (emitMatch job length dist stop) :=
  .bind .get fun _ => .bind (.zoom (copyMatch_neverBusy ..)) fun _ => .modify _

theorem exhaustionCheck_neverBusy (job : Job) : NeverBusy (exhaustionCheck job) :=
  .bind .get fun _ => .ite (.fail _) (.pure _)

theorem runSession_neverBusy (r : BitReader) {f : Run Sess Unit} (h : NeverBusy f) : NeverBusy (runSession r f) := by
  refine ⟨fun out t e => ?_⟩
  unfold runSession at e
  cases hf : f { reader := r, out := out, pos := 0 } with
  | ok a s => rw [hf] at e; cases e
  | error x s =>
    rw [hf] at e
    cases e
    exact h.ne _ _ hf

theorem matchFields_neverBusy (inp : Space) (sym : Nat) : NeverBusy (matchFields inp sym) :=
  .bind (ensure_neverBusy inp 16) fun _ => .bind (pop_neverBusy _) fun _ =>
    .ite (.bind (readLit_neverBusy inp 1) fun _ =>
      .ite (.bind (readLit_neverBusy inp 2) fun _ => .pure _) (.pure _)) (.pure _)

theorem caItem_neverBusy (job : Job) (table : List Entry) : NeverBusy (caItem job table) :=
  .bind (.zoom (decodeList_neverBusy ..)) fun _ => .ite (emitLiteral_neverBusy job _)
    (.bind (.zoom (matchFields_neverBusy ..)) fun _ => .bind .get fun _ =>
      .ite (.fail _) (.ite (.fail _) (emitMatch_neverBusy ..)))

theorem caLoop_neverBusy (job : Job) (table : List Entry) (fuel : Nat) : NeverBusy (caLoop job table fuel) := by
  induction fuel with
  | zero => exact .pure _
  | succ fuel ih => exact .bind .get fun _ => .ite (.pure _) (.bind (caItem_neverBusy job table) fun _ => ih)

theorem caDecode_neverBusy (job : Job) : NeverBusy (caDecode job) :=
  .ite (.fail _) (runSession_neverBusy _ (.bind (.orFault (memReadBytes_not_cmdBusy _ _ _)) fun _ =>
    .bind (buildOrFail_neverBusy ..) fun table => .bind (caLoop_neverBusy job table _) fun _ =>
      exhaustionCheck_neverBusy job))

/-! ### Codec B -/

theorem onCbReader_neverBusy {α : Type} {f : Run BitReader α} (h : NeverBusy f) : NeverBusy (onCbReader f) :=
  .zoom (.zoom h)

theorem blockHeader_neverBusy (inp : Space) (w : Nat) : NeverBusy (blockHeader inp w) :=
  .bind (readBits_neverBusy inp 3) fun _ => .bind (readBits_neverBusy inp 1) fun _ => .ite (.pure _)
    (.bind (readBits_neverBusy inp 16) fun _ => .ite (.bind (readBits_neverBusy inp 8) fun _ => .pure _) (.pure _))

theorem readFields_neverBusy (inp : Space) (k n : Nat) : NeverBusy (readFields inp k n) := by
  induction n with
  | zero => exact .pure _
  | succ n ih => exact .bind (readBits_neverBusy inp k) fun _ => .bind ih fun _ => .pure _

theorem runLength_neverBusy (inp : Space) (pre : List Entry) (lens : List Nat) (i p : Nat) :
    NeverBusy (runLength inp pre lens i p) :=
  .ite (.bind (readBits_neverBusy inp 4) fun _ => .pure _)
    (.ite (.bind (readBits_neverBusy inp 5) fun _ => .pure _)
      (.bind (readBits_neverBusy inp 1) fun _ => .bind (decodeList_neverBusy ..) fun _ => .ite (.fail _) (.pure _)))

theorem lensLoop_neverBusy (inp : Space) (pre : List Entry) (stop limit fuel : Nat) (lens : List Nat) (i : Nat) :
    NeverBusy (lensLoop inp pre stop limit fuel lens i) := by
  induction fuel generalizing lens i with
  | zero => exact .pure _
  | succ fuel ih =>
    exact .ite (.pure _) (.bind (decodeList_neverBusy ..) fun _ => .ite (ih _ _)
      (.bind (runLength_neverBusy ..) fun _ => ih _ _))

theorem readLens_neverBusy (inp : Space) (reject : Bool) (lens : List Nat) (start num limit : Nat) :
    NeverBusy (readLens inp reject lens start num limit) :=
  .bind (readFields_neverBusy inp 4 20) fun _ => .bind (buildOrFail_neverBusy ..) fun _ => lensLoop_neverBusy ..

theorem blockAligned_neverBusy (job : Job) (btype : Nat) : NeverBusy (blockAligned job btype) :=
  .ite (onCbReader_neverBusy (.bind (readFields_neverBusy _ 3 8) fun _ => buildOrFail_neverBusy ..)) (.pure _)

theorem codeLengths_neverBusy (job : Job) (w btype : Nat) : NeverBusy (codeLengths job w btype) :=
  .bind (blockAligned_neverBusy job btype) fun _ => .bind .get fun _ =>
    .bind (onCbReader_neverBusy (readLens_neverBusy ..)) fun _ =>
    .bind (onCbReader_neverBusy (readLens_neverBusy ..)) fun _ =>
    .bind (onCbReader_neverBusy (readLens_neverBusy ..)) fun _ =>
    .bind (.modify _) fun _ => .bind (buildOrFail_neverBusy ..) fun _ => .bind (buildOrFail_neverBusy ..) fun _ => .pure _

theorem explicitDistance_neverBusy (inp : Space) (aligned : List Entry) (btype slot : Nat) :
    NeverBusy (explicitDistance inp aligned btype slot) :=
  .ite (.bind (readBits_neverBusy ..) fun _ => .bind (decodeList_neverBusy ..) fun _ => .pure _)
    (.bind (readBits_neverBusy ..) fun _ => .pure _)

theorem offset_neverBusy (job : Job) (aligned : List Entry) (btype slot : Nat) :
    NeverBusy (offset job aligned btype slot) :=
  .ite (.bind .get fun _ => .bind (.set _) fun _ => .pure _)
    (.bind (onCbReader_neverBusy (explicitDistance_neverBusy ..)) fun _ => .bind (.modify _) fun _ => .pure _)

theorem matchLength_neverBusy (inp : Space) (len : List Entry) (lh : Nat) : NeverBusy (matchLength inp len lh) :=
  .ite (.bind (decodeList_neverBusy ..) fun _ => .pure _) (.pure _)

theorem cbItem_neverBusy (job : Job) (tables : CbTables) (btype bend : Nat) :
    NeverBusy (cbItem job tables btype bend) :=
  .bind (onCbReader_neverBusy (decodeList_neverBusy ..)) fun _ => .ite (.zoom (emitLiteral_neverBusy ..))
    (.bind (onCbReader_neverBusy (matchLength_neverBusy ..)) fun _ => .bind (offset_neverBusy ..) fun _ =>
      .bind .get fun _ => .ite (.fail _) (.ite (.fail _) (.zoom (emitMatch_neverBusy ..))))

theorem cbItems_neverBusy (job : Job) (tables : CbTables) (btype bend fuel : Nat) :
    NeverBusy (cbItems job tables btype bend fuel) := by
  induction fuel with
  | zero => exact .pure _
  | succ fuel ih => exact .bind .get fun _ => .ite (.pure _) (.bind (cbItem_neverBusy ..) fun _ => ih)

theorem readRecent_neverBusy (inp : Space) : NeverBusy (readRecent inp) :=
  .bind (ensure_neverBusy inp 1) fun _ => .bind (.modify _) fun _ => .bind (readLit_neverBusy inp 4) fun _ =>
    .bind (readLit_neverBusy inp 4) fun _ => .bind (readLit_neverBusy inp 4) fun _ => .pure _

theorem uncompressed_neverBusy (job : Job) (bsize : Nat) : NeverBusy (uncompressed job bsize) :=
  .bind (onCbReader_neverBusy (readRecent_neverBusy _)) fun _ => .bind (.modify _) fun _ => .ite (.fail _)
    (.bind (onCbReader_neverBusy (readBytes_neverBusy ..)) fun _ => .bind .get fun _ =>
      .bind (.zoom (.zoom (storeBytes_neverBusy ..))) fun _ => .bind (.zoom (.modify _)) fun _ =>
        .ite (.bind (onCbReader_neverBusy (readLit_neverBusy ..)) fun _ => .pure _) (.pure _))

theorem cbBlock_neverBusy (job : Job) (w : Nat) : NeverBusy (cbBlock job w) :=
  .bind (onCbReader_neverBusy (blockHeader_neverBusy ..)) fun _ => .bind .get fun _ =>
    .ite (.ite (uncompressed_neverBusy ..) (.bind (codeLengths_neverBusy ..) fun _ => cbItems_neverBusy ..)) (.fail _)

theorem cbBlocks_neverBusy (job : Job) (w fuel : Nat) : NeverBusy (cbBlocks job w fuel) := by
  induction fuel with
  | zero => exact .pure _
  | succ fuel ih => exact .bind .get fun _ => .ite (.pure _) (.bind (cbBlock_neverBusy job w) fun _ => ih)

theorem e8Translate_neverBusy (outBase i : Nat) : NeverBusy (e8Translate outBase i) := by
  refine .bind (loadBytes_neverBusy ..) fun bs => ?_
  cases e8Field (BitVec.ofNat 32 (leNat bs)) i with
  | some v => exact storeBytes_neverBusy ..
  | none => exact .pure _

theorem e8Loop_neverBusy (outBase n fuel i : Nat) : NeverBusy (e8Loop outBase n fuel i) := by
  induction fuel generalizing i with
  | zero => exact .pure _
  | succ fuel ih =>
    exact .ite (.bind (loadBytes_neverBusy ..) fun _ =>
      .ite (.bind (e8Translate_neverBusy ..) fun _ => ih _) (ih _)) (.pure _)

/-- What CbDecode runs over its session (44_codec_b.md R194). -/
def cbSession (job : Job) (w : Nat) : Run CbSess Unit := do
  cbBlocks job w job.outSize
  onBase (exhaustionCheck job)
  onBase (onOut (e8Undo job.outBase job.outSize))

/-- CbDecode is its session, started over OUT and read off at its end. -/
theorem cbDecode_session (job : Job) (w : Nat) (out : Space) :
    (∃ s, cbSession job w (sessionStart job w out) = .ok () s ∧ cbDecode job w out = .ok () s.base.out) ∨
      ∃ e s, cbSession job w (sessionStart job w out) = .error e s ∧ cbDecode job w out = .error e s.base.out := by
  cases h : cbSession job w (sessionStart job w out) with
  | ok a s => exact .inl ⟨s, rfl, by unfold cbSession at h; simp only [cbDecode, h]⟩
  | error e s => exact .inr ⟨e, s, rfl, by unfold cbSession at h; simp only [cbDecode, h]⟩

theorem cbDecode_neverBusy (job : Job) (w : Nat) : NeverBusy (cbDecode job w) := by
  have h : NeverBusy (cbSession job w) :=
    .bind (cbBlocks_neverBusy ..) fun _ => .bind (.zoom (exhaustionCheck_neverBusy job)) fun _ =>
      .zoom (.zoom (.ite (.pure _) (e8Loop_neverBusy ..)))
  refine ⟨fun out t e => ?_⟩
  rcases cbDecode_session job w out with ⟨s, -, hd⟩ | ⟨x, s, hs, hd⟩ <;> rw [hd] at e <;> cases e
  exact h.ne _ _ hs

theorem expandChunk_neverBusy (params : Params) (codec : Codec) (stored : List Byte) (u : Nat) :
    NeverBusy (expandChunk params codec stored u) := by
  refine .ite (storeBytes_neverBusy ..) ?_
  cases codec with
  | a => exact caDecode_neverBusy _
  | b => exact cbDecode_neverBusy _ _

end Sys2Proof.Machine

/-! ## The frame of every command -/

namespace Sys2Proof.Machine

/-! ### What a command may change -/

/-- Which parts of the block's state a command may write besides CODE, FAULT, FAULTINFO and BUSY: LMEM, BR0, the context's
cache, the rest of the context's record, the count of StoreRead calls, and RES0, once it completes or as it fails. -/
structure Reach where
  lmem : Bool := false
  br0 : Bool := false
  cache : Bool := false
  record : Bool := false
  calls : Bool := false
  result : Bool := false
  failResult : Bool := false

/-- What each command may change (10_state.md R28, R30, 20_memory.md R68). -/
def reachOf : Instr → Reach
  | .brInit | .brEnsure _ | .brPop _ | .brAlign => { br0 := true }
  | .brPeek _ | .brRead _ | .brReadByte | .brReadU16 | .brReadU32 | .htDecode => { br0 := true, result := true }
  | .brReadBytes => { br0 := true, lmem := true }
  | .htBuild | .caDecompress | .cbDecompress => { lmem := true }
  | .mcCopy => { lmem := true, result := true }
  | .ctxOpen => { cache := true, record := true, calls := true }
  | .ctxGetSize => { result := true }
  | .ctxRead => { lmem := true, cache := true, calls := true, result := true, failResult := true }
  | .ctxClose => { cache := true, record := true }

/-- From `s` to `t` nothing changed but RES0 and the parts in `r`. -/
structure Within (r : Reach) (s t : State) : Prop where
  rest : { t with lmem := s.lmem, res0 := s.res0, br0 := s.br0, ctx := s.ctx, ioCalls := s.ioCalls } = s
  lmem : r.lmem = false → t.lmem = s.lmem
  br0 : r.br0 = false → t.br0 = s.br0
  record : r.record = false →
    { t.ctx with cacheValid := s.ctx.cacheValid, cacheChunk := s.ctx.cacheChunk, cacheBuf := s.ctx.cacheBuf } = s.ctx
  cache : r.cache = false → t.ctx = s.ctx
  calls : r.calls = false → t.ioCalls = s.ioCalls

namespace Within

variable {r : Reach} {s t u : State}

theorem refl (r : Reach) (s : State) : Within r s s :=
  ⟨rfl, fun _ => rfl, fun _ => rfl, fun _ => rfl, fun _ => rfl, fun _ => rfl⟩

theorem trans (h : Within r s t) (h' : Within r t u) : Within r s u where
  rest := by rw [← h.rest, ← h'.rest]
  lmem hr := (h'.lmem hr).trans (h.lmem hr)
  br0 hr := (h'.br0 hr).trans (h.br0 hr)
  record hr := by rw [← h.record hr, ← h'.record hr]
  cache hr := (h'.cache hr).trans (h.cache hr)
  calls hr := (h'.calls hr).trans (h.calls hr)

theorem world (h : Within r s t) : t.world = s.world := by rw [← h.rest]
theorem code (h : Within r s t) : t.code = s.code := by rw [← h.rest]
theorem fault (h : Within r s t) : t.fault = s.fault := by rw [← h.rest]
theorem cause (h : Within r s t) : t.cause = s.cause := by rw [← h.rest]
theorem faultOpc (h : Within r s t) : t.faultOpc = s.faultOpc := by rw [← h.rest]
theorem args (h : Within r s t) : t.args = s.args := by rw [← h.rest]
theorem argHalf (h : Within r s t) : t.argHalf = s.argHalf := by rw [← h.rest]
theorem host (h : Within r s t) : t.host = s.host := by rw [← h.rest]
theorem hostData (h : Within r s t) : t.hostData = s.hostData := by rw [← h.rest]
theorem resets (h : Within r s t) : t.resets = s.resets := by rw [← h.rest]

end Within

/-! ### How a body ends -/

/-- An ending from `s` with nothing changed outside `r`, RES0 written only by a good ending, where `answers` allows it, or
by a failure, where `r` allows it, and no fault with F_CMD_BUSY. -/
def EndsFramed {α : Type} (r : Reach) (answers : Bool) (s : State) : EStateM.Result Stop State α → Prop
  | .ok _ t => Within r s t ∧ (answers = false → t.res0 = s.res0)
  | .error (.fail _) t => Within r s t ∧ (r.failResult = false → t.res0 = s.res0)
  | .error (.fault c) t => Within r s t ∧ t.res0 = s.res0 ∧ c ≠ .cmdBusy

/-- Every ending is framed. -/
structure Framed {α : Type} (r : Reach) (answers : Bool) (f : Run State α) : Prop where
  ends : ∀ s, EndsFramed r answers s (f s)

section
variable {α β : Type} {r : Reach} {answers : Bool}

/-- What happens before, with RES0 kept, counts as well. -/
theorem EndsFramed.after {s t : State} {x : EStateM.Result Stop State α} (h : Within r s t) (hres : t.res0 = s.res0)
    (hx : EndsFramed r answers t x) : EndsFramed r answers s x := by
  match x, hx with
  | .ok _ u, ⟨hw, hk⟩ => exact ⟨h.trans hw, fun ha => (hk ha).trans hres⟩
  | .error (.fail _) u, ⟨hw, hk⟩ => exact ⟨h.trans hw, fun ha => (hk ha).trans hres⟩
  | .error (.fault _) u, ⟨hw, hk, hc⟩ => exact ⟨h.trans hw, hk.trans hres, hc⟩

theorem Framed.bind {x : Run State α} {f : α → Run State β} (hx : Framed r false x) (hf : ∀ a, Framed r answers (f a)) :
    Framed r answers (x >>= f) := by
  refine ⟨fun s => ?_⟩
  have h := hx.ends s
  rw [bind_run]
  match hxs : x s with
  | .ok a t =>
    rw [hxs] at h
    exact .after h.1 (h.2 rfl) ((hf a).ends t)
  | .error (.fail e) t =>
    rw [hxs] at h
    exact h
  | .error (.fault c) t =>
    rw [hxs] at h
    exact h

theorem Framed.ite {c : Prop} [Decidable c] {x y : Run State α} (hx : Framed r answers x) (hy : Framed r answers y) :
    Framed r answers (if c then x else y) := by
  split <;> assumption

/-- A part that keeps RES0 however it ends. -/
theorem Framed.of_always {f : Run State α} (h : Always (fun s t => Within r s t ∧ t.res0 = s.res0) f)
    (hn : NeverBusy f) : Framed r answers f := by
  refine ⟨fun s => ?_⟩
  have hs := h s
  match hf : f s with
  | .ok a t =>
    rw [hf] at hs
    exact ⟨hs.1, fun _ => hs.2⟩
  | .error (.fail e) t =>
    rw [hf] at hs
    exact ⟨hs.1, fun _ => hs.2⟩
  | .error (.fault c) t =>
    rw [hf] at hs
    exact ⟨hs.1, hs.2, by rintro rfl; exact hn.ne _ _ hf⟩

/-- A part that keeps the state however it ends. -/
theorem Framed.of_keeps {f : Run State α} (h : Always Eq f) (hn : NeverBusy f) : Framed r answers f :=
  .of_always (h.mono fun _ _ e => e ▸ ⟨.refl r _, rfl⟩) hn

theorem Framed.pure (a : α) : Framed r answers (pure a : Run State α) := .of_keeps (fun _ => rfl) (.pure a)

theorem Framed.fail (e : Status) : Framed r answers (throw (.fail e) : Run State α) :=
  .of_keeps (fun _ => rfl) (.fail e)

theorem Framed.get : Framed r answers (get : Run State State) := .of_keeps (fun _ => rfl) .get

/-! ### The parts bodies are made of -/

theorem readArg_framed {i : Fin 6} : Framed r answers (readArg i) := by
  refine .of_keeps (readArg_keeps i) ⟨fun s t h => ?_⟩
  rcases readArg_cases i s with ⟨v, -, e⟩ | ⟨-, e⟩ <;> rw [e] at h <;> cases h

theorem readArgWord_framed {i : Fin 6} : Framed r answers (readArgWord i) := by
  refine .of_keeps (readArgWord_keeps i) ⟨fun s t h => ?_⟩
  unfold readArgWord at h
  split at h <;> cases h

theorem requireLmem_framed {a n : Nat} : Framed r answers (requireLmem a n) := by
  refine .of_keeps (requireLmem_keeps a n) ⟨fun s t h => ?_⟩
  unfold requireLmem at h
  split at h <;> cases h

theorem requireDisjoint_framed {a n b m : Nat} : Framed r answers (requireDisjoint a n b m) := by
  refine .of_keeps (requireDisjoint_keeps a n b m) ⟨fun s t h => ?_⟩
  unfold requireDisjoint at h
  split at h <;> cases h

theorem requireOperand_framed {ok : Bool} {e : Status} : Framed r answers (requireOperand ok e) := by
  refine .of_keeps (requireOperand_keeps ok e) ⟨fun s t h => ?_⟩
  unfold requireOperand at h
  split at h <;> cases h

theorem bitCount_framed {n : BitVec 5} : Framed r answers (bitCount n) := .ite (.pure _) (.fail _)

theorem prologue_keeps : Always Eq prologue := by
  intro s
  unfold prologue
  rw [bind_of_ok (get_run s)]
  split <;> rfl

theorem prologue_framed : Framed r answers prologue :=
  .of_keeps prologue_keeps (.bind .get fun _ => .ite (.pure _) (.fault nofun))

theorem buildOrFail_framed {reject : Bool} {lens : List Nat} {tb maxLen : Nat} :
    Framed r answers (buildOrFail reject lens tb maxLen) :=
  .of_keeps (buildOrFail_keeps _ _ _ _) (buildOrFail_neverBusy ..)

/-- Writing the result is the last thing a body does. -/
theorem setResult_framed {v : Nat} : Framed r true (setResult v) :=
  ⟨fun _ => ⟨⟨rfl, fun _ => rfl, fun _ => rfl, fun _ => rfl, fun _ => rfl, fun _ => rfl⟩, nofun⟩⟩

theorem Within.setBr0 (h : r.br0 = true) (s : State) (b : BitReader) : Within r s (s.setBr0 b) :=
  ⟨rfl, fun _ => rfl, fun h' => absurd (h.symm.trans h') (by decide), fun _ => rfl, fun _ => rfl, fun _ => rfl⟩

theorem Within.setLmem (h : r.lmem = true) (s : State) (m : Memory) : Within r s (s.setLmem m) :=
  ⟨rfl, fun h' => absurd (h.symm.trans h') (by decide), fun _ => rfl, fun _ => rfl, fun _ => rfl, fun _ => rfl⟩

theorem Within.setCtx (h : r.cache = true) (s : State) {c : Context}
    (hc : r.record = false →
      { c with cacheValid := s.ctx.cacheValid, cacheChunk := s.ctx.cacheChunk, cacheBuf := s.ctx.cacheBuf } = s.ctx) :
    Within r s (s.setCtx c) :=
  ⟨rfl, fun _ => rfl, fun _ => rfl, hc, fun h' => absurd (h.symm.trans h') (by decide), fun _ => rfl⟩

theorem Within.countIo (h : r.calls = true) (s : State) : Within r s s.countIo :=
  ⟨rfl, fun _ => rfl, fun _ => rfl, fun _ => rfl, fun _ => rfl, fun h' => absurd (h.symm.trans h') (by decide)⟩

theorem modify_framed {g : State → State} (h : ∀ s, Within r s (g s) ∧ (g s).res0 = s.res0) :
    Framed r answers (modify g) :=
  .of_always (always_modify h) (.modify g)

theorem onBr0_framed (h : r.br0 = true) {f : Space → Run BitReader α} (hn : ∀ inp, NeverBusy (f inp)) :
    Framed r answers (onBr0 f) := by
  refine .of_always (fun s => ?_) ⟨fun s => (NeverBusy.zoom (hn _)).ne s⟩
  rcases onBr0_cases f s with ⟨a, b, -, e⟩ | ⟨x, b, -, e⟩ <;> rw [e] <;> exact ⟨.setBr0 h s b, rfl⟩

theorem onLmem_framed (h : r.lmem = true) {f : Run Space α} (hn : NeverBusy f) : Framed r answers (onLmem f) := by
  refine .of_always (fun s => ?_) (.zoom hn)
  rcases onLmem_cases f s with ⟨a, sp, -, e⟩ | ⟨x, sp, -, e⟩ <;> rw [e] <;> exact ⟨.setLmem h s _, rfl⟩

theorem onCache_framed (h : r.cache = true) {u : Nat} {f : Run Space α} (hn : NeverBusy f) :
    Framed r answers (onCache u f) := by
  refine .of_always (fun s => ?_) (.zoom hn)
  rcases onCache_cases u f s with ⟨a, sp, -, e⟩ | ⟨x, sp, -, e⟩ <;> rw [e] <;> exact ⟨.setCtx h s fun _ => rfl, rfl⟩

theorem storeRead_framed (h : r.calls = true) {hd : Word64} {off n : Nat} : Framed r answers (storeRead hd off n) :=
  .of_always (fun s => ⟨.countIo h s, rfl⟩) ⟨fun _ _ => nofun⟩

/-- A failure handler may write RES0 where `r` says so. -/
theorem onFail_framed (hr : r.failResult = true) {g : State → State} (hg : ∀ s, Within r s (g s)) {f : Run State α}
    (hf : Framed r answers f) : Framed r answers (onFail g f) := by
  refine ⟨fun s => ?_⟩
  have h := hf.ends s
  rcases onFail_cases g f s with ⟨a, t, hfs, e⟩ | ⟨x, t, hfs, e⟩ | ⟨c, t, hfs, e⟩ <;> rw [hfs] at h <;> rw [e]
  · exact h
  · exact ⟨h.1.trans (hg t), fun h' => absurd (hr.symm.trans h') (by decide)⟩
  · exact h

end

/-! ### The body of each command -/

/-- The command runs a body, and all its endings are framed by what the command may change. -/
def CommandFramed (i : Instr) : Prop :=
  ∃ body, (∀ s, exec i s = runCommand i body s) ∧ Framed (reachOf i) (reachOf i).result body

theorem brInit_framed : CommandFramed .brInit :=
  ⟨_, fun _ => rfl, .bind readArg_framed fun _ => .bind readArg_framed fun _ => .bind requireLmem_framed fun _ =>
    modify_framed fun s => ⟨.setBr0 rfl s _, rfl⟩⟩

theorem brEnsure_framed (n : BitVec 5) : CommandFramed (.brEnsure n) :=
  ⟨_, fun _ => rfl, .bind bitCount_framed fun _ => .bind prologue_framed fun _ =>
    onBr0_framed rfl fun _ => ensure_neverBusy ..⟩

theorem brPeek_framed (n : BitVec 5) : CommandFramed (.brPeek n) :=
  ⟨_, fun _ => rfl, .bind bitCount_framed fun _ => .bind prologue_framed fun _ =>
    .bind (onBr0_framed rfl fun _ => peek_neverBusy _) fun _ => setResult_framed⟩

theorem brPop_framed (n : BitVec 5) : CommandFramed (.brPop n) :=
  ⟨_, fun _ => rfl, .bind bitCount_framed fun _ => .bind prologue_framed fun _ =>
    .bind (onBr0_framed rfl fun _ => pop_neverBusy _) fun _ => .pure _⟩

theorem brRead_framed (n : BitVec 5) : CommandFramed (.brRead n) :=
  ⟨_, fun _ => rfl, .bind bitCount_framed fun _ => .bind prologue_framed fun _ =>
    .bind (onBr0_framed rfl fun _ => readBits_neverBusy ..) fun _ => setResult_framed⟩

theorem literalCommand_framed {r : Reach} (h : r.br0 = true) (k : Nat) : Framed r true (literalCommand k) :=
  .bind prologue_framed fun _ => .bind (onBr0_framed h fun _ => readLit_neverBusy ..) fun _ => setResult_framed

theorem brReadByte_framed : CommandFramed .brReadByte := ⟨_, fun _ => rfl, literalCommand_framed rfl 1⟩

theorem brReadU16_framed : CommandFramed .brReadU16 := ⟨_, fun _ => rfl, literalCommand_framed rfl 2⟩

theorem brReadU32_framed : CommandFramed .brReadU32 := ⟨_, fun _ => rfl, literalCommand_framed rfl 4⟩

theorem brReadBytes_framed : CommandFramed .brReadBytes :=
  ⟨_, fun _ => rfl, .bind prologue_framed fun _ => .bind readArg_framed fun _ => .bind readArg_framed fun _ =>
    .bind requireLmem_framed fun _ => .bind .get fun _ => .bind requireDisjoint_framed fun _ =>
    .bind (onBr0_framed rfl fun _ => readBytes_neverBusy ..) fun _ => onLmem_framed rfl (storeBytes_neverBusy ..)⟩

theorem brAlign_framed : CommandFramed .brAlign :=
  ⟨_, fun _ => rfl, .bind prologue_framed fun _ => modify_framed fun s => ⟨.setBr0 rfl s _, rfl⟩⟩

theorem htBuild_framed : CommandFramed .htBuild :=
  ⟨_, fun _ => rfl, .bind readArg_framed fun _ => .bind readArg_framed fun _ => .bind readArg_framed fun _ =>
    .bind readArg_framed fun _ => .bind readArg_framed fun _ => .bind requireOperand_framed fun _ =>
    .bind requireLmem_framed fun _ => .bind requireLmem_framed fun _ => .bind requireDisjoint_framed fun _ =>
    .bind (onLmem_framed rfl (loadBytes_neverBusy ..)) fun _ => .bind .get fun _ => .bind buildOrFail_framed fun _ =>
    onLmem_framed rfl (storeBytes_neverBusy ..)⟩

theorem htDecode_framed : CommandFramed .htDecode :=
  ⟨_, fun _ => rfl, .bind prologue_framed fun _ => .bind readArg_framed fun _ => .bind readArg_framed fun _ =>
    .bind readArg_framed fun _ => .bind requireOperand_framed fun _ =>
    .bind (onBr0_framed rfl fun _ => decodeSym_neverBusy _ (lmemEntry_neverBusy _ _) _ _) fun _ => setResult_framed⟩

theorem mcCopy_framed : CommandFramed .mcCopy :=
  ⟨_, fun _ => rfl, .bind readArg_framed fun _ => .bind readArg_framed fun _ => .bind readArg_framed fun _ =>
    .bind readArg_framed fun _ => .bind readArg_framed fun _ => .bind readArg_framed fun _ =>
    .bind requireLmem_framed fun _ => .bind (onLmem_framed rfl (copyMatch_neverBusy ..)) fun _ => setResult_framed⟩

theorem caDecompress_framed : CommandFramed .caDecompress :=
  ⟨_, fun _ => rfl, .bind readArg_framed fun _ => .bind readArg_framed fun _ => .bind readArg_framed fun _ =>
    .bind readArg_framed fun _ => .bind requireOperand_framed fun _ => .bind requireLmem_framed fun _ =>
    .bind requireLmem_framed fun _ => .bind requireDisjoint_framed fun _ => .bind .get fun _ =>
    onLmem_framed rfl (caDecode_neverBusy _)⟩

theorem cbDecompress_framed : CommandFramed .cbDecompress :=
  ⟨_, fun _ => rfl, .bind readArg_framed fun _ => .bind readArg_framed fun _ => .bind readArg_framed fun _ =>
    .bind readArg_framed fun _ => .bind readArg_framed fun _ => .bind requireOperand_framed fun _ =>
    .bind requireLmem_framed fun _ => .bind requireLmem_framed fun _ => .bind requireDisjoint_framed fun _ =>
    .bind .get fun _ => onLmem_framed rfl (cbDecode_neverBusy ..)⟩

theorem readIndex_framed {r : Reach} (h : r.calls = true) (hd : Word64) (size : Nat) :
    Framed r false (readIndex hd size) := by
  refine .ite (.pure _) (.bind (storeRead_framed h) fun b => ?_)
  cases b with
  | none => exact .fail _
  | some bs => exact .pure _

theorem openChecked_framed (h : Word64) (lsize : Nat) (codec : Codec) (order : Nat) :
    Framed (reachOf .ctxOpen) false (openChecked h lsize codec order) :=
  .bind requireOperand_framed fun _ => .bind .get fun _ => .bind requireOperand_framed fun _ =>
    .bind requireOperand_framed fun _ => .bind (readIndex_framed rfl _ _) fun _ => .bind requireOperand_framed fun _ =>
    modify_framed fun s => ⟨.setCtx rfl s nofun, rfl⟩

theorem ctxOpen_framed : CommandFramed .ctxOpen := by
  refine ⟨_, fun _ => rfl, .bind .get fun _ => .bind requireOperand_framed fun _ => .bind readArgWord_framed fun _ =>
    .bind readArg_framed fun _ => .bind readArg_framed fun codec => .bind readArg_framed fun order => ?_⟩
  cases legalCodec codec order with
  | none => exact .fail _
  | some cd => exact openChecked_framed ..

theorem ctxGetSize_framed : CommandFramed .ctxGetSize :=
  ⟨_, fun _ => rfl, .bind .get fun _ => .bind requireOperand_framed fun _ => setResult_framed⟩

theorem ctxClose_framed : CommandFramed .ctxClose :=
  ⟨_, fun _ => rfl, modify_framed fun s => ⟨.setCtx rfl s nofun, rfl⟩⟩

/-! ### CTX_READ -/

theorem dropCache_within {r : Reach} (h : r.cache = true) (s : State) : Within r s (dropCache s) :=
  .setCtx h s fun _ => rfl

theorem ensureChunk_framed {r : Reach} (hc : r.cache = true) (hi : r.calls = true) (c : Nat) :
    Framed r false (ensureChunk c) := by
  refine ⟨fun s => ?_⟩
  have hd : Within r s (dropCache s).countIo := (dropCache_within hc s).trans (.countIo hi _)
  rcases ensureChunk_cases c s with ⟨-, -, e⟩ | ⟨-, e | ⟨bs, -, e⟩⟩ <;> rw [e]
  · exact ⟨.refl r s, fun _ => rfl⟩
  · exact ⟨hd, fun _ => rfl⟩
  · refine .after hd rfl (Framed.ends ?_ _)
    exact .bind (onCache_framed hc (expandChunk_neverBusy ..)) fun _ =>
      modify_framed fun u => ⟨.setCtx hc u fun _ => rfl, rfl⟩

theorem failRead_within {r : Reach} (h : r.cache = true) (s : State) : Within r s (failRead s) :=
  (dropCache_within h s).trans ⟨rfl, fun _ => rfl, fun _ => rfl, fun _ => rfl, fun _ => rfl, fun _ => rfl⟩

theorem copyChunk_framed (p m dst c : Nat) : Framed (reachOf .ctxRead) false (copyChunk p m dst c) :=
  .bind (onFail_framed rfl (failRead_within rfl) (ensureChunk_framed rfl rfl c)) fun _ => .bind .get fun _ =>
    .bind (onCache_framed rfl (loadBytes_neverBusy ..)) fun _ => onLmem_framed rfl (storeBytes_neverBusy ..)

theorem copyChunks_framed (p m dst count c : Nat) : Framed (reachOf .ctxRead) false (copyChunks p m dst count c) := by
  induction count generalizing c with
  | zero => exact .pure _
  | succ count ih => exact .bind (copyChunk_framed p m dst c) fun _ => ih (c + 1)

theorem readOpened_framed (p cnt dst : Nat) : Framed (reachOf .ctxRead) true (readOpened p cnt dst) :=
  .bind .get fun _ => .ite setResult_framed (.bind requireLmem_framed fun _ => .ite setResult_framed
    (.bind (copyChunks_framed ..) fun _ => setResult_framed))

/-- CTX_READ of a closed context writes RES0 and then fails (45_context.md R238). -/
theorem readClosed_framed :
    Framed (reachOf .ctxRead) true (do setResult 0; throw (.fail .state) : Run State Unit) :=
  ⟨fun _ => ⟨⟨rfl, fun _ => rfl, fun _ => rfl, fun _ => rfl, fun _ => rfl, fun _ => rfl⟩, nofun⟩⟩

theorem ctxRead_framed : CommandFramed .ctxRead :=
  ⟨_, fun _ => rfl, .bind .get fun _ => .ite (.bind readArg_framed fun _ => .bind readArg_framed fun _ =>
    .bind readArg_framed fun _ => readOpened_framed ..) readClosed_framed⟩

/-! ### All commands -/

theorem exec_framed (i : Instr) : CommandFramed i := by
  cases i with
  | brInit => exact brInit_framed
  | brEnsure n => exact brEnsure_framed n
  | brPeek n => exact brPeek_framed n
  | brPop n => exact brPop_framed n
  | brRead n => exact brRead_framed n
  | brReadByte => exact brReadByte_framed
  | brReadU16 => exact brReadU16_framed
  | brReadU32 => exact brReadU32_framed
  | brReadBytes => exact brReadBytes_framed
  | brAlign => exact brAlign_framed
  | htBuild => exact htBuild_framed
  | htDecode => exact htDecode_framed
  | mcCopy => exact mcCopy_framed
  | caDecompress => exact caDecompress_framed
  | cbDecompress => exact cbDecompress_framed
  | ctxOpen => exact ctxOpen_framed
  | ctxGetSize => exact ctxGetSize_framed
  | ctxRead => exact ctxRead_framed
  | ctxClose => exact ctxClose_framed

/-- Everything a command can do (60_exceptions.md R266, R268): it leaves `u`, framed by what it may change, completed,
failed with a status, or faulted with a cause other than F_CMD_BUSY. -/
theorem exec_cases (i : Instr) (s : State) :
    ∃ u, Within (reachOf i) s u ∧
      ((exec i s = .next (u.finish .ok) ∧ ((reachOf i).result = false → u.res0 = s.res0)) ∨
        (∃ e, exec i s = .next (u.finish e) ∧ ((reachOf i).failResult = false → u.res0 = s.res0)) ∨
          ∃ c, exec i s = .next (u.takeFault c (opcodeOf i)) ∧ u.res0 = s.res0 ∧ c ≠ .cmdBusy) := by
  obtain ⟨body, hrun, hframe⟩ := exec_framed i
  have h := hframe.ends s
  rw [hrun]
  rcases runCommand_cases i body s with ⟨u, hu, hr⟩ | ⟨e, u, hu, hr⟩ | ⟨c, u, hu, hr⟩ <;> rw [hu] at h
  · exact ⟨u, h.1, .inl ⟨hr, h.2⟩⟩
  · exact ⟨u, h.1, .inr (.inl ⟨e, hr, h.2⟩)⟩
  · exact ⟨u, h.1, .inr (.inr ⟨c, hr, h.2⟩)⟩

theorem statusCode_le (e : Status) : (statusCode e).toNat ≤ 8 := by cases e <;> decide

theorem causeCode_range {c : Cause} (h : c ≠ .cmdBusy) : 1 ≤ (causeCode c).toNat ∧ (causeCode c).toNat ≤ 6 := by
  cases c with
  | cmdBusy => exact absurd rfl h
  | _ => decide

/-- Settles O11: the three endings of `exec_cases`, with the fields a command never touches read off its frame. -/
theorem everyCommandHasOneOutcome : Obligations.EveryCommandHasOneOutcome := by
  intro i s
  obtain ⟨u, hw, ⟨hx, -⟩ | ⟨e, hx, -⟩ | ⟨c, hx, hres, hc⟩⟩ := exec_cases i s
  · exact ⟨_, hx, rfl, hw.args, hw.world, hw.host, hw.hostData, hw.argHalf, hw.resets,
      .inl ⟨hw.fault, hw.cause, hw.faultOpc, statusCode_le .ok⟩⟩
  · exact ⟨_, hx, rfl, hw.args, hw.world, hw.host, hw.hostData, hw.argHalf, hw.resets,
      .inl ⟨hw.fault, hw.cause, hw.faultOpc, statusCode_le e⟩⟩
  · exact ⟨_, hx, rfl, hw.args, hw.world, hw.host, hw.hostData, hw.argHalf, hw.resets,
      .inr ⟨rfl, (causeCode_range hc).1, (causeCode_range hc).2, rfl, hw.code, hres⟩⟩

/-- Settles O14: a command may write RES0 only as `reachOf` says, and from FAULT = 0 a good ending shows CODE 0. -/
theorem resultRegisterKeptWithoutResult : Obligations.ResultRegisterKeptWithoutResult := by
  intro i s t ht hfault
  have result_of_not : (∀ n, i ≠ .brPeek n) ∧ (∀ n, i ≠ .brRead n) ∧
      i ∉ ([.brReadByte, .brReadU16, .brReadU32, .htDecode, .mcCopy, .ctxGetSize, .ctxRead] : List Instr) →
      (reachOf i).result = false ∧ (reachOf i).failResult = false := by
    cases i <;> simp [reachOf]
  have fail_of_ne : i ≠ .ctxRead → (reachOf i).failResult = false := by
    cases i <;> simp [reachOf]
  obtain ⟨u, hw, ⟨hx, hres⟩ | ⟨e, hx, hres⟩ | ⟨c, hx, hres, -⟩⟩ := exec_cases i s <;> rw [hx] at ht <;> cases ht
  · refine ⟨fun h => hres (result_of_not h).1, fun _ h => absurd h ?_⟩
    simp [hw.fault, hfault, statusCode]
  · exact ⟨fun h => hres (result_of_not h).2, fun h _ => hres (fail_of_ne h)⟩
  · exact ⟨fun _ => hres, fun _ _ => hres⟩

/-- Everything a command leaves is framed by what it may change. -/
theorem exec_within {i : Instr} {s t : State} (h : exec i s = .next t) :
    ∃ u, Within (reachOf i) s u ∧ t.lmem = u.lmem ∧ t.br0 = u.br0 ∧ t.ctx = u.ctx ∧ t.ioCalls = u.ioCalls := by
  obtain ⟨u, hw, ⟨hx, -⟩ | ⟨e, hx, -⟩ | ⟨c, hx, -⟩⟩ := exec_cases i s <;> rw [hx] at h <;> cases h <;>
    exact ⟨u, hw, rfl, rfl, rfl, rfl⟩

/-- Settles O15: the frame of each command, read off `reachOf`. -/
theorem commandsChangeOnlyTheirOwnUnit : Obligations.CommandsChangeOnlyTheirOwnUnit := by
  intro i s t ht
  obtain ⟨u, hw, -, hbr, hctx, hio⟩ := exec_within ht
  rw [hbr, hctx, hio]
  refine ⟨fun h => hw.br0 ?_, fun h => hw.cache ?_, fun h => hw.calls ?_, fun h => hw.record ?_⟩ <;>
    cases i <;> simp_all [reachOf]

end Sys2Proof.Machine

/-! ## Operands without a value -/

namespace Sys2Proof.Machine

/-- Reading an operand register without a value stops the command there; what comes after may stop it for another
register of the list. -/
theorem readArg_bind_unwritten {α : Type} {i k : Fin 6} {l : List (Fin 6)} {s : State} {f : Nat → Run State α}
    (hk : k ∈ i :: l) (hn : s.args.get k = none)
    (hf : k ∈ l → ∀ v, f v s = .error (.fault .unwritten) s) : (readArg i >>= f) s = .error (.fault .unwritten) s := by
  rcases readArg_cases i s with ⟨v, hv, e⟩ | ⟨-, e⟩
  · rw [bind_of_ok e]
    refine hf ((List.mem_cons.mp hk).resolve_left ?_) _
    rintro rfl
    rw [hn] at hv
    cases hv
  · exact bind_of_error e

theorem readArgWord_bind_unwritten {α : Type} {i k : Fin 6} {l : List (Fin 6)} {s : State} {f : Word64 → Run State α}
    (hk : k ∈ i :: l) (hn : s.args.get k = none)
    (hf : k ∈ l → ∀ v, f v s = .error (.fault .unwritten) s) :
    (readArgWord i >>= f) s = .error (.fault .unwritten) s := by
  cases hv : s.args.get i with
  | some v =>
    rw [bind_of_ok (readArgWord_of_some hv)]
    refine hf ((List.mem_cons.mp hk).resolve_left ?_) _
    rintro rfl
    rw [hn] at hv
    cases hv
  | none => exact bind_of_error (readArgWord_of_none hv)

theorem prologue_of_valid {s : State} (h : s.br0.valid = true) : prologue s = .ok () s := by
  unfold prologue
  rw [bind_of_ok (get_run s), if_pos h]
  rfl

/-- Settles O13: the operand reads come first in every body, in the order of its register list, after nothing but the
checks the hypotheses let pass. -/
theorem unwrittenOperandFaults : Obligations.UnwrittenOperandFaults := by
  intro i s k hk hn hbr hopen hread
  have last : ∀ {p : Prop}, k ∈ ([] : List (Fin 6)) → p := fun h => absurd h List.not_mem_nil
  cases i with
  | brInit =>
    exact runCommand_of_fault (readArg_bind_unwritten hk hn fun hk _ =>
      readArg_bind_unwritten hk hn fun hk _ => last hk)
  | brReadBytes =>
    refine runCommand_of_fault (c := .unwritten) ?_
    rw [bind_of_ok (prologue_of_valid (hbr (.inl rfl)))]
    exact readArg_bind_unwritten hk hn fun hk _ => readArg_bind_unwritten hk hn fun hk _ => last hk
  | htBuild =>
    exact runCommand_of_fault (readArg_bind_unwritten hk hn fun hk _ => readArg_bind_unwritten hk hn fun hk _ =>
      readArg_bind_unwritten hk hn fun hk _ => readArg_bind_unwritten hk hn fun hk _ =>
      readArg_bind_unwritten hk hn fun hk _ => last hk)
  | htDecode =>
    refine runCommand_of_fault (c := .unwritten) ?_
    rw [bind_of_ok (prologue_of_valid (hbr (.inr rfl)))]
    exact readArg_bind_unwritten hk hn fun hk _ => readArg_bind_unwritten hk hn fun hk _ =>
      readArg_bind_unwritten hk hn fun hk _ => last hk
  | mcCopy =>
    exact runCommand_of_fault (readArg_bind_unwritten hk hn fun hk _ => readArg_bind_unwritten hk hn fun hk _ =>
      readArg_bind_unwritten hk hn fun hk _ => readArg_bind_unwritten hk hn fun hk _ =>
      readArg_bind_unwritten hk hn fun hk _ => readArg_bind_unwritten hk hn fun hk _ => last hk)
  | caDecompress =>
    exact runCommand_of_fault (readArg_bind_unwritten hk hn fun hk _ => readArg_bind_unwritten hk hn fun hk _ =>
      readArg_bind_unwritten hk hn fun hk _ => readArg_bind_unwritten hk hn fun hk _ => last hk)
  | cbDecompress =>
    exact runCommand_of_fault (readArg_bind_unwritten hk hn fun hk _ => readArg_bind_unwritten hk hn fun hk _ =>
      readArg_bind_unwritten hk hn fun hk _ => readArg_bind_unwritten hk hn fun hk _ =>
      readArg_bind_unwritten hk hn fun hk _ => last hk)
  | ctxOpen =>
    refine runCommand_of_fault (c := .unwritten) ?_
    rw [bind_of_ok (get_run s), hopen rfl]
    exact readArgWord_bind_unwritten hk hn fun hk _ => readArg_bind_unwritten hk hn fun hk _ =>
      readArg_bind_unwritten hk hn fun hk _ => readArg_bind_unwritten hk hn fun hk _ => last hk
  | ctxRead =>
    refine runCommand_of_fault (c := .unwritten) ?_
    rw [bind_of_ok (get_run s), if_pos (hread rfl)]
    exact readArg_bind_unwritten hk hn fun hk _ => readArg_bind_unwritten hk hn fun hk _ =>
      readArg_bind_unwritten hk hn fun hk _ => last hk
  | brEnsure n | brPeek n | brPop n | brRead n | brReadByte | brReadU16 | brReadU32 | brAlign | ctxGetSize | ctxClose =>
    exact last hk

end Sys2Proof.Machine

/-! ## The host's side: what one action can do -/

namespace Sys2Proof.Machine

/-! ### CMD writes (10_state.md R23) -/

theorem step_write_cmd {s : State} {w : Word32} {rest : List HostEvent} (h : s.host = .write32 0x000 w :: rest) :
    step s = writeCmd w (s.nextActions rest) := step_action h

theorem writeCmd_of_fault {s : State} (h : s.fault = true) (w : Word32) : writeCmd w s = .next s := by
  rcases writeCmd_cases w s with ⟨-, e⟩ | ⟨h', -⟩ | ⟨h', -⟩
  · exact e
  · rw [h] at h'; cases h'
  · rw [h] at h'; cases h'

theorem writeCmd_of_busy {s : State} (hf : s.fault = false) (hb : s.busy = true) (w : Word32) :
    writeCmd w s = .next (s.takeFault .cmdBusy 0#8) := by
  rcases writeCmd_cases w s with ⟨h', -⟩ | ⟨-, -, e⟩ | ⟨-, h', -⟩
  · rw [hf] at h'; cases h'
  · exact e
  · rw [hb] at h'; cases h'

theorem writeCmd_of_decode {s : State} {w : Word32} {i : Instr} (hf : s.fault = false) (hb : s.busy = false)
    (hd : decode w = .ok i) : writeCmd w s = exec i s.accept := by
  rcases writeCmd_cases w s with ⟨h', -⟩ | ⟨-, h', -⟩ | ⟨-, -, ⟨j, hj, e⟩ | ⟨x, hx, -⟩⟩
  · rw [hf] at h'; cases h'
  · rw [hb] at h'; cases h'
  · rw [hd] at hj
    cases hj
    exact e
  · rw [hd] at hx; cases hx

/-- A table word that stands for a command decodes to it. -/
theorem decode_of_tableWord {nbits w : Nat} {i : Instr} (h : decodeTableWord nbits w = some i) :
    decode (tableWord nbits w) = .ok i := by
  unfold decodeTableWord at h
  cases hd : decode (tableWord nbits w) with
  | ok j => rw [hd] at h; cases h; rfl
  | error e => rw [hd] at h; cases h

/-- Settles O5: both forms are the CMD write of a word that decodes, in a block that takes commands. -/
theorem stepRunsTheDecodedCommand : Obligations.StepRunsTheDecodedCommand := by
  refine ⟨fun s w i rest h hd hf hb => ?_, fun s nbits w i hd hf hb => ?_⟩
  · rw [step_write_cmd h]
    exact writeCmd_of_decode hf hb hd
  · rw [State.withFetchWord, step_pendCommand]
    exact writeCmd_of_decode hf hb (decode_of_tableWord hd)

/-- Settles O6: the branches of a CMD write, one by one. -/
theorem cmdWriteIsIgnoredFaultsOrStarts : Obligations.CmdWriteIsIgnoredFaultsOrStarts := by
  intro s w rest h
  rw [step_write_cmd h]
  exact ⟨fun hf => writeCmd_of_fault (s := s.nextActions rest) hf w,
    fun hf hb => writeCmd_of_busy (s := s.nextActions rest) hf hb w,
    fun hf hb i hd => writeCmd_of_decode (s := s.nextActions rest) hf hb hd⟩

/-! ### Every action -/

/-- What a host action other than a CMD write and reset can do to the block: show a value, be ignored, write an ARG
register or a half of one, or store bytes in LMEM; writes only while BUSY = 0 (70_reset_and_hazards.md R288). -/
inductive HostMove (s : State) : State → Prop where
  | read (v : Word64) : HostMove s (s.hostReads v)
  | ignored : HostMove s s
  | arg (i : Fin 6) (v : Word64) : s.busy = false → HostMove s (s.setArg i v)
  | argHalf (i : Fin 6) (h : ArgHalf) : s.busy = false → HostMove s (s.setArgHalf i h)
  | store (a : Nat) (bs : List Byte) (sp : Space) : s.busy = false → memWriteBytes (lmemSpace s) a bs = .ok sp →
      HostMove s (s.setLmem sp.cells)

theorem read32_reads {off : Nat} {s t : State} (h : read32 off s = .next t) : ∃ v, t = s.hostReads v := by
  unfold read32 at h
  repeat' split at h
  all_goals cases h
  all_goals exact ⟨_, rfl⟩

theorem read64_reads {off : Nat} {s t : State} (h : read64 off s = .next t) : ∃ v, t = s.hostReads v := by
  unfold read64 at h
  repeat' split at h
  all_goals cases h
  all_goals exact ⟨_, rfl⟩

theorem lmemRead_reads {a : Nat} {s t : State} (h : lmemRead a s = .next t) : ∃ v, t = s.hostReads v := by
  unfold lmemRead at h
  repeat' split at h
  all_goals cases h
  all_goals exact ⟨_, rfl⟩

theorem setArgLow_move {s : State} (hb : s.busy = false) (i : Fin 6) (v : Word32) : HostMove s (s.setArgLow i v) := by
  rcases setArgLow_cases s i v with ⟨w, -, e⟩ | ⟨h, -, -, e⟩ | ⟨-, e⟩ <;> rw [e]
  · exact .arg i _ hb
  · exact .arg i _ hb
  · exact .argHalf i _ hb

theorem setArgHigh_move {s : State} (hb : s.busy = false) (i : Fin 6) (v : Word32) : HostMove s (s.setArgHigh i v) := by
  rcases setArgHigh_cases s i v with ⟨w, -, e⟩ | ⟨h, -, -, e⟩ | ⟨-, e⟩ <;> rw [e]
  · exact .arg i _ hb
  · exact .arg i _ hb
  · exact .argHalf i _ hb

theorem write64_move {off : Nat} {v : Word64} {s t : State} (h : write64 off v s = .next t) : HostMove s t := by
  unfold write64 writeArg at h
  split at h
  · cases hb : s.busy <;> rw [hb] at h <;> cases h
    exact .arg _ v hb
  · split at h <;> cases h
    exact .ignored

theorem write32_move {off : Nat} {v : Word32} {s t : State} (h : write32 off v s = .next t) (hoff : off ≠ 0x000) :
    HostMove s t := by
  unfold write32 at h
  rw [if_neg hoff] at h
  split at h
  · cases hb : s.busy <;> rw [hb] at h <;> cases h
    exact setArgLow_move hb _ v
  · split at h
    · cases hb : s.busy <;> rw [hb] at h <;> cases h
      exact setArgHigh_move hb _ v
    · split at h <;> cases h
      exact .ignored

theorem lmemWrite_move {a : Nat} {bs : List Byte} {s t : State} (h : lmemWrite a bs s = .next t) : HostMove s t := by
  unfold lmemWrite at h
  cases hb : s.busy <;> rw [hb] at h
  · cases hm : memWriteBytes (lmemSpace s) a bs <;> rw [hm] at h <;> cases h
    exact .store a bs _ hb hm
  · cases h

/-- Everything a host action can do when it gives a next state. -/
theorem hostAction_cases {e : HostEvent} {s t : State} (h : hostAction e s = .next t) :
    (e = .reset ∧ t = s.resetBlock) ∨ (∃ w, e = .write32 0x000 w ∧ writeCmd w s = .next t) ∨ HostMove s t := by
  cases e with
  | write32 off v =>
    by_cases hoff : off = 0x000
    · subst hoff
      exact .inr (.inl ⟨v, rfl, h⟩)
    · exact .inr (.inr (write32_move h hoff))
  | write64 off v => exact .inr (.inr (write64_move h))
  | read32 off =>
    obtain ⟨v, rfl⟩ := read32_reads h
    exact .inr (.inr (.read v))
  | read64 off =>
    obtain ⟨v, rfl⟩ := read64_reads h
    exact .inr (.inr (.read v))
  | lmemWrite a bs => exact .inr (.inr (lmemWrite_move h))
  | lmemRead a =>
    obtain ⟨v, rfl⟩ := lmemRead_reads h
    exact .inr (.inr (.read v))
  | reset =>
    cases h
    exact .inl ⟨rfl, rfl⟩

/-- A host action that runs no command leaves the block's status, result, reader, context and counter alone. -/
theorem HostMove.keeps {s t : State} (h : HostMove s t) :
    t.fault = s.fault ∧ t.cause = s.cause ∧ t.faultOpc = s.faultOpc ∧ t.code = s.code ∧ t.busy = s.busy ∧
      t.res0 = s.res0 ∧ t.br0 = s.br0 ∧ t.ctx = s.ctx ∧ t.ioCalls = s.ioCalls := by
  cases h <;> exact ⟨rfl, rfl, rfl, rfl, rfl, rfl, rfl, rfl, rfl⟩

/-- Settles O7: of the actions that give a next state, reset clears the fault, a CMD write is ignored, and the others reach
none of the fields named. -/
theorem faultIsLeftOnlyByReset : Obligations.FaultIsLeftOnlyByReset := by
  intro s e rest hf hh
  rw [step_action hh]
  refine ⟨?_, fun hne t ht => ?_, ?_⟩
  · rintro rfl
    exact ⟨_, rfl, rfl, rfl, rfl⟩
  · rcases hostAction_cases ht with ⟨rfl, -⟩ | ⟨w, -, hw⟩ | hm
    · exact absurd rfl hne
    · rw [writeCmd_of_fault (s := s.nextActions rest) hf] at hw
      cases hw
      exact ⟨hf, rfl, rfl, rfl, rfl, rfl, rfl, rfl, rfl⟩
    · obtain ⟨hfault, hrest⟩ := hm.keeps
      exact ⟨hfault.trans hf, hrest⟩
  · rintro w rfl
    exact writeCmd_of_fault (s := s.nextActions rest) hf w

end Sys2Proof.Machine

/-! ## The register window and LMEM, as the host sees them -/

namespace Sys2Proof.Machine

/-! ### Register words as numbers (10_state.md R24, R25, R29, R37) -/

theorem toNat_append_add {m n : Nat} (x : BitVec m) (y : BitVec n) : (x ++ y).toNat = x.toNat * 2 ^ n + y.toNat := by
  rw [BitVec.toNat_append, ← Nat.shiftLeft_add_eq_or_of_lt y.isLt, Nat.shiftLeft_eq]

theorem flagBit_toNat (b : Bool) : (flagBit b).toNat = b.toNat := by cases b <;> rfl

theorem codecBit_toNat (c : Codec) : (codecBit c).toNat = if c = .b then 1 else 0 := by cases c <;> rfl

theorem statusWord_toNat (s : State) :
    (statusWord s).toNat = s.code.toNat + 256 * s.busy.toNat + 512 * s.fault.toNat := by
  simp only [statusWord, toNat_append_add, flagBit_toNat, BitVec.toNat_ofNat]
  omega

theorem faultInfoWord_toNat (s : State) : (faultInfoWord s).toNat = s.cause.toNat + 256 * s.faultOpc.toNat := by
  simp only [faultInfoWord, toNat_append_add, BitVec.toNat_ofNat]
  omega

theorem brBitsleftWord_toNat {r : BitReader} (h : r.bitsleft < 64) : (brBitsleftWord r).toNat = r.bitsleft := by
  simp only [brBitsleftWord, toNat_append_add, BitVec.toNat_ofNat]
  omega

theorem brFlagsWord_toNat (r : BitReader) : (brFlagsWord r).toNat = r.valid.toNat + 2 * r.padused.toNat := by
  simp only [brFlagsWord, toNat_append_add, flagBit_toNat, BitVec.toNat_ofNat]
  omega

theorem ctxFlagsWord_toNat {c : Context} (h : c.order < 32) :
    (ctxFlagsWord c).toNat =
      c.opened.toNat + 2 * c.cacheValid.toNat + 4 * (if c.codec = .b then 1 else 0) + 8 * c.order := by
  simp only [ctxFlagsWord, toNat_append_add, flagBit_toNat, codecBit_toNat, BitVec.toNat_ofNat]
  omega

theorem setWidth_eq_ofNat (v : Word32) : v.setWidth 64 = BitVec.ofNat 64 v.toNat := by
  apply BitVec.eq_of_toNat_eq
  simp

theorem lowHalf_toNat (v : Word64) : (lowHalf v).toNat = v.toNat % 2 ^ 32 := by simp [lowHalf]

theorem highHalf_toNat (v : Word64) : (highHalf v).toNat = v.toNat / 2 ^ 32 := by
  have := v.isLt
  simp only [highHalf, BitVec.extractLsb'_toNat, Nat.shiftRight_eq_div_pow]
  omega

/-! ### Reads -/

theorem read32_of_narrow {s : State} {off : Nat} {w : Word32} (h : narrowAt s off = some w) :
    read32 off s = .next (s.hostReads (BitVec.ofNat 64 w.toNat)) := by
  simp only [read32, h, setWidth_eq_ofNat]

theorem read32_of_half {s : State} {off : Nat} {w : Word32} (hn : narrowAt s off = none) (h : halfAt s off = some w) :
    read32 off s = .next (s.hostReads (BitVec.ofNat 64 w.toNat)) := by
  simp only [read32, hn, h, setWidth_eq_ofNat]

theorem read32_of_argLow {s : State} {off : Nat} {i : Fin 6} (hn : narrowAt s off = none) (hh : halfAt s off = none)
    (ha : argAt off = some i) :
    read32 off s = .next (s.hostReads (BitVec.ofNat 64 ((argShown s i).toNat % 2 ^ 32))) := by
  simp only [read32, hn, hh, ha, setWidth_eq_ofNat, lowHalf_toNat]

theorem read32_of_argHigh {s : State} {off : Nat} {i : Fin 6} (hn : narrowAt s off = none) (hh : halfAt s off = none)
    (hl : argAt off = none) (ha : argAt (off - 4) = some i) :
    read32 off s = .next (s.hostReads (BitVec.ofNat 64 ((argShown s i).toNat / 2 ^ 32))) := by
  simp only [read32, hn, hh, hl, ha, setWidth_eq_ofNat, highHalf_toNat]

theorem read64_of_arg {s : State} {off : Nat} {i : Fin 6} (ha : argAt off = some i) :
    read64 off s = .next (s.hostReads (argShown s i)) := by
  simp only [read64, ha]

theorem read64_of_wide {s : State} {off : Nat} {v : Word64} (ha : argAt off = none) (h : wideAt s off = some v) :
    read64 off s = .next (s.hostReads v) := by
  simp only [read64, ha, h]

/-- The low half stands at the register's offset. -/
theorem halfAt_of_wide {s : State} {off : Nat} {v : Word64} (h : wideAt s off = some v) :
    halfAt s off = some (lowHalf v) := by
  simp only [halfAt, h]

/-- The high half stands 4 above. -/
theorem halfAt_of_wide_high {s : State} {off : Nat} {v : Word64} (hn : wideAt s (off + 4) = none)
    (h : wideAt s off = some v) : halfAt s (off + 4) = some (highHalf v) := by
  simp [halfAt, hn, h]

/-! ### Offsets -/

/-- Above the last register no register starts. -/
theorem no_register_above {off : Nat} (h : 0x090 < off) (s : State) :
    narrowAt s off = none ∧ wideAt s off = none ∧ argAt off = none := by
  refine ⟨?_, ?_, ?_⟩
  · unfold narrowAt
    split <;> simp_all
  · unfold wideAt
    split <;> simp_all
  · unfold argAt
    split <;> simp_all

theorem reservedOffset_above {off : Nat} (h : 0x098 ≤ off) (h' : off ≤ 0x0FF) : reservedOffset off = true := by
  simp only [reservedOffset, Bool.or_eq_true, Bool.and_eq_true, decide_eq_true_eq]
  omega

theorem read32_reserved {off : Nat} (h : 0x098 ≤ off) (h' : off ≤ 0x0FF) (s : State) :
    read32 off s = .next (s.hostReads 0#64) := by
  obtain ⟨hn, hw, ha⟩ := no_register_above (off := off) (by omega) s
  obtain ⟨-, hw', ha'⟩ := no_register_above (off := off - 4) (by omega) s
  have hh : halfAt s off = none := by simp [halfAt, hw, hw']
  simp only [read32, hn, hh, ha, ha', reservedOffset_above h h', if_true]

/-- The 32-bit status registers, with the numbers they show. -/
theorem narrowAt_of_mem {s : State} {off v : Nat} (hb : s.br0.bitsleft < 64) (ho : s.ctx.order < 32)
    (h : (off, v) ∈
      [(0x000, 0), (0x004, s.code.toNat + 256 * s.busy.toNat + 512 * s.fault.toNat),
        (0x008, s.cause.toNat + 256 * s.faultOpc.toNat), (0x060, s.br0.bitbuf.toNat), (0x064, s.br0.bitsleft),
        (0x068, s.br0.valid.toNat + 2 * s.br0.padused.toNat),
        (0x070, s.ctx.opened.toNat + 2 * s.ctx.cacheValid.toNat + 4 * (if s.ctx.codec = .b then 1 else 0) +
          8 * s.ctx.order)]) :
    ∃ w, narrowAt s off = some w ∧ w.toNat = v := by
  simp only [List.mem_cons, Prod.mk.injEq, List.not_mem_nil, or_false] at h
  rcases h with ⟨rfl, rfl⟩ | ⟨rfl, rfl⟩ | ⟨rfl, rfl⟩ | ⟨rfl, rfl⟩ | ⟨rfl, rfl⟩ | ⟨rfl, rfl⟩ | ⟨rfl, rfl⟩
  · exact ⟨_, rfl, rfl⟩
  · exact ⟨_, rfl, statusWord_toNat s⟩
  · exact ⟨_, rfl, faultInfoWord_toNat s⟩
  · exact ⟨_, rfl, rfl⟩
  · exact ⟨_, rfl, brBitsleftWord_toNat hb⟩
  · exact ⟨_, rfl, brFlagsWord_toNat s.br0⟩
  · exact ⟨_, rfl, ctxFlagsWord_toNat ho⟩

/-- The 64-bit read-only registers. -/
theorem wideAt_of_mem {s : State} {off : Nat} {v : Word64}
    (h : (off, v) ∈
      [(0x040, s.res0), (0x048, BitVec.ofNat 64 s.br0.start), (0x050, BitVec.ofNat 64 s.br0.stop),
        (0x058, BitVec.ofNat 64 s.br0.next), (0x078, BitVec.ofNat 64 s.ctx.lsize),
        (0x080, BitVec.ofNat 64 s.ctx.nchunks), (0x088, BitVec.ofNat 64 s.ctx.cacheChunk),
        (0x090, BitVec.ofNat 64 s.ctx.ssize)]) :
    wideAt s off = some v ∧ wideAt s (off + 4) = none ∧ narrowAt s off = none ∧ narrowAt s (off + 4) = none ∧
      argAt off = none := by
  simp only [List.mem_cons, Prod.mk.injEq, List.not_mem_nil, or_false] at h
  rcases h with ⟨rfl, rfl⟩ | ⟨rfl, rfl⟩ | ⟨rfl, rfl⟩ | ⟨rfl, rfl⟩ | ⟨rfl, rfl⟩ | ⟨rfl, rfl⟩ | ⟨rfl, rfl⟩ | ⟨rfl, rfl⟩ <;>
    exact ⟨rfl, rfl, rfl, rfl, rfl⟩

/-! ### Writes that are ignored -/

theorem write32_ignored {s : State} {off : Nat} (h0 : off ≠ 0x000) (ha : argAt off = none) (ha' : argAt (off - 4) = none)
    (hi : ignoresWrites s off = true) (v : Word32) : write32 off v s = .next s := by
  simp only [write32, if_neg h0, ha, ha', hi, if_true]

theorem write64_ignored {s : State} {off : Nat} (ha : argAt off = none) (hi : ignoresWrites s off = true) (v : Word64) :
    write64 off v s = .next s := by
  simp only [write64, ha, hi, if_true]

/-- The read-only registers and their halves ignore writes. -/
theorem ignoresWrites_of_mem {off : Nat}
    (h : off ∈ [0x004, 0x008, 0x00C, 0x040, 0x044, 0x048, 0x04C, 0x050, 0x054, 0x058, 0x05C, 0x060, 0x064,
      0x068, 0x070, 0x078, 0x07C, 0x080, 0x084, 0x088, 0x08C, 0x090, 0x094]) (s : State) :
    off ≠ 0x000 ∧ argAt off = none ∧ argAt (off - 4) = none ∧ ignoresWrites s off = true := by
  simp only [List.mem_cons, List.not_mem_nil, or_false] at h
  rcases h with rfl | rfl | rfl | rfl | rfl | rfl | rfl | rfl | rfl | rfl | rfl | rfl | rfl | rfl | rfl | rfl | rfl |
    rfl | rfl | rfl | rfl | rfl | rfl <;> exact ⟨by decide, rfl, rfl, rfl⟩

theorem ignoresWrites_above {off : Nat} (h : 0x098 ≤ off) (h' : off ≤ 0x0FF) (s : State) :
    off ≠ 0x000 ∧ argAt off = none ∧ argAt (off - 4) = none ∧ ignoresWrites s off = true := by
  refine ⟨by omega, (no_register_above (by omega) s).2.2, (no_register_above (by omega) s).2.2, ?_⟩
  simp [ignoresWrites, reservedOffset_above h h']

/-- Settles O59: what stands at each offset, then the law of the access made there. -/
theorem readOnlyRegistersReadAndIgnoreWrites : Obligations.ReadOnlyRegistersReadAndIgnoreWrites := by
  refine ⟨fun s rest => ⟨fun h => step_action h, fun v h => ⟨_, step_action h, rfl⟩⟩, ?_, ?_, ?_⟩
  · intro s off v rest hb ho h hm
    obtain ⟨w, hw, rfl⟩ := narrowAt_of_mem hb ho hm
    rw [step_action h]
    exact read32_of_narrow (s := s.nextActions rest) hw
  · intro s off v rest hm
    obtain ⟨hw, hw', hn, hn', ha⟩ := wideAt_of_mem hm
    refine ⟨fun h => ?_, fun h => ?_, fun h => ?_⟩ <;> rw [step_action h]
    · exact read64_of_wide (s := s.nextActions rest) ha hw
    · rw [← lowHalf_toNat]
      exact read32_of_half (s := s.nextActions rest) hn (halfAt_of_wide hw)
    · rw [← highHalf_toNat]
      exact read32_of_half (s := s.nextActions rest) hn' (halfAt_of_wide_high hw' hw)
  · intro s off rest
    refine ⟨fun v hoff h => ?_, fun v hoff h => ?_, fun h1 h2 h => ?_⟩ <;> rw [step_action h]
    · obtain ⟨h0, ha, ha', hi⟩ := hoff.elim (ignoresWrites_of_mem · (s.nextActions rest))
        fun hr => ignoresWrites_above hr.1 hr.2 _
      exact write32_ignored h0 ha ha' hi v
    · obtain ⟨-, ha, -, hi⟩ := hoff.elim
        (fun hm => ignoresWrites_of_mem ((by decide : (_ : List Nat) ⊆ _) hm) (s.nextActions rest))
        fun hr => ignoresWrites_above hr.1 hr.2 _
      exact write64_ignored ha hi v
    · exact read32_reserved h1 h2 (s.nextActions rest)

/-! ### ARG registers and LMEM -/

theorem argAt_low (k : Fin 6) : argAt (0x010 + 8 * k.val) = some k := by
  fin_cases k <;> rfl

theorem argAt_high (k : Fin 6) : argAt (0x010 + 8 * k.val + 4) = none := by
  fin_cases k <;> rfl

/-- At an ARG register stands no read-only register, whole or half. -/
theorem no_status_at_arg (k : Fin 6) (s : State) :
    narrowAt s (0x010 + 8 * k.val) = none ∧ halfAt s (0x010 + 8 * k.val) = none ∧
      narrowAt s (0x010 + 8 * k.val + 4) = none ∧ halfAt s (0x010 + 8 * k.val + 4) = none := by
  fin_cases k <;> exact ⟨rfl, rfl, rfl, rfl⟩

/-- A host read made again returns the same: what it shows does not depend on what was read before. -/
theorem read_again {e : HostEvent}
    (he : (∃ off, e = .read32 off) ∨ (∃ off, e = .read64 off) ∨ ∃ a, e = .lmemRead a) {s t : State}
    (h : hostAction e s = .next t) : ∃ v, t = s.hostReads v ∧ hostAction e (s.hostReads v) = .next (s.hostReads v) := by
  rcases he with ⟨off, rfl⟩ | ⟨off, rfl⟩ | ⟨a, rfl⟩
  · obtain ⟨v, rfl⟩ := read32_reads h
    exact ⟨v, rfl, h⟩
  · obtain ⟨v, rfl⟩ := read64_reads h
    exact ⟨v, rfl, h⟩
  · obtain ⟨v, rfl⟩ := lmemRead_reads h
    exact ⟨v, rfl, h⟩

/-- A host store inside LMEM writes its bytes. -/
theorem lmemWrite_of_le {s : State} {a : Nat} {bs : List Byte} (hb : s.busy = false)
    (h : a + bs.length ≤ 2 ^ s.world.params.addrBits) :
    lmemWrite a bs s = .next (s.setLmem (writeCells s.lmem a bs)) := by
  rcases memWriteBytes_cases (lmemSpace s) a bs with ⟨-, e⟩ | ⟨-, h', -⟩
  · simp only [lmemWrite, hb, e]
    rfl
  · exact absurd h' (Nat.not_lt.mpr h)

theorem lmemRead_of_some {s : State} {a : Nat} {b : Byte} (h : a < 2 ^ s.world.params.addrBits)
    (hr : readByte s.lmem a = some b) : lmemRead a s = .next (s.hostReads (b.setWidth 64)) := by
  simp only [lmemRead, h, if_true, hr]

/-- Settles O60: the law of each access, and that a read shows the same when made again. -/
theorem hostAccessesArgRegistersAndLmem : Obligations.HostAccessesArgRegistersAndLmem := by
  refine ⟨fun s k v rest hb h => ?_, fun s k v rest hv => ?_,
    fun s a rest => ⟨fun bs hb hle h => ?_, fun b ha hr h => ?_⟩, fun s t e rest he h ht => ?_⟩
  · rw [step_action h]
    simp [hostAction, write64, argAt_low, writeArg, hb, State.setArg, State.nextActions]
  · obtain ⟨hn, hh, hn', hh'⟩ := no_status_at_arg k (s.nextActions rest)
    have hs : argShown (s.nextActions rest) k = v := argShown_of_some hv
    refine ⟨fun h => ?_, fun h => ?_, fun h => ?_⟩ <;> rw [step_action h, ← hs]
    · exact read64_of_arg (argAt_low k)
    · exact read32_of_argLow hn hh (argAt_low k)
    · exact read32_of_argHigh hn' hh' (argAt_high k) (argAt_low k)
  · rw [step_action h]
    exact ⟨_, lmemWrite_of_le (s := s.nextActions rest) hb hle, fun i hi => readByte_writeCells_inside hi _ _,
      fun b hout => readByte_writeCells_outside hout _⟩
  · rw [step_action h]
    exact lmemRead_of_some (s := s.nextActions rest) ha hr
  · rw [step_action h] at ht
    obtain ⟨v, rfl, hagain⟩ := read_again he ht
    exact ⟨rfl, hagain⟩

end Sys2Proof.Machine

/-! ## A chunk that expands to its end is wholly written -/

namespace Sys2Proof.Machine

/-! ### Bytes that hold values -/

theorem ChangedWithin.written {lo hi : Nat} {sp sp' : Space} (h : ChangedWithin lo hi sp sp') {a n : Nat}
    (hw : Written sp.cells a n) : Written sp'.cells a n := fun i hi => h.kept _ (hw i hi)

/-- Two ranges one after the other. -/
theorem Written.append {m : Memory} {a n k : Nat} (h : Written m a n) (h' : Written m (a + n) k) :
    Written m a (n + k) := by
  intro i hi
  by_cases hin : i < n
  · exact h i hin
  · have := h' (i - n) (by omega)
    rwa [show a + n + (i - n) = a + i by omega] at this

theorem loadBytes_length {a n : Nat} {bs : List Byte} {sp sp' : Space} (h : loadBytes a n sp = .ok bs sp') :
    bs.length = n := by
  unfold loadBytes at h
  cases hm : memReadBytes sp a n <;> rw [hm] at h <;> cases h
  exact memReadBytes_length hm

theorem storeBytes_ok {a : Nat} {bs : List Byte} {sp sp' : Space} (h : storeBytes a bs sp = .ok () sp') :
    ChangedWithin a (a + bs.length) sp sp' ∧ Written sp'.cells a bs.length := by
  refine ⟨(storeBytes_within le_rfl le_rfl).ok h, ?_⟩
  rcases storeBytes_cases a bs sp with ⟨-, e⟩ | ⟨-, -, e⟩ <;> rw [e] at h <;> cases h
  intro i hi
  rw [readByte_writeCells_inside hi]
  rfl

theorem copyLoop_ok {distance count cursor : Nat} {sp sp' : Space} (h : copyLoop distance count cursor sp = .ok () sp') :
    ChangedWithin cursor (cursor + count) sp sp' ∧ Written sp'.cells cursor count := by
  refine ⟨(copyLoop_within distance count cursor le_rfl le_rfl).ok h, ?_⟩
  induction count generalizing cursor sp with
  | zero => exact fun i hi => absurd hi (Nat.not_lt_zero i)
  | succ count ih =>
    unfold copyLoop at h
    obtain ⟨bs, t, hl, h⟩ := bind_ok_inv h
    obtain ⟨_, u, hs, h⟩ := bind_ok_inv h
    have hfirst := (storeBytes_ok hs).2
    rw [loadBytes_length hl] at hfirst
    rw [Nat.add_comm]
    exact Written.append (((copyLoop_within distance count _ le_rfl le_rfl).ok h).written hfirst) (ih h)

theorem copyMatch_written {outBegin cursor length distance bufend c : Nat} {sp sp' : Space}
    (h : copyMatch outBegin cursor length distance bufend sp = .ok c sp') :
    ChangedWithin cursor (cursor + length) sp sp' ∧ Written sp'.cells cursor length :=
  copyLoop_ok (copyMatch_ok h).2.2

/-! ### Sessions -/

theorem zoom_ok_inv {σ τ α : Type} {part : σ → τ} {put : τ → σ → σ} {f : Run τ α} {s t : σ} {a : α}
    (h : zoom part put f s = .ok a t) : ∃ u, f (part s) = .ok a u ∧ t = put u s := by
  rcases zoom_cases part put f s with ⟨b, u, hf, e⟩ | ⟨x, u, -, e⟩ <;> rw [e] at h <;> cases h
  exact ⟨u, hf, rfl⟩

theorem ite_ok_inv {σ α : Type} {c : Prop} [Decidable c] {x y : Run σ α} {s t : σ} {a : α}
    (h : (if c then x else y) s = .ok a t) : (c ∧ x s = .ok a t) ∨ (¬ c ∧ y s = .ok a t) := by
  split at h
  · exact .inl ⟨‹_›, h⟩
  · exact .inr ⟨‹_›, h⟩

/-- A sequence that first looks at the state goes on with the state it saw. -/
theorem get_bind_ok_inv {σ α : Type} {f : σ → Run σ α} {s t : σ} {a : α}
    (h : ((get : Run σ σ) >>= f) s = .ok a t) : f s s = .ok a t := h

/-- The output holds values up to the output position. -/
def Filled (job : Job) (s : Sess) : Prop := Written s.out.cells job.outBase s.pos

/-- The session moves on by `k` bytes, all of them written, if all before were. -/
def Fills (job : Job) (k : Nat) (s t : Sess) : Prop := t.pos = s.pos + k ∧ (Filled job s → Filled job t)

theorem Fills.trans {job : Job} {j k : Nat} {s t u : Sess} (h : Fills job j s t) (h' : Fills job k t u) :
    Fills job (j + k) s u :=
  ⟨by rw [h'.1, h.1, Nat.add_assoc], h'.2 ∘ h.2⟩

/-- Work on the reader fills nothing. -/
theorem onReader_fills {job : Job} {α : Type} {f : Run BitReader α} {s t : Sess} {a : α} (h : onReader f s = .ok a t) :
    Fills job 0 s t := by
  obtain ⟨r, -, rfl⟩ := onReader_ok h
  exact ⟨rfl, id⟩

/-- Bytes written at the output position, and the position moved past them. -/
theorem Fills.of_written {job : Job} {k : Nat} {s : Sess} {out : Space}
    (h : ChangedWithin (job.outBase + s.pos) (job.outBase + s.pos + k) s.out out)
    (hw : Written out.cells (job.outBase + s.pos) k) : Fills job k s { s with out := out, pos := s.pos + k } :=
  ⟨rfl, fun hf => (h.written hf).append hw⟩

theorem emitLiteral_fills {job : Job} {sym : Nat} {s t : Sess} (h : emitLiteral job sym s = .ok () t) :
    Fills job 1 s t := by
  unfold emitLiteral at h
  replace h := get_bind_ok_inv h
  obtain ⟨_, u, hu, h⟩ := bind_ok_inv h
  obtain ⟨sp, hs, rfl⟩ := zoom_ok_inv hu
  cases h
  obtain ⟨hc, hw⟩ := storeBytes_ok hs
  exact .of_written hc hw

/-- A match that ends well has a length of 1 or more and ends at or below `stop`. -/
theorem emitMatch_fills {job : Job} {length dist stop : Nat} {s t : Sess}
    (h : emitMatch job length dist stop s = .ok () t) : Fills job length s t ∧ 1 ≤ length ∧ t.pos ≤ stop := by
  unfold emitMatch at h
  replace h := get_bind_ok_inv h
  obtain ⟨c, u, hu, h⟩ := bind_ok_inv h
  obtain ⟨sp, hs, rfl⟩ := zoom_ok_inv hu
  cases h
  obtain ⟨hc, hw⟩ := copyMatch_written hs
  obtain ⟨rfl, hallowed, -⟩ := copyMatch_ok hs
  simp only [copyAllowed, Bool.and_eq_true, decide_eq_true_eq] at hallowed
  have hpos : job.outBase + s.pos + length - job.outBase = s.pos + length := by omega
  rw [hpos]
  exact ⟨.of_written hc hw, by omega, by simp only; omega⟩

/-- A part that leaves the session as it is, when it ends well. -/
theorem exhaustionCheck_ok {job : Job} {s t : Sess} (h : exhaustionCheck job s = .ok () t) : t = s := by
  unfold exhaustionCheck at h
  replace h := get_bind_ok_inv h
  rcases ite_ok_inv h with ⟨-, h⟩ | ⟨-, h⟩ <;> cases h
  rfl

/-! ### Codec A -/

/-- An item fills at least one byte and stays inside the chunk. -/
theorem caItem_fills {job : Job} {table : List Entry} {s t : Sess} (hlt : s.pos < job.outSize)
    (h : caItem job table s = .ok () t) : (∃ k, 1 ≤ k ∧ Fills job k s t) ∧ t.pos ≤ job.outSize := by
  unfold caItem at h
  obtain ⟨sym, u, hd, h⟩ := bind_ok_inv h
  have hu := onReader_fills (job := job) hd
  rcases ite_ok_inv h with ⟨-, h⟩ | ⟨-, h⟩
  · have hf := hu.trans (emitLiteral_fills h)
    exact ⟨⟨_, by omega, hf⟩, by have := hf.1; omega⟩
  · obtain ⟨⟨length, dist⟩, v, hm, h⟩ := bind_ok_inv h
    have hv := hu.trans (onReader_fills (job := job) hm)
    replace h := get_bind_ok_inv h
    rcases ite_ok_inv h with ⟨-, h⟩ | ⟨-, h⟩
    · cases h
    · rcases ite_ok_inv h with ⟨-, h⟩ | ⟨-, h⟩
      · cases h
      · obtain ⟨hf, hlen, hstop⟩ := emitMatch_fills h
        exact ⟨⟨_, by omega, hv.trans hf⟩, hstop⟩

/-- The loop reaches the end of the chunk: every pass fills at least one byte, and there is a pass for each. -/
theorem caLoop_fills {job : Job} {table : List Entry} {fuel : Nat} {s t : Sess} (hle : s.pos ≤ job.outSize)
    (hfuel : job.outSize ≤ s.pos + fuel) (h : caLoop job table fuel s = .ok () t) :
    t.pos = job.outSize ∧ (Filled job s → Filled job t) := by
  induction fuel generalizing s with
  | zero =>
    cases h
    exact ⟨by omega, id⟩
  | succ fuel ih =>
    unfold caLoop at h
    replace h := get_bind_ok_inv h
    rcases ite_ok_inv h with ⟨hend, h⟩ | ⟨hne, h⟩
    · cases h
      exact ⟨hend, id⟩
    · obtain ⟨_, u, hi, h⟩ := bind_ok_inv h
      obtain ⟨⟨k, hk, hpos, hfill⟩, hu⟩ := caItem_fills (by omega) hi
      obtain ⟨hend, hrest⟩ := ih hu (by omega) h
      exact ⟨hend, hrest ∘ hfill⟩

/-- CaDecode that ends well has written its whole output. -/
theorem caDecode_written {job : Job} {out out' : Space} (h : caDecode job out = .ok () out') :
    Written out'.cells job.outBase job.outSize := by
  unfold caDecode at h
  rcases ite_ok_inv h with ⟨-, h⟩ | ⟨-, h⟩
  · cases h
  · unfold runSession at h
    split at h <;> cases h
    rename_i s hs
    obtain ⟨header, s1, h1, hs⟩ := bind_ok_inv hs
    obtain ⟨table, s2, h2, hs⟩ := bind_ok_inv hs
    obtain ⟨_, s3, h3, hs⟩ := bind_ok_inv hs
    cases exhaustionCheck_ok hs
    have e1 : _ = s1 := (always_orFault (P := Eq) (fun _ => rfl) _).ok h1
    have e2 : s1 = s2 := (buildOrFail_keeps _ _ _ _).ok h2
    subst e1 e2
    obtain ⟨hend, hfill⟩ := caLoop_fills (Nat.zero_le _) (by simp) h3
    have := hfill fun i hi => absurd hi (Nat.not_lt_zero i)
    rwa [Filled, hend] at this

/-! ### Codec B -/

/-- What `Fills` says of the shared part of a codec B session. -/
def CbFills (job : Job) (k : Nat) (s t : CbSess) : Prop := Fills job k s.base t.base

theorem onCbReader_fills {job : Job} {α : Type} {f : Run BitReader α} {s t : CbSess} {a : α}
    (h : onCbReader f s = .ok a t) : CbFills job 0 s t := by
  obtain ⟨r, -, rfl⟩ := onCbReader_ok h
  exact ⟨rfl, id⟩

theorem onBase_fills {job : Job} {α : Type} {f : Run Sess α} {k : Nat} {s t : CbSess} {a : α}
    (hf : ∀ b, f s.base = .ok a b → Fills job k s.base b) (h : onBase f s = .ok a t) : CbFills job k s t := by
  obtain ⟨b, hb, rfl⟩ := zoom_ok_inv h
  exact hf b hb

theorem offset_fills {job : Job} {aligned : List Entry} {btype slot dist : Nat} {s t : CbSess}
    (h : offset job aligned btype slot s = .ok dist t) : CbFills job 0 s t := by
  unfold offset at h
  rcases ite_ok_inv h with ⟨-, h⟩ | ⟨-, h⟩
  · cases h
    exact ⟨rfl, id⟩
  · obtain ⟨d, u, hd, h⟩ := bind_ok_inv h
    have hu : CbFills job 0 s u := onCbReader_fills hd
    cases h
    exact hu

/-- An item fills at least one byte and stays inside its block. -/
theorem cbItem_fills {job : Job} {tables : CbTables} {btype bend : Nat} {s t : CbSess} (hlt : s.base.pos < bend)
    (h : cbItem job tables btype bend s = .ok () t) :
    (∃ k, 1 ≤ k ∧ CbFills job k s t) ∧ t.base.pos ≤ bend := by
  unfold cbItem at h
  obtain ⟨sym, u, hd, h⟩ := bind_ok_inv h
  have hu : CbFills job 0 s u := onCbReader_fills hd
  rcases ite_ok_inv h with ⟨-, h⟩ | ⟨-, h⟩
  · have hf : CbFills job (0 + 1) s t := hu.trans (onBase_fills (fun _ => emitLiteral_fills) h)
    exact ⟨⟨_, by omega, hf⟩, by have := hf.1; omega⟩
  · obtain ⟨length, v, hl, h⟩ := bind_ok_inv h
    obtain ⟨dist, w, ho, h⟩ := bind_ok_inv h
    have hw : CbFills job (0 + 0 + 0) s w := (hu.trans (onCbReader_fills hl)).trans (offset_fills ho)
    replace h := get_bind_ok_inv h
    rcases ite_ok_inv h with ⟨-, h⟩ | ⟨-, h⟩
    · cases h
    · rcases ite_ok_inv h with ⟨-, h⟩ | ⟨-, h⟩
      · cases h
      · obtain ⟨b, hb, rfl⟩ := zoom_ok_inv h
        obtain ⟨hf, hlen, hstop⟩ := emitMatch_fills hb
        exact ⟨⟨_, by omega, hw.trans hf⟩, hstop⟩

/-- The items of a block reach its end: every one fills at least one byte, and there is a pass for each. -/
theorem cbItems_fills {job : Job} {tables : CbTables} {btype bend fuel : Nat} {s t : CbSess} (hle : s.base.pos ≤ bend)
    (hfuel : bend ≤ s.base.pos + fuel) (h : cbItems job tables btype bend fuel s = .ok () t) :
    t.base.pos = bend ∧ (Filled job s.base → Filled job t.base) := by
  induction fuel generalizing s with
  | zero =>
    cases h
    exact ⟨by omega, id⟩
  | succ fuel ih =>
    unfold cbItems at h
    replace h := get_bind_ok_inv h
    rcases ite_ok_inv h with ⟨hend, h⟩ | ⟨hne, h⟩
    · cases h
      exact ⟨hend, id⟩
    · obtain ⟨_, u, hi, h⟩ := bind_ok_inv h
      obtain ⟨⟨k, hk, hpos, hfill⟩, hu⟩ := cbItem_fills (by omega) hi
      obtain ⟨hend, hrest⟩ := ih hu (by omega) h
      exact ⟨hend, hrest ∘ hfill⟩

/-- An uncompressed block fills its size. -/
theorem uncompressed_fills {job : Job} {bsize : Nat} {s t : CbSess} (h : uncompressed job bsize s = .ok () t) :
    CbFills job bsize s t := by
  unfold uncompressed at h
  obtain ⟨q, u, hq, h⟩ := bind_ok_inv h
  have hu : CbFills job 0 s u := onCbReader_fills hq
  obtain ⟨_, u', hm, h⟩ := bind_ok_inv h
  cases hm
  rcases ite_ok_inv h with ⟨-, h⟩ | ⟨-, h⟩
  · cases h
  · obtain ⟨bs, v, hb, h⟩ := bind_ok_inv h
    have hv : CbFills job 0 u v := onCbReader_fills (s := { u with recent := q }) hb
    obtain ⟨r, hr, -⟩ := onCbReader_ok hb
    replace h := get_bind_ok_inv h
    obtain ⟨_, w, hs, h⟩ := bind_ok_inv h
    obtain ⟨b, hout, rfl⟩ := zoom_ok_inv hs
    obtain ⟨sp, hstore, rfl⟩ := zoom_ok_inv hout
    obtain ⟨_, x, hp, h⟩ := bind_ok_inv h
    cases hp
    obtain ⟨hc, hw⟩ := storeBytes_ok hstore
    rw [readBytes_length hr] at hc hw
    have hx : Fills job (0 + bsize) s.base { reader := v.base.reader, out := sp, pos := v.base.pos + bsize } :=
      (hu.trans hv).trans (.of_written hc hw)
    rw [Nat.zero_add] at hx
    rcases ite_ok_inv h with ⟨-, h⟩ | ⟨-, h⟩
    · obtain ⟨_, y, hl, h⟩ := bind_ok_inv h
      cases h
      exact Fills.trans hx (onCbReader_fills (job := job) hl)
    · cases h
      exact hx

theorem blockAligned_fills {job : Job} {btype : Nat} {s t : CbSess} {table : List Entry}
    (h : blockAligned job btype s = .ok table t) : CbFills job 0 s t := by
  unfold blockAligned at h
  rcases ite_ok_inv h with ⟨-, h⟩ | ⟨-, h⟩
  · exact onCbReader_fills h
  · cases h
    exact ⟨rfl, id⟩

/-- Reading the code lengths fills nothing. -/
theorem codeLengths_fills {job : Job} {w btype : Nat} {s t : CbSess} {tables : CbTables}
    (h : codeLengths job w btype s = .ok tables t) : CbFills job 0 s t := by
  unfold codeLengths at h
  obtain ⟨aligned, s1, h1, h⟩ := bind_ok_inv h
  have f1 : CbFills job 0 s s1 := blockAligned_fills h1
  replace h := get_bind_ok_inv h
  obtain ⟨main1, s2, h2, h⟩ := bind_ok_inv h
  have f2 : CbFills job 0 s1 s2 := onCbReader_fills h2
  obtain ⟨main2, s3, h3, h⟩ := bind_ok_inv h
  have f3 : CbFills job 0 s2 s3 := onCbReader_fills h3
  obtain ⟨len, s4, h4, h⟩ := bind_ok_inv h
  have f4 : CbFills job 0 s3 s4 := onCbReader_fills h4
  obtain ⟨_, s5, h5, h⟩ := bind_ok_inv h
  cases h5
  obtain ⟨mainTable, s6, h6, h⟩ := bind_ok_inv h
  obtain ⟨lenTable, s7, h7, h⟩ := bind_ok_inv h
  cases h
  have e6 := (buildOrFail_keeps _ _ _ _).ok h6
  have e7 := (buildOrFail_keeps _ _ _ _).ok h7
  rw [← e7, ← e6]
  exact ((f1.trans f2).trans f3).trans f4

/-- A block that ends well fills at least one byte and stays inside the chunk. -/
theorem cbBlock_fills {job : Job} {w : Nat} {s t : CbSess} (h : cbBlock job w s = .ok () t) :
    (∃ k, 1 ≤ k ∧ CbFills job k s t) ∧ t.base.pos ≤ job.outSize := by
  unfold cbBlock at h
  obtain ⟨⟨btype, bsize⟩, u, hd, h⟩ := bind_ok_inv h
  have hu : CbFills job 0 s u := onCbReader_fills hd
  replace h := get_bind_ok_inv h
  rcases ite_ok_inv h with ⟨hl, h⟩ | ⟨-, h⟩
  · simp only [headerLegal, Bool.and_eq_true, decide_eq_true_eq] at hl
    obtain ⟨⟨-, hsize⟩, hroom⟩ := hl
    rcases ite_ok_inv h with ⟨-, h⟩ | ⟨-, h⟩
    · have hf : CbFills job (0 + bsize) s t := hu.trans (uncompressed_fills h)
      exact ⟨⟨_, by omega, hf⟩, by have := hf.1; have := hu.1; omega⟩
    · obtain ⟨tables, v, hc, h⟩ := bind_ok_inv h
      have hv : CbFills job 0 u v := codeLengths_fills hc
      have hpos := hv.1
      obtain ⟨hend, hfill⟩ := cbItems_fills (by omega) (by omega) h
      have hf : CbFills job (0 + 0 + bsize) s t := (hu.trans hv).trans ⟨by omega, hfill⟩
      exact ⟨⟨_, by omega, hf⟩, by omega⟩
  · cases h

/-- The blocks reach the end of the chunk. -/
theorem cbBlocks_fills {job : Job} {w fuel : Nat} {s t : CbSess} (hle : s.base.pos ≤ job.outSize)
    (hfuel : job.outSize ≤ s.base.pos + fuel) (h : cbBlocks job w fuel s = .ok () t) :
    t.base.pos = job.outSize ∧ (Filled job s.base → Filled job t.base) := by
  induction fuel generalizing s with
  | zero =>
    cases h
    exact ⟨by omega, id⟩
  | succ fuel ih =>
    unfold cbBlocks at h
    replace h := get_bind_ok_inv h
    rcases ite_ok_inv h with ⟨hend, h⟩ | ⟨-, h⟩
    · cases h
      exact ⟨hend, id⟩
    · obtain ⟨_, u, hi, h⟩ := bind_ok_inv h
      obtain ⟨⟨k, hk, hpos, hfill⟩, hu⟩ := cbBlock_fills hi
      obtain ⟨hend, hrest⟩ := ih hu (by omega) h
      exact ⟨hend, hrest ∘ hfill⟩

/-- CbDecode that ends well has written its whole output. -/
theorem cbDecode_written {job : Job} {w : Nat} {out out' : Space} (h : cbDecode job w out = .ok () out') :
    Written out'.cells job.outBase job.outSize := by
  rcases cbDecode_session job w out with ⟨s, hs, hd⟩ | ⟨e, s, -, hd⟩ <;> rw [hd] at h <;> cases h
  unfold cbSession at hs
  obtain ⟨_, u, hb, hs⟩ := bind_ok_inv hs
  obtain ⟨_, v, he, hs⟩ := bind_ok_inv hs
  obtain ⟨b, hcheck, rfl⟩ := zoom_ok_inv he
  cases exhaustionCheck_ok hcheck
  obtain ⟨c, hout, rfl⟩ := zoom_ok_inv hs
  obtain ⟨sp, hundo, rfl⟩ := zoom_ok_inv hout
  obtain ⟨hend, hfill⟩ := cbBlocks_fills (Nat.zero_le _) (by simp [sessionStart]) hb
  have := hfill fun i hi => absurd hi (Nat.not_lt_zero i)
  rw [Filled, hend] at this
  exact ((e8Undo_within _ _).ok hundo).written this

/-! ### Chunks (45_context.md R236, R239) -/

/-- A chunk that expands to its end is wholly written. -/
theorem expandChunk_written {params : Params} {codec : Codec} {stored : List Byte} {u : Nat} {out out' : Space}
    (h : expandChunk params codec stored u out = .ok () out') : Written out'.cells 0 u := by
  unfold expandChunk at h
  rcases ite_ok_inv h with ⟨hraw, h⟩ | ⟨-, h⟩
  · exact hraw ▸ (storeBytes_ok h).2
  · cases codec with
    | a => exact caDecode_written h
    | b => exact cbDecode_written h

end Sys2Proof.Machine

/-! ## The machine's invariant is kept by every step -/

namespace Sys2Proof.Machine

/-! ### Sequences, from one state -/

section
variable {σ α β : Type} {I : σ → Prop}

/-- What holds after the first part of a sequence, and after the second from there, holds after the sequence. -/
theorem stateOf_bind {x : Run σ α} {f : α → Run σ β} {s : σ} (hx : I (stateOf (x s)))
    (hf : ∀ a t, x s = .ok a t → I t → I (stateOf (f a t))) : I (stateOf ((x >>= f) s)) := by
  rw [bind_run]
  cases h : x s with
  | ok a t =>
    rw [h] at hx
    exact hf a t h hx
  | error e t => rwa [h] at hx

/-- A sequence that starts with a check or an operand read: the rest may use that it passed. -/
theorem stateOf_check_bind {x : Run σ α} (hk : Always Eq x) {f : α → Run σ β} {s : σ} (hs : I s)
    (hf : ∀ a, x s = .ok a s → I (stateOf (f a s))) : I (stateOf ((x >>= f) s)) := by
  refine stateOf_bind (hk s ▸ hs) fun a t h _ => ?_
  cases hk.ok h
  exact hf a h

end

theorem requireLmem_ok {a n : Nat} {s t : State} (h : requireLmem a n s = .ok () t) :
    a + n ≤ 2 ^ s.world.params.addrBits := by
  by_contra hlt
  rw [requireLmem_of_lt (Nat.not_le.mp hlt)] at h
  cases h

theorem requireOperand_ok {ok : Bool} {e : Status} {s t : State} (h : requireOperand ok e s = .ok () t) : ok = true := by
  cases ok with
  | true => rfl
  | false => cases h

theorem bitCount_ok {n : BitVec 5} {k : Nat} {s t : State} (h : bitCount n s = .ok k t) : k ≤ 16 := by
  by_cases hn : n.toNat ≤ 16
  · rw [bitCount_of_le hn] at h
    cases h
    exact hn
  · rw [bitCount_of_lt (Nat.not_le.mp hn)] at h
    cases h

theorem prologue_ok {s t : State} (h : prologue s = .ok () t) : s.br0.valid = true := by
  unfold prologue at h
  replace h := get_bind_ok_inv h
  rcases ite_ok_inv h with ⟨hv, -⟩ | ⟨-, h⟩
  · exact hv
  · cases h

/-! ### Memories -/

/-- A memory in canonical form, all of it below its limit (20_memory.md R50). -/
def SpaceOk (sp : Space) : Prop := sp.cells.wf ∧ BelowLimit sp.cells sp.limit

/-- Between `sp` and `sp'` the limit is kept, and so is `SpaceOk`. -/
def SpaceStep (sp sp' : Space) : Prop := sp'.limit = sp.limit ∧ (SpaceOk sp → SpaceOk sp')

theorem readByte_isSome_of_mem {m : Memory} {c : Host.Cell} (h : c ∈ m) : (readByte m c.1).isSome = true := by
  induction m with
  | nil => cases h
  | cons d ds ih =>
    unfold readByte
    split
    · rfl
    · rcases List.mem_cons.mp h with rfl | h
      · exact absurd rfl ‹_›
      · exact ih h

theorem exists_mem_of_readByte {m : Memory} {a : Nat} (h : (readByte m a).isSome = true) : ∃ c ∈ m, c.1 = a := by
  induction m with
  | nil => cases h
  | cons d ds ih =>
    unfold readByte at h
    split at h
    · exact ⟨d, List.mem_cons_self, ‹_›⟩
    · obtain ⟨c, hc, ha⟩ := ih h
      exact ⟨c, List.mem_cons_of_mem _ hc, ha⟩

/-- A change below the limit adds no byte above it. -/
theorem ChangedWithin.spaceStep {lo hi : Nat} {sp sp' : Space} (h : ChangedWithin lo hi sp sp') (hhi : hi ≤ sp.limit) :
    SpaceStep sp sp' := by
  refine ⟨h.limit, fun ⟨hwf, hbelow⟩ => ⟨h.wf hwf, fun c hc => ?_⟩⟩
  rw [h.limit]
  by_contra hge
  have hr := readByte_isSome_of_mem hc
  rw [h.outside c.1 (.inr (by omega))] at hr
  obtain ⟨d, hd, hda⟩ := exists_mem_of_readByte hr
  exact hge (hda ▸ hbelow d hd)

theorem SpaceStep.refl (sp : Space) : SpaceStep sp sp := ⟨rfl, id⟩

theorem storeBytes_spaceStep (a : Nat) (bs : List Byte) : Always SpaceStep (storeBytes a bs) := by
  intro sp
  have hw := storeBytes_within (a := a) (bs := bs) le_rfl le_rfl sp
  rcases storeBytes_cases a bs sp with ⟨h0 | hle, e⟩ | ⟨-, -, e⟩
  · rw [e, List.length_eq_zero_iff.mp h0]
    exact .refl sp
  · exact hw.spaceStep hle
  · rw [e]
    exact .refl sp

/-! ### The units -/

/-- What the invariant says of LMEM, BR0 and the context; no command in progress breaks it either. -/
structure UnitsOk (s : State) : Prop where
  lmem : SpaceOk (lmemSpace s)
  reader : ReaderOk s.br0
  reader_range : s.br0.stop ≤ 2 ^ s.world.params.addrBits
  reader_fresh : s.br0.valid = false → s.br0 = BitReader.reset
  ctx : ContextOk s.world s.ctx

namespace UnitsOk

variable {s : State}

theorem setCtx (h : UnitsOk s) {c : Context} (hc : ContextOk s.world c) : UnitsOk (s.setCtx c) :=
  ⟨h.lmem, h.reader, h.reader_range, h.reader_fresh, hc⟩

theorem setRes0 (h : UnitsOk s) (v : Word64) : UnitsOk (s.setRes0 v) :=
  ⟨h.lmem, h.reader, h.reader_range, h.reader_fresh, h.ctx⟩

theorem countIo (h : UnitsOk s) : UnitsOk s.countIo := ⟨h.lmem, h.reader, h.reader_range, h.reader_fresh, h.ctx⟩

theorem setLmem (h : UnitsOk s) {sp : Space} (hs : SpaceStep (lmemSpace s) sp) : UnitsOk (s.setLmem sp.cells) := by
  obtain ⟨hwf, hbelow⟩ := hs.2 h.lmem
  rw [hs.1] at hbelow
  exact ⟨⟨hwf, hbelow⟩, h.reader, h.reader_range, h.reader_fresh, h.ctx⟩

/-- BR0 becomes an initialised reader inside LMEM. -/
theorem setBr0 (h : UnitsOk s) {r : BitReader} (hr : ReaderOk r) (hstop : r.stop ≤ 2 ^ s.world.params.addrBits)
    (hv : r.valid = true) : UnitsOk (s.setBr0 r) :=
  ⟨h.lmem, hr, hstop, fun h' => absurd (hv.symm.trans h') (by decide), h.ctx⟩

/-- A step of the initialised BR0. -/
theorem stepBr0 (h : UnitsOk s) (hv : s.br0.valid = true) {r : BitReader} (hr : ReaderStep s.br0 r) :
    UnitsOk (s.setBr0 r) := by
  obtain ⟨-, hstop, hvalid, hok⟩ := hr
  exact h.setBr0 (hok h.reader) (hstop ▸ h.reader_range) (hvalid.trans hv)

theorem setResult (h : UnitsOk s) (v : Nat) : UnitsOk (stateOf (setResult v s)) := h.setRes0 _

/-- Work on the initialised BR0. -/
theorem onBr0 (h : UnitsOk s) (hv : s.br0.valid = true) {α : Type} {f : Space → Run BitReader α}
    (hf : ∀ inp, Always ReaderStep (f inp)) : UnitsOk (stateOf (onBr0 f s)) := by
  rcases onBr0_cases f s with ⟨a, r, hr, e⟩ | ⟨x, r, hr, e⟩ <;> rw [e]
  · exact h.stepBr0 hv ((hf _).ok hr)
  · exact h.stepBr0 hv ((hf _).error hr)

/-- Work on LMEM. -/
theorem onLmem (h : UnitsOk s) {α : Type} {f : Run Space α}
    (hf : SpaceStep (lmemSpace s) (stateOf (f (lmemSpace s)))) : UnitsOk (stateOf (onLmem f s)) := by
  rcases onLmem_cases f s with ⟨a, sp, hr, e⟩ | ⟨x, sp, hr, e⟩ <;> rw [hr] at hf <;> rw [e] <;> exact h.setLmem hf

end UnitsOk

/-- The command keeps the units in order. -/
def KeepsUnits (i : Instr) : Prop := ∀ s t, exec i s = .next t → UnitsOk s → UnitsOk t

theorem keepsUnits_of_body {i : Instr} {body : Run State Unit} (h : ∀ s, UnitsOk s → UnitsOk (stateOf (body s))) :
    ∀ s t, runCommand i body s = .next t → UnitsOk s → UnitsOk t := by
  intro s t e hs
  obtain ⟨u, hu, ⟨c, rfl⟩ | ⟨c, rfl⟩⟩ := runCommand_always (P := fun s t => UnitsOk s → UnitsOk t) h e
  · have hu := hu hs
    exact ⟨hu.lmem, hu.reader, hu.reader_range, hu.reader_fresh, hu.ctx⟩
  · have hu := hu hs
    exact ⟨hu.lmem, hu.reader, hu.reader_range, hu.reader_fresh, hu.ctx⟩

/-! ### The bit reader's commands and HT_DECODE -/

theorem brInit_keepsUnits : KeepsUnits .brInit :=
  keepsUnits_of_body fun _ hs => stateOf_check_bind (readArg_keeps 0) hs fun start _ =>
    stateOf_check_bind (readArg_keeps 1) hs fun size _ => stateOf_check_bind (requireLmem_keeps _ _) hs fun _ hr =>
    hs.setBr0 (initReader_ok start size) (requireLmem_ok hr) rfl

theorem brEnsure_keepsUnits (n : BitVec 5) : KeepsUnits (.brEnsure n) :=
  keepsUnits_of_body fun _ hs => stateOf_check_bind (bitCount_keeps n) hs fun _ hk =>
    stateOf_check_bind prologue_keeps hs fun _ hv =>
    hs.onBr0 (prologue_ok hv) fun inp => ensure_step inp (Nat.le_succ_of_le (bitCount_ok hk))

theorem brPeek_keepsUnits (n : BitVec 5) : KeepsUnits (.brPeek n) :=
  keepsUnits_of_body fun _ hs => stateOf_check_bind (bitCount_keeps n) hs fun k _ =>
    stateOf_check_bind prologue_keeps hs fun _ hv =>
    stateOf_bind (hs.onBr0 (prologue_ok hv) fun _ => peek_step k) fun _ _ _ ht => ht.setResult _

theorem brPop_keepsUnits (n : BitVec 5) : KeepsUnits (.brPop n) :=
  keepsUnits_of_body fun _ hs => stateOf_check_bind (bitCount_keeps n) hs fun k _ =>
    stateOf_check_bind prologue_keeps hs fun _ hv =>
    stateOf_bind (hs.onBr0 (prologue_ok hv) fun _ => pop_step k) fun _ _ _ ht => ht

theorem brRead_keepsUnits (n : BitVec 5) : KeepsUnits (.brRead n) :=
  keepsUnits_of_body fun _ hs => stateOf_check_bind (bitCount_keeps n) hs fun _ hk =>
    stateOf_check_bind prologue_keeps hs fun _ hv =>
    stateOf_bind (hs.onBr0 (prologue_ok hv) fun inp => readBits_step inp (Nat.le_succ_of_le (bitCount_ok hk)))
      fun _ _ _ ht => ht.setResult _

theorem literalCommand_keepsUnits (k : Nat) : ∀ s, UnitsOk s → UnitsOk (stateOf (literalCommand k s)) :=
  fun _ hs => stateOf_check_bind prologue_keeps hs fun _ hv =>
    stateOf_bind (hs.onBr0 (prologue_ok hv) fun inp => readLit_step inp k) fun _ _ _ ht => ht.setResult _

theorem brReadByte_keepsUnits : KeepsUnits .brReadByte := keepsUnits_of_body (literalCommand_keepsUnits 1)

theorem brReadU16_keepsUnits : KeepsUnits .brReadU16 := keepsUnits_of_body (literalCommand_keepsUnits 2)

theorem brReadU32_keepsUnits : KeepsUnits .brReadU32 := keepsUnits_of_body (literalCommand_keepsUnits 4)

theorem brReadBytes_keepsUnits : KeepsUnits .brReadBytes :=
  keepsUnits_of_body fun _ hs => stateOf_check_bind prologue_keeps hs fun _ hv =>
    stateOf_check_bind (readArg_keeps 0) hs fun _ _ => stateOf_check_bind (readArg_keeps 1) hs fun count _ =>
    stateOf_check_bind (requireLmem_keeps _ _) hs fun _ _ => stateOf_check_bind (fun _ => rfl) hs fun _ _ =>
    stateOf_check_bind (requireDisjoint_keeps _ _ _ _) hs fun _ _ =>
    stateOf_bind (hs.onBr0 (prologue_ok hv) fun inp => readBytes_step inp count) fun _ _ _ ht =>
    ht.onLmem (storeBytes_spaceStep _ _ _)

theorem brAlign_keepsUnits : KeepsUnits .brAlign :=
  keepsUnits_of_body fun _ hs => stateOf_check_bind prologue_keeps hs fun _ hv =>
    hs.stepBr0 (prologue_ok hv) ⟨rfl, rfl, rfl, alignReader_ok⟩

theorem htDecode_keepsUnits : KeepsUnits .htDecode :=
  keepsUnits_of_body fun _ hs => stateOf_check_bind prologue_keeps hs fun _ hv =>
    stateOf_check_bind (readArg_keeps 0) hs fun table _ => stateOf_check_bind (readArg_keeps 1) hs fun tb _ =>
    stateOf_check_bind (readArg_keeps 2) hs fun maxLen _ =>
    stateOf_check_bind (requireOperand_keeps _ _) hs fun _ hok => by
      have hmax : maxLen ≤ 16 := by simpa using (Bool.and_eq_true_iff.mp (requireOperand_ok hok)).2
      exact stateOf_bind (hs.onBr0 (prologue_ok hv) fun inp => decodeSym_step inp _ tb hmax) fun _ _ _ ht =>
        ht.setResult _

/-! ### The commands that write LMEM -/

theorem htBuild_keepsUnits : KeepsUnits .htBuild :=
  keepsUnits_of_body fun _ hs => stateOf_check_bind (readArg_keeps 0) hs fun _ _ =>
    stateOf_check_bind (readArg_keeps 1) hs fun _ _ => stateOf_check_bind (readArg_keeps 2) hs fun _ _ =>
    stateOf_check_bind (readArg_keeps 3) hs fun _ _ => stateOf_check_bind (readArg_keeps 4) hs fun _ _ =>
    stateOf_check_bind (requireOperand_keeps _ _) hs fun _ _ => stateOf_check_bind (requireLmem_keeps _ _) hs fun _ _ =>
    stateOf_check_bind (requireLmem_keeps _ _) hs fun _ _ =>
    stateOf_check_bind (requireDisjoint_keeps _ _ _ _) hs fun _ _ =>
    stateOf_bind (hs.onLmem (loadBytes_keeps _ _ _ ▸ .refl _)) fun _ _ _ ht =>
    stateOf_check_bind (fun _ => rfl) ht fun _ _ => stateOf_check_bind (buildOrFail_keeps _ _ _ _) ht fun _ _ =>
    ht.onLmem (storeBytes_spaceStep _ _ _)

theorem mcCopy_keepsUnits : KeepsUnits .mcCopy :=
  keepsUnits_of_body fun _ hs => stateOf_check_bind (readArg_keeps 0) hs fun _ _ =>
    stateOf_check_bind (readArg_keeps 1) hs fun _ _ => stateOf_check_bind (readArg_keeps 2) hs fun _ _ =>
    stateOf_check_bind (readArg_keeps 3) hs fun _ _ => stateOf_check_bind (readArg_keeps 4) hs fun _ _ =>
    stateOf_check_bind (readArg_keeps 5) hs fun _ _ => stateOf_check_bind (requireLmem_keeps _ _) hs fun _ hr =>
    stateOf_bind (hs.onLmem ((copyMatch_within le_rfl le_rfl _).spaceStep (requireLmem_ok hr))) fun _ _ _ ht =>
    ht.setResult _

theorem caDecompress_keepsUnits : KeepsUnits .caDecompress :=
  keepsUnits_of_body fun s hs => stateOf_check_bind (readArg_keeps 0) hs fun inBase _ =>
    stateOf_check_bind (readArg_keeps 1) hs fun inSize _ => stateOf_check_bind (readArg_keeps 2) hs fun outBase _ =>
    stateOf_check_bind (readArg_keeps 3) hs fun outSize _ => stateOf_check_bind (requireOperand_keeps _ _) hs fun _ _ =>
    stateOf_check_bind (requireLmem_keeps _ _) hs fun _ _ => stateOf_check_bind (requireLmem_keeps _ _) hs fun _ hr =>
    stateOf_check_bind (requireDisjoint_keeps _ _ _ _) hs fun _ _ =>
    hs.onLmem ((caDecode_within (lmemJob s inBase inSize outBase outSize) _).spaceStep (requireLmem_ok hr))

theorem cbDecompress_keepsUnits : KeepsUnits .cbDecompress :=
  keepsUnits_of_body fun s hs => stateOf_check_bind (readArg_keeps 0) hs fun inBase _ =>
    stateOf_check_bind (readArg_keeps 1) hs fun inSize _ => stateOf_check_bind (readArg_keeps 2) hs fun outBase _ =>
    stateOf_check_bind (readArg_keeps 3) hs fun outSize _ => stateOf_check_bind (readArg_keeps 4) hs fun w _ =>
    stateOf_check_bind (requireOperand_keeps _ _) hs fun _ _ => stateOf_check_bind (requireLmem_keeps _ _) hs fun _ _ =>
    stateOf_check_bind (requireLmem_keeps _ _) hs fun _ hr =>
    stateOf_check_bind (requireDisjoint_keeps _ _ _ _) hs fun _ _ =>
    hs.onLmem ((cbDecode_within (lmemJob s inBase inSize outBase outSize) w _).spaceStep (requireLmem_ok hr))

/-! ### Opening and closing a context (45_context.md R232, R242) -/

theorem legalCodec_pair {codec order : Nat} {cd : Codec} (h : legalCodec codec order = some cd) :
    cd = .a ∧ (order = 12 ∨ order = 13 ∨ order = 14) ∨ cd = .b ∧ order = 15 := by
  unfold legalCodec at h
  split at h
  · cases h
    exact .inl ⟨rfl, ‹_ ∧ _›.2⟩
  · split at h
    · cases h
      exact .inr ⟨rfl, ‹_ ∧ _›.2⟩
    · cases h

/-- What the index region gives when it is read: the first bytes of the store; at most one StoreRead call is made. -/
theorem readIndex_ok {h : Word64} {size : Nat} {s t : State} {bs : List Byte} (hr : readIndex h size s = .ok bs t) :
    bs = storeSlice s.world h 0 size ∧ (t = s ∨ t = s.countIo) := by
  unfold readIndex at hr
  rcases ite_ok_inv hr with ⟨rfl, hr⟩ | ⟨-, hr⟩
  · cases hr
    exact ⟨rfl, .inl rfl⟩
  · rcases storeRead_run h 0 size s with ⟨-, -, e⟩ | e <;> rw [bind_of_ok e] at hr <;> cases hr
    exact ⟨rfl, .inr rfl⟩

theorem readIndex_units {s : State} (hs : UnitsOk s) (h : Word64) (size : Nat) :
    UnitsOk (stateOf (readIndex h size s)) := by
  unfold readIndex
  split
  · exact hs
  · rcases storeRead_run h 0 size s with ⟨-, -, e⟩ | e <;> rw [bind_of_ok e] <;> exact hs.countIo

/-- A context whose metadata and index pass every check of OPEN. -/
theorem openedContext_ok {w : World} {c : Context} (hbuf : c.cacheBuf.wf) {h : Word64} {lsize order : Nat} {cd : Codec}
    (hpair : cd = .a ∧ (order = 12 ∨ order = 13 ∨ order = 14) ∨ cd = .b ∧ order = 15) (hsize : lsize < 2 ^ 63)
    (hcount : chunkCount lsize order ≤ w.params.maxChunks)
    (hregion : indexSize lsize (chunkCount lsize order) ≤ storeLen w h) {cstart : List Nat}
    (hindex : cstart = buildIndex (chunkCount lsize order) (entrySize lsize)
      (storeLen w h - indexSize lsize (chunkCount lsize order))
      (storeSlice w h 0 (indexSize lsize (chunkCount lsize order))))
    (hlegal : indexLegal lsize order (chunkCount lsize order) cstart = true) :
    ContextOk w (openedContext c h lsize cd order (chunkCount lsize order) (storeLen w h)
      (indexSize lsize (chunkCount lsize order)) cstart) where
  buf_wf := hbuf
  closed := nofun
  pair _ := hpair
  size _ := hsize
  count _ := ⟨rfl, hcount⟩
  stored _ := rfl
  region _ := ⟨rfl, hregion⟩
  index _ := hindex
  legal _ := hlegal
  cached := nofun

theorem openChecked_units {h : Word64} {lsize codec order : Nat} {cd : Codec} (hcd : legalCodec codec order = some cd)
    {s : State} (hs : UnitsOk s) : UnitsOk (stateOf (openChecked h lsize cd order s)) := by
  refine stateOf_check_bind (requireOperand_keeps _ _) hs fun _ hsize => ?_
  refine stateOf_check_bind (x := get) (fun _ => rfl) hs fun u hu => ?_
  cases hu
  refine stateOf_check_bind (requireOperand_keeps _ _) hs fun _ hcount => ?_
  refine stateOf_check_bind (requireOperand_keeps _ _) hs fun _ hregion => ?_
  refine stateOf_bind (readIndex_units hs _ _) fun region t hr ht => ?_
  refine stateOf_check_bind (requireOperand_keeps _ _) ht fun _ hlegal => ?_
  obtain ⟨hslice, ht'⟩ := readIndex_ok hr
  have hworld : t.world = s.world := by rcases ht' with rfl | rfl <;> rfl
  refine ht.setCtx ?_
  rw [hworld]
  exact openedContext_ok ht.ctx.buf_wf (legalCodec_pair hcd) (by simpa using requireOperand_ok hsize)
    (by simpa using requireOperand_ok hcount) (by simpa using requireOperand_ok hregion) (hslice ▸ rfl)
    (requireOperand_ok hlegal)

theorem ctxOpen_keepsUnits : KeepsUnits .ctxOpen := by
  refine keepsUnits_of_body fun s hs => ?_
  refine stateOf_check_bind (x := get) (fun _ => rfl) hs fun _ _ => ?_
  refine stateOf_check_bind (requireOperand_keeps _ _) hs fun _ _ => ?_
  refine stateOf_check_bind (readArgWord_keeps 0) hs fun h _ => ?_
  refine stateOf_check_bind (readArg_keeps 1) hs fun lsize _ => ?_
  refine stateOf_check_bind (readArg_keeps 2) hs fun codec _ => ?_
  refine stateOf_check_bind (readArg_keeps 3) hs fun order _ => ?_
  cases hcd : legalCodec codec order with
  | none => exact hs
  | some cd => exact openChecked_units hcd hs

theorem ContextOk.close {w : World} {c : Context} (h : ContextOk w c) :
    ContextOk w { c with opened := false, cacheValid := false } where
  buf_wf := h.buf_wf
  closed _ := rfl
  pair := nofun
  size := nofun
  count := nofun
  stored := nofun
  region := nofun
  index := nofun
  legal := nofun
  cached := nofun

theorem ctxClose_keepsUnits : KeepsUnits .ctxClose := by
  refine keepsUnits_of_body (i := .ctxClose)
    (body := modify fun t => t.setCtx { t.ctx with opened := false, cacheValid := false }) fun s hs => ?_
  exact hs.setCtx hs.ctx.close

theorem ctxGetSize_keepsUnits : KeepsUnits .ctxGetSize :=
  keepsUnits_of_body fun _ hs => stateOf_check_bind (fun _ => rfl) hs fun _ _ =>
    stateOf_check_bind (requireOperand_keeps _ _) hs fun _ _ => hs.setResult _

/-! ### The cache (R239) -/

/-- The cache buffer may hold anything in canonical form while the cache is not valid. -/
theorem ContextOk.uncached {w : World} {c : Context} (h : ContextOk w c) {m : Memory} (hm : m.wf) :
    ContextOk w { c with cacheValid := false, cacheBuf := m } where
  buf_wf := hm
  closed _ := rfl
  pair := h.pair
  size := h.size
  count := h.count
  stored := h.stored
  region := h.region
  index := h.index
  legal := h.legal
  cached := nofun

/-- The cache becomes valid for a chunk that is wholly written. -/
theorem ContextOk.hold {w : World} {c : Context} (h : ContextOk w c) (hopen : c.opened = true) {k : Nat}
    (hk : k < c.nchunks) (hw : Written c.cacheBuf 0 (chunkLength c.lsize c.order k)) :
    ContextOk w { c with cacheChunk := k, cacheValid := true } where
  buf_wf := h.buf_wf
  closed h' := absurd (hopen.symm.trans h') (by decide)
  pair := h.pair
  size := h.size
  count := h.count
  stored := h.stored
  region := h.region
  index := h.index
  legal := h.legal
  cached _ := ⟨hk, hw⟩

theorem UnitsOk.dropCache {s : State} (h : UnitsOk s) : UnitsOk (dropCache s) :=
  h.setCtx (h.ctx.uncached h.ctx.buf_wf)

theorem UnitsOk.failRead {s : State} (h : UnitsOk s) : UnitsOk (failRead s) := h.dropCache.setRes0 _

/-- EnsureChunk of a chunk of an open context. -/
theorem ensureChunk_units {s : State} (hs : UnitsOk s) (hopen : s.ctx.opened = true) {c : Nat}
    (hc : c < s.ctx.nchunks) : UnitsOk (stateOf (ensureChunk c s)) := by
  have hd : UnitsOk (dropCache s).countIo := hs.dropCache.countIo
  rcases ensureChunk_cases c s with ⟨-, -, e⟩ | ⟨-, e | ⟨bs, -, e⟩⟩ <;> rw [e]
  · exact hs
  · exact hd
  · rcases onCache_cases (chunkLength s.ctx.lsize s.ctx.order c)
      (expandChunk s.world.params s.ctx.codec bs (chunkLength s.ctx.lsize s.ctx.order c)) (dropCache s).countIo with
      ⟨_, sp, hx, e'⟩ | ⟨x, sp, hx, e'⟩
    · rw [bind_of_ok e']
      have hwf := ((expandChunk_within _ _ _ _).ok hx).wf hd.ctx.buf_wf
      exact hd.setCtx ((hd.ctx.uncached hwf).hold hopen hc (expandChunk_written hx))
    · rw [bind_of_error e']
      have hwf := ((expandChunk_within _ _ _ _).error hx).wf hd.ctx.buf_wf
      exact hd.setCtx (hd.ctx.uncached hwf)

/-! ### CTX_READ (R238, R240) -/

theorem onFail_units {α : Type} {s : State} {f : Run State α} (h : UnitsOk (stateOf (f s))) :
    UnitsOk (stateOf (onFail failRead f s)) := by
  rcases onFail_cases failRead f s with ⟨a, t, hf, e⟩ | ⟨x, t, hf, e⟩ | ⟨c, t, hf, e⟩ <;> rw [hf] at h <;> rw [e]
  · exact h
  · exact h.failRead
  · exact h

theorem onCache_keeps {α : Type} {f : Run Space α} (hf : Always Eq f) (u : Nat) : Always Eq (onCache u f) :=
  always_zoom hf fun s t (h : cacheSpace u s = t) => by subst h; rfl

theorem copyChunk_units {p m dst c : Nat} {s : State} (hs : UnitsOk s) (hopen : s.ctx.opened = true)
    (hc : c < s.ctx.nchunks) : UnitsOk (stateOf (copyChunk p m dst c s)) := by
  refine stateOf_bind (onFail_units (ensureChunk_units hs hopen hc)) fun _ t _ ht => ?_
  refine stateOf_check_bind (x := get) (fun _ => rfl) ht fun _ _ => ?_
  refine stateOf_check_bind (onCache_keeps (loadBytes_keeps _ _) _) ht fun _ _ => ?_
  exact ht.onLmem (storeBytes_spaceStep _ _ _)

/-- A CTX_READ keeps all of the context but its cache. -/
theorem copyChunk_record {p m dst c : Nat} {s t : State} (h : copyChunk p m dst c s = .ok () t) :
    t.ctx.opened = s.ctx.opened ∧ t.ctx.nchunks = s.ctx.nchunks := by
  have hf := (copyChunk_framed p m dst c).ends s
  rw [h] at hf
  rw [← hf.1.record rfl]
  exact ⟨rfl, rfl⟩

theorem copyChunks_units {p m dst count c : Nat} {s : State} (hs : UnitsOk s) (hopen : s.ctx.opened = true)
    (hc : c + count ≤ s.ctx.nchunks) : UnitsOk (stateOf (copyChunks p m dst count c s)) := by
  induction count generalizing c s with
  | zero => exact hs
  | succ count ih =>
    refine stateOf_bind (copyChunk_units hs hopen (by omega)) fun _ t hcopy ht => ?_
    obtain ⟨ho, hn⟩ := copyChunk_record hcopy
    exact ih ht (ho.trans hopen) (by rw [hn]; omega)

/-- The last chunk of a read that ends inside the logical size is a chunk of the context. -/
theorem lastChunk_lt {lsize order p m : Nat} (hm : 0 < m) (h : p + m ≤ lsize) :
    p / 2 ^ order + ((p + m - 1) / 2 ^ order + 1 - p / 2 ^ order) ≤ chunkCount lsize order := by
  have hpos : 0 < 2 ^ order := by positivity
  have hfirst : p / 2 ^ order ≤ (p + m - 1) / 2 ^ order := Nat.div_le_div_right (by omega)
  have hlast : (p + m - 1) / 2 ^ order + 1 ≤ chunkCount lsize order := by
    rw [chunkCount, ← Nat.add_div_right _ hpos]
    exact Nat.div_le_div_right (by omega)
  omega

theorem readOpened_units {p cnt dst : Nat} {s : State} (hs : UnitsOk s) (hopen : s.ctx.opened = true) :
    UnitsOk (stateOf (readOpened p cnt dst s)) := by
  refine stateOf_check_bind (x := get) (fun _ => rfl) hs fun u hu => ?_
  cases hu
  split
  · exact hs.setResult 0
  · refine stateOf_check_bind (requireLmem_keeps _ _) hs fun _ _ => ?_
    split
    · exact hs.setResult 0
    · refine stateOf_bind (copyChunks_units hs hopen ?_) fun _ _ _ ht => ht.setResult _
      rw [(hs.ctx.count hopen).1]
      exact lastChunk_lt (by omega) (by omega)

theorem ctxRead_keepsUnits : KeepsUnits .ctxRead := by
  refine keepsUnits_of_body fun s hs => ?_
  refine stateOf_check_bind (x := get) (fun _ => rfl) hs fun u hu => ?_
  cases hu
  split
  · refine stateOf_check_bind (readArg_keeps 0) hs fun p _ => ?_
    refine stateOf_check_bind (readArg_keeps 1) hs fun cnt _ => ?_
    exact stateOf_check_bind (readArg_keeps 2) hs fun dst _ => readOpened_units hs ‹_›
  · exact hs.setRes0 _

theorem exec_keepsUnits (i : Instr) : KeepsUnits i := by
  cases i with
  | brInit => exact brInit_keepsUnits
  | brEnsure n => exact brEnsure_keepsUnits n
  | brPeek n => exact brPeek_keepsUnits n
  | brPop n => exact brPop_keepsUnits n
  | brRead n => exact brRead_keepsUnits n
  | brReadByte => exact brReadByte_keepsUnits
  | brReadU16 => exact brReadU16_keepsUnits
  | brReadU32 => exact brReadU32_keepsUnits
  | brReadBytes => exact brReadBytes_keepsUnits
  | brAlign => exact brAlign_keepsUnits
  | htBuild => exact htBuild_keepsUnits
  | htDecode => exact htDecode_keepsUnits
  | mcCopy => exact mcCopy_keepsUnits
  | caDecompress => exact caDecompress_keepsUnits
  | cbDecompress => exact cbDecompress_keepsUnits
  | ctxOpen => exact ctxOpen_keepsUnits
  | ctxGetSize => exact ctxGetSize_keepsUnits
  | ctxRead => exact ctxRead_keepsUnits
  | ctxClose => exact ctxClose_keepsUnits

/-! ### Steps -/

theorem Inv.units {s : State} (h : Inv s) : UnitsOk s :=
  ⟨⟨h.lmem_wf, h.lmem_range⟩, h.reader, h.reader_range, h.reader_fresh, h.ctx⟩

/-- The invariant in two halves: the units, and the status registers. -/
theorem UnitsOk.inv {s : State} (h : UnitsOk s) (hbusy : s.busy = false) (hcode : s.code.toNat ≤ 8)
    (hno : s.fault = false → s.cause = 0#8 ∧ s.faultOpc = 0#8)
    (hcause : s.fault = true → 1 ≤ s.cause.toNat ∧ s.cause.toNat ≤ 6) : Inv s :=
  ⟨h.lmem.1, h.lmem.2, hbusy, hcode, hno, hcause, h.reader, h.reader_range, h.reader_fresh, h.ctx⟩

theorem UnitsOk.accept {s : State} (h : UnitsOk s) : UnitsOk s.accept :=
  ⟨h.lmem, h.reader, h.reader_range, h.reader_fresh, h.ctx⟩

theorem Inv.nextActions {s : State} (h : Inv s) (rest : List HostEvent) : Inv (s.nextActions rest) :=
  ⟨h.lmem_wf, h.lmem_range, h.busy, h.code, h.noFault, h.cause, h.reader, h.reader_range, h.reader_fresh, h.ctx⟩

/-- A command that is accepted in a state with the invariant leaves one. -/
theorem Inv.exec {s t : State} (h : Inv s) (hf : s.fault = false) {i : Instr} (he : exec i s.accept = .next t) :
    Inv t := by
  have hu : UnitsOk t := exec_keepsUnits i _ _ he h.units.accept
  obtain ⟨t', he', hbusy, -, -, -, -, -, -, hend⟩ := everyCommandHasOneOutcome i s.accept
  rw [he] at he'
  cases he'
  rcases hend with ⟨hfault, hcause, hopc, hcode⟩ | ⟨hfault, hlow, hhigh, -, hcode, -⟩
  · have hf' : t.fault = false := hfault.trans hf
    obtain ⟨hc0, ho0⟩ := h.noFault hf
    exact hu.inv hbusy hcode (fun _ => ⟨hcause.trans hc0, hopc.trans ho0⟩)
      fun hft => absurd (hf'.symm.trans hft) (by decide)
  · exact hu.inv hbusy (hcode ▸ h.code) (fun hff => absurd (hfault.symm.trans hff) (by decide))
      fun _ => ⟨hlow, hhigh⟩

theorem Inv.writeCmd {s t : State} (h : Inv s) {w : Word32} (he : writeCmd w s = .next t) : Inv t := by
  rcases writeCmd_cases w s with ⟨-, e⟩ | ⟨-, hb, -⟩ | ⟨hf, -, ⟨i, -, e⟩ | ⟨x, -, e⟩⟩
  · rw [e] at he
    cases he
    exact h
  · exact absurd (h.busy.symm.trans hb) (by decide)
  · exact h.exec hf (e ▸ he)
  · rw [e] at he
    cases he
    exact UnitsOk.inv ⟨⟨h.lmem_wf, h.lmem_range⟩, h.reader, h.reader_range, h.reader_fresh, h.ctx⟩ rfl
      (statusCode_le .illegal) h.noFault h.cause

theorem contextOk_reset (w : World) : ContextOk w Context.reset :=
  ⟨List.Pairwise.nil, fun _ => rfl, nofun, nofun, nofun, nofun, nofun, nofun, nofun, nofun⟩

/-- Reset meets the invariant from every state. -/
theorem inv_resetBlock (s : State) : Inv s.resetBlock :=
  ⟨List.Pairwise.nil, nofun, rfl, statusCode_le .ok, fun _ => ⟨rfl, rfl⟩, nofun, reset_readerOk, Nat.zero_le _,
    fun _ => rfl, contextOk_reset _⟩

theorem Inv.hostMove {s t : State} (h : Inv s) (hm : HostMove s t) : Inv t := by
  obtain ⟨hfault, hcause, hopc, hcode, hbusy, -⟩ := hm.keeps
  refine UnitsOk.inv ?_ (hbusy.trans h.busy) (hcode ▸ h.code) (by rw [hfault, hcause, hopc]; exact h.noFault)
    (by rw [hfault, hcause]; exact h.cause)
  have hu := h.units
  cases hm with
  | store a bs sp _ hw =>
    have hst : storeBytes a bs (lmemSpace s) = .ok () sp := by simp only [storeBytes, hw]
    exact hu.setLmem ((storeBytes_spaceStep a bs).ok hst)
  | read | ignored | arg | argHalf => exact ⟨hu.lmem, hu.reader, hu.reader_range, hu.reader_fresh, hu.ctx⟩

/-- Settles O9: the units by a case for each command, the status registers by the outcome every command has. -/
theorem everyStepKeepsTheInvariant : Obligations.EveryStepKeepsTheInvariant := by
  intro s t h ht
  cases hh : s.host with
  | nil =>
    rw [step_idle hh] at ht
    cases ht
    exact h
  | cons e rest =>
    rw [step_action hh] at ht
    rcases hostAction_cases ht with ⟨-, rfl⟩ | ⟨w, -, hw⟩ | hm
    · exact inv_resetBlock _
    · exact (h.nextActions rest).writeCmd hw
    · exact (h.nextActions rest).hostMove hm

end Sys2Proof.Machine

/-! ## Two runs that end alike -/

namespace Sys2Proof.Machine

section
variable {σ τ α β : Type}

/-- Two endings alike: good ones with one value and states related by `R`, or one stop with states related by `E`. -/
inductive EndsAlike (R E : σ → σ → Prop) : EStateM.Result Stop σ α → EStateM.Result Stop σ α → Prop
  | ok (a : α) {s t : σ} : R s t → EndsAlike R E (.ok a s) (.ok a t)
  | error (e : Stop) {s t : σ} : E s t → EndsAlike R E (.error e s) (.error e t)

/-- Where it does not matter what a stopped run leaves. -/
def AnyStates (_ _ : σ) : Prop := True

variable {R R' E : σ → σ → Prop} {s t : σ}

theorem EndsAlike.fails (e : Stop) : EndsAlike (α := α) R AnyStates (.error e s) (.error e t) := .error e trivial

theorem EndsAlike.mono {x y : EStateM.Result Stop σ α} (h : EndsAlike R E x y) (hR : ∀ u v, R u v → R' u v) :
    EndsAlike R' E x y := by
  cases h with
  | ok a h => exact .ok a (hR _ _ h)
  | error e h => exact .error e h

/-- Two runs of a sequence: the second parts start from the related states the first parts leave. -/
theorem EndsAlike.bind {x : Run σ α} {f : α → Run σ β} (hx : EndsAlike R E (x s) (x t))
    (hf : ∀ a u v, x s = .ok a u → R u v → EndsAlike R' E (f a u) (f a v)) :
    EndsAlike R' E ((x >>= f) s) ((x >>= f) t) := by
  rw [bind_run, bind_run]
  generalize hs : x s = xs at hx
  generalize x t = xt at hx
  cases hx with
  | ok a h => exact hf a _ _ hs h
  | error e h => exact .error e h

/-- A sequence that first looks at the state. -/
theorem EndsAlike.get_bind {f : σ → Run σ β} (h : EndsAlike R E (f s s) (f t t)) :
    EndsAlike R E ((get >>= f : Run σ β) s) ((get >>= f : Run σ β) t) := h

theorem EndsAlike.ite {c : Prop} [Decidable c] {x y : Run σ α} (hx : c → EndsAlike R E (x s) (x t))
    (hy : ¬ c → EndsAlike R E (y s) (y t)) : EndsAlike R E ((if c then x else y) s) ((if c then x else y) t) := by
  split
  · exact hx ‹_›
  · exact hy ‹_›

theorem EndsAlike.modify {g : σ → σ} (h : R (g s) (g t)) :
    EndsAlike R E ((modify g : Run σ PUnit) s) ((modify g : Run σ PUnit) t) := .ok _ h

/-- A part that answers the same from both states and leaves each as it is. -/
theorem EndsAlike.orFault {x : Except Cause α} (h : R s t) (he : E s t) :
    EndsAlike R E ((orFault x : Run σ α) s) ((orFault x : Run σ α) t) := by
  cases x with
  | ok a => exact .ok a h
  | error c => exact .error _ he

theorem EndsAlike.buildOrFail {reject : Bool} {lens : List Nat} {tb maxLen : Nat} (h : R s t) (he : E s t) :
    EndsAlike R E (buildOrFail reject lens tb maxLen s) (buildOrFail reject lens tb maxLen t) := by
  unfold Machine.buildOrFail
  cases buildTable reject lens tb maxLen with
  | some table => exact .ok table h
  | none => exact .error _ he

/-- Work on a part of each state. -/
theorem EndsAlike.zoom {Q F : τ → τ → Prop} {part : σ → τ} {put : τ → σ → σ} {f : Run τ α}
    (hf : EndsAlike Q F (f (part s)) (f (part t))) (hR : ∀ u v, Q u v → R (put u s) (put v t))
    (hE : ∀ u v, F u v → E (put u s) (put v t)) : EndsAlike R E (zoom part put f s) (zoom part put f t) := by
  unfold Machine.zoom
  generalize f (part s) = x at hf
  generalize f (part t) = y at hf
  cases hf with
  | ok a h => exact .ok a (hR _ _ h)
  | error e h => exact .error e (hE _ _ h)

/-- Work on a part that both states share. -/
theorem EndsAlike.zoom_same {part : σ → τ} {put : τ → σ → σ} {f : Run τ α} (hp : part t = part s)
    (hR : ∀ u, R (put u s) (put u t)) (hE : ∀ u, E (put u s) (put u t)) :
    EndsAlike R E (Machine.zoom part put f s) (Machine.zoom part put f t) := by
  unfold Machine.zoom
  rw [hp]
  cases f (part s) with
  | ok a u => exact .ok a (hR u)
  | error e u => exact .error e (hE u)

/-- A run that ends well has its fellow end well. -/
theorem EndsAlike.of_ok {x y : EStateM.Result Stop σ α} {a : α} (h : EndsAlike R E x y) (hx : x = .ok a s) :
    ∃ u, y = .ok a u ∧ R s u := by
  subst hx
  cases h with
  | ok _ h => exact ⟨_, rfl, h⟩

end

/-! ### Memories that read alike -/

/-- Two memories of one size that read alike at lo..hi-1. -/
structure SpacesAlike (lo hi : Nat) (sp sp' : Space) : Prop where
  limit : sp'.limit = sp.limit
  agree : AgreeOn sp.cells sp'.cells lo hi

theorem SpacesAlike.mono {lo hi lo' hi' : Nat} {sp sp' : Space} (h : SpacesAlike lo hi sp sp') (hlo : lo ≤ lo')
    (hhi : hi' ≤ hi) : SpacesAlike lo' hi' sp sp' :=
  ⟨h.limit, fun a h1 h2 => h.agree a (by omega) (by omega)⟩

theorem readCells_congr {m m' : Memory} {a n : Nat} (h : AgreeOn m m' a (a + n)) :
    readCells m' a n = readCells m a n := by
  induction n generalizing a with
  | zero => rfl
  | succ n ih =>
    unfold readCells
    rw [h a le_rfl (by omega), ih fun x h1 h2 => h x (by omega) (by omega)]

/-- A read of several bytes depends on those bytes and the memory's size alone (20_memory.md R53, R54). -/
theorem memReadBytes_congr {sp sp' : Space} {a n : Nat} (h : SpacesAlike a (a + n) sp sp') :
    memReadBytes sp' a n = memReadBytes sp a n := by
  unfold memReadBytes
  rw [h.limit, readCells_congr h.agree]

theorem memRead_congr {sp sp' : Space} {a n : Nat} (h : SpacesAlike a (a + n) sp sp') :
    memRead sp' a n = memRead sp a n := by
  unfold memRead
  rw [memReadBytes_congr h]

section
variable {lo hi : Nat} {sp sp' : Space}

/-- Loading bytes where two memories read alike. -/
theorem loadBytes_alike {a n : Nat} (h : SpacesAlike lo hi sp sp') (h1 : lo ≤ a) (h2 : a + n ≤ hi) :
    EndsAlike (SpacesAlike lo hi) AnyStates (loadBytes a n sp) (loadBytes a n sp') := by
  unfold loadBytes
  rw [memReadBytes_congr (h.mono h1 h2)]
  cases memReadBytes sp a n with
  | ok bs => exact .ok bs h
  | error c => exact .fails _

/-- Storing bytes: the memories read alike where they did, and where the bytes are stored. -/
theorem storeBytes_alike {a hi' : Nat} {bs : List Byte} (h : SpacesAlike lo hi sp sp')
    (hi_le : ∀ x, hi ≤ x → x < hi' → a ≤ x ∧ x < a + bs.length) :
    EndsAlike (SpacesAlike lo hi') AnyStates (storeBytes a bs sp) (storeBytes a bs sp') := by
  have hlim := h.limit
  rcases storeBytes_cases a bs sp with ⟨h1, e⟩ | ⟨h1, h2, e⟩ <;>
    rcases storeBytes_cases a bs sp' with ⟨h1', e'⟩ | ⟨h1', h2', e'⟩ <;> rw [e, e']
  · refine .ok () ⟨hlim, fun x hx hx' => ?_⟩
    rw [readByte_writeCells, readByte_writeCells]
    split
    · rfl
    · rename_i hnew
      exact h.agree x hx (lt_of_not_ge fun hge => hnew (hi_le x hge hx'))
  · omega
  · omega
  · exact .fails _

/-- The copier reads only bytes between `lo` and its cursor (42_match_copier.md R160). -/
theorem copyLoop_alike {distance count cursor : Nat} (h : SpacesAlike lo cursor sp sp') (h1 : 1 ≤ distance)
    (h2 : lo + distance ≤ cursor) :
    EndsAlike (SpacesAlike lo (cursor + count)) AnyStates (copyLoop distance count cursor sp)
      (copyLoop distance count cursor sp') := by
  induction count generalizing cursor sp sp' with
  | zero => exact .ok () h
  | succ count ih =>
    unfold copyLoop
    refine (loadBytes_alike h (by omega) (by omega)).bind fun bs u v hl huv => ?_
    have hlen := loadBytes_length hl
    refine (storeBytes_alike (hi' := cursor + 1) huv fun x _ _ => by omega).bind fun _ u v _ huv => ?_
    rw [show cursor + (count + 1) = cursor + 1 + count by omega]
    exact ih huv (by omega)

theorem copyMatch_alike {cursor length distance bufend : Nat} (h : SpacesAlike lo cursor sp sp') :
    EndsAlike (SpacesAlike lo (cursor + length)) AnyStates (copyMatch lo cursor length distance bufend sp)
      (copyMatch lo cursor length distance bufend sp') := by
  unfold copyMatch
  refine .ite (fun hc => ?_) fun _ => .fails _
  simp only [copyAllowed, Bool.and_eq_true, decide_eq_true_eq] at hc
  exact (copyLoop_alike h (by omega) (by omega)).bind fun _ u v _ huv => .ok _ huv

end

end Sys2Proof.Machine

/-! ## A chunk's bytes do not depend on what the output held before -/

namespace Sys2Proof.Machine

/-! ### Sessions -/

section
variable {job : Job} {s t : Sess} {α : Type}

/-- Two sessions that differ in their output memories alone, which read alike from the output's start up to `hi`. -/
def SessAlikeTo (job : Job) (hi : Nat) (s t : Sess) : Prop :=
  ∃ out, t = { s with out := out } ∧ SpacesAlike job.outBase hi s.out out

/-- Two sessions alike up to their output position. -/
def SessAlike (job : Job) (s t : Sess) : Prop := SessAlikeTo job (job.outBase + s.pos) s t

theorem onReader_alike {f : Run BitReader α} (h : SessAlike job s t) :
    EndsAlike (SessAlike job) AnyStates (onReader f s) (onReader f t) := by
  obtain ⟨out, rfl, ho⟩ := h
  exact .zoom_same rfl (fun _ => ⟨out, rfl, ho⟩) fun _ => trivial

theorem onOut_alike {f : Run Space α} {hi : Nat} {out : Space}
    (h : EndsAlike (SpacesAlike job.outBase hi) AnyStates (f s.out) (f out)) :
    EndsAlike (fun u v => u.pos = s.pos ∧ SessAlikeTo job hi u v) AnyStates (onOut f s)
      (onOut f { s with out := out }) :=
  .zoom h (fun _ v huv => ⟨rfl, v, rfl, huv⟩) fun _ _ _ => trivial

theorem moveTo_alike {p : Nat} (h : SessAlikeTo job (job.outBase + p) s t) :
    EndsAlike (SessAlike job) AnyStates (moveTo p s) (moveTo p t) := by
  obtain ⟨out, rfl, ho⟩ := h
  exact .ok _ ⟨out, rfl, ho⟩

theorem emitLiteral_alike {sym : Nat} (h : SessAlike job s t) :
    EndsAlike (SessAlike job) AnyStates (emitLiteral job sym s) (emitLiteral job sym t) := by
  obtain ⟨out, rfl, ho⟩ := h
  refine .get_bind ((onOut_alike (storeBytes_alike ho ?_)).bind fun _ u v _ huv => moveTo_alike huv.2)
  intro x h1 h2
  simp only [List.length_cons, List.length_nil]
  omega

theorem emitMatch_alike {length dist stop : Nat} (h : SessAlike job s t) :
    EndsAlike (SessAlike job) AnyStates (emitMatch job length dist stop s) (emitMatch job length dist stop t) := by
  obtain ⟨out, rfl, ho⟩ := h
  refine .get_bind ((onOut_alike (copyMatch_alike ho)).bind fun c u v hc huv => moveTo_alike ?_)
  obtain ⟨sp, hsp, -⟩ := zoom_ok_inv hc
  rw [(copyMatch_ok hsp).1, show job.outBase + (job.outBase + s.pos + length - job.outBase) =
    job.outBase + s.pos + length by omega]
  exact huv.2

theorem exhaustionCheck_alike {hi : Nat} (h : SessAlikeTo job hi s t) :
    EndsAlike (SessAlikeTo job hi) AnyStates (exhaustionCheck job s) (exhaustionCheck job t) := by
  obtain ⟨out, rfl, ho⟩ := h
  exact .get_bind (.ite (fun _ => .fails _) fun _ => .ok _ ⟨out, rfl, ho⟩)

/-! ### Codec A (43_codec_a.md R176) -/

theorem caItem_alike {table : List Entry} (h : SessAlike job s t) :
    EndsAlike (SessAlike job) AnyStates (caItem job table s) (caItem job table t) := by
  refine (onReader_alike h).bind fun sym u v _ huv => .ite (fun _ => emitLiteral_alike huv) fun _ => ?_
  refine (onReader_alike huv).bind fun p u v _ huv => .get_bind ?_
  obtain ⟨out, rfl, ho⟩ := huv
  exact .ite (fun _ => .fails _) fun _ => .ite (fun _ => .fails _) fun _ => emitMatch_alike ⟨out, rfl, ho⟩

theorem caLoop_alike {table : List Entry} {fuel : Nat} (h : SessAlike job s t) :
    EndsAlike (SessAlike job) AnyStates (caLoop job table fuel s) (caLoop job table fuel t) := by
  induction fuel generalizing s t with
  | zero => exact .ok () h
  | succ fuel ih =>
    refine .get_bind ?_
    obtain ⟨out, rfl, ho⟩ := h
    exact .ite (fun _ => .ok () ⟨out, rfl, ho⟩) fun _ => (caItem_alike ⟨out, rfl, ho⟩).bind fun _ _ _ _ huv => ih huv

end

/-- A session over two output memories: it starts alike, whatever they hold. -/
theorem runSession_alike {job : Job} {f : Run Sess Unit} {r : BitReader} {out out' : Space} (h : out'.limit = out.limit)
    (hf : ∀ s t, s = { reader := r, out := out, pos := 0 } → SessAlike job s t →
      EndsAlike (SessAlikeTo job (job.outBase + job.outSize)) AnyStates (f s) (f t)) :
    EndsAlike (SpacesAlike job.outBase (job.outBase + job.outSize)) AnyStates (runSession r f out)
      (runSession r f out') := by
  have hs := hf { reader := r, out := out, pos := 0 } { reader := r, out := out', pos := 0 } rfl
    ⟨out', rfl, h, fun a h1 h2 => absurd h2 (by simp only; omega)⟩
  unfold runSession
  generalize f { reader := r, out := out, pos := 0 } = x at hs
  generalize f { reader := r, out := out', pos := 0 } = y at hs
  cases hs with
  | ok _ huv =>
    obtain ⟨sp, rfl, hsp⟩ := huv
    exact .ok () hsp
  | error e _ => exact .fails e

/-- CaDecode over two output memories of one size. -/
theorem caDecode_alike {job : Job} {out out' : Space} (h : out'.limit = out.limit) :
    EndsAlike (SpacesAlike job.outBase (job.outBase + job.outSize)) AnyStates (caDecode job out)
      (caDecode job out') := by
  refine .ite (fun _ => .fails _) fun _ => runSession_alike h fun s t hs hst => ?_
  have hpos : s.pos = 0 := by rw [hs]
  refine (EndsAlike.orFault hst trivial).bind fun header u v h1 huv => ?_
  cases (always_orFault (P := Eq) (fun _ => rfl) _).ok h1
  refine (EndsAlike.buildOrFail huv trivial).bind fun table u v h2 huv => ?_
  cases (buildOrFail_keeps _ _ _ _).ok h2
  refine (caLoop_alike huv).bind fun _ u v h3 huv => exhaustionCheck_alike ?_
  rw [← (caLoop_fills (by omega) (by omega) h3).1]
  exact huv

/-! ### Codec B (44_codec_b.md) -/

section
variable {job : Job} {s t : CbSess} {α : Type}

/-- Two sessions that differ in their shared parts alone, which are related by `Q`. -/
def OnBases (Q : Sess → Sess → Prop) (s t : CbSess) : Prop := ∃ b, t = { s with base := b } ∧ Q s.base b

theorem OnBases.pos_eq (h : OnBases (SessAlike job) s t) : t.base.pos = s.base.pos := by
  obtain ⟨b, rfl, out, rfl, -⟩ := h
  rfl

theorem onBase_alike {Q : Sess → Sess → Prop} {f : Run Sess α} {b : Sess}
    (h : EndsAlike Q AnyStates (f s.base) (f b)) :
    EndsAlike (OnBases Q) AnyStates (onBase f s) (onBase f { s with base := b }) :=
  .zoom h (fun _ v huv => ⟨v, rfl, huv⟩) fun _ _ _ => trivial

theorem onCbReader_alike {f : Run BitReader α} (h : OnBases (SessAlike job) s t) :
    EndsAlike (OnBases (SessAlike job)) AnyStates (onCbReader f s) (onCbReader f t) := by
  obtain ⟨b, rfl, hb⟩ := h
  exact onBase_alike (onReader_alike hb)

theorem offset_alike {aligned : List Entry} {btype slot : Nat} (h : OnBases (SessAlike job) s t) :
    EndsAlike (OnBases (SessAlike job)) AnyStates (offset job aligned btype slot s)
      (offset job aligned btype slot t) := by
  refine .ite (fun _ => .get_bind ?_) fun _ => (onCbReader_alike h).bind fun d u v _ huv => ?_
  · obtain ⟨b, rfl, hb⟩ := h
    exact .ok _ ⟨b, rfl, hb⟩
  · obtain ⟨b, rfl, hb⟩ := huv
    exact .ok _ ⟨b, rfl, hb⟩

theorem cbItem_alike {tables : CbTables} {btype bend : Nat} (h : OnBases (SessAlike job) s t) :
    EndsAlike (OnBases (SessAlike job)) AnyStates (cbItem job tables btype bend s)
      (cbItem job tables btype bend t) := by
  refine (onCbReader_alike h).bind fun sym u v _ huv => .ite (fun _ => ?_) fun _ => ?_
  · obtain ⟨b, rfl, hb⟩ := huv
    exact onBase_alike (emitLiteral_alike hb)
  · refine (onCbReader_alike huv).bind fun length u v _ huv => (offset_alike huv).bind fun dist u v _ huv =>
      .get_bind ?_
    obtain ⟨b, rfl, hb⟩ := huv
    obtain ⟨out, rfl, ho⟩ := hb
    exact .ite (fun _ => .fails _) fun _ => .ite (fun _ => .fails _) fun _ =>
      onBase_alike (emitMatch_alike ⟨out, rfl, ho⟩)

theorem cbItems_alike {tables : CbTables} {btype bend fuel : Nat} (h : OnBases (SessAlike job) s t) :
    EndsAlike (OnBases (SessAlike job)) AnyStates (cbItems job tables btype bend fuel s)
      (cbItems job tables btype bend fuel t) := by
  induction fuel generalizing s t with
  | zero => exact .ok () h
  | succ fuel ih =>
    refine .get_bind ?_
    rw [h.pos_eq]
    exact .ite (fun _ => .ok () h) fun _ => (cbItem_alike h).bind fun _ _ _ _ huv => ih huv

theorem uncompressed_alike {bsize : Nat} (h : OnBases (SessAlike job) s t) :
    EndsAlike (OnBases (SessAlike job)) AnyStates (uncompressed job bsize s) (uncompressed job bsize t) := by
  refine (onCbReader_alike h).bind fun q u v _ huv => ?_
  obtain ⟨b, rfl, hb⟩ := huv
  refine (EndsAlike.modify (R := OnBases (SessAlike job)) ⟨b, rfl, hb⟩).bind fun _ u v _ huv => ?_
  refine .ite (fun _ => .fails _) fun _ => (onCbReader_alike huv).bind fun bs u v hbs huv =>
    .get_bind ?_
  obtain ⟨r, hr, -⟩ := onCbReader_ok hbs
  have hlen := readBytes_length hr
  obtain ⟨b, rfl, out, rfl, ho⟩ := huv
  refine (onBase_alike (onOut_alike (storeBytes_alike (hi' := job.outBase + (u.base.pos + bsize)) ho ?_))).bind
    fun _ u' v _ huv => ?_
  · intro x h1 h2
    omega
  · obtain ⟨b, rfl, -, hb⟩ := huv
    refine (onBase_alike (moveTo_alike hb)).bind fun _ u v _ huv => .ite (fun _ => ?_) fun _ => .ok _ huv
    exact (onCbReader_alike huv).bind fun _ u v _ huv => .ok _ huv

theorem blockAligned_alike {btype : Nat} (h : OnBases (SessAlike job) s t) :
    EndsAlike (OnBases (SessAlike job)) AnyStates (blockAligned job btype s) (blockAligned job btype t) :=
  .ite (fun _ => onCbReader_alike h) fun _ => .ok _ h

theorem codeLengths_alike {w btype : Nat} (h : OnBases (SessAlike job) s t) :
    EndsAlike (OnBases (SessAlike job)) AnyStates (codeLengths job w btype s) (codeLengths job w btype t) := by
  refine (blockAligned_alike h).bind fun aligned u v _ huv => .get_bind ?_
  have hlens : v.mainLens = u.mainLens ∧ v.lenLens = u.lenLens := by
    obtain ⟨b, rfl, -⟩ := huv
    exact ⟨rfl, rfl⟩
  rw [hlens.1, hlens.2]
  refine (onCbReader_alike huv).bind fun main1 u v _ huv => (onCbReader_alike huv).bind fun main2 u v _ huv =>
    (onCbReader_alike huv).bind fun len u v _ huv => ?_
  obtain ⟨b, rfl, hb⟩ := huv
  refine (EndsAlike.modify (R := OnBases (SessAlike job)) ⟨b, rfl, hb⟩).bind fun _ u v _ huv => ?_
  exact (EndsAlike.buildOrFail huv trivial).bind fun mainTable u v _ huv =>
    (EndsAlike.buildOrFail huv trivial).bind fun lenTable u v _ huv => .ok _ huv

theorem cbBlock_alike {w : Nat} (h : OnBases (SessAlike job) s t) :
    EndsAlike (OnBases (SessAlike job)) AnyStates (cbBlock job w s) (cbBlock job w t) := by
  refine (onCbReader_alike h).bind fun p u v _ huv => .get_bind ?_
  rw [huv.pos_eq]
  exact .ite (fun _ => .ite (fun _ => uncompressed_alike huv) fun _ =>
    (codeLengths_alike huv).bind fun tables u v _ huv => cbItems_alike huv) fun _ => .fails _

theorem cbBlocks_alike {w fuel : Nat} (h : OnBases (SessAlike job) s t) :
    EndsAlike (OnBases (SessAlike job)) AnyStates (cbBlocks job w fuel s) (cbBlocks job w fuel t) := by
  induction fuel generalizing s t with
  | zero => exact .ok () h
  | succ fuel ih =>
    refine .get_bind ?_
    rw [h.pos_eq]
    exact .ite (fun _ => .ok () h) fun _ => (cbBlock_alike h).bind fun _ _ _ _ huv => ih huv

end

section
variable {outBase n : Nat} {sp sp' : Space}

theorem e8Translate_alike {i : Nat} (h : SpacesAlike outBase (outBase + n) sp sp') (hi : i + 10 < n) :
    EndsAlike (SpacesAlike outBase (outBase + n)) AnyStates (e8Translate outBase i sp) (e8Translate outBase i sp') := by
  refine (loadBytes_alike h (by omega) (by omega)).bind fun bs u v _ huv => ?_
  cases e8Field (BitVec.ofNat 32 (leNat bs)) i with
  | some x => exact storeBytes_alike huv fun a h1 h2 => by omega
  | none => exact .ok () huv

theorem e8Loop_alike {fuel i : Nat} (h : SpacesAlike outBase (outBase + n) sp sp') :
    EndsAlike (SpacesAlike outBase (outBase + n)) AnyStates (e8Loop outBase n fuel i sp)
      (e8Loop outBase n fuel i sp') := by
  induction fuel generalizing i sp sp' with
  | zero => exact .ok () h
  | succ fuel ih =>
    refine .ite (fun hi => ?_) fun _ => .ok () h
    refine (loadBytes_alike h (by omega) (by omega)).bind fun bs u v _ huv => .ite (fun _ => ?_) fun _ => ih huv
    exact (e8Translate_alike huv hi).bind fun _ u v _ huv => ih huv

/-- E8 translation reads and writes the chunk's output alone (R208). -/
theorem e8Undo_alike (h : SpacesAlike outBase (outBase + n) sp sp') :
    EndsAlike (SpacesAlike outBase (outBase + n)) AnyStates (e8Undo outBase n sp) (e8Undo outBase n sp') :=
  .ite (fun _ => .ok () h) fun _ => e8Loop_alike h

end

theorem cbSession_alike {job : Job} {w : Nat} {out out' : Space} (h : out'.limit = out.limit) :
    EndsAlike (OnBases (SessAlikeTo job (job.outBase + job.outSize))) AnyStates
      (cbSession job w (sessionStart job w out)) (cbSession job w (sessionStart job w out')) := by
  have hstart : OnBases (SessAlike job) (sessionStart job w out) (sessionStart job w out') :=
    ⟨_, rfl, out', rfl, h, fun a h1 h2 => absurd h2 (by simp only [sessionStart]; omega)⟩
  refine (cbBlocks_alike hstart).bind fun _ u v hb huv => ?_
  obtain ⟨hend, -⟩ := cbBlocks_fills (Nat.zero_le _) (by simp [sessionStart]) hb
  obtain ⟨b, rfl, hsess⟩ := huv
  rw [SessAlike, hend] at hsess
  refine (onBase_alike (exhaustionCheck_alike hsess)).bind fun _ u v _ huv => ?_
  obtain ⟨b, rfl, out, rfl, ho⟩ := huv
  exact (onBase_alike ((onOut_alike (e8Undo_alike ho)).mono fun _ _ huv => huv.2))

/-- CbDecode over two output memories of one size. -/
theorem cbDecode_alike {job : Job} {w : Nat} {out out' : Space} (h : out'.limit = out.limit) :
    EndsAlike (SpacesAlike job.outBase (job.outBase + job.outSize)) AnyStates (cbDecode job w out)
      (cbDecode job w out') := by
  have hs := cbSession_alike (job := job) (w := w) h
  rcases cbDecode_session job w out with ⟨s, e, hd⟩ | ⟨x, s, e, hd⟩ <;>
    rcases cbDecode_session job w out' with ⟨s', e', hd'⟩ | ⟨x', s', e', hd'⟩ <;> rw [e, e'] at hs <;> rw [hd, hd'] <;>
    cases hs
  · rename_i huv
    obtain ⟨b, rfl, sp, rfl, hsp⟩ := huv
    exact .ok () hsp
  · exact .fails _

/-- A chunk expands alike over any two buffers of one size (45_context.md R239). -/
theorem expandChunk_alike {params : Params} {codec : Codec} {stored : List Byte} {u : Nat} {out out' : Space}
    (h : out'.limit = out.limit) :
    EndsAlike (SpacesAlike 0 u) AnyStates (expandChunk params codec stored u out)
      (expandChunk params codec stored u out') := by
  refine .ite (fun hraw => ?_) fun _ => ?_
  · exact storeBytes_alike (hi := 0) ⟨h, fun a _ ha => absurd ha (Nat.not_lt_zero a)⟩ fun a _ _ => by omega
  · cases codec with
    | a => simpa [stageJob] using caDecode_alike (job := stageJob params stored u) h
    | b => simpa [stageJob] using cbDecode_alike (job := stageJob params stored u) (w := 15) h

end Sys2Proof.Machine

/-! ## The cache stays coherent -/

namespace Sys2Proof.Machine

/-- A state whose world and context are those of a coherent one is coherent. -/
theorem CacheCoherent.of_eq {s t : State} (h : CacheCoherent s) (hw : t.world = s.world) (hc : t.ctx = s.ctx) :
    CacheCoherent t := by
  unfold CacheCoherent
  rw [hw, hc]
  exact h

theorem cacheCoherent_of_invalid {s : State} (h : s.ctx.cacheValid = false) : CacheCoherent s :=
  fun hv => absurd (h.symm.trans hv) (by decide)

/-- A chunk that expands over any buffer decodes, to bytes alike. -/
theorem expandChunk_decodes {params : Params} {codec : Codec} {stored : List Byte} {u : Nat} {out out' : Space}
    (h : expandChunk params codec stored u out = .ok () out') (hu : out.limit = u) :
    ∃ cells, expandChunk params codec stored u { limit := u, cells := [] } = .ok () { limit := u, cells := cells } ∧
      AgreeOn cells out'.cells 0 u := by
  obtain ⟨sp, he, hsp⟩ := (expandChunk_alike (params := params) (codec := codec) (stored := stored) (u := u)
    (out := out) (out' := { limit := u, cells := [] }) hu.symm).of_ok h
  have hlim : sp.limit = u := ((expandChunk_within params codec stored u).ok he).limit
  refine ⟨sp.cells, ?_, fun a h1 h2 => (hsp.agree a h1 h2).symm⟩
  rw [he, ← hlim]

/-- The bytes StoreRead gives for a chunk are its stored bytes. -/
theorem chunkRead_ok {s u t : State} {c : Nat} {bs : List Byte} (h : chunkRead s c u = .ok (some bs) t) :
    bs = storeSlice u.world s.ctx.handle (s.ctx.tsize + s.ctx.cstart.getD c 0)
      (s.ctx.cstart.getD (c + 1) 0 - s.ctx.cstart.getD c 0) := by
  unfold chunkRead at h
  rcases storeRead_run s.ctx.handle (s.ctx.tsize + s.ctx.cstart.getD c 0)
    (s.ctx.cstart.getD (c + 1) 0 - s.ctx.cstart.getD c 0) u with ⟨-, -, e⟩ | e <;> rw [e] at h <;> cases h
  rfl

/-- EnsureChunk keeps the cache coherent, however it ends (45_context.md R239). -/
theorem ensureChunk_coherent (c : Nat) {s : State} (hs : CacheCoherent s) :
    CacheCoherent (stateOf (ensureChunk c s)) := by
  rcases ensureChunk_cases c s with ⟨-, -, e⟩ | ⟨-, e | ⟨bs, hbs, e⟩⟩ <;> rw [e]
  · exact hs
  · exact cacheCoherent_of_invalid rfl
  · rcases onCache_cases (chunkLength s.ctx.lsize s.ctx.order c)
      (expandChunk s.world.params s.ctx.codec bs (chunkLength s.ctx.lsize s.ctx.order c)) (dropCache s).countIo with
      ⟨_, sp, hx, e'⟩ | ⟨x, sp, -, e'⟩
    · rw [bind_of_ok e']
      obtain ⟨cells, hdec, hagree⟩ := expandChunk_decodes hx rfl
      rw [chunkRead_ok hbs] at hdec
      exact fun _ => ⟨cells, hdec, hagree⟩
    · rw [bind_of_error e']
      exact cacheCoherent_of_invalid rfl

theorem onFail_coherent {α : Type} {s : State} {f : Run State α} (h : CacheCoherent (stateOf (f s))) :
    CacheCoherent (stateOf (onFail failRead f s)) := by
  rcases onFail_cases failRead f s with ⟨a, t, hf, e⟩ | ⟨x, t, hf, e⟩ | ⟨c, t, hf, e⟩ <;> rw [hf] at h <;> rw [e]
  · exact h
  · exact cacheCoherent_of_invalid rfl
  · exact h

theorem onLmem_coherent {α : Type} {s : State} (f : Run Space α) (h : CacheCoherent s) :
    CacheCoherent (stateOf (onLmem f s)) := by
  rcases onLmem_cases f s with ⟨a, sp, -, e⟩ | ⟨x, sp, -, e⟩ <;> rw [e] <;> exact h

theorem copyChunk_coherent {p m dst c : Nat} {s : State} (hs : CacheCoherent s) :
    CacheCoherent (stateOf (copyChunk p m dst c s)) := by
  refine stateOf_bind (onFail_coherent (ensureChunk_coherent c hs)) fun _ t _ ht => ?_
  refine stateOf_check_bind (x := get) (fun _ => rfl) ht fun _ _ => ?_
  refine stateOf_check_bind (onCache_keeps (loadBytes_keeps _ _) _) ht fun _ _ => ?_
  exact onLmem_coherent _ ht

theorem copyChunks_coherent {p m dst count c : Nat} {s : State} (hs : CacheCoherent s) :
    CacheCoherent (stateOf (copyChunks p m dst count c s)) := by
  induction count generalizing c s with
  | zero => exact hs
  | succ count ih => exact stateOf_bind (copyChunk_coherent hs) fun _ _ _ ht => ih ht

theorem readOpened_coherent {p cnt dst : Nat} {s : State} (hs : CacheCoherent s) :
    CacheCoherent (stateOf (readOpened p cnt dst s)) := by
  refine stateOf_check_bind (x := get) (fun _ => rfl) hs fun _ _ => ?_
  split
  · exact hs
  · refine stateOf_check_bind (requireLmem_keeps _ _) hs fun _ _ => ?_
    split
    · exact hs
    · exact stateOf_bind (copyChunks_coherent hs) fun _ _ _ ht => ht

/-- A command whose body keeps the cache coherent, however it ends, does. -/
theorem coherent_of_body {i : Instr} {body : Run State Unit}
    (h : ∀ s, CacheCoherent s → CacheCoherent (stateOf (body s)))
    {s t : State} (e : runCommand i body s = .next t) (hs : CacheCoherent s) : CacheCoherent t := by
  obtain ⟨u, hu, ⟨c, rfl⟩ | ⟨c, rfl⟩⟩ := runCommand_always (P := fun s t => CacheCoherent s → CacheCoherent t) h e <;>
    exact (hu hs).of_eq rfl rfl

theorem ctxRead_coherent {s t : State} (e : exec .ctxRead s = .next t) (hs : CacheCoherent s) : CacheCoherent t := by
  refine coherent_of_body (fun s hs => ?_) e hs
  refine stateOf_check_bind (x := get) (fun _ => rfl) hs fun _ _ => ?_
  split
  · refine stateOf_check_bind (readArg_keeps 0) hs fun p _ => ?_
    refine stateOf_check_bind (readArg_keeps 1) hs fun cnt _ => ?_
    exact stateOf_check_bind (readArg_keeps 2) hs fun dst _ => readOpened_coherent hs
  · exact hs

theorem openChecked_coherent {h : Word64} {lsize order : Nat} {cd : Codec} {s : State} (hs : CacheCoherent s) :
    CacheCoherent (stateOf (openChecked h lsize cd order s)) := by
  refine stateOf_check_bind (requireOperand_keeps _ _) hs fun _ _ => ?_
  refine stateOf_check_bind (x := get) (fun _ => rfl) hs fun _ _ => ?_
  refine stateOf_check_bind (requireOperand_keeps _ _) hs fun _ _ => ?_
  refine stateOf_check_bind (requireOperand_keeps _ _) hs fun _ _ => ?_
  refine stateOf_bind ?_ fun _ t _ ht => ?_
  · unfold readIndex
    split
    · exact hs
    · rcases storeRead_run h 0 (indexSize lsize (chunkCount lsize order)) s with ⟨-, -, e⟩ | e <;> rw [bind_of_ok e] <;>
        exact hs
  · exact stateOf_check_bind (requireOperand_keeps _ _) ht fun _ _ => cacheCoherent_of_invalid rfl

theorem ctxOpen_coherent {s t : State} (e : exec .ctxOpen s = .next t) (hs : CacheCoherent s) : CacheCoherent t := by
  refine coherent_of_body (fun s hs => ?_) e hs
  refine stateOf_check_bind (x := get) (fun _ => rfl) hs fun _ _ => ?_
  refine stateOf_check_bind (requireOperand_keeps _ _) hs fun _ _ => ?_
  refine stateOf_check_bind (readArgWord_keeps 0) hs fun h _ => ?_
  refine stateOf_check_bind (readArg_keeps 1) hs fun lsize _ => ?_
  refine stateOf_check_bind (readArg_keeps 2) hs fun codec _ => ?_
  refine stateOf_check_bind (readArg_keeps 3) hs fun order _ => ?_
  cases legalCodec codec order with
  | none => exact hs
  | some cd => exact openChecked_coherent hs

/-- Every command keeps the cache coherent; only three of them reach the context at all. -/
theorem exec_coherent {i : Instr} {s t : State} (e : exec i s = .next t) (hs : CacheCoherent s) : CacheCoherent t := by
  by_cases hi : i ∈ ([.ctxOpen, .ctxRead, .ctxClose] : List Instr)
  · simp only [List.mem_cons, List.not_mem_nil, or_false] at hi
    rcases hi with rfl | rfl | rfl
    · exact ctxOpen_coherent e hs
    · exact ctxRead_coherent e hs
    · cases e
      exact cacheCoherent_of_invalid rfl
  · obtain ⟨t', e', -, -, hworld, -⟩ := everyCommandHasOneOutcome i s
    cases e.symm.trans e'
    exact hs.of_eq hworld ((commandsChangeOnlyTheirOwnUnit i s t e).2.1 hi)

theorem writeCmd_coherent {w : Word32} {s t : State} (e : writeCmd w s = .next t) (hs : CacheCoherent s) :
    CacheCoherent t := by
  rcases writeCmd_cases w s with ⟨-, h⟩ | ⟨-, -, h⟩ | ⟨-, -, ⟨i, -, h⟩ | ⟨x, -, h⟩⟩ <;> rw [h] at e
  · cases e
    exact hs
  · cases e
    exact hs
  · exact exec_coherent e (hs.of_eq rfl rfl)
  · cases e
    exact hs

/-- Settles O57: a chunk expands alike over the old buffer and over an empty one, and all else that reaches the context
drops the cache. -/
theorem cacheStaysCoherent : Obligations.CacheStaysCoherent := by
  intro s t _ hs ht
  cases hh : s.host with
  | nil =>
    rw [step_idle hh] at ht
    cases ht
    exact hs
  | cons e rest =>
    rw [step_action hh] at ht
    have hrest : CacheCoherent (s.nextActions rest) := hs
    rcases hostAction_cases ht with ⟨-, rfl⟩ | ⟨w, -, hw⟩ | hm
    · exact cacheCoherent_of_invalid rfl
    · exact writeCmd_coherent hw hrest
    · cases hm <;> exact hrest

end Sys2Proof.Machine

/-! ## The bit reader reads only its input -/

namespace Sys2Proof.Machine

/-! ### Internal functions over inputs that read alike (40_bit_reader.md R121) -/

section
variable {inp inp' : Space} {r : BitReader}

theorem ensure_congr {n : Nat} (h : SpacesAlike r.start r.stop inp inp') (hs : r.start ≤ r.next) :
    ensure inp' n r = ensure inp n r := by
  unfold ensure
  rw [bind_of_ok (get_run r), bind_of_ok (get_run r)]
  split
  · rfl
  · split
    · rfl
    · rw [memRead_congr (h.mono hs (by omega))]

theorem readBits_congr {n : Nat} (h : SpacesAlike r.start r.stop inp inp') (hs : r.start ≤ r.next) :
    readBits inp' n r = readBits inp n r := by
  unfold readBits
  rw [bind_run, bind_run, ensure_congr h hs]

theorem readLit_congr {k : Nat} (h : SpacesAlike r.start r.stop inp inp') (hs : r.start ≤ r.next) :
    readLit inp' k r = readLit inp k r := by
  unfold readLit
  rw [bind_of_ok (get_run r), bind_of_ok (get_run r)]
  split
  · rfl
  · rw [memRead_congr (h.mono hs (by omega))]

end

/-! ### Commands over two memories -/

section
variable {m : Memory} {s : State} {α : Type}

/-- The second state is the first over the memory `m`. -/
def Over (m : Memory) (s t : State) : Prop := t = s.setLmem m

/-- Commands whose bodies end alike over two memories do. -/
theorem runCommand_over {i : Instr} {body : Run State Unit} {t : State}
    (h : EndsAlike (Over m) (Over m) (body s) (body (s.setLmem m))) (e : runCommand i body s = .next t) :
    runCommand i body (s.setLmem m) = .next (t.setLmem m) := by
  unfold runCommand at e ⊢
  generalize body s = x at h e
  generalize body (s.setLmem m) = y at h ⊢
  cases h with
  | ok _ h =>
    cases h
    cases e
    rfl
  | error x h =>
    cases h
    cases x <;> cases e <;> rfl

theorem bitCount_over (n : BitVec 5) :
    EndsAlike (Over m) (Over m) (bitCount n s) (bitCount n (s.setLmem m)) :=
  .ite (fun _ => .ok _ rfl) fun _ => .error _ rfl

theorem prologue_over : EndsAlike (Over m) (Over m) (prologue s) (prologue (s.setLmem m)) :=
  .get_bind (.ite (fun _ => .ok _ rfl) fun _ => .error _ rfl)

theorem setResult_over (v : Nat) : EndsAlike (Over m) (Over m) (setResult v s) (setResult v (s.setLmem m)) := .ok _ rfl

/-- Work on BR0 that gives the same over both memories. -/
theorem onBr0_over {f : Space → Run BitReader α}
    (h : f (lmemSpace (s.setLmem m)) s.br0 = f (lmemSpace s) s.br0) :
    EndsAlike (Over m) (Over m) (onBr0 f s) (onBr0 f (s.setLmem m)) := by
  unfold onBr0 zoom
  rw [setLmem_br0, h]
  cases f (lmemSpace s) s.br0 with
  | ok a r => exact .ok a rfl
  | error e r => exact .error e rfl

theorem onBr0Result_over {f : Space → Run BitReader Nat}
    (h : f (lmemSpace (s.setLmem m)) s.br0 = f (lmemSpace s) s.br0) :
    EndsAlike (Over m) (Over m) ((onBr0 f >>= setResult) s) ((onBr0 f >>= setResult) (s.setLmem m)) := by
  refine (onBr0_over h).bind fun v t u _ htu => ?_
  cases htu
  exact setResult_over v

theorem literalCommand_over {k : Nat} (hs : s.br0.start ≤ s.br0.next)
    (h : SpacesAlike s.br0.start s.br0.stop (lmemSpace s) (lmemSpace (s.setLmem m))) :
    EndsAlike (Over m) (Over m) (literalCommand k s) (literalCommand k (s.setLmem m)) := by
  refine prologue_over.bind fun _ u v hp huv => ?_
  cases prologue_keeps.ok hp
  cases huv
  exact onBr0Result_over (readLit_congr h hs)

/-- A bit command: the check of its bit count, the check that BR0 is there, and what it does then. -/
theorem bitCommand_over {n : BitVec 5} {f : Nat → Run State Unit}
    (h : ∀ k, EndsAlike (Over m) (Over m) (f k s) (f k (s.setLmem m))) :
    EndsAlike (Over m) (Over m) ((bitCount n >>= fun k => prologue >>= fun _ => f k) s)
      ((bitCount n >>= fun k => prologue >>= fun _ => f k) (s.setLmem m)) := by
  refine (bitCount_over n).bind fun k u v hk huv => ?_
  cases (bitCount_keeps n).ok hk
  cases huv
  refine prologue_over.bind fun _ u v hp huv => ?_
  cases prologue_keeps.ok hp
  cases huv
  exact h k

end

/-- Settles O27: each body ends alike over both memories, as what it reads of them lies in the input. -/
theorem bitReaderReadsOnlyItsInput : Obligations.BitReaderReadsOnlyItsInput := by
  intro n i s t m hi hs hagree ht
  have hin : SpacesAlike s.br0.start s.br0.stop (lmemSpace s) (lmemSpace (s.setLmem m)) := ⟨rfl, hagree⟩
  simp only [List.mem_cons, List.not_mem_nil, or_false] at hi
  change exec i (s.setLmem m) = .next (t.setLmem m)
  rcases hi with rfl | rfl | rfl | rfl | rfl | rfl | rfl | rfl
  · exact runCommand_over (bitCommand_over fun k => onBr0_over (ensure_congr hin hs)) ht
  · exact runCommand_over (bitCommand_over fun k => onBr0Result_over (f := fun _ => peek k) rfl) ht
  · exact runCommand_over (bitCommand_over fun k =>
      (onBr0_over (f := fun _ => pop k) rfl).bind fun _ _ _ _ huv => .ok _ huv) ht
  · exact runCommand_over (bitCommand_over fun k => onBr0Result_over (readBits_congr hin hs)) ht
  · exact runCommand_over (literalCommand_over hs hin) ht
  · exact runCommand_over (literalCommand_over hs hin) ht
  · exact runCommand_over (literalCommand_over hs hin) ht
  · refine runCommand_over (prologue_over.bind fun _ u v _ huv => ?_) ht
    cases huv
    exact EndsAlike.modify rfl

end Sys2Proof.Machine

/-! ## BR_READ_BYTES -/

namespace Sys2Proof.Machine

theorem readArg_of_argIs {s : State} {i : Fin 6} {v : Nat} (h : ArgIs s i v) : readArg i s = .ok v s := by
  obtain ⟨w, hw, rfl⟩ := h
  exact readArg_of_some hw

/-- The overlap test of the command rules finds a shared address exactly when there is one (20_memory.md R56). -/
theorem rangesOverlap_eq_false_iff {a n b m : Nat} : rangesOverlap a n b m = false ↔ Disjoint a n b m := by
  simp only [rangesOverlap, Bool.eq_false_iff, ne_eq, Bool.and_eq_true, decide_eq_true_eq, Disjoint]
  constructor
  · intro h x h1 h2 h3 h4
    omega
  · intro h hov
    exact h (max a b) (by omega) (by omega) (by omega) (by omega)

theorem requireDisjoint_of_disjoint {a n b m : Nat} {s : State} (h : Disjoint a n b m) :
    requireDisjoint a n b m s = .ok () s :=
  requireDisjoint_of_false (rangesOverlap_eq_false_iff.mpr h)

theorem requireDisjoint_of_not_disjoint {a n b m : Nat} {s : State} (h : ¬ Disjoint a n b m) :
    requireDisjoint a n b m s = .error (.fault .overlap) s :=
  requireDisjoint_of_true ((Bool.not_eq_false _).mp (mt rangesOverlap_eq_false_iff.mp h))

/-- Bytes that all hold values, inside the memory, are read (20_memory.md R53, R54). -/
theorem memReadBytes_of_written {sp : Space} {a n : Nat} (h : a + n ≤ sp.limit) (hw : Written sp.cells a n) :
    ∃ bs, memReadBytes sp a n = .ok bs := by
  cases hr : memReadBytes sp a n with
  | ok bs => exact ⟨bs, rfl⟩
  | error c =>
    rcases memReadBytes_error hr with ⟨-, -, hlt⟩ | ⟨-, i, hi, hn⟩
    · omega
    · have := hw i hi
      rw [hn] at this
      cases this

theorem readBytes_of_lt {inp : Space} {n : Nat} {r : BitReader} (h : r.stop < r.next + n) :
    readBytes inp n r = .error (.fail .truncated) r := by
  rcases readBytes_cases inp n r with ⟨-, e⟩ | ⟨h', -⟩
  · exact e
  · omega

theorem readBytes_of_written {inp : Space} {n : Nat} {r : BitReader} (h : r.next + n ≤ r.stop)
    (hlim : r.stop ≤ inp.limit) (hw : Written inp.cells r.next n) :
    ∃ bs, memReadBytes inp r.next n = .ok bs ∧ readBytes inp n r = .ok bs (advance n r) := by
  obtain ⟨bs, hbs⟩ := memReadBytes_of_written (h.trans hlim) hw
  rcases readBytes_cases inp n r with ⟨h', -⟩ | ⟨-, ⟨bs', hb, e⟩ | ⟨c, hc, -⟩⟩
  · omega
  · exact ⟨bs', hb, e⟩
  · rw [hbs] at hc
    cases hc

theorem onBr0_of_ok {α : Type} {f : Space → Run BitReader α} {s : State} {a : α} {r : BitReader}
    (h : f (lmemSpace s) s.br0 = .ok a r) : onBr0 f s = .ok a (s.setBr0 r) :=
  zoom_of_ok (part := State.br0) h

theorem onBr0_of_error {α : Type} {f : Space → Run BitReader α} {s : State} {e : Stop} {r : BitReader}
    (h : f (lmemSpace s) s.br0 = .error e r) : onBr0 f s = .error e (s.setBr0 r) :=
  zoom_of_error (part := State.br0) h

theorem storeBytes_of_le {a : Nat} {bs : List Byte} {sp : Space} (h : a + bs.length ≤ sp.limit) :
    storeBytes a bs sp = .ok () { sp with cells := writeCells sp.cells a bs } := by
  rcases storeBytes_cases a bs sp with ⟨-, e⟩ | ⟨-, h', -⟩
  · exact e
  · omega

/-- What BR_READ_BYTES does once its operands are read (40_bit_reader.md R115). -/
def copyInput (dst count : Nat) : Run State Unit := do
  requireLmem dst count
  let t ← get
  requireDisjoint dst count t.br0.start (t.br0.stop - t.br0.start)
  let bs ← onBr0 fun inp => readBytes inp count
  onLmem (storeBytes dst bs)

/-- BR_READ_BYTES on an initialised reader with written operands. -/
theorem exec_brReadBytes {s : State} {dst count : Nat} (hv : s.br0.valid = true) (hdst : ArgIs s 0 dst)
    (hcount : ArgIs s 1 count) : exec .brReadBytes s = runCommand .brReadBytes (copyInput dst count) s := by
  change runCommand .brReadBytes _ s = _
  unfold runCommand
  rw [bind_of_ok (prologue_of_valid hv), bind_of_ok (readArg_of_argIs hdst), bind_of_ok (readArg_of_argIs hcount)]
  rfl

theorem copyInput_of_disjoint {s : State} {dst count : Nat} (hle : dst + count ≤ 2 ^ s.world.params.addrBits)
    (hdis : Disjoint dst count s.br0.start (s.br0.stop - s.br0.start)) :
    copyInput dst count s =
      ((onBr0 fun inp => readBytes inp count) >>= fun bs => onLmem (storeBytes dst bs) : Run State Unit) s := by
  unfold copyInput
  rw [bind_of_ok (requireLmem_of_le hle), bind_of_ok (get_run s), bind_of_ok (requireDisjoint_of_disjoint hdis)]

/-- Settles O24: the checks in their order, then the bytes read and stored. -/
theorem brReadBytesCopiesOrRefuses : Obligations.BrReadBytesCopiesOrRefuses := by
  intro s dst count hvalid hdst hcount hstop
  rw [exec_brReadBytes hvalid hdst hcount]
  refine ⟨fun hlt => ?_, fun hle hov => ?_, fun hle hdis => ⟨fun hlt => ?_, fun hfit hw => ?_⟩⟩
  · exact runCommand_of_fault (bind_of_error (requireLmem_of_lt hlt))
  · refine runCommand_of_fault (c := .overlap) ?_
    rw [copyInput, bind_of_ok (requireLmem_of_le hle), bind_of_ok (get_run s)]
    exact bind_of_error (requireDisjoint_of_not_disjoint hov)
  · refine runCommand_of_fail (e := .truncated) (t := s) ?_
    rw [copyInput_of_disjoint hle hdis]
    exact bind_of_error (onBr0_of_error (readBytes_of_lt hlt))
  · obtain ⟨bs, hbs, hread⟩ := readBytes_of_written (inp := lmemSpace s) hfit hstop hw
    obtain ⟨-, rfl, hget⟩ := (memReadBytes_ok_iff _ _ _ _).mp hbs
    refine ⟨writeCells s.lmem dst bs, runCommand_of_ok
      (t := (s.setBr0 (advance bs.length s.br0)).setLmem (writeCells s.lmem dst bs)) ?_, fun j hj => ?_,
      fun a ha => readByte_writeCells_outside ha _⟩
    · rw [copyInput_of_disjoint hle hdis, bind_of_ok (onBr0_of_ok hread)]
      exact zoom_of_ok (storeBytes_of_le hle)
    · rw [readByte_writeCells_inside hj]
      exact (hget j hj).symm

end Sys2Proof.Machine

/-! ## The table builder stays within its size -/

namespace Sys2Proof.Machine

theorem symbolsOfLength_length (lens : List Nat) (len : Nat) : (symbolsOfLength lens len).length = lens.count len := by
  unfold symbolsOfLength
  generalize 0 = k
  induction lens generalizing k with
  | nil => rfl
  | cons l ls ih =>
    rw [List.zipIdx_cons, List.filterMap_cons]
    by_cases hl : l = len
    · simp [hl, ih (k + 1)]
    · simp [hl, ih (k + 1)]

/-! ### The direct region (41_huffman.md R136) -/

theorem directSlots_length (lens : List Nat) (tb len : Nat) :
    (directSlots lens tb len).length = lens.count len * 2 ^ (tb - len) := by
  simp [directSlots, List.length_flatMap, symbolsOfLength_length]

/-- The Kraft check of a length passes only if that of every shorter one does (R134). -/
theorem kraftLeft_isSome_of_le {lens : List Nat} {n k : Nat} (h : (kraftLeft lens n).isSome = true) (hk : k ≤ n) :
    (kraftLeft lens k).isSome = true := by
  induction n with
  | zero => rwa [Nat.le_zero.mp hk]
  | succ n ih =>
    rcases Nat.le_succ_iff.mp hk with hle | rfl
    · refine ih ?_ hle
      unfold kraftLeft at h
      cases hn : kraftLeft lens n with
      | none => rw [hn] at h; cases h
      | some left => rfl
    · exact h

/-- What the direct slots take of the direct region and what the Kraft check leaves make the whole of it. -/
theorem directPart_length {lens : List Nat} {tb k left : Nat} (hk : k ≤ tb) (h : kraftLeft lens k = some left) :
    (directPart lens tb k).length + left * 2 ^ (tb - k) = 2 ^ tb := by
  induction k generalizing left with
  | zero =>
    cases h
    simp [directPart]
  | succ k ih =>
    unfold kraftLeft at h
    cases hl : kraftLeft lens k with
    | none => rw [hl] at h; cases h
    | some before =>
      rw [hl] at h
      simp only at h
      split at h <;> cases h
      have hsum := ih (by omega) hl
      rw [show tb - k = tb - (k + 1) + 1 by omega, Nat.pow_succ] at hsum
      rw [directPart, List.length_append, directSlots_length, Nat.add_assoc, ← Nat.add_mul,
        Nat.add_sub_cancel' (by omega), ← hsum]
      ring

theorem directRegion_length {lens : List Nat} {tb maxLen : Nat} (htb : tb ≤ maxLen)
    (h : (kraftLeft lens maxLen).isSome = true) : (directRegion lens tb).length = 2 ^ tb := by
  obtain ⟨left, hl⟩ := Option.isSome_iff_exists.mp (kraftLeft_isSome_of_le h htb)
  have := directPart_length le_rfl hl
  simp only [directRegion, List.length_append, List.length_replicate]
  omega

/-! ### The trie (R137) -/

/-- A walk to a leaf `x` bits deep allocates at most two entries for each bit. -/
theorem trieDescend_length_le (code x : Nat) (table : List Entry) (node : Nat) :
    (trieDescend code x table node).1.length ≤ table.length + 2 * x := by
  induction x generalizing table node with
  | zero => exact le_rfl
  | succ x ih =>
    unfold trieDescend
    split
    · refine (ih _ _).trans ?_
      simp only [List.length_append, List.length_set, List.length_cons, List.length_nil]
      omega
    · exact (ih _ _).trans (by omega)

theorem trieSymbols_length_le (tb len : Nat) (syms : List Nat) (table : List Entry) (code : Nat) :
    (trieSymbols tb len syms table code).1.length ≤ table.length + 2 * (len - tb) * syms.length := by
  induction syms generalizing table code with
  | nil => exact le_rfl
  | cons sym rest ih =>
    have hins : (trieInsert tb len table code sym).length ≤ table.length + 2 * (len - tb) := by
      simpa [trieInsert] using trieDescend_length_le code (len - tb) table (code >>> (len - tb))
    calc (trieSymbols tb len (sym :: rest) table code).1.length
        ≤ (trieInsert tb len table code sym).length + 2 * (len - tb) * rest.length := ih _ _
      _ ≤ table.length + 2 * (len - tb) * (sym :: rest).length := by
        rw [List.length_cons, Nat.mul_succ]
        omega

/-- The symbols of the lengths tb+1 .. tb+k+1 are those up to tb+k and those of the last length. -/
theorem countP_lengths_succ (lens : List Nat) (tb k : Nat) :
    lens.countP (fun l => tb < l ∧ l ≤ tb + (k + 1)) =
      lens.countP (fun l => tb < l ∧ l ≤ tb + k) + lens.count (tb + k + 1) := by
  induction lens with
  | nil => rfl
  | cons l ls ih =>
    simp only [List.countP_cons, List.count_cons, ih, decide_eq_true_eq, beq_iff_eq]
    by_cases hl : l = tb + k + 1
    · rw [if_pos (by omega), if_neg (by omega), if_pos hl]
      omega
    · rw [if_neg hl, if_congr (show tb < l ∧ l ≤ tb + (k + 1) ↔ tb < l ∧ l ≤ tb + k by omega) rfl rfl]
      omega

/-- The lengths tb+1 .. tb+k allocate at most 2 * (max_len - tb) entries for each of their symbols. -/
theorem trieLengths_length_le {lens : List Nat} {tb maxLen k : Nat} (hk : tb + k ≤ maxLen) (table : List Entry)
    (code : Nat) :
    (trieLengths lens tb k table code).1.length ≤
      table.length + 2 * (maxLen - tb) * lens.countP (fun l => tb < l ∧ l ≤ tb + k) := by
  induction k with
  | zero => exact Nat.le_add_right _ _
  | succ k ih =>
    have hsyms := trieSymbols_length_le tb (tb + k + 1) (symbolsOfLength lens (tb + k + 1))
      (trieLengths lens tb k table code).1 (trieLengths lens tb k table code).2
    rw [symbolsOfLength_length] at hsyms
    have hcount : 2 * (tb + k + 1 - tb) * lens.count (tb + k + 1) ≤ 2 * (maxLen - tb) * lens.count (tb + k + 1) :=
      Nat.mul_le_mul_right _ (by omega)
    rw [countP_lengths_succ, Nat.mul_add]
    exact hsyms.trans (by have := ih (by omega); omega)

/-- A table that is built has at most TSIZE entries (R131, R137). -/
theorem buildTable_length_le {reject : Bool} {lens : List Nat} {tb maxLen : Nat} {table : List Entry}
    (htb : tb ≤ maxLen) (h : buildTable reject lens tb maxLen = some table) :
    table.length ≤ tableSize tb maxLen lens.length := by
  unfold buildTable at h
  split at h
  · cases h
  · cases hk : kraftLeft lens maxLen with
    | none => rw [hk] at h; cases h
    | some left =>
      rw [hk] at h
      simp only at h
      split at h
      · cases h
        simp [tableSize]
      · split at h <;> cases h
        refine (trieLengths_length_le (maxLen := maxLen) (by omega) _ _).trans ?_
        rw [directRegion_length htb (by rw [hk]; rfl), tableSize, Nat.mul_right_comm]
        exact Nat.add_le_add_left (Nat.mul_le_mul_right _ (Nat.mul_le_mul_left _ List.countP_le_length)) _

/-- The bytes of a built table fill at most the table's range in memory (30_encoding.md R80). -/
theorem buildOrFail_bytes_le {reject : Bool} {lens : List Nat} {tb maxLen : Nat} {table : List Entry} {s t : State}
    (htb : tb ≤ maxLen) (h : buildOrFail reject lens tb maxLen s = .ok table t) :
    (table.flatMap fun e => leBytes 2 e.toNat).length ≤ 2 * tableSize tb maxLen lens.length := by
  unfold buildOrFail at h
  cases hb : buildTable reject lens tb maxLen with
  | none => rw [hb] at h; cases h
  | some built =>
    rw [hb] at h
    cases h
    have := buildTable_length_le htb hb
    simp only [List.length_flatMap, leBytes_length, List.map_const', List.sum_replicate, smul_eq_mul]
    omega

end Sys2Proof.Machine

/-! ## Memory changes only in the output range -/

namespace Sys2Proof.Machine

/-- LMEM reads in `t` as in `s` outside lo..hi-1. -/
def KeptOutside (lo hi : Nat) (s t : State) : Prop := UnchangedOutside s.lmem t.lmem lo hi

section
variable {lo hi : Nat} {s t : State}

theorem KeptOutside.refl (lo hi : Nat) (s : State) : KeptOutside lo hi s s := fun _ _ => rfl

theorem KeptOutside.onLmem (h : KeptOutside lo hi s t) {α : Type} {f : Run Space α}
    (hf : ChangedWithin lo hi (lmemSpace t) (stateOf (f (lmemSpace t)))) :
    KeptOutside lo hi s (stateOf (onLmem f t)) := by
  rcases onLmem_cases f t with ⟨a, sp, hr, e⟩ | ⟨x, sp, hr, e⟩ <;> rw [hr] at hf <;> rw [e] <;>
    exact fun a ha => (hf.outside a ha).trans (h a ha)

theorem KeptOutside.onBr0 (h : KeptOutside lo hi s t) {α : Type} (f : Space → Run BitReader α) :
    KeptOutside lo hi s (stateOf (onBr0 f t)) := by
  rcases onBr0_cases f t with ⟨a, r, -, e⟩ | ⟨x, r, -, e⟩ <;> rw [e] <;> exact h

/-- A command leaves the LMEM its body leaves. -/
theorem runCommand_lmem {i : Instr} {body : Run State Unit} (e : runCommand i body s = .next t)
    (h : KeptOutside lo hi s (stateOf (body s))) : UnchangedOutside s.lmem t.lmem lo hi := by
  rcases runCommand_cases i body s with ⟨u, hu, hr⟩ | ⟨c, u, hu, hr⟩ | ⟨c, u, hu, hr⟩ <;> rw [hr] at e <;> cases e <;>
    rw [hu] at h <;> exact h

/-- A sequence that starts with reading an operand that is known. -/
theorem stateOf_readArg_bind {I : State → Prop} {i : Fin 6} {v : Nat} {f : Nat → Run State Unit} (h : ArgIs s i v)
    (hf : I (stateOf (f v s))) : I (stateOf ((readArg i >>= f) s)) := by
  rwa [bind_of_ok (readArg_of_argIs h)]

/-! ### Each storing command -/

theorem brReadBytes_lmem (e : exec .brReadBytes s = .next t) {dst count : Nat} (hdst : ArgIs s 0 dst)
    (hcount : ArgIs s 1 count) : UnchangedOutside s.lmem t.lmem dst (dst + count) := by
  have hs : KeptOutside dst (dst + count) s s := .refl _ _ s
  refine runCommand_lmem e ?_
  refine stateOf_check_bind prologue_keeps hs fun _ _ => ?_
  refine stateOf_readArg_bind hdst ?_
  refine stateOf_readArg_bind hcount ?_
  refine stateOf_check_bind (requireLmem_keeps _ _) hs fun _ _ => ?_
  refine stateOf_check_bind (x := get) (fun _ => rfl) hs fun _ _ => ?_
  refine stateOf_check_bind (requireDisjoint_keeps _ _ _ _) hs fun _ _ => ?_
  refine stateOf_bind (hs.onBr0 _) fun bs u hread hu => ?_
  have hlen : bs.length = count := by
    obtain ⟨r, hr, -⟩ := zoom_ok_inv hread
    exact readBytes_length hr
  exact hu.onLmem (storeBytes_within le_rfl (by omega) _)

theorem htBuild_lmem (e : exec .htBuild s = .next t) {n tb maxLen table : Nat} (hn : ArgIs s 1 n) (htb : ArgIs s 2 tb)
    (hmax : ArgIs s 3 maxLen) (htable : ArgIs s 4 table) :
    UnchangedOutside s.lmem t.lmem table (table + 2 * tableSize tb maxLen n) := by
  have hs : KeptOutside table (table + 2 * tableSize tb maxLen n) s s := .refl _ _ s
  refine runCommand_lmem e ?_
  refine stateOf_check_bind (readArg_keeps 0) hs fun lens _ => ?_
  refine stateOf_readArg_bind hn ?_
  refine stateOf_readArg_bind htb ?_
  refine stateOf_readArg_bind hmax ?_
  refine stateOf_readArg_bind htable ?_
  refine stateOf_check_bind (requireOperand_keeps _ _) hs fun _ hlimits => ?_
  refine stateOf_check_bind (requireLmem_keeps _ _) hs fun _ _ => ?_
  refine stateOf_check_bind (requireLmem_keeps _ _) hs fun _ _ => ?_
  refine stateOf_check_bind (requireDisjoint_keeps _ _ _ _) hs fun _ _ => ?_
  refine stateOf_bind (hs.onLmem (loadBytes_within _ _ _ _ _)) fun bytes u hload hu => ?_
  refine stateOf_check_bind (x := get) (fun _ => rfl) hu fun _ _ => ?_
  refine stateOf_check_bind (buildOrFail_keeps _ _ _ _) hu fun entries hbuild => ?_
  have hle := requireOperand_ok hlimits
  simp only [tableLimits, Bool.and_eq_true, decide_eq_true_eq] at hle
  have hlen := buildOrFail_bytes_le (by omega) hbuild
  obtain ⟨sp, hsp, -⟩ := zoom_ok_inv hload
  rw [List.length_map, loadBytes_length hsp] at hlen
  exact hu.onLmem (storeBytes_within le_rfl (by omega) _)

/-- CopyMatch changes at most its own length of bytes (42_match_copier.md R160). -/
theorem copyMatch_within_length (outBegin cursor length distance bufend : Nat) :
    Always (ChangedWithin cursor (cursor + length)) (copyMatch outBegin cursor length distance bufend) := by
  refine always_ite ?_ (always_throw (ChangedWithin.refl _ _) _)
  exact always_bind (P := ChangedWithin cursor (cursor + length)) (fun _ _ _ => .trans)
    (copyLoop_within _ _ _ le_rfl le_rfl) fun _ => always_pure (ChangedWithin.refl _ _) _

theorem mcCopy_lmem (e : exec .mcCopy s = .next t) {cursor length : Nat} (hcursor : ArgIs s 1 cursor)
    (hlength : ArgIs s 2 length) : UnchangedOutside s.lmem t.lmem cursor (cursor + length) := by
  have hs : KeptOutside cursor (cursor + length) s s := .refl _ _ s
  refine runCommand_lmem e ?_
  refine stateOf_check_bind (readArg_keeps 0) hs fun _ _ => ?_
  refine stateOf_readArg_bind hcursor ?_
  refine stateOf_readArg_bind hlength ?_
  refine stateOf_check_bind (readArg_keeps 3) hs fun _ _ => ?_
  refine stateOf_check_bind (readArg_keeps 4) hs fun _ _ => ?_
  refine stateOf_check_bind (readArg_keeps 5) hs fun _ _ => ?_
  refine stateOf_check_bind (requireLmem_keeps _ _) hs fun _ _ => ?_
  exact stateOf_bind (hs.onLmem (copyMatch_within_length _ _ _ _ _ _)) fun _ u _ hu => hu

theorem caDecompress_lmem (e : exec .caDecompress s = .next t) {out size : Nat} (hout : ArgIs s 2 out)
    (hsize : ArgIs s 3 size) : UnchangedOutside s.lmem t.lmem out (out + size) := by
  have hs : KeptOutside out (out + size) s s := .refl _ _ s
  refine runCommand_lmem e ?_
  refine stateOf_check_bind (readArg_keeps 0) hs fun inBase _ => ?_
  refine stateOf_check_bind (readArg_keeps 1) hs fun inSize _ => ?_
  refine stateOf_readArg_bind hout ?_
  refine stateOf_readArg_bind hsize ?_
  refine stateOf_check_bind (requireOperand_keeps _ _) hs fun _ _ => ?_
  refine stateOf_check_bind (requireLmem_keeps _ _) hs fun _ _ => ?_
  refine stateOf_check_bind (requireLmem_keeps _ _) hs fun _ _ => ?_
  refine stateOf_check_bind (requireDisjoint_keeps _ _ _ _) hs fun _ _ => ?_
  exact hs.onLmem (caDecode_within (lmemJob s inBase inSize out size) _)

theorem cbDecompress_lmem (e : exec .cbDecompress s = .next t) {out size : Nat} (hout : ArgIs s 2 out)
    (hsize : ArgIs s 3 size) : UnchangedOutside s.lmem t.lmem out (out + size) := by
  have hs : KeptOutside out (out + size) s s := .refl _ _ s
  refine runCommand_lmem e ?_
  refine stateOf_check_bind (readArg_keeps 0) hs fun inBase _ => ?_
  refine stateOf_check_bind (readArg_keeps 1) hs fun inSize _ => ?_
  refine stateOf_readArg_bind hout ?_
  refine stateOf_readArg_bind hsize ?_
  refine stateOf_check_bind (readArg_keeps 4) hs fun w _ => ?_
  refine stateOf_check_bind (requireOperand_keeps _ _) hs fun _ _ => ?_
  refine stateOf_check_bind (requireLmem_keeps _ _) hs fun _ _ => ?_
  refine stateOf_check_bind (requireLmem_keeps _ _) hs fun _ _ => ?_
  refine stateOf_check_bind (requireDisjoint_keeps _ _ _ _) hs fun _ _ => ?_
  exact hs.onLmem (cbDecode_within (lmemJob s inBase inSize out size) w _)

/-! ### CTX_READ (45_context.md R238) -/

/-- Copying chunks that all begin before the end of the read stays inside the read's destination. -/
theorem copyChunks_readStep {p m dst count c : Nat} (h : ∀ k < count, (c + k) * 2 ^ s.ctx.order < p + m) :
    ReadStep dst (dst + m) s (stateOf (copyChunks p m dst count c s)) := by
  induction count generalizing c s with
  | zero => exact .refl _ _ s
  | succ count ih =>
    refine stateOf_bind (copyChunk_readStep (h 0 (Nat.succ_pos _))) fun _ u _ hu => hu.trans (ih fun k hk => ?_)
    have ho : u.ctx.order = s.ctx.order := by rw [← hu.ctx]
    rw [ho, Nat.add_assoc, Nat.add_comm 1 k]
    exact h (k + 1) (by omega)

/-- Every chunk of a read begins before its end. -/
theorem chunk_begins_before {p m k order : Nat} (hm : 0 < m)
    (hk : k < (p + m - 1) / 2 ^ order + 1 - p / 2 ^ order) : (p / 2 ^ order + k) * 2 ^ order < p + m := by
  have hle : p / 2 ^ order + k ≤ (p + m - 1) / 2 ^ order := by omega
  have := (Nat.le_div_iff_mul_le (by positivity)).mp hle
  omega

theorem readOpened_readStep (p cnt dst : Nat) (s : State) :
    ReadStep dst (dst + min cnt (s.ctx.lsize - p)) s (stateOf (readOpened p cnt dst s)) := by
  have hs := ReadStep.refl dst (dst + min cnt (s.ctx.lsize - p)) s
  have hres : ∀ {u : State} (v : Nat), ReadStep dst (dst + min cnt (s.ctx.lsize - p)) s u →
      ReadStep dst (dst + min cnt (s.ctx.lsize - p)) s (stateOf (setResult v u)) :=
    fun v hu => hu.trans ⟨.refl _ _ _, rfl, id, rfl⟩
  refine stateOf_check_bind (x := get) (fun _ => rfl) hs fun u hu => ?_
  cases hu
  split
  · exact hres 0 hs
  · refine stateOf_check_bind (requireLmem_keeps _ _) hs fun _ _ => ?_
    split
    · exact hres 0 hs
    · exact stateOf_bind (copyChunks_readStep fun k hk => chunk_begins_before (by omega) hk) fun _ _ _ ht => hres _ ht

theorem ctxRead_lmem (e : exec .ctxRead s = .next t) {p count dst : Nat} (hp : ArgIs s 0 p) (hcount : ArgIs s 1 count)
    (hdst : ArgIs s 2 dst) : UnchangedOutside s.lmem t.lmem dst (dst + min count (s.ctx.lsize - p)) := by
  have hs : KeptOutside dst (dst + min count (s.ctx.lsize - p)) s s := .refl _ _ s
  refine runCommand_lmem e ?_
  refine stateOf_check_bind (x := get) (fun _ => rfl) hs fun _ _ => ?_
  split
  · refine stateOf_readArg_bind hp ?_
    refine stateOf_readArg_bind hcount ?_
    refine stateOf_readArg_bind hdst ?_
    exact (readOpened_readStep _ _ _ s).lmem.outside
  · exact hs

end

/-- Settles O16: the storing commands one by one, the others by what they can reach at all. -/
theorem memoryChangesOnlyInTheOutputRange : Obligations.MemoryChangesOnlyInTheOutputRange := by
  intro i s t e
  refine ⟨fun hi a => ?_, ?_, ?_, ?_, ?_, ?_⟩
  · obtain ⟨u, hw, hlmem, -⟩ := exec_within e
    have hreach : (reachOf i).lmem = false := by cases i <;> simp_all [reachOf]
    rw [hlmem, hw.lmem hreach]
  · rintro rfl dst count
    exact brReadBytes_lmem e
  · rintro rfl n tb maxLen table
    exact htBuild_lmem e
  · rintro rfl cursor length
    exact mcCopy_lmem e
  · rintro (rfl | rfl) out size
    · exact caDecompress_lmem e
    · exact cbDecompress_lmem e
  · rintro rfl p count dst
    exact ctxRead_lmem e

end Sys2Proof.Machine

/-! ## The bit stream -/

namespace Sys2Proof.Machine

/-! ### Bits of the accumulator -/

/-- Below the bits that came from the input the accumulator has none set (10_state.md R30). -/
theorem ReaderOk.bit_clear {r : BitReader} (h : ReaderOk r) {i : Nat} (hi : r.realbits ≤ i) :
    r.bitbuf.getMsbD i = false := by
  rw [BitVec.getMsbD_eq_getLsbD]
  by_cases h32 : i < 32
  · have hclear : (r.bitbuf.toNat % 2 ^ (32 - r.realbits)).testBit (31 - i) = false := by
      rw [h.clear, Nat.zero_testBit]
    rw [Nat.testBit_mod_two_pow, decide_eq_true (by omega), Bool.true_and] at hclear
    simpa [BitVec.getLsbD, h32] using hclear
  · simp [h32]

theorem bitsValue_congr {f g : Nat → Bool} {n : Nat} (h : ∀ i < n, f i = g i) : bitsValue f n = bitsValue g n := by
  induction n with
  | zero => rfl
  | succ n ih => rw [bitsValue, bitsValue, h n (Nat.lt_succ_self n), ih fun i hi => h i (by omega)]

/-- The top `n` bits of the accumulator as a number (40_bit_reader.md R103). -/
theorem top_bits_value (b : Word32) {n : Nat} (hn : n ≤ 32) : (b >>> (32 - n)).toNat = bitsValue b.getMsbD n := by
  rw [BitVec.toNat_ushiftRight]
  induction n with
  | zero => simp [bitsValue, Nat.shiftRight_eq_div_pow, Nat.div_eq_of_lt b.isLt]
  | succ n ih =>
    have hbit : b.getMsbD n = b.toNat.testBit (32 - (n + 1)) := by
      rw [BitVec.getMsbD_eq_getLsbD, decide_eq_true (by omega), Bool.true_and, BitVec.getLsbD]
      congr 1
      omega
    rw [bitsValue, ← ih (by omega), hbit, show 32 - n = 32 - (n + 1) + 1 by omega, Nat.shiftRight_succ,
      Nat.toNat_testBit, Nat.shiftRight_eq_div_pow]
    omega

/-! ### What each function does to the stream -/

/-- A unit that is read is the unit of the stream (20_memory.md R57, R59). -/
theorem memRead_unitAt {sp : Space} {a u : Nat} (h : memRead sp a 2 = .ok u) : u = unitAt sp.cells a := by
  unfold memRead at h
  cases hb : memReadBytes sp a 2 with
  | error c => rw [hb] at h; cases h
  | ok bs =>
    rw [hb] at h
    cases h
    obtain ⟨-, hlen, hget⟩ := (memReadBytes_ok_iff _ _ _ _).mp hb
    match bs, hlen with
    | [b0, b1], _ =>
      have h0 := hget 0 (by simp)
      have h1 := hget 1 (by simp)
      simp only [Nat.add_zero, List.getElem_cons_zero, List.getElem_cons_succ] at h0 h1
      simp [unitAt, h0, h1, leNat]

section
variable {m : Memory} {r : BitReader} {i n : Nat}

theorem upcomingBit_buffered (h : i < r.bitsleft) : upcomingBit m r i = r.bitbuf.getMsbD i := if_pos h

theorem upcomingBit_unit (h : r.bitsleft ≤ i) (hu : r.next + 2 * ((i - r.bitsleft) / 16) + 2 ≤ r.stop) :
    upcomingBit m r i =
      (unitAt m (r.next + 2 * ((i - r.bitsleft) / 16))).testBit (15 - (i - r.bitsleft) % 16) := by
  rw [upcomingBit, if_neg (by omega), if_pos hu]

theorem upcomingBit_past (h : r.bitsleft ≤ i) (hu : r.stop < r.next + 2 * ((i - r.bitsleft) / 16) + 2) :
    upcomingBit m r i = false := by
  rw [upcomingBit, if_neg (by omega), if_neg (by omega)]

/-- Beyond the valid bits the stream depends on the cursor and on how far beyond they are, not on the accumulator. -/
theorem upcomingBit_congr {t : BitReader} {j : Nat} (hi : r.bitsleft ≤ i) (hj : t.bitsleft ≤ j)
    (hstop : t.stop = r.stop)
    (h : t.next + 2 * ((j - t.bitsleft) / 16) = r.next + 2 * ((i - r.bitsleft) / 16))
    (hmod : (j - t.bitsleft) % 16 = (i - r.bitsleft) % 16) : upcomingBit m t j = upcomingBit m r i := by
  by_cases hu : r.next + 2 * ((i - r.bitsleft) / 16) + 2 ≤ r.stop
  · rw [upcomingBit_unit hi hu, upcomingBit_unit hj (by omega), h, hmod]
  · rw [upcomingBit_past hi (by omega), upcomingBit_past hj (by omega)]

/-- Padding adds the zeros the stream has beyond its units (R102, R119). -/
theorem padReader_stream (h : ReaderOk r) (hend : r.stop < r.next + 2) : StreamMoves m r (padReader r) 0 := by
  intro i
  have hleft := h.left_le
  have hreal := h.real_le
  have hpast : ∀ k, (padReader r).stop < (padReader r).next + 2 * k + 2 := fun k => by
    simp only [padReader_stop, padReader_next]
    omega
  rw [Nat.zero_add]
  by_cases hi : i < 32
  · rw [upcomingBit_buffered (show i < (padReader r).bitsleft from hi), padReader_bitbuf]
    by_cases hb : i < r.bitsleft
    · rw [upcomingBit_buffered hb]
    · rw [upcomingBit_past (by omega) (by omega), h.bit_clear (by omega)]
  · rw [upcomingBit_past (by simp only [padReader_bitsleft]; omega) (hpast _), upcomingBit_past (by omega) (by omega)]

/-- Bit `i` of a unit loaded below `k` valid bits. -/
theorem loaded_unit_bit {u k : Nat} (hu : u < 2 ^ 16) (hk : k ≤ 16) (hi : i < k + 16) :
    (BitVec.ofNat 32 u <<< (16 - k)).getMsbD i = (decide (k ≤ i) && u.testBit (15 - (i - k))) := by
  rw [BitVec.getMsbD_shiftLeft, BitVec.getMsbD_eq_getLsbD, BitVec.getLsbD_ofNat, decide_eq_true (by omega),
    decide_eq_true (by omega), Bool.true_and, Bool.true_and]
  by_cases hki : k ≤ i
  · rw [decide_eq_true hki, Bool.true_and, show 32 - 1 - (i + (16 - k)) = 15 - (i - k) by omega]
  · rw [decide_eq_false hki, Bool.false_and]
    exact Nat.testBit_lt_two_pow (hu.trans_le (Nat.pow_le_pow_right (by omega) (by omega)))

/-- Loading the unit at the cursor leaves the stream as it is (R102). -/
theorem refillReader_stream (h : ReaderOk r) (hb : r.bitsleft < 16) (hs : r.next + 2 ≤ r.stop)
    (hu : unitAt m r.next < 2 ^ 16) : StreamMoves m r (refillReader r (unitAt m r.next)) 0 := by
  intro i
  have hreal : r.realbits = r.bitsleft := h.padded.resolve_right (by omega)
  rw [Nat.zero_add]
  by_cases hi : i < r.bitsleft + 16
  · rw [upcomingBit_buffered (by simpa using hi), refillReader_bitbuf, BitVec.getMsbD_or,
      loaded_unit_bit hu (by omega) hi]
    by_cases hbuf : i < r.bitsleft
    · rw [upcomingBit_buffered hbuf, decide_eq_false (by omega), Bool.false_and, Bool.or_false]
    · rw [h.bit_clear (by omega), Bool.false_or, decide_eq_true (by omega), Bool.true_and,
        upcomingBit_unit (by omega) (by omega), show (i - r.bitsleft) / 16 = 0 by omega,
        show (i - r.bitsleft) % 16 = i - r.bitsleft by omega]
      rfl
  · refine upcomingBit_congr (by omega) ?_ rfl ?_ ?_ <;> simp only [refillReader_bitsleft, refillReader_next] <;> omega

/-- Discarding valid bits moves the stream on by them (R104). -/
theorem dropBits_stream (hn : n ≤ r.bitsleft) : StreamMoves m r (dropBits r n) n := by
  intro i
  by_cases hi : i < r.bitsleft - n
  · rw [upcomingBit_buffered (show i < (dropBits r n).bitsleft from hi), upcomingBit_buffered (by omega),
      dropBits_bitbuf, BitVec.getMsbD_shiftLeft, Nat.add_comm]
  · refine upcomingBit_congr (by omega) ?_ rfl ?_ ?_ <;> simp only [dropBits_bitsleft, dropBits_next]
    · omega
    · rw [show n + i - r.bitsleft = i - (r.bitsleft - n) by omega]
    · rw [show n + i - r.bitsleft = i - (r.bitsleft - n) by omega]

/-- The value of valid bits is the value of the stream's next bits (R103). -/
theorem peek_value (hn : n ≤ r.bitsleft) (hleft : r.bitsleft ≤ 32) :
    (r.bitbuf >>> (32 - n)).toNat = bitsValue (upcomingBit m r) n := by
  rw [top_bits_value _ (by omega)]
  exact bitsValue_congr fun i hi => (upcomingBit_buffered (by omega)).symm

end

/-! ### Ensure and ReadBits over written input -/

/-- Ensure over written input: the bits are there afterwards, the stream is as before, and fewer of them came from the
input exactly when the input has no more whole units (R102, R120). -/
theorem ensure_stream {inp : Space} {r : BitReader} {n : Nat} (hn : n ≤ 16) (h : ReadsWritten inp r) :
    ∃ r', ensure inp n r = .ok () r' ∧ n ≤ r'.bitsleft ∧ StreamMoves inp.cells r r' 0 ∧ ReadsWritten inp r' ∧
      ReaderStep r r' ∧ r'.padused = r.padused ∧ (r'.realbits < n ↔ r.realbits + 16 * ((r.stop - r.next) / 2) < n) := by
  obtain ⟨hok, hlim, hw⟩ := h
  have hleft := hok.left_le
  have hreal := hok.real_le
  have hstep := ensure_step inp (n := n) (by omega) r
  rcases ensure_cases inp n r with ⟨hle, e⟩ | ⟨hlt, hend, e⟩ | ⟨hlt, hunit, ⟨u, hu, e⟩ | ⟨c, hc, -⟩⟩
  · refine ⟨r, e, hle, fun i => by rw [Nat.zero_add], ⟨hok, hlim, hw⟩, .refl r, rfl, ?_⟩
    rcases hok.padded with hp | hp <;> omega
  · rw [e] at hstep
    refine ⟨_, e, by simp only [padReader_bitsleft]; omega, padReader_stream hok hend,
      ⟨padReader_ok hok hend, hlim, hw⟩, hstep, rfl, ?_⟩
    simp only [padReader_realbits]
    omega
  · rw [e] at hstep
    have hlt16 := memRead_two_lt hu
    obtain rfl := memRead_unitAt hu
    refine ⟨_, e, by simp only [refillReader_bitsleft]; omega, refillReader_stream hok (by omega) hunit hlt16,
      ⟨hstep.2.2.2 hok, hlim, fun i hi => ?_⟩, hstep, rfl, ?_⟩
    · simp only [refillReader_next, refillReader_stop] at hi ⊢
      rw [Nat.add_assoc]
      exact hw (2 + i) (by omega)
    · simp only [refillReader_realbits]
      omega
  · obtain ⟨bs, hbs⟩ := memReadBytes_of_written (sp := inp) (a := r.next) (n := 2) (by omega)
      fun i hi => hw i (by omega)
    rw [memRead, hbs] at hc
    cases hc

/-- ReadBits over written input takes the next bits of the stream (R105, R119, R120). -/
theorem readBits_stream {inp : Space} {r : BitReader} {n : Nat} (hn : n ≤ 16) (h : ReadsWritten inp r) :
    ∃ r', readBits inp n r = .ok (bitsValue (upcomingBit inp.cells r) n) r' ∧ StreamMoves inp.cells r r' n ∧
      ReadsWritten inp r' ∧ ReaderStep r r' ∧
      r'.padused = (r.padused || decide (r.realbits + 16 * ((r.stop - r.next) / 2) < n)) := by
  obtain ⟨r', he, hle, hstream, ⟨hok, hlim, hw⟩, hstep, hpad, hreal⟩ := ensure_stream hn h
  have hvalue : (r'.bitbuf >>> (32 - n)).toNat = bitsValue (upcomingBit inp.cells r) n := by
    rw [peek_value hle hok.left_le]
    exact bitsValue_congr fun i _ => by rw [hstream i, Nat.zero_add]
  have hpop : pop n r' = .ok (bitsValue (upcomingBit inp.cells r) n) (dropBits r' n) := by
    rw [← hvalue]
    rcases pop_cases n r' with ⟨h', -⟩ | ⟨-, e⟩
    · omega
    · exact e
  refine ⟨dropBits r' n, (bind_of_ok he).trans hpop, ?_, ⟨dropBits_ok hok hle, hlim, hw⟩,
    hstep.trans ((pop_step n).ok hpop), ?_⟩
  · rw [← Nat.zero_add n]
    exact hstream.trans (by rw [Nat.zero_add]; exact dropBits_stream hle)
  · rw [dropBits_padused, padusedAfter, hpad, decide_eq_decide.mpr hreal]

/-- Settles O21: BR_READ is ReadBits on BR0. -/
theorem brReadTakesTheNextBitsOfTheStream : Obligations.BrReadTakesTheNextBitsOfTheStream := by
  intro n s hn hv hok hstop hw
  obtain ⟨r, hread, hmoves, hin, ⟨hstart, hend, hvalid, -⟩, hpad⟩ :=
    readBits_stream (inp := lmemSpace s) hn ⟨hok, hstop, hw⟩
  refine ⟨r, runCommand_of_ok (t := (s.setBr0 r).setRes0
    (BitVec.ofNat 64 (bitsValue (upcomingBit s.lmem s.br0) n.toNat))) ?_, hmoves, hpad, hstart, hend,
    hvalid.trans hv, hin.1⟩
  rw [bind_of_ok (bitCount_of_le hn s), bind_of_ok (prologue_of_valid hv), bind_of_ok (onBr0_of_ok hread)]
  rfl

end Sys2Proof.Machine

/-! ## Command words: the encoder and the decoder -/

namespace Sys2Proof

/-! ### From a command to its word (30_encoding.md R71, R81) -/

/-- What the decoder finds in a word the encoder wrote. -/
theorem decode_encode (i : Instr) : decode (encode i) = decodeFields (opcodeOf i) (bitCountOf i) := by
  obtain ⟨hopc, hn, hrsv⟩ := Laws.fields_of_layout (bitCountOf i) (opcodeOf i)
  rw [decode, encode, if_pos hrsv, hopc, hn]

/-- The opcode map takes the fields of a well-formed command back to it (R73). -/
theorem decodeFields_of_wellFormed {i : Instr} (h : i.wellFormed = true) :
    decodeFields (opcodeOf i) (bitCountOf i) = .ok i := by
  cases i with
  | brEnsure n | brPeek n | brPop n | brRead n => exact if_pos h
  | _ => rfl

/-- Settles O1: the decoder finds the encoder's fields, and the opcode map takes them back to the command. -/
theorem decodeEncodeAgree : Obligations.DecodeEncodeAgree := fun i h =>
  (decode_encode i).trans (decodeFields_of_wellFormed h)

/-- Settles O3: each word is read as the opcode map says. -/
theorem encodingsOfTheSpecDecode : Obligations.EncodingsOfTheSpecDecode :=
  ⟨rfl, rfl, rfl, rfl, rfl, rfl, rfl, rfl⟩

/-! ### From a word to its command (R71, R75) -/

/-- A word is its three fields, from the top bit down. -/
theorem layout_of_fields (w : Word32) : rsvField w ++ (nField w ++ opcField w) = w := by
  apply BitVec.eq_of_getLsbD_eq
  intro k hk
  simp only [opcField, nField, rsvField, BitVec.getLsbD_extractLsb', BitVec.getLsbD_append]
  grind

theorem plainCommand_ok_iff {n : BitVec 5} {i j : Instr} : plainCommand n i = .ok j ↔ n = 0#5 ∧ i = j := by
  unfold plainCommand
  split <;> simp [*]

theorem bitCommand_ok_iff {n : BitVec 5} {i : BitVec 5 → Instr} {j : Instr} :
    bitCommand n i = .ok j ↔ bitCountLegal n = true ∧ i n = j := by
  unfold bitCommand
  split <;> simp [*]

/-- The opcode map gives well-formed commands only, each from its own opcode and bit count (R73, R75). -/
theorem decodeFields_ok {opc : BitVec 8} {n : BitVec 5} {i : Instr} (h : decodeFields opc n = .ok i) :
    i.wellFormed = true ∧ opcodeOf i = opc ∧ bitCountOf i = n := by
  unfold decodeFields at h
  split at h
  -- The four bit commands, the unassigned opcodes, and the commands without a bit count.
  case h_2 | h_3 | h_4 | h_5 =>
    obtain ⟨hn, rfl⟩ := bitCommand_ok_iff.mp h
    exact ⟨hn, rfl, rfl⟩
  case h_20 => cases h
  all_goals
    obtain ⟨rfl, rfl⟩ := plainCommand_ok_iff.mp h
    exact ⟨rfl, rfl, rfl⟩

/-- A word that decodes has no reserved bit set, and its fields are in the opcode map. -/
theorem decode_ok_iff {w : Word32} {i : Instr} :
    decode w = .ok i ↔ rsvField w = 0#19 ∧ decodeFields (opcField w) (nField w) = .ok i := by
  unfold decode
  split <;> simp [*]

/-- Settles O2: a legal word is its fields, and they are the fields of its command. -/
theorem legalWordIsTheEncodingOfItsCommand : Obligations.LegalWordIsTheEncodingOfItsCommand := by
  intro w i h
  obtain ⟨hrsv, hfields⟩ := decode_ok_iff.mp h
  obtain ⟨hwf, hopc, hn⟩ := decodeFields_ok hfields
  exact ⟨hwf, by rw [encode, hn, hopc, ← hrsv, layout_of_fields]⟩

/-! ### Illegal words (R75) -/

/-- The assigned opcodes (R73). -/
def assignedOpcodes : List Nat := [1, 2, 3, 4, 5, 6, 7, 8, 9, 10, 16, 17, 24, 32, 33, 48, 49, 50, 51]

/-- The opcodes of the commands with a bit count (R73). -/
def bitOpcodes : List Nat := [2, 3, 4, 5]

theorem opcField_toNat (w : Word32) : (opcField w).toNat = w.toNat % 256 := by
  simp [opcField]

theorem nField_toNat (w : Word32) : (nField w).toNat = w.toNat / 256 % 32 := by
  simp [nField, Nat.shiftRight_eq_div_pow]

theorem rsvField_toNat (w : Word32) : (rsvField w).toNat = w.toNat / 8192 := by
  have := w.isLt
  simp only [rsvField, BitVec.extractLsb'_toNat, Nat.shiftRight_eq_div_pow]
  omega

theorem plainCommand_error_iff {n : BitVec 5} {i : Instr} : (∃ e, plainCommand n i = .error e) ↔ n.toNat ≠ 0 := by
  unfold plainCommand
  split <;> simp_all [← BitVec.toNat_inj]

theorem bitCommand_error_iff {n : BitVec 5} {i : BitVec 5 → Instr} :
    (∃ e, bitCommand n i = .error e) ↔ 16 < n.toNat := by
  unfold bitCommand bitCountLegal
  split <;> simp_all

/-- When the opcode map refuses: cases (b), (c) and (d) of R75. -/
theorem decodeFields_error_iff (opc : BitVec 8) (n : BitVec 5) :
    (∃ e, decodeFields opc n = .error e) ↔
      opc.toNat ∉ assignedOpcodes ∨ (opc.toNat ∈ bitOpcodes ∧ 16 < n.toNat) ∨
        (opc.toNat ∉ bitOpcodes ∧ n.toNat ≠ 0) := by
  unfold decodeFields
  split
  -- The four bit commands, the unassigned opcodes, and the commands without a bit count.
  case h_2 | h_3 | h_4 | h_5 => simp [bitCommand_error_iff, assignedOpcodes, bitOpcodes]
  case h_20 =>
    have : opc.toNat ∉ assignedOpcodes := by
      simp_all [assignedOpcodes, ← BitVec.toNat_inj]
    simp [this]
  all_goals simp [plainCommand_error_iff, assignedOpcodes, bitOpcodes]

/-- When the decoder refuses: R75's four cases. -/
theorem decode_error_iff (w : Word32) :
    (∃ e, decode w = .error e) ↔ (rsvField w).toNat ≠ 0 ∨ ∃ e, decodeFields (opcField w) (nField w) = .error e := by
  unfold decode
  split <;> simp_all [← BitVec.toNat_inj]

namespace Machine

theorem writeCmd_of_decode_error {s : State} {w : Word32} {x : DecodeError} (hf : s.fault = false)
    (hb : s.busy = false) (hd : decode w = .error x) : writeCmd w s = illegalWord s := by
  rcases writeCmd_cases w s with ⟨h', -⟩ | ⟨-, h', -⟩ | ⟨-, -, ⟨j, hj, -⟩ | ⟨-, -, e⟩⟩
  · rw [hf] at h'; cases h'
  · rw [hb] at h'; cases h'
  · rw [hd] at hj; cases hj
  · exact e

/-- An illegal word leaves a block that was not busy with another CODE. -/
theorem illegalWord_of_not_busy {s : State} (hb : s.busy = false) :
    illegalWord s = .next { s with code := 6#8 } := by
  change Host.Outcome.next { s with code := 6#8, busy := false } = _
  rw [← hb]

/-- Settles O4: the decoder's refusals are those of the opcode map and the reserved bits, and a CMD write that the
decoder refuses is an illegal word. -/
theorem illegalWordOnlyReportsEIllegal : Obligations.IllegalWordOnlyReportsEIllegal := by
  intro w opc n rsv assigned illegal
  have hiff : (∃ e, decode w = .error e) ↔ illegal := by
    rw [decode_error_iff, decodeFields_error_iff, opcField_toNat, nField_toNat, rsvField_toNat]
    rfl
  refine ⟨hiff, fun s rest hill hf hb hs => ?_⟩
  obtain ⟨x, hx⟩ := hiff.mpr hill
  rw [step_write_cmd hs, writeCmd_of_decode_error (s := s.nextActions rest) hf hb hx]
  exact illegalWord_of_not_busy (s := s.nextActions rest) hb

end Machine

end Sys2Proof

/-! ## Commands read only their operands -/

namespace Sys2Proof.Machine

/-! ### Computations that read ARG registers of a list only (30_encoding.md R74) -/

/-- The second state is the first with other ARG values, the same in the registers listed. -/
def OverArgs (l : List (Fin 6)) (args : Vector (Option Word64) 6) (s t : State) : Prop :=
  t = { s with args := args } ∧ ∀ k ∈ l, args.get k = s.args.get k

/-- The computation ends alike from any two states that differ in ARG registers outside the list. -/
structure ReadsOnly {α : Type} (l : List (Fin 6)) (f : Run State α) : Prop where
  alike : ∀ {args s t}, OverArgs l args s t → EndsAlike (OverArgs l args) (OverArgs l args) (f s) (f t)

/-- The update neither looks at the ARG registers nor writes them. -/
def IgnoresArgs (g : State → State) : Prop := ∀ s args, g { s with args := args } = { g s with args := args }

section
variable {α β : Type} {l : List (Fin 6)}

theorem OverArgs.update {g : State → State} (hg : IgnoresArgs g) {args : Vector (Option Word64) 6} {s t : State}
    (h : OverArgs l args s t) : OverArgs l args (g s) (g t) := by
  obtain ⟨rfl, hk⟩ := h
  have hargs : (g s).args = s.args := by simpa using congrArg State.args (hg s s.args)
  exact ⟨hg s args, fun k h => (hk k h).trans (by rw [hargs])⟩

namespace ReadsOnly

theorem pure (a : α) : ReadsOnly l (pure a : Run State α) := ⟨fun h => .ok a h⟩

theorem stop (e : Stop) : ReadsOnly l (throw e : Run State α) := ⟨fun h => .error e h⟩

theorem bind {x : Run State α} {f : α → Run State β} (hx : ReadsOnly l x) (hf : ∀ a, ReadsOnly l (f a)) :
    ReadsOnly l (x >>= f) :=
  ⟨fun h => (hx.alike h).bind fun a _ _ _ huv => (hf a).alike huv⟩

theorem ite {c : Prop} [Decidable c] {x y : Run State α} (hx : ReadsOnly l x) (hy : ReadsOnly l y) :
    ReadsOnly l (if c then x else y) := by
  split <;> assumption

/-- A look at the state, where what comes next is chosen without the ARG registers. -/
theorem get_bind {f : State → Run State β} (hc : ∀ s args, f { s with args := args } = f s)
    (hf : ∀ s, ReadsOnly l (f s)) : ReadsOnly l (get >>= f) := by
  refine ⟨fun {args s t} h => .get_bind ?_⟩
  have ht : f t = f s := by rw [h.1, hc]
  rw [ht]
  exact (hf s).alike h

/-- An answer that does not depend on the ARG registers, with an update of the state that ignores them. -/
theorem answer {a : State → α} {g : State → State} (ha : ∀ s args, a { s with args := args } = a s)
    (hg : IgnoresArgs g) : ReadsOnly l (fun s => .ok (a s) (g s)) := by
  refine ⟨fun {args s t} h => ?_⟩
  have ht : a t = a s := by rw [h.1, ha]
  rw [ht]
  exact .ok _ (h.update hg)

theorem modify {g : State → State} (hg : IgnoresArgs g) : ReadsOnly l (modify g) := answer (fun _ _ => rfl) hg

/-- A check on the state that does not look at the ARG registers. -/
theorem check {c : State → Prop} [DecidablePred c] {e : Stop} (hc : ∀ s args, c { s with args := args } = c s) :
    ReadsOnly l (fun s => if c s then .ok () s else .error e s) := by
  refine ⟨fun {args s t} h => ?_⟩
  have ht : c t = c s := by rw [h.1, hc]
  simp only [ht]
  split
  · exact .ok () h
  · exact .error e h

end ReadsOnly

/-! ### Operands and checks -/

theorem readArg_readsOnly {i : Fin 6} (h : i ∈ l) : ReadsOnly l (readArg i) := by
  refine ⟨fun {args s t} hst => ?_⟩
  obtain ⟨rfl, hk⟩ := hst
  unfold readArg
  rw [hk i h]
  cases s.args.get i with
  | some v => exact .ok _ ⟨rfl, hk⟩
  | none => exact .error _ ⟨rfl, hk⟩

theorem readArgWord_readsOnly {i : Fin 6} (h : i ∈ l) : ReadsOnly l (readArgWord i) := by
  refine ⟨fun {args s t} hst => ?_⟩
  obtain ⟨rfl, hk⟩ := hst
  unfold readArgWord
  rw [hk i h]
  cases s.args.get i with
  | some v => exact .ok _ ⟨rfl, hk⟩
  | none => exact .error _ ⟨rfl, hk⟩

/-- A sequence that starts with reading a listed register. -/
theorem ReadsOnly.arg {i : Fin 6} {f : Nat → Run State β} (hf : ∀ v, ReadsOnly l (f v)) (h : i ∈ l := by decide) :
    ReadsOnly l (readArg i >>= f) := .bind (readArg_readsOnly h) hf

theorem requireLmem_readsOnly {a n : Nat} : ReadsOnly l (requireLmem a n) := .check fun _ _ => rfl

theorem requireOperand_readsOnly {ok : Bool} {e : Status} : ReadsOnly l (requireOperand ok e) := .check fun _ _ => rfl

theorem requireDisjoint_readsOnly {a n b m : Nat} : ReadsOnly l (requireDisjoint a n b m) := by
  refine ⟨fun h => ?_⟩
  unfold requireDisjoint
  split
  · exact .error _ h
  · exact .ok () h

theorem bitCount_readsOnly {n : BitVec 5} : ReadsOnly l (bitCount n) := .ite (.pure _) (.stop _)

theorem prologue_readsOnly : ReadsOnly l prologue :=
  .get_bind (fun _ _ => rfl) fun _ => .ite (.pure _) (.stop _)

theorem buildOrFail_readsOnly {reject : Bool} {lens : List Nat} {tb maxLen : Nat} :
    ReadsOnly l (buildOrFail reject lens tb maxLen) :=
  ⟨fun h => .buildOrFail h h⟩

theorem setResult_readsOnly {v : Nat} : ReadsOnly l (setResult v) := .modify fun _ _ => rfl

/-! ### The units' memories and records -/

/-- Work on a part of the state that holds no ARG register. -/
theorem zoom_readsOnly {τ : Type} {part : State → τ} {put : τ → State → State} {f : Run τ α}
    (hp : ∀ s args, part { s with args := args } = part s) (hput : ∀ u, IgnoresArgs (put u)) :
    ReadsOnly l (zoom part put f) :=
  ⟨fun h => .zoom_same (by rw [h.1, hp]) (fun u => h.update (hput u)) fun u => h.update (hput u)⟩

theorem onLmem_readsOnly {f : Run Space α} : ReadsOnly l (onLmem f) :=
  zoom_readsOnly (fun _ _ => rfl) fun _ _ _ => rfl

theorem onCache_readsOnly {u : Nat} {f : Run Space α} : ReadsOnly l (onCache u f) :=
  zoom_readsOnly (fun _ _ => rfl) fun _ _ _ => rfl

theorem onBr0_readsOnly {f : Space → Run BitReader α} : ReadsOnly l (onBr0 f) := by
  refine ⟨fun {args s t} h => ?_⟩
  have hmem : lmemSpace t = lmemSpace s := by rw [h.1]; rfl
  unfold onBr0
  rw [hmem]
  exact (zoom_readsOnly (fun _ _ => rfl) fun _ _ _ => rfl).alike h

theorem storeRead_readsOnly {h : Word64} {off n : Nat} : ReadsOnly l (storeRead h off n) :=
  .answer (fun _ _ => rfl) fun _ _ => rfl

theorem onFail_readsOnly {g : State → State} (hg : IgnoresArgs g) {f : Run State α} (hf : ReadsOnly l f) :
    ReadsOnly l (onFail g f) := by
  refine ⟨fun {args s t} h => ?_⟩
  have hst := hf.alike h
  unfold onFail
  generalize f s = x at hst
  generalize f t = y at hst
  cases hst with
  | ok a huv => exact .ok a huv
  | error e huv =>
    cases e with
    | fail e => exact .error _ (huv.update hg)
    | fault c => exact .error _ huv

/-! ### The context (45_context.md) -/

theorem readIndex_readsOnly {h : Word64} {size : Nat} : ReadsOnly l (readIndex h size) := by
  refine .ite (.pure _) (.bind storeRead_readsOnly fun b => ?_)
  cases b with
  | none => exact .stop _
  | some bs => exact .pure _

theorem openChecked_readsOnly {h : Word64} {lsize : Nat} {codec : Codec} {order : Nat} :
    ReadsOnly l (openChecked h lsize codec order) :=
  .bind requireOperand_readsOnly fun _ => .get_bind (fun _ _ => rfl) fun _ => .bind requireOperand_readsOnly fun _ =>
    .bind requireOperand_readsOnly fun _ => .bind readIndex_readsOnly fun _ => .bind requireOperand_readsOnly fun _ =>
    .modify fun _ _ => rfl

/-- What EnsureChunk does on a miss, with the cache dropped (R239): `s` is the state it was called in. -/
def fetchChunk (c : Nat) (s : State) : Run State Unit := do
  modify dropCache
  let stored ← chunkRead s c
  match stored with
  | none => throw (.fail .io)
  | some bs => do
    onCache (chunkLength s.ctx.lsize s.ctx.order c)
      (expandChunk s.world.params s.ctx.codec bs (chunkLength s.ctx.lsize s.ctx.order c))
    modify (holdChunk c)

/-- EnsureChunk finds its chunk in the cache or fetches it. -/
theorem ensureChunk_eq (c : Nat) :
    ensureChunk c =
      get >>= fun s => if s.ctx.cacheValid = true ∧ s.ctx.cacheChunk = c then pure () else fetchChunk c s := by
  funext s
  unfold ensureChunk
  rw [bind_of_ok (get_run s), bind_of_ok (get_run s)]
  split <;> rfl

theorem fetchChunk_readsOnly {c : Nat} {s : State} : ReadsOnly l (fetchChunk c s) := by
  refine .bind (.modify fun _ _ => rfl) fun _ => .bind storeRead_readsOnly fun stored => ?_
  cases stored with
  | none => exact .stop _
  | some bs => exact .bind onCache_readsOnly fun _ => .modify fun _ _ => rfl

theorem ensureChunk_readsOnly {c : Nat} : ReadsOnly l (ensureChunk c) := by
  rw [ensureChunk_eq]
  exact .get_bind (fun _ _ => rfl) fun _ => .ite (.pure _) fetchChunk_readsOnly

theorem copyChunk_readsOnly {p m dst c : Nat} : ReadsOnly l (copyChunk p m dst c) :=
  .bind (onFail_readsOnly (fun _ _ => rfl) ensureChunk_readsOnly) fun _ => .get_bind (fun _ _ => rfl) fun _ =>
    .bind onCache_readsOnly fun _ => onLmem_readsOnly

theorem copyChunks_readsOnly {p m dst count c : Nat} : ReadsOnly l (copyChunks p m dst count c) := by
  induction count generalizing c with
  | zero => exact .pure _
  | succ count ih => exact .bind copyChunk_readsOnly fun _ => ih

theorem readOpened_readsOnly {p cnt dst : Nat} : ReadsOnly l (readOpened p cnt dst) :=
  .get_bind (fun _ _ => rfl) fun _ => .ite setResult_readsOnly (.bind requireLmem_readsOnly fun _ =>
    .ite setResult_readsOnly (.bind copyChunks_readsOnly fun _ => setResult_readsOnly))

end

/-! ### Every command -/

theorem literalCommand_readsOnly {l : List (Fin 6)} {k : Nat} : ReadsOnly l (literalCommand k) :=
  .bind prologue_readsOnly fun _ => .bind onBr0_readsOnly fun _ => setResult_readsOnly

/-- The command runs a body that reads the ARG registers listed for it only. -/
theorem exec_readsOnly (i : Instr) :
    ∃ body, (∀ s, exec i s = runCommand i body s) ∧ ReadsOnly (operandRegisters i) body := by
  cases i with
  | brInit =>
    exact ⟨_, fun _ => rfl, .arg fun _ => .arg fun _ => .bind requireLmem_readsOnly fun _ => .modify fun _ _ => rfl⟩
  | brEnsure n =>
    exact ⟨_, fun _ => rfl, .bind bitCount_readsOnly fun _ => .bind prologue_readsOnly fun _ => onBr0_readsOnly⟩
  | brPop n =>
    exact ⟨_, fun _ => rfl, .bind bitCount_readsOnly fun _ => .bind prologue_readsOnly fun _ =>
      .bind onBr0_readsOnly fun _ => .pure _⟩
  | brPeek n | brRead n =>
    exact ⟨_, fun _ => rfl, .bind bitCount_readsOnly fun _ => .bind prologue_readsOnly fun _ =>
      .bind onBr0_readsOnly fun _ => setResult_readsOnly⟩
  | brReadByte | brReadU16 | brReadU32 => exact ⟨_, fun _ => rfl, literalCommand_readsOnly⟩
  | brReadBytes =>
    exact ⟨_, fun _ => rfl, .bind prologue_readsOnly fun _ => .arg fun _ => .arg fun _ =>
      .bind requireLmem_readsOnly fun _ => .get_bind (fun _ _ => rfl) fun _ => .bind requireDisjoint_readsOnly fun _ =>
      .bind onBr0_readsOnly fun _ => onLmem_readsOnly⟩
  | brAlign => exact ⟨_, fun _ => rfl, .bind prologue_readsOnly fun _ => .modify fun _ _ => rfl⟩
  | htBuild =>
    exact ⟨_, fun _ => rfl, .arg fun _ => .arg fun _ => .arg fun _ => .arg fun _ => .arg fun _ =>
      .bind requireOperand_readsOnly fun _ => .bind requireLmem_readsOnly fun _ => .bind requireLmem_readsOnly fun _ =>
      .bind requireDisjoint_readsOnly fun _ => .bind onLmem_readsOnly fun _ => .get_bind (fun _ _ => rfl) fun _ =>
      .bind buildOrFail_readsOnly fun _ => onLmem_readsOnly⟩
  | htDecode =>
    exact ⟨_, fun _ => rfl, .bind prologue_readsOnly fun _ => .arg fun _ => .arg fun _ => .arg fun _ =>
      .bind requireOperand_readsOnly fun _ => .bind onBr0_readsOnly fun _ => setResult_readsOnly⟩
  | mcCopy =>
    exact ⟨_, fun _ => rfl, .arg fun _ => .arg fun _ => .arg fun _ => .arg fun _ => .arg fun _ => .arg fun _ =>
      .bind requireLmem_readsOnly fun _ => .bind onLmem_readsOnly fun _ => setResult_readsOnly⟩
  | caDecompress =>
    exact ⟨_, fun _ => rfl, .arg fun _ => .arg fun _ => .arg fun _ => .arg fun _ =>
      .bind requireOperand_readsOnly fun _ => .bind requireLmem_readsOnly fun _ => .bind requireLmem_readsOnly fun _ =>
      .bind requireDisjoint_readsOnly fun _ => .get_bind (fun _ _ => rfl) fun _ => onLmem_readsOnly⟩
  | cbDecompress =>
    exact ⟨_, fun _ => rfl, .arg fun _ => .arg fun _ => .arg fun _ => .arg fun _ => .arg fun _ =>
      .bind requireOperand_readsOnly fun _ => .bind requireLmem_readsOnly fun _ => .bind requireLmem_readsOnly fun _ =>
      .bind requireDisjoint_readsOnly fun _ => .get_bind (fun _ _ => rfl) fun _ => onLmem_readsOnly⟩
  | ctxOpen =>
    refine ⟨_, fun _ => rfl, .get_bind (fun _ _ => rfl) fun _ => .bind requireOperand_readsOnly fun _ =>
      .bind (readArgWord_readsOnly (by decide)) fun _ => .arg fun _ => .arg fun codec => .arg fun order => ?_⟩
    cases legalCodec codec order with
    | none => exact .stop _
    | some cd => exact openChecked_readsOnly
  | ctxGetSize =>
    exact ⟨_, fun _ => rfl, .get_bind (fun _ _ => rfl) fun _ => .bind requireOperand_readsOnly fun _ =>
      setResult_readsOnly⟩
  | ctxRead =>
    exact ⟨_, fun _ => rfl, .get_bind (fun _ _ => rfl) fun _ => .ite
      (.arg fun _ => .arg fun _ => .arg fun _ => readOpened_readsOnly) (.bind setResult_readsOnly fun _ => .stop _)⟩
  | ctxClose => exact ⟨_, fun _ => rfl, .modify fun _ _ => rfl⟩

/-- A command whose body reads listed registers only leaves the same state, but for the other ARG values. -/
theorem runCommand_overArgs {l : List (Fin 6)} {i : Instr} {body : Run State Unit} {args : Vector (Option Word64) 6}
    {s t u : State} (hb : ReadsOnly l body) (h : OverArgs l args s t) (e : runCommand i body s = .next u) :
    runCommand i body t = .next { u with args := args } := by
  have hst := hb.alike h
  unfold runCommand at e ⊢
  generalize body s = x at hst e
  generalize body t = y at hst ⊢
  cases hst with
  | ok _ huv =>
    obtain ⟨rfl, -⟩ := huv
    cases e
    rfl
  | error x huv =>
    obtain ⟨rfl, -⟩ := huv
    cases x <;> cases e <;> rfl

/-- Settles O12: every body reads only the registers listed for its command, so it ends alike. -/
theorem commandsReadOnlyTheirOperands : Obligations.CommandsReadOnlyTheirOperands := by
  intro i s t args hk ht
  obtain ⟨body, hrun, hbody⟩ := exec_readsOnly i
  rw [hrun] at ht ⊢
  exact runCommand_overArgs hbody ⟨rfl, hk⟩ ht

end Sys2Proof.Machine

/-! ## BR_READ as BR_ENSURE, BR_PEEK and BR_POP -/

namespace Sys2Proof.Machine

section
variable {n : BitVec 5} {s : State}

theorem prologue_of_invalid (h : s.br0.valid = false) : prologue s = .error (.fault .brInvalid) s := by
  unfold prologue
  rw [bind_of_ok (get_run s), if_neg (by simp [h])]
  rfl

/-- A bit command on an initialised reader does its work with its bit count (30_encoding.md R72, 40_bit_reader.md
R118). -/
theorem bitCommand_of_valid {f : Nat → Run State Unit} (hn : n.toNat ≤ 16) (hv : s.br0.valid = true) :
    (bitCount n >>= fun k => prologue >>= fun _ => f k) s = f n.toNat s := by
  rw [bind_of_ok (bitCount_of_le hn s), bind_of_ok (prologue_of_valid hv)]

theorem bitCommand_of_invalid {f : Nat → Run State Unit} (hn : n.toNat ≤ 16) (hv : s.br0.valid = false) :
    (bitCount n >>= fun k => prologue >>= fun _ => f k) s = .error (.fault .brInvalid) s := by
  rw [bind_of_ok (bitCount_of_le hn s), bind_of_error (prologue_of_invalid hv)]

/-- BR_PEEK of bits that are there (R109). -/
theorem exec_brPeek_of_le (hn : n.toNat ≤ 16) (hv : s.br0.valid = true) (hle : n.toNat ≤ s.br0.bitsleft) :
    exec (.brPeek n) s =
      .next ((s.setRes0 (BitVec.ofNat 64 (s.br0.bitbuf >>> (32 - n.toNat)).toNat)).finish .ok) := by
  refine runCommand_of_ok ((bitCommand_of_valid hn hv).trans ?_)
  rcases peek_cases n.toNat s.br0 with ⟨h, -⟩ | ⟨-, e⟩
  · omega
  · rw [bind_of_ok (onBr0_of_ok e)]
    rfl

/-- BR_POP of bits that are there (R110). -/
theorem exec_brPop_of_le (hn : n.toNat ≤ 16) (hv : s.br0.valid = true) (hle : n.toNat ≤ s.br0.bitsleft) :
    exec (.brPop n) s = .next ((s.setBr0 (dropBits s.br0 n.toNat)).finish .ok) := by
  refine runCommand_of_ok ((bitCommand_of_valid hn hv).trans ?_)
  rcases pop_cases n.toNat s.br0 with ⟨h, -⟩ | ⟨-, e⟩
  · omega
  · rw [bind_of_ok (onBr0_of_ok e)]
    rfl

end

/-- Settles O22: Ensure either faults, in both commands alike, or leaves the bits that Peek and Pop then find. -/
theorem brReadIsEnsurePeekPop : Obligations.BrReadIsEnsurePeekPop := by
  intro n s s1 hn hf he
  cases hv : s.br0.valid with
  | false =>
    have hfault : exec (.brEnsure n) s = .next (s.takeFault .brInvalid (opcodeOf (.brEnsure n))) :=
      runCommand_of_fault (bitCommand_of_invalid hn hv)
    obtain rfl := Host.Outcome.next.inj (he.symm.trans hfault)
    exact ⟨nofun, fun _ => runCommand_of_fault (bitCommand_of_invalid hn hv)⟩
  | true =>
    rcases readBits_cases (lmemSpace s) hn s.br0 with ⟨r, hens, hle, hread⟩ | ⟨c, hens, hread⟩
    · have hok : exec (.brEnsure n) s = .next ((s.setBr0 r).finish .ok) :=
        runCommand_of_ok ((bitCommand_of_valid hn hv).trans (onBr0_of_ok hens))
      obtain rfl := Host.Outcome.next.inj (he.symm.trans hok)
      obtain ⟨-, -, hvalid, -⟩ := (ensure_step (lmemSpace s) (by omega)).ok hens
      refine ⟨fun _ => ⟨_, _, exec_brPeek_of_le hn (hvalid.trans hv) hle, exec_brPop_of_le hn (hvalid.trans hv) hle, ?_⟩,
        fun h => absurd (hf.symm.trans h) (by decide)⟩
      refine runCommand_of_ok (t := (s.setBr0 (dropBits r n.toNat)).setRes0 _) ((bitCommand_of_valid hn hv).trans ?_)
      rw [bind_of_ok (onBr0_of_ok hread)]
      rfl
    · have hfault : exec (.brEnsure n) s = .next ((s.setBr0 s.br0).takeFault c (opcodeOf (.brEnsure n))) :=
        runCommand_of_fault ((bitCommand_of_valid hn hv).trans (onBr0_of_error hens))
      obtain rfl := Host.Outcome.next.inj (he.symm.trans hfault)
      exact ⟨nofun, fun _ => runCommand_of_fault (t := s.setBr0 s.br0)
        ((bitCommand_of_valid hn hv).trans (bind_of_error (onBr0_of_error hread)))⟩

end Sys2Proof.Machine

/-! ## HT_DECODE through a fast record -/

namespace Sys2Proof.Machine

/-! ### Table entries (30_encoding.md R80) -/

/-- The two bytes of an entry, read little-endian (20_memory.md R57, R58). -/
theorem leNat_entryBytes (e : Entry) : leNat [e.setWidth 8, (e >>> 8).setWidth 8] = e.toNat := by
  have := e.isLt
  simp only [leNat, BitVec.toNat_setWidth, BitVec.toNat_ushiftRight, Nat.shiftRight_eq_div_pow]
  omega

theorem memRead_of_holdsBytes {sp : Space} {a : Nat} {bs : List Byte} (h : HoldsBytes sp.cells a bs)
    (hle : a + bs.length ≤ sp.limit) : memRead sp a bs.length = .ok (leNat bs) := by
  rw [memRead, (memReadBytes_ok_iff sp a bs.length bs).mpr ⟨.inr hle, rfl, h⟩]

theorem lmemEntry_of_holdsBytes {sp : Space} {t i : Nat} {e : Entry}
    (h : HoldsBytes sp.cells (t + 2 * i) [e.setWidth 8, (e >>> 8).setWidth 8]) (hle : t + 2 * i + 2 ≤ sp.limit) :
    lmemEntry sp t i = .ok e := by
  have hread : memRead sp (t + 2 * i) 2 = .ok e.toNat := (memRead_of_holdsBytes h hle).trans (by rw [leNat_entryBytes])
  rw [lmemEntry, hread]
  simp

theorem isNode_of_lt {e : Entry} (h : e.toNat < 0xC000) : isNode e = false := by
  simpa [isNode, BitVec.le_def] using h

theorem fastLength_eq (e : Entry) : fastLength e = e.toNat / 2048 := by
  simp [fastLength, Nat.shiftRight_eq_div_pow]

theorem fastSymbol_eq (e : Entry) : fastSymbol e = e.toNat % 2048 := by
  rw [fastSymbol, BitVec.toNat_and]
  exact Nat.and_two_pow_sub_one_eq_mod e.toNat 11

/-! ### The command (41_huffman.md R141, R146) -/

/-- DecodeSym with its bits buffered and a fast record at the selected entry (R141). -/
theorem decodeSym_of_fastRecord {inp : Space} {entry : Nat → Except Cause Entry} {tb maxLen : Nat} {r : BitReader}
    {e : Entry} (htb : tb ≤ maxLen) (hbuf : maxLen ≤ r.bitsleft)
    (hentry : entry (r.bitbuf >>> (32 - tb)).toNat = .ok e) (hnode : isNode e = false)
    (hlen : fastLength e ≤ r.bitsleft) :
    decodeSym inp entry tb maxLen r = .ok (fastSymbol e) (dropBits r (fastLength e)) := by
  have hens : ensure inp maxLen r = .ok () r := by
    rcases ensure_cases inp maxLen r with ⟨-, h⟩ | ⟨h, -⟩ | ⟨h, -⟩
    · exact h
    · omega
    · omega
  rw [decodeSym_of_entry hens (htb.trans hbuf) hentry, hnode, if_neg (by decide), if_neg (by omega)]

/-- What HT_DECODE does once its operands are read (R146). -/
def decodeThrough (table tb maxLen : Nat) : Run State Unit := do
  requireOperand (1 ≤ tb && tb ≤ 12 && tb ≤ maxLen && maxLen ≤ 16) .illegal
  let sym ← onBr0 fun inp => decodeSym inp (lmemEntry inp table) tb maxLen
  setResult sym

section
variable {s : State} {table tb maxLen : Nat}

/-- HT_DECODE on an initialised reader with written operands. -/
theorem exec_htDecode (hv : s.br0.valid = true) (htable : ArgIs s 0 table) (htb : ArgIs s 1 tb)
    (hmax : ArgIs s 2 maxLen) : exec .htDecode s = runCommand .htDecode (decodeThrough table tb maxLen) s := by
  change runCommand .htDecode _ s = _
  unfold runCommand
  rw [bind_of_ok (prologue_of_valid hv), bind_of_ok (readArg_of_argIs htable), bind_of_ok (readArg_of_argIs htb),
    bind_of_ok (readArg_of_argIs hmax)]
  rfl

theorem decodeThrough_of_not_limits (h : ¬ (1 ≤ tb ∧ tb ≤ 12 ∧ tb ≤ maxLen ∧ maxLen ≤ 16)) :
    decodeThrough table tb maxLen s = .error (.fail .illegal) s := by
  have hcheck : (1 ≤ tb && tb ≤ 12 && tb ≤ maxLen && maxLen ≤ 16 : Bool) = false := by
    simpa [and_assoc] using h
  rw [decodeThrough, hcheck, bind_of_error (requireOperand_false _ s)]

theorem decodeThrough_of_decodeSym {sym : Nat} {r : BitReader} (h1 : 1 ≤ tb) (h12 : tb ≤ 12) (hle : tb ≤ maxLen)
    (h16 : maxLen ≤ 16) (hsym : decodeSym (lmemSpace s) (lmemEntry (lmemSpace s) table) tb maxLen s.br0 = .ok sym r) :
    decodeThrough table tb maxLen s = .ok () ((s.setBr0 r).setRes0 (BitVec.ofNat 64 sym)) := by
  have hcheck : (1 ≤ tb && tb ≤ 12 && tb ≤ maxLen && maxLen ≤ 16 : Bool) = true := by
    simp [*]
  rw [decodeThrough, hcheck, bind_of_ok (requireOperand_true _ s),
    bind_of_ok (onBr0_of_ok (f := fun inp => decodeSym inp (lmemEntry inp table) tb maxLen) hsym)]
  rfl

end

/-- Settles O32: outside the limits the operand check fails; inside them the entry read from LMEM is a fast record. -/
theorem htDecodeFollowsAFastRecord : Obligations.HtDecodeFollowsAFastRecord := by
  intro s a tb maxLen hv ha htb hmax
  rw [exec_htDecode hv ha htb hmax]
  refine ⟨fun h => runCommand_of_fail (decodeThrough_of_not_limits h), ?_⟩
  intro h1 h12 hle h16 hbuf e hbytes hrange hfast hlen
  have hsym := decodeSym_of_fastRecord (inp := lmemSpace s) hle hbuf
    (lmemEntry_of_holdsBytes (sp := lmemSpace s) hbytes hrange) (isNode_of_lt hfast) hlen
  rw [fastLength_eq, fastSymbol_eq] at hsym
  exact runCommand_of_ok (decodeThrough_of_decodeSym h1 h12 hle h16 hsym)

end Sys2Proof.Machine

/-! ## The bit reader's commands, ending by ending -/

namespace Sys2Proof.Machine

/-! ### The command words of the bit commands (30_encoding.md R72, R75(c)) -/

/-- A word with an opcode of a bit command decodes exactly when its bit count is at most 16. -/
theorem decode_bitCommand {n : BitVec 5} {opc : BitVec 8} {i : BitVec 5 → Instr}
    (h : decodeFields opc n = bitCommand n i) :
    decode (0#19 ++ (n ++ opc)) = if n.toNat ≤ 16 then .ok (i n) else .error .bitCountTooLarge := by
  obtain ⟨hopc, hn, hrsv⟩ := Laws.fields_of_layout n opc
  rw [decode, if_pos hrsv, hopc, hn, h, bitCommand]
  simp only [bitCountLegal, decide_eq_true_eq]

/-! ### Reads of the input (20_memory.md R53, R54, R57) -/

/-- A read inside the memory faults when one of its bytes has no value. -/
theorem memRead_of_unwritten {sp : Space} {a k : Nat} (hle : a + k ≤ sp.limit)
    (h : ∃ j < k, readByte sp.cells (a + j) = none) : memRead sp a k = .error .unwritten := by
  obtain ⟨j, hj, hnone⟩ := h
  unfold memRead
  cases hb : memReadBytes sp a k with
  | ok bs =>
    obtain ⟨-, rfl, hget⟩ := (memReadBytes_ok_iff sp a k bs).mp hb
    have := hget j hj
    rw [hnone] at this
    cases this
  | error c =>
    rcases memReadBytes_error hb with ⟨-, -, hlt⟩ | ⟨rfl, -⟩
    · omega
    · rfl

/-- The 16-bit unit of two bytes, as the accumulator takes it in (R57, R59). -/
theorem ofNat_leNat_unit (low high : Byte) : BitVec.ofNat 32 (leNat [low, high]) = (high ++ low).setWidth 32 := by
  have hlow : low.toNat < 2 ^ 8 := low.isLt
  apply BitVec.eq_of_toNat_eq
  rw [BitVec.toNat_ofNat, BitVec.toNat_setWidth, BitVec.toNat_append, ← Nat.shiftLeft_add_eq_or_of_lt hlow,
    Nat.shiftLeft_eq]
  simp only [leNat]
  omega

/-! ### The internal functions, case by case (40_bit_reader.md R102-R106) -/

section
variable {inp : Space} {r : BitReader} {n k : Nat}

theorem ensure_of_le (h : n ≤ r.bitsleft) : ensure inp n r = .ok () r := by
  rcases ensure_cases inp n r with ⟨-, e⟩ | ⟨h', -⟩ | ⟨h', -⟩
  · exact e
  · omega
  · omega

theorem ensure_of_exhausted (h : r.bitsleft < n) (hend : r.stop < r.next + 2) :
    ensure inp n r = .ok () (padReader r) := by
  rcases ensure_cases inp n r with ⟨h', -⟩ | ⟨-, -, e⟩ | ⟨-, h', -⟩
  · omega
  · exact e
  · omega

/-- A refill takes in the unit at the cursor. -/
theorem ensure_of_unit (h : r.bitsleft < n) (hfit : r.next + 2 ≤ r.stop) {u : Nat}
    (hread : memRead inp r.next 2 = .ok u) : ensure inp n r = .ok () (refillReader r u) := by
  rcases ensure_cases inp n r with ⟨h', -⟩ | ⟨-, h', -⟩ | ⟨-, -, ⟨v, hv, e⟩ | ⟨c, hc, -⟩⟩
  · omega
  · omega
  · cases hv.symm.trans hread
    exact e
  · cases hc.symm.trans hread

theorem ensure_of_fault (h : r.bitsleft < n) (hfit : r.next + 2 ≤ r.stop) {c : Cause}
    (hread : memRead inp r.next 2 = .error c) : ensure inp n r = .error (.fault c) r := by
  rcases ensure_cases inp n r with ⟨h', -⟩ | ⟨-, h', -⟩ | ⟨-, -, ⟨v, hv, -⟩ | ⟨d, hd, e⟩⟩
  · omega
  · omega
  · cases hv.symm.trans hread
  · cases hd.symm.trans hread
    exact e

theorem peek_of_lt (h : r.bitsleft < n) : peek n r = .error (.fault .brUnderflow) r :=
  (peek_cases n r).elim And.right fun h' => absurd h'.1 (by omega)

theorem pop_of_lt (h : r.bitsleft < n) : pop n r = .error (.fault .brUnderflow) r :=
  (pop_cases n r).elim And.right fun h' => absurd h'.1 (by omega)

theorem readLit_of_lt (h : r.stop < r.next + k) : readLit inp k r = .ok 0 r :=
  (readLit_cases inp k r).elim And.right fun h' => absurd h'.1 (by omega)

theorem readLit_of_ok (hfit : r.next + k ≤ r.stop) {v : Nat} (hread : memRead inp r.next k = .ok v) :
    readLit inp k r = .ok v (advance k r) := by
  rcases readLit_cases inp k r with ⟨h', -⟩ | ⟨-, ⟨w, hw, e⟩ | ⟨c, hc, -⟩⟩
  · omega
  · cases hw.symm.trans hread
    exact e
  · cases hc.symm.trans hread

theorem readLit_of_fault (hfit : r.next + k ≤ r.stop) {c : Cause} (hread : memRead inp r.next k = .error c) :
    readLit inp k r = .error (.fault c) r := by
  rcases readLit_cases inp k r with ⟨h', -⟩ | ⟨-, ⟨w, hw, -⟩ | ⟨d, hd, e⟩⟩
  · omega
  · cases hw.symm.trans hread
  · cases hd.symm.trans hread
    exact e

end

/-! ### The commands on an initialised reader (R108-R117) -/

section
variable {s : State} {n : BitVec 5} {k : Nat}

theorem exec_brEnsure_of_ok (hn : n.toNat ≤ 16) (hv : s.br0.valid = true) {r : BitReader}
    (h : ensure (lmemSpace s) n.toNat s.br0 = .ok () r) :
    exec (.brEnsure n) s = .next (completed { s with br0 := r }) :=
  runCommand_of_ok ((bitCommand_of_valid hn hv).trans (onBr0_of_ok h))

theorem exec_brEnsure_of_unwritten (hn : n.toNat ≤ 16) (hv : s.br0.valid = true)
    (h : ensure (lmemSpace s) n.toNat s.br0 = .error (.fault .unwritten) s.br0) :
    exec (.brEnsure n) s = .next (faulted (.brEnsure n) 1#8 s) :=
  runCommand_of_fault (c := .unwritten) ((bitCommand_of_valid hn hv).trans (onBr0_of_error h))

theorem exec_brPeek_of_lt (hn : n.toNat ≤ 16) (hv : s.br0.valid = true) (hlt : s.br0.bitsleft < n.toNat) :
    exec (.brPeek n) s = .next (faulted (.brPeek n) 4#8 s) :=
  runCommand_of_fault (c := .brUnderflow) ((bitCommand_of_valid hn hv).trans
    (bind_of_error (onBr0_of_error (peek_of_lt hlt))))

theorem exec_brPop_of_lt (hn : n.toNat ≤ 16) (hv : s.br0.valid = true) (hlt : s.br0.bitsleft < n.toNat) :
    exec (.brPop n) s = .next (faulted (.brPop n) 4#8 s) :=
  runCommand_of_fault (c := .brUnderflow) ((bitCommand_of_valid hn hv).trans
    (bind_of_error (onBr0_of_error (pop_of_lt hlt))))

/-- A literal read completes with what ReadLit gives (R112-R114). -/
theorem literalCommand_of_ok (hv : s.br0.valid = true) {v : Nat} {r : BitReader}
    (h : readLit (lmemSpace s) k s.br0 = .ok v r) :
    literalCommand k s = .ok () ((s.setBr0 r).setRes0 (BitVec.ofNat 64 v)) := by
  unfold literalCommand
  rw [bind_of_ok (prologue_of_valid hv), bind_of_ok (onBr0_of_ok h)]
  rfl

theorem literalCommand_of_error (hv : s.br0.valid = true) {e : Stop} {r : BitReader}
    (h : readLit (lmemSpace s) k s.br0 = .error e r) : literalCommand k s = .error e (s.setBr0 r) := by
  unfold literalCommand
  rw [bind_of_ok (prologue_of_valid hv), bind_of_error (onBr0_of_error h)]

/-- The three literal reads and their byte counts. -/
theorem exec_literal {i : Instr}
    (h : (i, k) ∈ ([(.brReadByte, 1), (.brReadU16, 2), (.brReadU32, 4)] : List (Instr × Nat))) :
    exec i s = runCommand i (literalCommand k) s := by
  simp only [List.mem_cons, Prod.mk.injEq, List.not_mem_nil, or_false] at h
  rcases h with ⟨rfl, rfl⟩ | ⟨rfl, rfl⟩ | ⟨rfl, rfl⟩ <;> rfl

end

/-! ### Before the first BR_INIT (R118) -/

/-- Settles O26: the prologue is the first thing each body does, but for the check of the bit count. -/
theorem readerCommandsNeedInit : Obligations.ReaderCommandsNeedInit := by
  intro n i s hn hi hv
  have bit : ∀ {i : Instr} {f : Nat → Run State Unit},
      runCommand i (bitCount n >>= fun k => prologue >>= fun _ => f k) s = .next (faulted i 3#8 s) :=
    runCommand_of_fault (bitCommand_of_invalid hn hv)
  have plain : ∀ {i : Instr} {f : Unit → Run State Unit},
      runCommand i (prologue >>= f) s = .next (faulted i 3#8 s) :=
    runCommand_of_fault (bind_of_error (prologue_of_invalid hv))
  simp only [List.mem_cons, List.not_mem_nil, or_false] at hi
  rcases hi with rfl | rfl | rfl | rfl | rfl | rfl | rfl | rfl | rfl | rfl
  exacts [bit, bit, bit, bit, plain, plain, plain, plain, plain, plain]

/-! ### Each command's endings -/

/-- Settles O17: the operands are read in order, then the range is checked. -/
theorem brInitSetsTheReader : Obligations.BrInitSetsTheReader := by
  refine ⟨rfl, fun s => ?_⟩
  cases hstart : s.args.get 0 with
  | none => exact runCommand_of_fault (c := .unwritten) (bind_of_error (readArg_of_none hstart))
  | some start =>
    cases hsize : s.args.get 1 with
    | none =>
      exact runCommand_of_fault (c := .unwritten)
        ((bind_of_ok (readArg_of_some hstart)).trans (bind_of_error (readArg_of_none hsize)))
    | some size =>
      have hoperands {f : Nat → Nat → Run State Unit} :
          (readArg 0 >>= fun a => readArg 1 >>= fun n => f a n) s = f start.toNat size.toNat s :=
        (bind_of_ok (readArg_of_some hstart)).trans (bind_of_ok (readArg_of_some hsize))
      simp only
      split_ifs with hlt
      · exact runCommand_of_fault (c := .memRange) (hoperands.trans (bind_of_error (requireLmem_of_lt hlt)))
      · exact runCommand_of_ok (hoperands.trans (bind_of_ok (requireLmem_of_le (Nat.not_lt.mp hlt))))

/-- Settles O18: Ensure's three cases on BR0, the last one by whether both bytes of the unit have a value. -/
theorem brEnsureRefillsOrPads : Obligations.BrEnsureRefillsOrPads := by
  refine ⟨fun n => decode_bitCommand rfl, fun n s hn hstop => ?_⟩
  split_ifs with hinvalid hbuf hend
  · exact readerCommandsNeedInit n _ s hn (by simp) hinvalid
  · exact exec_brEnsure_of_ok hn (eq_true_of_ne_false hinvalid) (ensure_of_le hbuf)
  · exact exec_brEnsure_of_ok hn (eq_true_of_ne_false hinvalid) (ensure_of_exhausted (Nat.not_le.mp hbuf) hend)
  · have hv : s.br0.valid = true := eq_true_of_ne_false hinvalid
    have hfit : s.br0.next + 2 ≤ s.br0.stop := Nat.not_lt.mp hend
    have hrange : s.br0.next + 2 ≤ (lmemSpace s).limit := hfit.trans hstop
    have hneed : s.br0.bitsleft < n.toNat := Nat.not_le.mp hbuf
    have hunwritten (h : ∃ j < 2, readByte s.lmem (s.br0.next + j) = none) :
        exec (.brEnsure n) s = .next (faulted (.brEnsure n) 1#8 s) :=
      exec_brEnsure_of_unwritten hn hv (ensure_of_fault hneed hfit (memRead_of_unwritten hrange h))
    cases hlow : readByte s.lmem s.br0.next with
    | none => exact hunwritten ⟨0, by decide, hlow⟩
    | some low =>
      cases hhigh : readByte s.lmem (s.br0.next + 1) with
      | none => exact hunwritten ⟨1, by decide, hhigh⟩
      | some high =>
        have hbytes : HoldsBytes (lmemSpace s).cells s.br0.next [low, high] := by
          intro j hj
          match j, hj with
          | 0, _ => exact hlow
          | 1, _ => exact hhigh
        have hens := ensure_of_unit hneed hfit (memRead_of_holdsBytes hbytes hrange)
        rw [refillReader, ofNat_leNat_unit] at hens
        exact exec_brEnsure_of_ok hn hv hens

/-- Settles O19: Peek's two cases on BR0. -/
theorem brPeekReturnsTheNextBits : Obligations.BrPeekReturnsTheNextBits := by
  refine ⟨fun n => decode_bitCommand rfl, fun n s hn => ?_⟩
  split_ifs with hinvalid hlt
  · exact readerCommandsNeedInit n _ s hn (by simp) hinvalid
  · exact exec_brPeek_of_lt hn (eq_true_of_ne_false hinvalid) hlt
  · rw [exec_brPeek_of_le hn (eq_true_of_ne_false hinvalid) (Nat.not_lt.mp hlt), BitVec.ofNat_toNat]
    rfl

/-- Settles O20: Pop's two cases on BR0. -/
theorem brPopDiscardsTheNextBits : Obligations.BrPopDiscardsTheNextBits := by
  refine ⟨fun n => decode_bitCommand rfl, fun n s hn => ?_⟩
  split_ifs with hinvalid hlt
  · exact readerCommandsNeedInit n _ s hn (by simp) hinvalid
  · exact exec_brPop_of_lt hn (eq_true_of_ne_false hinvalid) hlt
  · exact exec_brPop_of_le hn (eq_true_of_ne_false hinvalid) (Nat.not_lt.mp hlt)

/-- Settles O23: ReadLit's cases on BR0, for all three byte counts alike. -/
theorem literalReadsTakeBytesAtTheCursor : Obligations.LiteralReadsTakeBytesAtTheCursor := by
  refine ⟨rfl, rfl, rfl, fun i k s hi hstop => ?_⟩
  rw [exec_literal hi]
  refine ⟨fun hv => ?_, fun hv hlt => ?_, fun hv hfit bs hlen hbytes => ?_, fun hv hfit hnone => ?_⟩
  · exact runCommand_of_fault (bind_of_error (prologue_of_invalid hv))
  · exact runCommand_of_ok (literalCommand_of_ok hv (readLit_of_lt hlt))
  · subst hlen
    have hread := memRead_of_holdsBytes (sp := lmemSpace s) hbytes (hfit.trans hstop)
    exact runCommand_of_ok (literalCommand_of_ok hv (readLit_of_ok hfit hread))
  · have hread := memRead_of_unwritten (sp := lmemSpace s) (hfit.trans hstop) hnone
    exact runCommand_of_fault (c := .unwritten) (literalCommand_of_error hv (readLit_of_fault hfit hread))

/-- Settles O25: past the prologue BR_ALIGN is Align on BR0. -/
theorem brAlignDiscardsTheAccumulator : Obligations.BrAlignDiscardsTheAccumulator := by
  refine ⟨rfl, fun s => ?_⟩
  split_ifs with hinvalid
  · exact readerCommandsNeedInit 0#5 _ s (by decide) (by simp) hinvalid
  · exact runCommand_of_ok (t := s.setBr0 (alignReader s.br0))
      (bind_of_ok (prologue_of_valid (eq_true_of_ne_false hinvalid)))

end Sys2Proof.Machine

/-! ## The code space and the table builder -/

namespace Sys2Proof.Machine

/-! ### The Kraft sum (41_huffman.md R130, R134) -/

/-- One length more doubles what the shorter codewords take and adds the codewords of the new length. -/
theorem kraftSum_filter_succ (lens : List Nat) (k : Nat) :
    kraftSum (lens.filter (· ≤ k + 1)) (k + 1) = 2 * kraftSum (lens.filter (· ≤ k)) k + lens.count (k + 1) := by
  unfold kraftSum
  induction lens with
  | nil => rfl
  | cons l ls ih =>
    rcases Nat.lt_trichotomy l (k + 1) with hlt | rfl | hgt
    · rw [List.filter_cons_of_pos (by simpa using hlt.le),
        List.filter_cons_of_pos (by simpa using Nat.lt_succ_iff.mp hlt), List.count_cons_of_ne (by omega),
        List.map_cons, List.map_cons, List.sum_cons, List.sum_cons, ih]
      split
      · omega
      · rw [show k + 1 - l = k - l + 1 by omega, Nat.pow_succ]
        omega
    · rw [List.filter_cons_of_pos (by simp), List.filter_cons_of_neg (by simp), List.count_cons_self, List.map_cons,
        List.sum_cons, ih, if_neg (Nat.succ_ne_zero k), Nat.sub_self, Nat.pow_zero]
      omega
    · rw [List.filter_cons_of_neg (by simpa using hgt), List.filter_cons_of_neg (by simp; omega),
        List.count_cons_of_ne (by omega), ih]

/-- The first codeword above length `k` stands twice where the codewords up to length `k` end. -/
theorem firstCode_eq_kraftSum_filter (lens : List Nat) (k : Nat) :
    firstCode lens k = 2 * kraftSum (lens.filter (· ≤ k)) k := by
  induction k with
  | zero =>
    rw [firstCode, kraftSum, eq_comm, mul_eq_zero, List.sum_eq_zero_iff]
    simp +contextual
  | succ k ih => rw [firstCode, ih, kraftSum_filter_succ]

theorem firstCode_eq_kraftSum {lens : List Nat} {maxLen : Nat} (h : ∀ l ∈ lens, l ≤ maxLen) :
    firstCode lens maxLen = 2 * kraftSum lens maxLen := by
  rw [firstCode_eq_kraftSum_filter, List.filter_eq_self.mpr (by simpa using h)]

/-- Everything the Kraft check can do (R134): what the codewords up to a length take and what is left make the whole
code space, or they take more than the whole. -/
theorem kraftLeft_cases (lens : List Nat) (len : Nat) :
    (∃ left, kraftLeft lens len = some left ∧ firstCode lens len + 2 * left = 2 ^ (len + 1)) ∨
      kraftLeft lens len = none ∧ 2 ^ (len + 1) < firstCode lens len := by
  induction len with
  | zero => exact .inl ⟨1, rfl, rfl⟩
  | succ len ih =>
    rw [Nat.pow_succ, kraftLeft, firstCode]
    rcases ih with ⟨left, hleft, hsum⟩ | ⟨hnone, hlt⟩
    · rw [hleft]
      simp only
      split
      · exact .inr ⟨rfl, by omega⟩
      · exact .inl ⟨_, rfl, by omega⟩
    · rw [hnone]
      exact .inr ⟨rfl, by omega⟩

/-- A Kraft check that passes says what is left beside the codewords up to its length. -/
theorem firstCode_add_left {lens : List Nat} {len left : Nat} (h : kraftLeft lens len = some left) :
    firstCode lens len + 2 * left = 2 ^ (len + 1) := by
  rcases kraftLeft_cases lens len with ⟨left', hleft, hsum⟩ | ⟨hnone, -⟩
  · cases hleft.symm.trans h
    exact hsum
  · cases hnone.symm.trans h

/-! ### When BuildTable answers (R132-R135) -/

/-- BuildTable fails exactly on the lengths of a code that is not accepted. -/
theorem buildTable_isSome_iff (reject : Bool) (lens : List Nat) (tb maxLen : Nat) :
    (buildTable reject lens tb maxLen).isSome = true ↔ CodeAccepted reject lens maxLen := by
  unfold buildTable CodeAccepted
  by_cases hlong : ∀ l ∈ lens, l ≤ maxLen
  · have hany : lens.any (fun l => maxLen < l) = false := by simpa using hlong
    have hfirst := firstCode_eq_kraftSum hlong
    rw [hany, if_neg Bool.false_ne_true]
    rcases kraftLeft_cases lens maxLen with ⟨left, hleft, hsum⟩ | ⟨hnone, hlt⟩
    · rw [Nat.pow_succ] at hsum
      rw [hleft]
      simp only
      split_ifs with hempty hincomplete
      · exact ⟨fun _ => ⟨hlong, by omega, fun _ => .inr (by omega)⟩, fun _ => rfl⟩
      · simp only [Bool.and_eq_true, decide_eq_true_eq] at hincomplete
        exact ⟨nofun, fun ⟨_, _, h⟩ => by have := h hincomplete.1; omega⟩
      · refine ⟨fun _ => ⟨hlong, by omega, fun hr => .inl ?_⟩, fun _ => rfl⟩
        simp only [hr, Bool.true_and, decide_eq_true_eq] at hincomplete
        omega
    · rw [Nat.pow_succ] at hlt
      rw [hnone]
      exact ⟨nofun, fun ⟨_, h, _⟩ => by omega⟩
  · have hany : lens.any (fun l => maxLen < l) = true := by simpa using hlong
    rw [hany, if_pos rfl]
    exact ⟨nofun, fun h => absurd h.1 hlong⟩

theorem buildTable_eq_none_iff {reject : Bool} {lens : List Nat} {tb maxLen : Nat} :
    buildTable reject lens tb maxLen = none ↔ ¬ CodeAccepted reject lens maxLen := by
  rw [← buildTable_isSome_iff reject lens tb, Option.not_isSome_iff_eq_none]

/-- Settles O30: a code that takes more than the whole code space is not accepted. -/
theorem overSubscribedCodesFailToBuild : Obligations.OverSubscribedCodesFailToBuild :=
  ⟨fun _ _ _ _ h => buildTable_eq_none_iff.mpr fun ⟨_, hle, _⟩ => absurd hle (Nat.not_le.mpr h),
    by decide, by decide, by decide⟩

end Sys2Proof.Machine

/-! ## HT_BUILD -/

namespace Sys2Proof.Machine

/-! ### The size of a table (41_huffman.md R131, R137) -/

/-- The trie only grows the table. -/
theorem le_trieDescend_length (code x : Nat) (table : List Entry) (node : Nat) :
    table.length ≤ (trieDescend code x table node).1.length := by
  induction x generalizing table node with
  | zero => exact le_rfl
  | succ x ih =>
    unfold trieDescend
    split
    · refine le_trans ?_ (ih _ _)
      simp only [List.length_append, List.length_set, List.length_cons, List.length_nil]
      omega
    · exact ih _ _

theorem le_trieInsert_length (tb len : Nat) (table : List Entry) (code sym : Nat) :
    table.length ≤ (trieInsert tb len table code sym).length :=
  (le_trieDescend_length ..).trans_eq (List.length_set ..).symm

theorem le_trieSymbols_length (tb len : Nat) (syms : List Nat) (table : List Entry) (code : Nat) :
    table.length ≤ (trieSymbols tb len syms table code).1.length := by
  induction syms generalizing table code with
  | nil => exact le_rfl
  | cons sym rest ih => exact (le_trieInsert_length ..).trans (ih _ _)

theorem le_trieLengths_length (lens : List Nat) (tb k : Nat) (table : List Entry) (code : Nat) :
    table.length ≤ (trieLengths lens tb k table code).1.length := by
  induction k with
  | zero => exact le_rfl
  | succ k ih => exact ih.trans (le_trieSymbols_length ..)

/-- What a built table is: filler for the empty code, else the direct region and the trie (R135-R137). -/
theorem buildTable_eq_some {reject : Bool} {lens : List Nat} {tb maxLen : Nat} {table : List Entry}
    (h : buildTable reject lens tb maxLen = some table) :
    (∀ l ∈ lens, l ≤ maxLen) ∧ ∃ left, kraftLeft lens maxLen = some left ∧
      ((left = 2 ^ maxLen ∧ table = List.replicate (2 ^ tb) 0#16) ∨
        left ≠ 2 ^ maxLen ∧ table = (trieLengths lens tb (maxLen - tb) (directRegion lens tb)
          ((directPart lens tb tb).length * 2)).1) := by
  unfold buildTable at h
  split at h
  · cases h
  · rename_i hany
    refine ⟨by simpa using hany, ?_⟩
    cases hk : kraftLeft lens maxLen with
    | none => rw [hk] at h; cases h
    | some left =>
      rw [hk] at h
      simp only at h
      split at h
      · cases h
        exact ⟨left, rfl, .inl ⟨‹_›, rfl⟩⟩
      · split at h <;> cases h
        exact ⟨left, rfl, .inr ⟨‹_›, rfl⟩⟩

/-- A table that is built has an entry for each direct slot. -/
theorem le_buildTable_length {reject : Bool} {lens : List Nat} {tb maxLen : Nat} {table : List Entry}
    (htb : tb ≤ maxLen) (h : buildTable reject lens tb maxLen = some table) : 2 ^ tb ≤ table.length := by
  obtain ⟨-, left, hk, ⟨-, rfl⟩ | ⟨-, rfl⟩⟩ := buildTable_eq_some h
  · rw [List.length_replicate]
  · exact (directRegion_length htb (by rw [hk]; rfl)).symm.trans_le (le_trieLengths_length ..)

/-! ### The bytes of a table (30_encoding.md R80) -/

theorem leBytes_entry (e : Entry) : leBytes 2 e.toNat = [e.setWidth 8, (e >>> 8).setWidth 8] := by
  have hlow : BitVec.ofNat 8 e.toNat = e.setWidth 8 := by
    apply BitVec.eq_of_toNat_eq
    rw [BitVec.toNat_ofNat, BitVec.toNat_setWidth]
  have hhigh : BitVec.ofNat 8 (e.toNat / 256) = (e >>> 8).setWidth 8 := by
    apply BitVec.eq_of_toNat_eq
    rw [BitVec.toNat_ofNat, BitVec.toNat_setWidth, BitVec.toNat_ushiftRight, Nat.shiftRight_eq_div_pow]
  rw [leBytes, leBytes, leBytes, hlow, hhigh]

theorem flatMap_leBytes_eq_entryBytes (table : List Entry) :
    (table.flatMap fun e => leBytes 2 e.toNat) = entryBytes table := by
  simp only [leBytes_entry, entryBytes]

theorem entryBytes_length (table : List Entry) : (entryBytes table).length = 2 * table.length := by
  simp [entryBytes, List.length_flatMap, Nat.mul_comm]

/-! ### The limits (R131) -/

theorem tableLimits_iff {n tb maxLen : Nat} : tableLimits n tb maxLen = true ↔
    1 ≤ n ∧ n ≤ 2048 ∧ 1 ≤ tb ∧ tb ≤ 12 ∧ tb ≤ maxLen ∧ maxLen ≤ 16 ∧ 2 ^ tb + 2 * n * (maxLen - tb) ≤ 16384 := by
  simp only [tableLimits, Bool.and_eq_true, decide_eq_true_eq, and_assoc]
  exact Iff.rfl

/-! ### Bytes read from memory (20_memory.md R53, R54) -/

theorem loadBytes_of_holdsBytes {sp : Space} {a : Nat} {bs : List Byte} (h : HoldsBytes sp.cells a bs)
    (hle : a + bs.length ≤ sp.limit) : loadBytes a bs.length sp = .ok bs sp := by
  rw [loadBytes, (memReadBytes_ok_iff sp a bs.length bs).mpr ⟨.inr hle, rfl, h⟩]

theorem memReadBytes_of_unwritten {sp : Space} {a n : Nat} (hle : a + n ≤ sp.limit)
    (h : ∃ j < n, readByte sp.cells (a + j) = none) : memReadBytes sp a n = .error .unwritten := by
  obtain ⟨j, hj, hnone⟩ := h
  cases hb : memReadBytes sp a n with
  | ok bs =>
    obtain ⟨-, rfl, hget⟩ := (memReadBytes_ok_iff sp a n bs).mp hb
    cases hnone.symm.trans (hget j hj)
  | error c =>
    rcases memReadBytes_error hb with ⟨-, -, hlt⟩ | ⟨rfl, -⟩
    · omega
    · rfl

/-! ### The command (41_huffman.md R140) -/

/-- What HT_BUILD does once its operands are read and checked. -/
def buildInto (lens n tb maxLen table : Nat) : Run State Unit := do
  let bytes ← onLmem (loadBytes lens n)
  let t ← get
  let entries ← buildOrFail t.world.params.rejectIncomplete (bytes.map BitVec.toNat) tb maxLen
  onLmem (storeBytes table (entries.flatMap fun e => leBytes 2 e.toNat))

/-- What HT_BUILD does once its operands are read. -/
def buildChecked (lens n tb maxLen table : Nat) : Run State Unit := do
  requireOperand (tableLimits n tb maxLen) .illegal
  requireLmem lens n
  requireLmem table (2 * tableSize tb maxLen n)
  requireDisjoint lens n table (2 * tableSize tb maxLen n)
  buildInto lens n tb maxLen table

section
variable {s : State} {a n tb maxLen table : Nat}

/-- HT_BUILD with written operands. -/
theorem exec_htBuild (ha : ArgIs s 0 a) (hn : ArgIs s 1 n) (htb : ArgIs s 2 tb) (hmax : ArgIs s 3 maxLen)
    (htable : ArgIs s 4 table) :
    exec .htBuild s = runCommand .htBuild (buildChecked a n tb maxLen table) s := by
  change runCommand .htBuild _ s = _
  unfold runCommand
  rw [bind_of_ok (readArg_of_argIs ha), bind_of_ok (readArg_of_argIs hn), bind_of_ok (readArg_of_argIs htb),
    bind_of_ok (readArg_of_argIs hmax), bind_of_ok (readArg_of_argIs htable)]
  rfl

theorem buildChecked_of_not_limits (h : tableLimits n tb maxLen = false) :
    buildChecked a n tb maxLen table s = .error (.fail .illegal) s := by
  rw [buildChecked, h, bind_of_error (requireOperand_false _ s)]

theorem buildChecked_of_outside (h : tableLimits n tb maxLen = true)
    (hout : ¬ (a + n ≤ 2 ^ s.world.params.addrBits ∧
      table + 2 * tableSize tb maxLen n ≤ 2 ^ s.world.params.addrBits)) :
    buildChecked a n tb maxLen table s = .error (.fault .memRange) s := by
  rw [buildChecked, h, bind_of_ok (requireOperand_true _ s)]
  by_cases hlens : a + n ≤ 2 ^ s.world.params.addrBits
  · rw [bind_of_ok (requireLmem_of_le hlens)]
    exact bind_of_error (requireLmem_of_lt (Nat.not_le.mp fun h => hout ⟨hlens, h⟩))
  · exact bind_of_error (requireLmem_of_lt (Nat.not_le.mp hlens))

/-- With legal operands and both ranges inside LMEM the test for overlap is next. -/
theorem buildChecked_of_inside (h : tableLimits n tb maxLen = true) (hlens : a + n ≤ 2 ^ s.world.params.addrBits)
    (hsize : table + 2 * tableSize tb maxLen n ≤ 2 ^ s.world.params.addrBits) :
    buildChecked a n tb maxLen table s =
      (requireDisjoint a n table (2 * tableSize tb maxLen n) >>= fun _ => buildInto a n tb maxLen table) s := by
  rw [buildChecked, h, bind_of_ok (requireOperand_true _ s), bind_of_ok (requireLmem_of_le hlens),
    bind_of_ok (requireLmem_of_le hsize)]

theorem buildInto_of_unwritten (hlens : a + n ≤ 2 ^ s.world.params.addrBits)
    (h : ∃ j < n, readByte s.lmem (a + j) = none) :
    buildInto a n tb maxLen table s = .error (.fault .unwritten) s := by
  have hload : loadBytes a n (lmemSpace s) = .error (.fault .unwritten) (lmemSpace s) := by
    rw [loadBytes, memReadBytes_of_unwritten (sp := lmemSpace s) hlens h]
  exact bind_of_error (zoom_of_error hload)

/-- Settles O29: the checks of HT_BUILD in their order. -/
theorem htBuildRefusesIllegalOperands : Obligations.HtBuildRefusesIllegalOperands := by
  intro s a n tb maxLen table ha hn htb hmax htable
  rw [exec_htBuild ha hn htb hmax htable]
  refine ⟨fun hlegal => ?_, fun hlegal hout => ?_, fun hlegal hin hov => ?_, fun hlegal hin hdis hnone => ?_⟩
  · exact runCommand_of_fail (buildChecked_of_not_limits (by simpa using mt tableLimits_iff.mp hlegal))
  · exact runCommand_of_fault (buildChecked_of_outside (tableLimits_iff.mpr hlegal) hout)
  · refine runCommand_of_fault (c := .overlap) ?_
    rw [buildChecked_of_inside (tableLimits_iff.mpr hlegal) hin.1 hin.2]
    exact bind_of_error (requireDisjoint_of_not_disjoint hov)
  · refine runCommand_of_fault (c := .unwritten) ?_
    rw [buildChecked_of_inside (tableLimits_iff.mpr hlegal) hin.1 hin.2]
    exact (bind_of_ok (requireDisjoint_of_disjoint hdis)).trans (buildInto_of_unwritten hin.1 hnone)

variable {lens : List Byte}

/-- The length bytes read, the table is built or the code refused. -/
theorem buildInto_of_holdsBytes (hbytes : HoldsBytes s.lmem a lens)
    (hlens : a + lens.length ≤ 2 ^ s.world.params.addrBits) :
    buildInto a lens.length tb maxLen table s =
      (buildOrFail s.world.params.rejectIncomplete (lens.map BitVec.toNat) tb maxLen >>= fun entries =>
        onLmem (storeBytes table (entries.flatMap fun e => leBytes 2 e.toNat))) s := by
  have hload := zoom_of_ok (part := lmemSpace) (put := fun sp s => s.setLmem sp.cells)
    (loadBytes_of_holdsBytes (sp := lmemSpace s) hbytes hlens)
  exact bind_of_ok hload

theorem buildInto_of_none (hbytes : HoldsBytes s.lmem a lens) (hlens : a + lens.length ≤ 2 ^ s.world.params.addrBits)
    (h : buildTable s.world.params.rejectIncomplete (lens.map BitVec.toNat) tb maxLen = none) :
    buildInto a lens.length tb maxLen table s = .error (.fail .malformed) s := by
  rw [buildInto_of_holdsBytes hbytes hlens, buildOrFail, h]
  rfl

theorem buildInto_of_some (hbytes : HoldsBytes s.lmem a lens) (hlens : a + lens.length ≤ 2 ^ s.world.params.addrBits)
    {entries : List Entry}
    (h : buildTable s.world.params.rejectIncomplete (lens.map BitVec.toNat) tb maxLen = some entries)
    (hfit : table + 2 * entries.length ≤ 2 ^ s.world.params.addrBits) :
    buildInto a lens.length tb maxLen table s = .ok () (s.setLmem (writeCells s.lmem table (entryBytes entries))) := by
  rw [buildInto_of_holdsBytes hbytes hlens, buildOrFail, h, bind_of_ok (pure_run entries s),
    flatMap_leBytes_eq_entryBytes]
  exact zoom_of_ok (storeBytes_of_le (sp := lmemSpace s) (by rwa [entryBytes_length]))

end

/-- Settles O28: the checks pass, and BuildTable answers exactly on an accepted code. -/
theorem htBuildAcceptsExactlyPrefixCodes : Obligations.HtBuildAcceptsExactlyPrefixCodes := by
  intro s a n tb maxLen table lens ha hn htb hmax htable h1 h2 h3 h4 h5 h6 h7 hin hsize hdis hlen hbytes
  subst hlen
  have hchecked : buildChecked a lens.length tb maxLen table s = buildInto a lens.length tb maxLen table s := by
    rw [buildChecked_of_inside (tableLimits_iff.mpr ⟨h1, h2, h3, h4, h5, h6, h7⟩) hin hsize]
    exact bind_of_ok (requireDisjoint_of_disjoint hdis)
  rw [exec_htBuild ha hn htb hmax htable]
  refine ⟨fun hacc => ?_, fun hacc => ?_⟩
  · obtain ⟨entries, hbuilt⟩ := Option.isSome_iff_exists.mp ((buildTable_isSome_iff _ _ tb _).mpr hacc)
    have hle := buildTable_length_le h5 hbuilt
    rw [List.length_map, tableSize] at hle
    refine ⟨entries, writeCells s.lmem table (entryBytes entries), hbuilt, le_buildTable_length h5 hbuilt, hle,
      runCommand_of_ok (hchecked.trans (buildInto_of_some hbytes hin hbuilt (by omega))),
      fun i hi => readByte_writeCells_inside hi _ _, fun b hb => readByte_writeCells_outside ?_ _⟩
    rwa [entryBytes_length]
  · exact runCommand_of_fail (hchecked.trans (buildInto_of_none hbytes hin (buildTable_eq_none_iff.mpr hacc)))

end Sys2Proof.Machine

/-! ## What a built table holds -/

namespace Sys2Proof.Machine

/-! ### Records (30_encoding.md R80) -/

theorem fastRecord_toNat {len sym : Nat} (hlen : len < 32) (hsym : sym < 2048) :
    (fastRecord len sym).toNat = len * 2048 + sym := by
  have hshift : len <<< 11 < 2 ^ 16 := by
    rw [Nat.shiftLeft_eq]
    omega
  rw [fastRecord, BitVec.toNat_or, BitVec.toNat_shiftLeft, BitVec.toNat_ofNat, BitVec.toNat_ofNat,
    Nat.mod_eq_of_lt (show len < 2 ^ 16 by omega), Nat.mod_eq_of_lt (show sym < 2 ^ 16 by omega),
    Nat.mod_eq_of_lt hshift, ← Nat.shiftLeft_add_eq_or_of_lt (show sym < 2 ^ 11 from hsym), Nat.shiftLeft_eq]

theorem isNode_fastRecord {len sym : Nat} (hlen : len ≤ 12) (hsym : sym < 2048) : isNode (fastRecord len sym) = false :=
  isNode_of_lt (by rw [fastRecord_toNat (by omega) hsym]; omega)

theorem fastLength_fastRecord {len sym : Nat} (hlen : len < 32) (hsym : sym < 2048) :
    fastLength (fastRecord len sym) = len := by
  rw [fastLength_eq, fastRecord_toNat hlen hsym]
  omega

theorem fastSymbol_fastRecord {len sym : Nat} (hlen : len < 32) (hsym : sym < 2048) :
    fastSymbol (fastRecord len sym) = sym := by
  rw [fastSymbol_eq, fastRecord_toNat hlen hsym]
  omega

theorem nodeRecord_toNat {c : Nat} (h : c < 16384) : (nodeRecord c).toNat = 0xC000 + c := by
  rw [nodeRecord, BitVec.toNat_or, BitVec.toNat_ofNat, BitVec.toNat_ofNat, Nat.mod_eq_of_lt (show c < 2 ^ 16 by omega)]
  exact (Nat.shiftLeft_add_eq_or_of_lt (show c < 2 ^ 14 from h) 3).symm

theorem isNode_nodeRecord {c : Nat} (h : c < 16384) : isNode (nodeRecord c) = true := by
  simp only [isNode, BitVec.le_def, nodeRecord_toNat h, decide_eq_true_eq]
  exact Nat.le_add_right ..

theorem childIndex_nodeRecord {c : Nat} (h : c < 16384) : childIndex (nodeRecord c) = c := by
  rw [childIndex, BitVec.toNat_and, nodeRecord_toNat h]
  refine (Nat.and_two_pow_sub_one_eq_mod _ 14).trans ?_
  omega

theorem leafRecord_toNat {sym : Nat} (h : sym < 2048) : (leafRecord sym).toNat = sym := by
  rw [leafRecord, BitVec.toNat_ofNat, Nat.mod_eq_of_lt (by omega)]

theorem isNode_leafRecord {sym : Nat} (h : sym < 2048) : isNode (leafRecord sym) = false :=
  isNode_of_lt (by rw [leafRecord_toNat h]; omega)

/-! ### Entries of a table -/

theorem getD_set_same {table : List Entry} {i : Nat} (h : i < table.length) (e d : Entry) :
    (table.set i e).getD i d = e := by
  simp [List.getD_eq_getElem?_getD, h]

theorem getD_set_other {table : List Entry} {i j : Nat} (h : i ≠ j) (e d : Entry) :
    (table.set i e).getD j d = table.getD j d := by
  simp [List.getD_eq_getElem?_getD, List.getElem?_set_ne h]

/-- Zeros added at the end of a table change no entry. -/
theorem getD_append_zeros (table : List Entry) (i : Nat) :
    (table ++ [0#16, 0#16]).getD i 0#16 = table.getD i 0#16 := by
  by_cases hi : i < table.length
  · exact List.getD_append _ _ _ _ hi
  · rw [List.getD_append_right _ _ _ _ (Nat.not_lt.mp hi), List.getD_eq_default table _ (Nat.not_lt.mp hi)]
    match i - table.length with
    | 0 => rfl
    | 1 => rfl
    | k + 2 => rfl

/-- A node record stands inside its table. -/
theorem lt_length_of_isNode {table : List Entry} {i : Nat} (h : isNode (table.getD i 0#16) = true) :
    i < table.length := by
  by_contra hi
  rw [List.getD_eq_default _ _ (Nat.not_lt.mp hi)] at h
  exact absurd h (by decide)

/-! ### Symbols and codewords (41_huffman.md R130) -/

/-- Symbols of one length stand in symbol order: before a symbol stand the smaller ones of its length. -/
theorem symbolsOfLength_getElem? {lens : List Nat} {sym : Nat} (h : sym < lens.length) :
    (symbolsOfLength lens (lens.getD sym 0))[(lens.take sym).count (lens.getD sym 0)]? = some sym := by
  suffices hk : ∀ k, ((lens.zipIdx k).filterMap fun p => if p.1 = lens.getD sym 0 then some p.2 else none)[
      (lens.take sym).count (lens.getD sym 0)]? = some (k + sym) by simpa [symbolsOfLength] using hk 0
  induction lens generalizing sym with
  | nil => exact absurd h (Nat.not_lt_zero _)
  | cons l ls ih =>
    intro k
    cases sym with
    | zero => simp
    | succ sym =>
      rw [List.zipIdx_cons, List.filterMap_cons, List.getD_cons_succ, List.take_succ_cons, List.count_cons]
      have hrest := ih (Nat.lt_of_succ_lt_succ h) (k + 1)
      rw [show k + 1 + sym = k + (sym + 1) by omega] at hrest
      generalize ls.getD sym 0 = len at hrest ⊢
      by_cases hl : l = len
      · simpa [hl] using hrest
      · simpa [hl] using hrest

theorem lt_length_of_mem_symbolsOfLength {lens : List Nat} {len sym : Nat} (h : sym ∈ symbolsOfLength lens len) :
    sym < lens.length := by
  obtain ⟨⟨l, i⟩, hmem, hp⟩ := List.mem_filterMap.mp h
  split at hp <;> cases hp
  exact List.snd_lt_of_mem_zipIdx hmem

/-! ### The direct region (R136) -/

/-- What the direct slots of the lengths up to `k` take is what their codewords take. -/
theorem directPart_length_mul_two (lens : List Nat) {tb k : Nat} (hk : k ≤ tb) :
    (directPart lens tb k).length * 2 = firstCode lens k * 2 ^ (tb - k) := by
  induction k with
  | zero => simp [directPart, firstCode]
  | succ k ih =>
    rw [directPart, List.length_append, directSlots_length, Nat.add_mul, ih (by omega), firstCode,
      show tb - k = tb - (k + 1) + 1 by omega, Nat.pow_succ]
    ring

/-- The first codeword above the direct width stands twice where the direct slots end. -/
theorem directPart_mul_two (lens : List Nat) (tb : Nat) : (directPart lens tb tb).length * 2 = firstCode lens tb := by
  rw [directPart_length_mul_two lens le_rfl, Nat.sub_self, Nat.pow_zero, Nat.mul_one]

/-- The slots of a length's first codeword begin where those of the shorter codewords end. -/
theorem directPart_length_eq (lens : List Nat) {tb k : Nat} (hk : k + 1 ≤ tb) :
    (directPart lens tb k).length = firstCode lens k * 2 ^ (tb - (k + 1)) := by
  have h := directPart_length_mul_two lens (Nat.le_of_succ_le hk)
  rw [show tb - k = tb - (k + 1) + 1 by omega, Nat.pow_succ, ← Nat.mul_assoc] at h
  exact Nat.eq_of_mul_eq_mul_right Nat.two_pos h

theorem getElem?_flatMap_replicate {α β : Type} (f : α → β) {k j : Nat} (hj : j < k) (xs : List α) (i : Nat) :
    (xs.flatMap fun x => List.replicate k (f x))[i * k + j]? = xs[i]?.map f := by
  induction xs generalizing i with
  | nil => simp
  | cons x xs ih =>
    rw [List.flatMap_cons]
    cases i with
    | zero => rw [List.getElem?_append_left (by simpa using hj)]; simp [hj]
    | succ i =>
      rw [List.getElem?_append_right (by rw [List.length_replicate, Nat.succ_mul]; omega), List.length_replicate,
        show (i + 1) * k + j - k = i * k + j by rw [Nat.succ_mul]; omega, ih, List.getElem?_cons_succ]

/-- Each direct slot whose high bits are a symbol's codeword holds the symbol's fast record. -/
theorem directPart_getElem? {lens : List Nat} {tb k sym j : Nat} (hsym : sym < lens.length)
    (h1 : 1 ≤ lens.getD sym 0) (hlen : lens.getD sym 0 ≤ k) (hk : k ≤ tb) (hj : j < 2 ^ (tb - lens.getD sym 0)) :
    (directPart lens tb k)[codeword lens sym * 2 ^ (tb - lens.getD sym 0) + j]? =
      some (fastRecord (lens.getD sym 0) sym) := by
  induction k with
  | zero => omega
  | succ k ih =>
    rw [directPart]
    by_cases hle : lens.getD sym 0 ≤ k
    · have hslot := ih hle (by omega)
      rwa [List.getElem?_append_left (List.getElem?_eq_some_iff.mp hslot).1]
    · have hlast : lens.getD sym 0 = k + 1 := by omega
      have hrank := symbolsOfLength_getElem? hsym
      rw [codeword]
      rw [hlast] at hj hrank ⊢
      rw [Nat.add_sub_cancel, Nat.add_mul, Nat.add_assoc, ← directPart_length_eq lens hk,
        List.getElem?_append_right (Nat.le_add_right ..), Nat.add_sub_cancel_left, directSlots,
        getElem?_flatMap_replicate (fastRecord (k + 1)) hj, hrank]
      rfl

theorem not_isNode_of_mem_directPart {lens : List Nat} (hn : lens.length ≤ 2048) {tb k : Nat} (hk : k ≤ 12) {e : Entry}
    (h : e ∈ directPart lens tb k) : isNode e = false := by
  induction k with
  | zero => cases h
  | succ k ih =>
    rcases List.mem_append.mp h with h | h
    · exact ih (by omega) h
    · obtain ⟨sym, hsym, he⟩ := List.mem_flatMap.mp h
      rw [(List.mem_replicate.mp he).2]
      exact isNode_fastRecord hk ((lt_length_of_mem_symbolsOfLength hsym).trans_le hn)

/-- The direct region holds the direct slots, then filler. -/
theorem directRegion_getD (lens : List Nat) (tb i : Nat) :
    (directRegion lens tb).getD i 0#16 = (directPart lens tb tb).getD i 0#16 := by
  unfold directRegion
  by_cases hi : i < (directPart lens tb tb).length
  · exact List.getD_append _ _ _ _ hi
  · rw [List.getD_append_right _ _ _ _ (Nat.not_lt.mp hi),
      List.getD_eq_default (directPart lens tb tb) _ (Nat.not_lt.mp hi)]
    by_cases hj : i - (directPart lens tb tb).length < 2 ^ tb - (directPart lens tb tb).length
    · rw [List.getD_replicate _ hj]
    · rw [List.getD_eq_default _ _ (by simpa using Nat.not_lt.mp hj)]

end Sys2Proof.Machine

/-! ## The trie of a built table -/

namespace Sys2Proof.Machine

/-! ### Where the entries of a table stand -/

/-- Where an entry of a table stands: `depth` bits below its direct slot, `path` being the slot's number followed by
those bits. -/
structure Place where
  depth : Nat
  path : Nat

/-- With codewords entered in ascending order, the one with `D` bits below its slot and the value `code` being next: no
codeword still to come goes through the place. -/
def Place.Passed (p : Place) (D code : Nat) : Prop := p.depth ≤ D ∧ (p.path + 1) * 2 ^ (D - p.depth) ≤ code

theorem Place.Passed.mono {p : Place} {D code code' : Nat} (h : p.Passed D code) (hle : code ≤ code') :
    p.Passed D code' := ⟨h.1, h.2.trans hle⟩

/-- The codewords of the next length are twice as many. -/
theorem Place.Passed.deepen {p : Place} {D code : Nat} (h : p.Passed D code) : p.Passed (D + 1) (code * 2) := by
  obtain ⟨hdepth, hcode⟩ := h
  refine ⟨by omega, ?_⟩
  rw [Nat.succ_sub hdepth, Nat.pow_succ, ← Nat.mul_assoc]
  exact Nat.mul_le_mul_right _ hcode

/-- The places that the next codeword goes through are not passed. -/
theorem Place.not_passed_on_way {D x code : Nat} (hx : x ≤ D) : ¬ Place.Passed ⟨D - x, code >>> x⟩ D code := by
  rintro ⟨-, hle⟩
  simp only [Nat.sub_sub_self hx, Nat.shiftRight_eq_div_pow] at hle
  exact absurd (Nat.lt_mul_of_div_lt (Nat.lt_succ_self (code / 2 ^ x)) (Nat.two_pow_pos x)) (Nat.not_lt.mpr hle)

/-- A table in the making, its entries standing at `place`, with the codewords below `code` of at most `D` bits below
their slot entered (41_huffman.md R136, R137): a record that is neither empty nor a node is passed. -/
structure TrieOk (tb D code : Nat) (table : List Entry) (place : Nat → Place) : Prop where
  slots : 2 ^ tb ≤ table.length
  slot : ∀ i < 2 ^ tb, place i = ⟨0, i⟩
  depth_le : ∀ i < table.length, (place i).depth ≤ D
  node : ∀ i, isNode (table.getD i 0#16) = true → childIndex (table.getD i 0#16) + 1 < table.length ∧
    ∀ b < 2, place (childIndex (table.getD i 0#16) + b) = ⟨(place i).depth + 1, 2 * (place i).path + b⟩
  passed : ∀ i, table.getD i 0#16 ≠ 0#16 → isNode (table.getD i 0#16) = false → (place i).Passed D code

/-- The later table keeps what the earlier one has settled: places, nodes and passed entries. -/
structure Extends (D code : Nat) (table : List Entry) (place : Nat → Place) (table' : List Entry)
    (place' : Nat → Place) : Prop where
  le : table.length ≤ table'.length
  place_eq : ∀ i < table.length, place' i = place i
  node : ∀ i, isNode (table.getD i 0#16) = true → table'.getD i 0#16 = table.getD i 0#16
  passed : ∀ i < table.length, (place i).Passed D code → table'.getD i 0#16 = table.getD i 0#16

section
variable {tb D code code' D' : Nat} {table table' table'' : List Entry} {place place' place'' : Nat → Place}

theorem TrieOk.deepen (h : TrieOk tb D code table place) : TrieOk tb (D + 1) (code * 2) table place :=
  ⟨h.slots, h.slot, fun i hi => (h.depth_le i hi).trans (Nat.le_succ D), h.node,
    fun i hne hleaf => (h.passed i hne hleaf).deepen⟩

theorem Extends.refl : Extends D code table place table place :=
  ⟨le_rfl, fun _ _ => rfl, fun _ _ => rfl, fun _ _ _ => rfl⟩

theorem Extends.trans (h : Extends D code table place table' place')
    (h' : Extends D' code' table' place' table'' place'')
    (hpassed : ∀ p : Place, p.Passed D code → p.Passed D' code') : Extends D code table place table'' place'' where
  le := h.le.trans h'.le
  place_eq i hi := (h'.place_eq i (hi.trans_le h.le)).trans (h.place_eq i hi)
  node i hi := (h'.node i ((h.node i hi).symm ▸ hi)).trans (h.node i hi)
  passed i hi hp := (h'.passed i (hi.trans_le h.le) ((h.place_eq i hi).symm ▸ hpassed _ hp)).trans (h.passed i hi hp)

/-! ### The walk to a leaf -/

/-- `leaf` is reached from entry `i` through node records by the low `x` bits of `code`. -/
def Walks (table : List Entry) (code : Nat) : Nat → Nat → Nat → Prop
  | 0, i, leaf => i = leaf
  | x + 1, i, leaf =>
    isNode (table.getD i 0#16) = true ∧ Walks table code x (childIndex (table.getD i 0#16) + (code >>> x) % 2) leaf

theorem Walks.mono {x i leaf : Nat} (hw : Walks table code x i leaf)
    (h : ∀ i, isNode (table.getD i 0#16) = true → table'.getD i 0#16 = table.getD i 0#16) :
    Walks table' code x i leaf := by
  induction x generalizing i with
  | zero => exact hw
  | succ x ih =>
    rw [Walks, h i hw.1]
    exact ⟨hw.1, ih hw.2⟩

/-- A walk begins with the step of its first node record. -/
theorem Walks.step {x i leaf : Nat} {e : Entry} (he : table.getD i 0#16 = e) (hnode : isNode e = true)
    (hw : Walks table code x (childIndex e + (code >>> x) % 2) leaf) : Walks table code (x + 1) i leaf := by
  rw [Walks, he]
  exact ⟨hnode, hw⟩

theorem Walks.lt_length {x i leaf : Nat} (hw : Walks table code x i leaf) (hleaf : leaf < table.length) :
    i < table.length := by
  cases x with
  | zero => exact (show i = leaf from hw) ▸ hleaf
  | succ x => exact lt_length_of_isNode hw.1

/-! ### Allocation (41_huffman.md R137) -/

/-- The table with a node made of the empty entry `node`, its children at the end. -/
def allocate (table : List Entry) (node : Nat) : List Entry := table.set node (nodeRecord table.length) ++ [0#16, 0#16]

/-- Where the entries then stand. -/
def allocatePlace (table : List Entry) (node : Nat) (place : Nat → Place) (i : Nat) : Place :=
  if i < table.length then place i else ⟨(place node).depth + 1, 2 * (place node).path + (i - table.length)⟩

@[simp] theorem allocate_length (table : List Entry) (node : Nat) :
    (allocate table node).length = table.length + 2 := by
  simp [allocate]

theorem allocate_getD_same {node : Nat} (h : node < table.length) :
    (allocate table node).getD node 0#16 = nodeRecord table.length := by
  rw [allocate, getD_append_zeros, getD_set_same h]

theorem allocate_getD_other {node i : Nat} (h : node ≠ i) : (allocate table node).getD i 0#16 = table.getD i 0#16 := by
  rw [allocate, getD_append_zeros, getD_set_other h]

theorem allocatePlace_old {node i : Nat} (h : i < table.length) : allocatePlace table node place i = place i := if_pos h

theorem allocatePlace_child (node b : Nat) : allocatePlace table node place (table.length + b) =
    ⟨(place node).depth + 1, 2 * (place node).path + b⟩ := by
  rw [allocatePlace, if_neg (by omega), Nat.add_sub_cancel_left]

theorem allocate_ok {node : Nat} (h : TrieOk tb D code table place) (hnode : node < table.length)
    (hdepth : (place node).depth < D) (hcap : table.length < 16384) :
    TrieOk tb D code (allocate table node) (allocatePlace table node place) where
  slots := h.slots.trans (by simp)
  slot i hi := (allocatePlace_old (hi.trans_le h.slots)).trans (h.slot i hi)
  depth_le i hi := by
    rw [allocatePlace]
    split
    · exact h.depth_le i ‹_›
    · exact hdepth
  node i hi := by
    rw [allocate_length]
    by_cases heq : node = i
    · subst heq
      rw [allocate_getD_same hnode, childIndex_nodeRecord hcap, allocatePlace_old hnode]
      exact ⟨by omega, fun b _ => allocatePlace_child node b⟩
    · rw [allocate_getD_other heq] at hi ⊢
      obtain ⟨hlt, hplace⟩ := h.node i hi
      refine ⟨by omega, fun b hb => ?_⟩
      rw [allocatePlace_old (by omega), hplace b hb, allocatePlace_old (lt_length_of_isNode hi)]
  passed i hne hleaf := by
    by_cases heq : node = i
    · subst heq
      rw [allocate_getD_same hnode, isNode_nodeRecord hcap] at hleaf
      cases hleaf
    · rw [allocate_getD_other heq] at hne hleaf
      have hi : i < table.length := by
        by_contra hi
        exact hne (List.getD_eq_default _ _ (Nat.not_lt.mp hi))
      rw [allocatePlace_old hi]
      exact h.passed i hne hleaf

theorem allocate_extends {node : Nat} (hempty : table.getD node 0#16 = 0#16) (hopen : ¬ (place node).Passed D code) :
    Extends D code table place (allocate table node) (allocatePlace table node place) where
  le := by simp
  place_eq i hi := allocatePlace_old hi
  node i hi := allocate_getD_other (by
    rintro rfl
    rw [hempty] at hi
    exact absurd hi (by decide))
  passed i _ hp := allocate_getD_other (by
    rintro rfl
    exact hopen hp)

/-! ### Entering a codeword -/

/-- A walk through an empty entry makes a node of it. -/
theorem trieDescend_of_empty (code x : Nat) {node : Nat} (h : table.getD node 0#16 = 0#16) :
    trieDescend code (x + 1) table node =
      trieDescend code x (allocate table node) (childIndex (nodeRecord table.length) + (code >>> x) % 2) := by
  rw [trieDescend, if_pos h]
  rfl

theorem trieDescend_of_record (code x : Nat) {node : Nat} (h : table.getD node 0#16 ≠ 0#16) :
    trieDescend code (x + 1) table node =
      trieDescend code x table (childIndex (table.getD node 0#16) + (code >>> x) % 2) := by
  rw [trieDescend, if_neg h]

/-- The next place on the way of a codeword. -/
theorem path_child {x : Nat} (hx : x + 1 ≤ D) :
    (⟨D - (x + 1) + 1, 2 * (code >>> (x + 1)) + (code >>> x) % 2⟩ : Place) = ⟨D - x, code >>> x⟩ := by
  rw [Nat.shiftRight_succ]
  congr 1 <;> omega

/-- The walk that enters the next codeword ends at the codeword's own place. -/
theorem trieDescend_ok {x node : Nat} (h : TrieOk tb D code table place) (hnode : node < table.length) (hx : x ≤ D)
    (hplace : place node = ⟨D - x, code >>> x⟩) (hcap : (trieDescend code x table node).1.length ≤ 16384) :
    ∃ place', TrieOk tb D code (trieDescend code x table node).1 place' ∧
      Extends D code table place (trieDescend code x table node).1 place' ∧
      (trieDescend code x table node).2 < (trieDescend code x table node).1.length ∧
      place' (trieDescend code x table node).2 = ⟨D, code⟩ ∧
      Walks (trieDescend code x table node).1 code x node (trieDescend code x table node).2 := by
  induction x generalizing table place node with
  | zero => exact ⟨place, h, .refl, hnode, hplace, rfl⟩
  | succ x ih =>
    have hbit := Nat.mod_lt (code >>> x) Nat.two_pos
    have hopen : ¬ (place node).Passed D code := hplace ▸ Place.not_passed_on_way hx
    by_cases hempty : table.getD node 0#16 = 0#16
    · rw [trieDescend_of_empty code x hempty] at hcap ⊢
      have hroom : table.length < 16384 := by
        have hle := (le_trieDescend_length ..).trans hcap
        rw [allocate_length] at hle
        omega
      have hself := allocate_getD_same hnode
      have hrecord := isNode_nodeRecord hroom
      rw [childIndex_nodeRecord hroom] at hcap ⊢
      have hnext : allocatePlace table node place (table.length + (code >>> x) % 2) = ⟨D - x, code >>> x⟩ := by
        rw [allocatePlace_child, hplace]
        exact path_child hx
      obtain ⟨place', hok, hext, hlt, hend, hwalk⟩ := ih
        (allocate_ok h hnode (by rw [hplace]; simp only; omega) hroom)
        (by rw [allocate_length]; omega) (Nat.le_of_succ_le hx) hnext hcap
      refine ⟨place', hok, (allocate_extends hempty hopen).trans hext fun _ => id, hlt, hend,
        Walks.step ((hext.node node (hself.symm ▸ hrecord)).trans hself) hrecord ?_⟩
      rwa [childIndex_nodeRecord hroom]
    · have hnodeRecord : isNode (table.getD node 0#16) = true := by
        by_contra hleaf
        exact hopen (h.passed node hempty (eq_false_of_ne_true hleaf))
      obtain ⟨hchild, hplaces⟩ := h.node node hnodeRecord
      have hnext : place (childIndex (table.getD node 0#16) + (code >>> x) % 2) = ⟨D - x, code >>> x⟩ := by
        rw [hplaces _ hbit, hplace]
        exact path_child hx
      rw [trieDescend_of_record code x hempty] at hcap ⊢
      obtain ⟨place', hok, hext, hlt, hend, hwalk⟩ := ih h (by omega) (Nat.le_of_succ_le hx) hnext hcap
      exact ⟨place', hok, hext, hlt, hend, Walks.step (hext.node node hnodeRecord) hnodeRecord hwalk⟩

/-- The symbol stands at the leaf that its codeword, `D` bits longer than the direct width, leads to. -/
def Entered (table : List Entry) (place : Nat → Place) (D code sym : Nat) : Prop :=
  ∃ leaf < table.length, place leaf = ⟨D, code⟩ ∧ Walks table code D (code >>> D) leaf ∧
    table.getD leaf 0#16 = leafRecord sym

/-- What is entered stays, once its place is passed. -/
theorem Entered.extend {sym : Nat} (h : Entered table place D code sym)
    (hp : Place.Passed ⟨D, code⟩ D' code') (hext : Extends D' code' table place table' place') :
    Entered table' place' D code sym := by
  obtain ⟨leaf, hlt, hplace, hwalk, hleaf⟩ := h
  exact ⟨leaf, hlt.trans_le hext.le, (hext.place_eq leaf hlt).trans hplace, hwalk.mono hext.node,
    (hext.passed leaf hlt (hplace.symm ▸ hp)).trans hleaf⟩

/-- A leaf record written at the place of the next codeword. -/
theorem setLeaf_ok {leaf sym : Nat} (h : TrieOk tb D code table place) (hlt : leaf < table.length)
    (hplace : place leaf = ⟨D, code⟩) (hsym : sym < 2048) :
    TrieOk tb D (code + 1) (table.set leaf (leafRecord sym)) place ∧
      Extends D code table place (table.set leaf (leafRecord sym)) place := by
  have hbottom : isNode (table.getD leaf 0#16) = false := by
    refine eq_false_of_ne_true fun hisNode => ?_
    obtain ⟨hchild, hplaces⟩ := h.node leaf hisNode
    have hdeep := h.depth_le _ hchild
    rw [hplaces 1 (by decide), hplace] at hdeep
    exact absurd hdeep (Nat.not_succ_le_self D)
  have hother : ∀ i, isNode (table.getD i 0#16) = true → leaf ≠ i := by
    rintro i hi rfl
    rw [hbottom] at hi
    cases hi
  refine ⟨⟨by rw [List.length_set]; exact h.slots, h.slot, fun i hi => h.depth_le i (by rwa [List.length_set] at hi),
    fun i hi => ?_, fun i hne hleaf => ?_⟩, by rw [List.length_set], fun _ _ => rfl,
    fun i hi => getD_set_other (hother i hi) .., fun i _ hp => getD_set_other ?_ ..⟩
  · by_cases heq : leaf = i
    · subst heq
      rw [getD_set_same hlt, isNode_leafRecord hsym] at hi
      cases hi
    · rw [getD_set_other heq] at hi ⊢
      rw [List.length_set]
      exact h.node i hi
  · by_cases heq : leaf = i
    · subst heq
      rw [hplace]
      exact ⟨le_rfl, by simp⟩
    · rw [getD_set_other heq] at hne hleaf
      exact (h.passed i hne hleaf).mono (Nat.le_succ code)
  · rintro rfl
    rw [hplace] at hp
    exact Place.not_passed_on_way (Nat.zero_le D) hp

theorem trieInsert_ok {sym : Nat} (h : TrieOk tb D code table place) (hcode : code < 2 ^ (tb + D)) (hsym : sym < 2048)
    (hcap : (trieInsert tb (tb + D) table code sym).length ≤ 16384) :
    ∃ place', TrieOk tb D (code + 1) (trieInsert tb (tb + D) table code sym) place' ∧
      Extends D code table place (trieInsert tb (tb + D) table code sym) place' ∧
      Entered (trieInsert tb (tb + D) table code sym) place' D code sym := by
  have hslot : code >>> D < 2 ^ tb := by
    rw [Nat.shiftRight_eq_div_pow, Nat.div_lt_iff_lt_mul (Nat.two_pow_pos D), ← Nat.pow_add]
    exact hcode
  unfold trieInsert at hcap ⊢
  simp only [Nat.add_sub_cancel_left, List.length_set] at hcap ⊢
  obtain ⟨place', hok, hext, hlt, hend, hwalk⟩ := trieDescend_ok h (hslot.trans_le h.slots) le_rfl
    (by rw [h.slot _ hslot, Nat.sub_self]) hcap
  obtain ⟨hok', hext'⟩ := setLeaf_ok hok hlt hend hsym
  exact ⟨place', hok', hext.trans hext' fun _ => id, _, by rwa [List.length_set], hend, hwalk.mono hext'.node,
    getD_set_same hlt ..⟩

/-- The symbols of one length, entered one after another. -/
theorem trieSymbols_ok {syms : List Nat} (h : TrieOk tb D code table place) (hcode : code + syms.length ≤ 2 ^ (tb + D))
    (hsyms : ∀ sym ∈ syms, sym < 2048) (hcap : (trieSymbols tb (tb + D) syms table code).1.length ≤ 16384) :
    (trieSymbols tb (tb + D) syms table code).2 = code + syms.length ∧
      ∃ place', TrieOk tb D (code + syms.length) (trieSymbols tb (tb + D) syms table code).1 place' ∧
        Extends D code table place (trieSymbols tb (tb + D) syms table code).1 place' ∧
        ∀ j sym, syms[j]? = some sym →
          Entered (trieSymbols tb (tb + D) syms table code).1 place' D (code + j) sym := by
  induction syms generalizing table code place with
  | nil => exact ⟨rfl, place, h, .refl, nofun⟩
  | cons sym rest ih =>
    rw [List.length_cons, Nat.add_comm rest.length, ← Nat.add_assoc] at hcode ⊢
    rw [trieSymbols] at hcap ⊢
    obtain ⟨place1, hok1, hext1, hentered⟩ := trieInsert_ok h (by omega) (hsyms sym List.mem_cons_self)
      ((le_trieSymbols_length ..).trans hcap)
    obtain ⟨hend, place2, hok2, hext2, hrest⟩ := ih hok1 hcode (fun s hs => hsyms s (List.mem_cons_of_mem _ hs)) hcap
    refine ⟨hend, place2, hok2, hext1.trans hext2 fun p hp => hp.mono (Nat.le_succ code), fun j s hj => ?_⟩
    cases j with
    | zero =>
      cases hj
      exact hentered.extend ⟨le_rfl, by simp⟩ hext2
    | succ j =>
      rw [← Nat.add_assoc, Nat.add_right_comm]
      exact hrest j s hj

end

end Sys2Proof.Machine

/-! ## A built table decodes the canonical code -/

namespace Sys2Proof.Machine

/-! ### All lengths entered (41_huffman.md R137, R138) -/

section
variable {lens : List Nat} {tb maxLen : Nat}

/-- The codewords of one length lie inside the code space (R130, R134). -/
theorem firstCode_add_count_le {k : Nat} (h : (kraftLeft lens (k + 1)).isSome = true) :
    firstCode lens k + lens.count (k + 1) ≤ 2 ^ (k + 1) := by
  obtain ⟨left, hleft⟩ := Option.isSome_iff_exists.mp h
  have hsum := firstCode_add_left hleft
  rw [firstCode, Nat.pow_succ] at hsum
  omega

/-- Every direct slot stands at its own place. -/
def slotPlace (i : Nat) : Place := ⟨0, i⟩

/-- The direct region is a table with the codewords up to the direct width entered. -/
theorem directRegion_ok (hn : lens.length ≤ 2048) (h12 : tb ≤ 12) (htb : tb ≤ maxLen)
    (hk : (kraftLeft lens maxLen).isSome = true) :
    TrieOk tb 1 (firstCode lens tb) (directRegion lens tb) slotPlace := by
  have hleaf : ∀ i, isNode ((directRegion lens tb).getD i 0#16) = false := fun i => by
    rw [directRegion_getD]
    by_cases hi : i < (directPart lens tb tb).length
    · rw [List.getD_eq_getElem _ _ hi]
      exact not_isNode_of_mem_directPart hn h12 (List.getElem_mem hi)
    · rw [List.getD_eq_default _ _ (Nat.not_lt.mp hi)]
      rfl
  refine ⟨(directRegion_length htb hk).ge, fun _ _ => rfl, fun _ _ => Nat.zero_le 1, fun i hi => ?_,
    fun i hne _ => ⟨Nat.zero_le 1, ?_⟩⟩
  · rw [hleaf] at hi
    cases hi
  · have hi : i < (directPart lens tb tb).length := by
      by_contra hi
      exact hne (by rw [directRegion_getD, List.getD_eq_default _ _ (Nat.not_lt.mp hi)])
    have hall := directPart_mul_two lens tb
    simp only [slotPlace, Nat.sub_zero, Nat.pow_one]
    omega

/-- The symbols of the lengths tb+1 .. tb+k are entered at the places of their codewords. -/
def AllEntered (lens : List Nat) (tb k : Nat) (table : List Entry) (place : Nat → Place) : Prop :=
  ∀ sym < lens.length, tb < lens.getD sym 0 → lens.getD sym 0 ≤ tb + k →
    Place.Passed ⟨lens.getD sym 0 - tb, codeword lens sym⟩ (k + 1) (firstCode lens (tb + k)) ∧
      Entered table place (lens.getD sym 0 - tb) (codeword lens sym) sym

/-- Codewords of a length follow those of the shorter ones, in symbol order (R130). -/
theorem codeword_of_length {sym k : Nat} (h : lens.getD sym 0 = k + 1) :
    codeword lens sym = firstCode lens k + (lens.take sym).count (k + 1) := by
  rw [codeword, h, Nat.add_sub_cancel]

theorem trieLengths_ok {k : Nat} {table : List Entry} (hn : lens.length ≤ 2048) (hk : tb + k ≤ maxLen)
    (hsome : (kraftLeft lens maxLen).isSome = true)
    (h : TrieOk tb 1 (firstCode lens tb) table slotPlace)
    (hcap : (trieLengths lens tb k table (firstCode lens tb)).1.length ≤ 16384) :
    (trieLengths lens tb k table (firstCode lens tb)).2 = firstCode lens (tb + k) ∧
      ∃ place, TrieOk tb (k + 1) (firstCode lens (tb + k)) (trieLengths lens tb k table (firstCode lens tb)).1 place ∧
        Extends 1 (firstCode lens tb) table slotPlace (trieLengths lens tb k table (firstCode lens tb)).1 place ∧
        (∀ p : Place, p.Passed 1 (firstCode lens tb) → p.Passed (k + 1) (firstCode lens (tb + k))) ∧
        AllEntered lens tb k (trieLengths lens tb k table (firstCode lens tb)).1 place := by
  induction k with
  | zero => exact ⟨rfl, slotPlace, h, .refl, fun _ => id, fun sym _ h1 h2 => by omega⟩
  | succ k ih =>
    rw [trieLengths] at hcap ⊢
    simp only at hcap ⊢
    obtain ⟨hcode, place, hok, hext, hpassed, hentered⟩ := ih (by omega) ((le_trieSymbols_length ..).trans hcap)
    rw [hcode] at hcap ⊢
    have hspace : firstCode lens (tb + k) + (symbolsOfLength lens (tb + k + 1)).length ≤ 2 ^ (tb + (k + 1)) := by
      rw [symbolsOfLength_length]
      exact firstCode_add_count_le (kraftLeft_isSome_of_le hsome hk)
    obtain ⟨hend, place', hok', hext', hnew⟩ := trieSymbols_ok hok hspace
      (fun sym hsym => (lt_length_of_mem_symbolsOfLength hsym).trans_le hn) hcap
    have hnext : firstCode lens (tb + (k + 1)) =
        (firstCode lens (tb + k) + (symbolsOfLength lens (tb + k + 1)).length) * 2 := by
      rw [symbolsOfLength_length, Nat.mul_comm]
      rfl
    have hdeepen : ∀ p : Place, p.Passed (k + 1) (firstCode lens (tb + k)) →
        p.Passed (k + 1 + 1) (firstCode lens (tb + (k + 1))) := fun p hp => by
      rw [hnext]
      exact (hp.mono (Nat.le_add_right ..)).deepen
    refine ⟨(congrArg (· * 2) hend).trans hnext.symm, place', hnext ▸ hok'.deepen, hext.trans hext' hpassed,
      fun p hp => hdeepen p (hpassed p hp), fun sym hsym hlong hle => ?_⟩
    by_cases hold : lens.getD sym 0 ≤ tb + k
    · obtain ⟨hp, hin⟩ := hentered sym hsym hlong hold
      exact ⟨hdeepen _ hp, hin.extend hp hext'⟩
    · have hlast : lens.getD sym 0 = tb + k + 1 := by omega
      have hrank := symbolsOfLength_getElem? hsym
      rw [hlast] at hrank
      have hlt := (List.getElem?_eq_some_iff.mp hrank).1
      rw [hlast, show tb + k + 1 - tb = k + 1 by omega, codeword_of_length hlast, hnext]
      refine ⟨Place.Passed.deepen ⟨le_rfl, ?_⟩, hnew _ _ hrank⟩
      simp only [Nat.sub_self, Nat.pow_zero, Nat.mul_one]
      omega

/-! ### What a built table means (R138) -/

/-- A code that uses a symbol is not empty. -/
theorem kraftLeft_ne_of_used {sym left : Nat} (hlong : ∀ l ∈ lens, l ≤ maxLen) (hk : kraftLeft lens maxLen = some left)
    (hsym : sym < lens.length) (h1 : 1 ≤ lens.getD sym 0) : left ≠ 2 ^ maxLen := by
  rintro rfl
  have hsum := firstCode_add_left hk
  rw [firstCode_eq_kraftSum hlong, Nat.pow_succ] at hsum
  have hzero : kraftSum lens maxLen = 0 := by omega
  rw [kraftSum, List.sum_eq_zero_iff] at hzero
  have hterm := hzero _ (List.mem_map_of_mem (List.getElem_mem hsym))
  rw [List.getD_eq_getElem _ _ hsym] at h1
  rw [if_neg (by omega)] at hterm
  exact absurd hterm (Nat.two_pow_pos _).ne'

variable {reject : Bool} {table : List Entry} {sym : Nat}

/-- No codeword of a built table is longer than max_len (R133). -/
theorem length_le_of_buildTable (hb : buildTable reject lens tb maxLen = some table) (hsym : sym < lens.length) :
    lens.getD sym 0 ≤ maxLen := by
  rw [List.getD_eq_getElem _ _ hsym]
  exact (buildTable_eq_some hb).1 _ (List.getElem_mem hsym)

/-- A table that is built with a used symbol keeps its direct region and has every longer codeword entered. -/
theorem buildTable_entered (hb : buildTable reject lens tb maxLen = some table)
    (hlim : tableLimits lens.length tb maxLen = true) (hsym : sym < lens.length) (h1 : 1 ≤ lens.getD sym 0) :
    ∃ place, Extends 1 (firstCode lens tb) (directRegion lens tb) slotPlace table place ∧
      AllEntered lens tb (maxLen - tb) table place := by
  obtain ⟨-, hn, -, h12, htb, -, hsize⟩ := tableLimits_iff.mp hlim
  have hlen := (buildTable_length_le htb hb).trans hsize
  obtain ⟨hlong, left, hk, ⟨hempty, -⟩ | ⟨-, rfl⟩⟩ := buildTable_eq_some hb
  · exact absurd hempty (kraftLeft_ne_of_used hlong hk hsym h1)
  · have hsome : (kraftLeft lens maxLen).isSome = true := by
      rw [hk]
      rfl
    rw [directPart_mul_two] at hlen ⊢
    obtain ⟨-, place, -, hext, -, hentered⟩ :=
      trieLengths_ok hn (by omega) hsome (directRegion_ok hn h12 htb hsome) hlen
    exact ⟨place, hext, hentered⟩

/-- A codeword not longer than the direct width: every slot whose high bits it is holds the symbol's fast record. -/
theorem buildTable_direct (hb : buildTable reject lens tb maxLen = some table)
    (hlim : tableLimits lens.length tb maxLen = true) (hsym : sym < lens.length) (h1 : 1 ≤ lens.getD sym 0)
    (hle : lens.getD sym 0 ≤ tb) {j : Nat} (hj : j < 2 ^ (tb - lens.getD sym 0)) :
    codeword lens sym * 2 ^ (tb - lens.getD sym 0) + j < table.length ∧
      table.getD (codeword lens sym * 2 ^ (tb - lens.getD sym 0) + j) 0#16 = fastRecord (lens.getD sym 0) sym := by
  obtain ⟨place, hext, -⟩ := buildTable_entered hb hlim hsym h1
  have hslot := directPart_getElem? hsym h1 hle le_rfl hj
  generalize codeword lens sym * 2 ^ (tb - lens.getD sym 0) + j = i at hslot ⊢
  have hi := (List.getElem?_eq_some_iff.mp hslot).1
  have hstart := directPart_mul_two lens tb
  have hlt : i < (directRegion lens tb).length := hi.trans_le (by rw [directRegion, List.length_append]; omega)
  have hpassed : (slotPlace i).Passed 1 (firstCode lens tb) :=
    ⟨Nat.zero_le 1, by simp only [slotPlace, Nat.sub_zero, Nat.pow_one]; omega⟩
  refine ⟨hlt.trans_le hext.le, ?_⟩
  rw [hext.passed i hlt hpassed, directRegion_getD, List.getD_eq_getElem?_getD, hslot, Option.getD_some]

/-- A longer codeword: its slot holds a node record, and its other bits lead from there to the symbol's leaf. -/
theorem buildTable_trie (hb : buildTable reject lens tb maxLen = some table)
    (hlim : tableLimits lens.length tb maxLen = true) (hsym : sym < lens.length) (hlong : tb < lens.getD sym 0) :
    ∃ leaf < table.length, table.getD leaf 0#16 = leafRecord sym ∧
      Walks table (codeword lens sym) (lens.getD sym 0 - tb) (codeword lens sym >>> (lens.getD sym 0 - tb)) leaf := by
  obtain ⟨place, -, hentered⟩ := buildTable_entered hb hlim hsym (by omega)
  have hmax := length_le_of_buildTable hb hsym
  obtain ⟨-, leaf, hlt, -, hwalk, hleaf⟩ := hentered sym hsym hlong (by omega)
  exact ⟨leaf, hlt, hleaf, hwalk⟩

end

/-! ### The bits of a codeword (20_memory.md R59) -/

/-- The first bits of a string are the high bits of its value. -/
theorem bitsValue_add_shiftRight (bit : Nat → Bool) (n x : Nat) : bitsValue bit (n + x) >>> x = bitsValue bit n := by
  induction x with
  | zero => rfl
  | succ x ih =>
    have := Bool.toNat_le (bit (n + x))
    rw [← Nat.add_assoc, bitsValue, Nat.shiftRight_succ_inside, ← ih]
    congr 1
    omega

/-- A bit of a string is the bit of its value with as many bits below it as follow it. -/
theorem bitsValue_bit (bit : Nat → Bool) (n x : Nat) : (bitsValue bit (n + 1 + x) >>> x) % 2 = (bit n).toNat := by
  have := Bool.toNat_le (bit n)
  rw [bitsValue_add_shiftRight, bitsValue]
  omega

/-! ### Decoding (41_huffman.md R141) -/

/-- Bits discarded one part after another. -/
theorem dropBits_dropBits (r : BitReader) (a b : Nat) : dropBits (dropBits r a) b = dropBits r (a + b) := by
  have hpad : (r.padused || decide (r.realbits < a) || decide (r.realbits - a < b)) =
      (r.padused || decide (r.realbits < a + b)) := by
    rw [Bool.or_assoc, ← Bool.decide_or]
    congr 2
    rw [eq_iff_iff]
    omega
  simp only [dropBits, padusedAfter, BitVec.shiftLeft_add, Nat.sub_sub]
  congr 1

/-- The entries of the table, as a decoder reads them. -/
def ReadsTable (entry : Nat → Except Cause Entry) (table : List Entry) : Prop :=
  ∀ i < table.length, entry i = .ok (table.getD i 0#16)

section
variable {entry : Nat → Except Cause Entry} {table : List Entry} {r : BitReader}

/-- A bit popped behind `n` bits that were discarded. -/
theorem pop_one_dropBits {n : Nat} (h : n < r.bitsleft) :
    pop 1 (dropBits r n) = .ok (r.bitbuf.getMsbD n).toNat (dropBits r (n + 1)) := by
  rcases pop_cases 1 (dropBits r n) with ⟨h', -⟩ | ⟨-, e⟩
  · rw [dropBits_bitsleft] at h'
    omega
  · rw [e, top_bits_value _ (by omega), dropBits_dropBits]
    simp only [bitsValue, dropBits_bitbuf, BitVec.getMsbD_shiftLeft, Nat.mul_zero, Nat.zero_add]

/-- The walk along the bits that follow the first `n` ends at the leaf they lead to, all of them popped. -/
theorem walkTrie_of_walks (hentry : ReadsTable entry table) {x n i leaf sym fuel : Nat} (hsym : sym < 2048)
    (hbits : n + (x + 1) ≤ r.bitsleft) (hfuel : x + 1 ≤ fuel)
    (hw : Walks table (bitsValue r.bitbuf.getMsbD (n + (x + 1))) (x + 1) i leaf) (hlt : leaf < table.length)
    (hleaf : table.getD leaf 0#16 = leafRecord sym) :
    walkTrie entry fuel (table.getD i 0#16) (dropBits r n) = .ok sym (dropBits r (n + (x + 1))) := by
  induction x generalizing n i fuel with
  | zero =>
    obtain ⟨fuel, rfl⟩ := Nat.exists_eq_add_of_le' hfuel
    obtain ⟨-, rfl⟩ := hw
    rw [show n + (0 + 1) = n + 1 + 0 from rfl, bitsValue_bit] at hlt hleaf
    rw [Nat.zero_add, walkTrie, bind_of_ok (pop_one_dropBits (by omega)), hentry _ hlt, orFault_ok,
      bind_of_ok (pure_run _ _), hleaf, isNode_leafRecord hsym, leafRecord_toNat hsym]
    rfl
  | succ x ih =>
    obtain ⟨fuel, rfl⟩ := Nat.exists_eq_add_of_le' (Nat.le_of_succ_le hfuel)
    obtain ⟨-, hrest⟩ := hw
    rw [show n + (x + 1 + 1) = n + 1 + (x + 1) by omega] at hrest hbits ⊢
    rw [bitsValue_bit] at hrest
    rw [show fuel + (x + 1) = fuel + x + 1 from rfl, walkTrie, bind_of_ok (pop_one_dropBits (by omega)),
      hentry _ (hrest.lt_length hlt), orFault_ok, bind_of_ok (pure_run _ _), hrest.1, if_pos rfl]
    exact ih hbits (by omega) hrest

variable {inp : Space} {lens : List Nat} {tb maxLen sym : Nat} {reject : Bool}

/-- DecodeSym through a built table: with a codeword at the front of the accumulator it answers the codeword's symbol
and discards exactly the codeword (R138, R141). -/
theorem decodeSym_of_buildTable {r' : BitReader} (hb : buildTable reject lens tb maxLen = some table)
    (hlim : tableLimits lens.length tb maxLen = true) (hentry : ReadsTable entry table) (hsym : sym < lens.length)
    (h1 : 1 ≤ lens.getD sym 0) (hens : ensure inp maxLen r = .ok () r') (hbuf : maxLen ≤ r'.bitsleft)
    (hcode : bitsValue r'.bitbuf.getMsbD (lens.getD sym 0) = codeword lens sym) :
    decodeSym inp entry tb maxLen r = .ok sym (dropBits r' (lens.getD sym 0)) := by
  obtain ⟨-, hn, -, h12, htb, h16, -⟩ := tableLimits_iff.mp hlim
  have hmax := length_le_of_buildTable hb hsym
  have hslot : (r'.bitbuf >>> (32 - tb)).toNat = bitsValue r'.bitbuf.getMsbD tb := top_bits_value _ (by omega)
  by_cases hle : lens.getD sym 0 ≤ tb
  · obtain ⟨j, hj, hindex⟩ : ∃ j < 2 ^ (tb - lens.getD sym 0),
        bitsValue r'.bitbuf.getMsbD tb = codeword lens sym * 2 ^ (tb - lens.getD sym 0) + j := by
      refine ⟨bitsValue r'.bitbuf.getMsbD tb % 2 ^ (tb - lens.getD sym 0), Nat.mod_lt _ (Nat.two_pow_pos _), ?_⟩
      have hhigh := bitsValue_add_shiftRight r'.bitbuf.getMsbD (lens.getD sym 0) (tb - lens.getD sym 0)
      rw [Nat.add_sub_cancel' hle, Nat.shiftRight_eq_div_pow, hcode] at hhigh
      rw [← hhigh, Nat.div_add_mod']
    obtain ⟨hlt, hrecord⟩ := buildTable_direct hb hlim hsym h1 hle hj
    have hread : entry (r'.bitbuf >>> (32 - tb)).toNat = .ok (fastRecord (lens.getD sym 0) sym) := by
      rw [hslot, hindex, hentry _ hlt, hrecord]
    rw [decodeSym_of_entry hens (htb.trans hbuf) hread, isNode_fastRecord (by omega) (by omega),
      if_neg Bool.false_ne_true, fastLength_fastRecord (by omega) (by omega), fastSymbol_fastRecord (by omega) (by omega),
      if_neg (by omega)]
  · obtain ⟨x, hx⟩ := Nat.exists_eq_add_of_lt (Nat.not_le.mp hle)
    obtain ⟨leaf, hlt, hleaf, hwalk⟩ := buildTable_trie hb hlim hsym (Nat.not_le.mp hle)
    rw [show lens.getD sym 0 - tb = x + 1 by omega, ← hcode, hx, Nat.add_assoc, bitsValue_add_shiftRight] at hwalk
    have hread : entry (r'.bitbuf >>> (32 - tb)).toNat = .ok (table.getD (bitsValue r'.bitbuf.getMsbD tb) 0#16) := by
      rw [hslot, hentry _ (hwalk.lt_length hlt)]
    rw [decodeSym_of_entry hens (htb.trans hbuf) hread, hwalk.1, if_pos rfl, hx, Nat.add_assoc]
    exact walkTrie_of_walks hentry (by omega) (by omega) (by omega) hwalk hlt hleaf

/-- DecodeSym through a built table over written input: with a codeword at the front of the stream it answers the
codeword's symbol and moves the stream on by the codeword (R146, R147). -/
theorem decodeSym_stream (hb : buildTable reject lens tb maxLen = some table)
    (hlim : tableLimits lens.length tb maxLen = true) (hentry : ReadsTable entry table) (hin : ReadsWritten inp r)
    (hsym : sym < lens.length) (h1 : 1 ≤ lens.getD sym 0)
    (hcode : bitsValue (upcomingBit inp.cells r) (lens.getD sym 0) = codeword lens sym) :
    ∃ r', decodeSym inp entry tb maxLen r = .ok sym r' ∧ StreamMoves inp.cells r r' (lens.getD sym 0) ∧
      ReadsWritten inp r' ∧ ReaderStep r r' := by
  obtain ⟨-, -, -, -, -, h16, -⟩ := tableLimits_iff.mp hlim
  obtain ⟨e, hens, hbuf, hstream, ⟨hok, hlimit, hwritten⟩, -, -⟩ := ensure_stream h16 hin
  have hmax := length_le_of_buildTable hb hsym
  have hfront : bitsValue e.bitbuf.getMsbD (lens.getD sym 0) = codeword lens sym := by
    rw [← hcode]
    refine bitsValue_congr fun i hi => ?_
    rw [← upcomingBit_buffered (m := inp.cells) (show i < e.bitsleft by omega), hstream i, Nat.zero_add]
  have hdec := decodeSym_of_buildTable hb hlim hentry hsym h1 hens hbuf hfront
  have hmoves := hstream.trans (dropBits_stream (m := inp.cells) (r := e) (hmax.trans hbuf))
  rw [Nat.zero_add] at hmoves
  exact ⟨_, hdec, hmoves, ⟨dropBits_ok hok (hmax.trans hbuf), hlimit, hwritten⟩,
    (decodeSym_step inp entry tb h16).ok hdec⟩

end

/-! ### A table in LMEM (20_memory.md R58) -/

/-- An entry's two bytes among the bytes of its table. -/
theorem entryBytes_getElem? (table : List Entry) (i b : Nat) (hb : b < 2) :
    (entryBytes table)[2 * i + b]? =
      table[i]?.bind fun e : Entry => [e.setWidth 8, (e >>> 8).setWidth 8][b]? := by
  induction table generalizing i with
  | nil => simp [entryBytes]
  | cons e es ih =>
    cases i with
    | zero =>
      match b, hb with
      | 0, _ => rfl
      | 1, _ => rfl
    | succ i =>
      rw [show 2 * (i + 1) + b = 2 * i + b + 1 + 1 by omega]
      exact ih i

/-- Entries read from the bytes of a table are the table's. -/
theorem lmemEntry_readsTable {sp : Space} {a : Nat} {table : List Entry} (h : HoldsBytes sp.cells a (entryBytes table))
    (hle : a + 2 * table.length ≤ sp.limit) : ReadsTable (lmemEntry sp a) table := by
  intro i hi
  generalize he : table.getD i 0#16 = e
  have hget : table[i]? = some e := by rw [← he, List.getD_eq_getElem _ _ hi, List.getElem?_eq_getElem hi]
  refine lmemEntry_of_holdsBytes (fun b hb => ?_) (by omega)
  have hbyte := entryBytes_getElem? table i b hb
  rw [hget, Option.bind_some, List.getElem?_eq_getElem hb] at hbyte
  obtain ⟨hlt, hval⟩ := List.getElem?_eq_some_iff.mp hbyte
  rw [Nat.add_assoc, h _ hlt, hval]

/-- Settles O31: the table in LMEM is read as BuildTable made it, and DecodeSym inverts the code through it. -/
theorem htDecodeInvertsTheCanonicalCode : Obligations.HtDecodeInvertsTheCanonicalCode := by
  intro s lens table a tb maxLen sym hb hlim ha htb hmax hbytes hfit hv hok hstop hw hsym h1 hcode
  obtain ⟨-, -, h1tb, h12, hle, h16, -⟩ := tableLimits_iff.mp hlim
  obtain ⟨r, hdec, hmoves, -, hstart, hend, hvalid, -⟩ := decodeSym_stream (inp := lmemSpace s) hb hlim
    (lmemEntry_readsTable (sp := lmemSpace s) hbytes hfit) ⟨hok, hstop, hw⟩ hsym h1 hcode
  rw [exec_htDecode hv ha htb hmax]
  exact ⟨r, runCommand_of_ok (decodeThrough_of_decodeSym h1tb h12 hle h16 hdec), hmoves, hstart, hend, hvalid.trans hv⟩

end Sys2Proof.Machine

/-! ## CA_DECOMPRESS of a chunk with an empty code -/

namespace Sys2Proof.Machine

/-! ### The empty code (41_huffman.md R135) -/

/-- Without a used symbol BuildTable gives the all-zero direct region, under either policy. -/
theorem buildTable_of_empty (reject : Bool) {lens : List Nat} (h : ∀ l ∈ lens, l = 0) (tb maxLen : Nat) :
    buildTable reject lens tb maxLen = some (List.replicate (2 ^ tb) 0#16) := by
  have hshort : ∀ l ∈ lens, l ≤ maxLen := fun l hl => (h l hl).trans_le (Nat.zero_le _)
  have hany : lens.any (fun l => maxLen < l) = false := by simpa using hshort
  have hzero : kraftSum lens maxLen = 0 := by
    rw [kraftSum, List.sum_eq_zero_iff, List.forall_mem_map]
    exact fun l hl => if_pos (h l hl)
  rw [buildTable, hany, if_neg Bool.false_ne_true]
  rcases kraftLeft_cases lens maxLen with ⟨left, hleft, hsum⟩ | ⟨-, hlt⟩
  · rw [firstCode_eq_kraftSum hshort, hzero, Nat.pow_succ] at hsum
    rw [hleft]
    exact if_pos (by omega)
  · rw [firstCode_eq_kraftSum hshort, hzero] at hlt
    exact absurd hlt (Nat.not_lt_zero _)

theorem listEntry_replicate_zero (n i : Nat) : listEntry (List.replicate n 0#16) i = .ok 0#16 := by
  rw [listEntry]
  by_cases hi : i < n
  · rw [List.getD_replicate _ hi]
  · rw [List.getD_eq_default _ _ (by simpa using hi)]

theorem dropBits_zero (r : BitReader) : dropBits r 0 = r := by
  simp [dropBits, padusedAfter]

/-- Where every entry is filler DecodeSym gives symbol 0 and takes no bits (R141, R142). -/
theorem decodeSym_of_filler {inp : Space} {entry : Nat → Except Cause Entry} {tb maxLen : Nat} {r : BitReader}
    (hentry : ∀ i, entry i = .ok 0#16) (htb : tb ≤ maxLen) (h16 : maxLen ≤ 16) (hin : ReadsWritten inp r) :
    ∃ r', decodeSym inp entry tb maxLen r = .ok 0 r' ∧ ReadsWritten inp r' ∧ r'.padused = r.padused := by
  obtain ⟨r', hens, hbuf, -, hin', -, hpad, -⟩ := ensure_stream h16 hin
  refine ⟨r', ?_, hin', hpad⟩
  have hrun := decodeSym_of_entry hens (htb.trans hbuf) (hentry _)
  rwa [show isNode 0#16 = false from rfl, show fastLength 0#16 = 0 from rfl, show fastSymbol 0#16 = 0 from rfl,
    dropBits_zero] at hrun

/-! ### The output of zeros (43_codec_a.md R171, R176) -/

/-- A session whose output so far is zeros, its reader over written input with no pad bit consumed. -/
structure ZeroFilled (job : Job) (s : Sess) : Prop where
  input : ReadsWritten job.inp s.reader
  padused : s.reader.padused = false
  room : job.outBase + job.outSize ≤ s.out.limit
  zeros : ∀ i < s.pos, readByte s.out.cells (job.outBase + i) = some 0#8

section
variable {job : Job} {table : List Entry}

theorem emitLiteral_of_le {s : Sess} {sym : Nat} (h : job.outBase + s.pos + 1 ≤ s.out.limit) :
    emitLiteral job sym s = .ok () { s with
      out := { s.out with cells := writeCells s.out.cells (job.outBase + s.pos) [BitVec.ofNat 8 sym] }
      pos := s.pos + 1 } := by
  have hstore := zoom_of_ok (part := Sess.out) (put := fun sp s => { s with out := sp })
    (storeBytes_of_le (bs := [BitVec.ofNat 8 sym]) (sp := s.out) h)
  rw [emitLiteral, bind_of_ok (get_run s)]
  exact bind_of_ok hstore

/-- One pass through the filler table emits one zero. -/
theorem caItem_of_filler (htable : ∀ i, listEntry table i = .ok 0#16) {s : Sess} (h : ZeroFilled job s)
    (hlt : s.pos < job.outSize) : ∃ t, caItem job table s = .ok () t ∧ ZeroFilled job t ∧ t.pos = s.pos + 1 := by
  obtain ⟨hin, hpad, hroom, hzeros⟩ := h
  obtain ⟨r, hdec, hin', hpad'⟩ := decodeSym_of_filler htable (tb := 11) (maxLen := 15) (by decide) (by decide) hin
  have hread := zoom_of_ok (part := Sess.reader) (put := fun r s => { s with reader := r }) hdec
  have hemit := emitLiteral_of_le (job := job) (s := { s with reader := r }) (sym := 0) (by simp only; omega)
  refine ⟨_, (bind_of_ok hread).trans hemit, ⟨hin', hpad'.trans hpad, hroom, fun i hi => ?_⟩, rfl⟩
  rcases Nat.lt_succ_iff_lt_or_eq.mp (show i < s.pos + 1 from hi) with hold | rfl
  · have hbelow : job.outBase + i < job.outBase + s.pos := by omega
    exact (readByte_writeCells_outside (.inl hbelow) _).trans (hzeros i hold)
  · exact readByte_writeCells_inside (i := 0) (by simp) _ _

theorem caLoop_of_filler (htable : ∀ i, listEntry table i = .ok 0#16) {fuel : Nat} {s : Sess} (h : ZeroFilled job s)
    (hle : s.pos ≤ job.outSize) (hfuel : job.outSize ≤ s.pos + fuel) :
    ∃ t, caLoop job table fuel s = .ok () t ∧ ZeroFilled job t ∧ t.pos = job.outSize := by
  induction fuel generalizing s with
  | zero => exact ⟨s, rfl, h, by omega⟩
  | succ fuel ih =>
    rw [caLoop, bind_of_ok (get_run s)]
    split_ifs with hend
    · exact ⟨s, rfl, h, hend⟩
    · obtain ⟨t, hitem, ht, hpos⟩ := caItem_of_filler htable h (by omega)
      rw [bind_of_ok hitem]
      exact ih ht (by omega) (by omega)

/-- No pad bit consumed, the chunk ends well under either policy (R179). -/
theorem exhaustionCheck_of_unpadded {s : Sess} (h : s.reader.padused = false) : exhaustionCheck job s = .ok () s := by
  rw [exhaustionCheck, bind_of_ok (get_run s), if_neg (by simp [h])]
  rfl

theorem headerLengths_of_zeros {header : List Byte} (h : ∀ b ∈ header, b = 0#8) :
    ∀ l ∈ headerLengths header, l = 0 := by
  intro l hl
  obtain ⟨b, hb, hl⟩ := List.mem_flatMap.mp hl
  rw [h b hb] at hl
  simpa using hl

/-- CaDecode of a chunk whose header is all zeros fills the output with zeros. -/
theorem caDecode_of_zero_header {out : Space} (hin : job.inBase + job.inSize ≤ job.inp.limit)
    (hroom : job.outBase + job.outSize ≤ out.limit) (h256 : 256 ≤ job.inSize)
    (hw : Written job.inp.cells job.inBase job.inSize)
    (hzero : ∀ i < 256, readByte job.inp.cells (job.inBase + i) = some 0#8) :
    ∃ out', caDecode job out = .ok () out' ∧
      ∀ i < job.outSize, readByte out'.cells (job.outBase + i) = some 0#8 := by
  obtain ⟨header, hheader⟩ := memReadBytes_of_written (sp := job.inp) (a := job.inBase) (n := 256) (by omega)
    fun i hi => hw i (by omega)
  obtain ⟨-, hlen, hget⟩ := (memReadBytes_ok_iff _ _ _ _).mp hheader
  have hzeros : ∀ b ∈ header, b = 0#8 := fun b hb => by
    obtain ⟨i, hi, rfl⟩ := List.mem_iff_getElem.mp hb
    exact Option.some.inj ((hget i hi).symm.trans (hzero i (hlen ▸ hi)))
  have hstart : ZeroFilled job
      { reader := initReader (job.inBase + 256) (job.inSize - 256), out := out, pos := 0 } := by
    refine ⟨⟨initReader_ok _ _, ?_, fun i hi => ?_⟩, rfl, hroom, fun i hi => absurd hi (Nat.not_lt_zero i)⟩
    · simp only [initReader_stop]
      omega
    · simp only [initReader_next, initReader_stop] at hi ⊢
      rw [Nat.add_assoc]
      exact hw _ (by omega)
  obtain ⟨t, hloop, ht, hpos⟩ := caLoop_of_filler (listEntry_replicate_zero (2 ^ 11)) (fuel := job.outSize) hstart
    (Nat.zero_le _) (Nat.le_add_left ..)
  refine ⟨t.out, ?_, hpos ▸ ht.zeros⟩
  rw [caDecode, if_neg (by omega), runSession, hheader, orFault_ok, bind_of_ok (pure_run _ _), buildOrFail,
    buildTable_of_empty _ (headerLengths_of_zeros hzeros), bind_of_ok (pure_run _ _), bind_of_ok hloop,
    exhaustionCheck_of_unpadded ht.padused]

end

/-! ### The command -/

/-- CA_DECOMPRESS with written operands that pass its checks. -/
theorem exec_caDecompress {s : State} {inBase inSize outBase outSize : Nat} (h0 : ArgIs s 0 inBase)
    (h1 : ArgIs s 1 inSize) (h2 : ArgIs s 2 outBase) (h3 : ArgIs s 3 outSize) (hmax : outSize ≤ caMaxOut)
    (hin : inBase + inSize ≤ 2 ^ s.world.params.addrBits) (hout : outBase + outSize ≤ 2 ^ s.world.params.addrBits)
    (hdis : Disjoint inBase inSize outBase outSize) :
    exec .caDecompress s =
      runCommand .caDecompress (onLmem (caDecode (lmemJob s inBase inSize outBase outSize))) s := by
  change runCommand .caDecompress _ s = _
  unfold runCommand
  rw [bind_of_ok (readArg_of_argIs h0), bind_of_ok (readArg_of_argIs h1), bind_of_ok (readArg_of_argIs h2),
    bind_of_ok (readArg_of_argIs h3), decide_eq_true hmax, bind_of_ok (requireOperand_true _ s),
    bind_of_ok (requireLmem_of_le hin), bind_of_ok (requireLmem_of_le hout),
    bind_of_ok (requireDisjoint_of_disjoint hdis), bind_of_ok (get_run s)]

/-- Settles O35: the header is the empty code's, through whose table every symbol is 0. -/
theorem caZeroHeaderYieldsZeroBytes : Obligations.CaZeroHeaderYieldsZeroBytes := by
  intro s inBase inSize outBase outSize h0 h1 h2 h3 hmax hin hout hdis h256 hw hzero
  obtain ⟨out, hrun, hzeros⟩ := caDecode_of_zero_header (job := lmemJob s inBase inSize outBase outSize)
    (out := lmemSpace s) hin hout h256 hw hzero
  have hexec := (exec_caDecompress h0 h1 h2 h3 hmax hin hout hdis).trans
    (runCommand_of_ok (t := s.setLmem out.cells) (zoom_of_ok hrun))
  exact ⟨out.cells, hexec, hzeros, caDecompress_lmem hexec h2 h3⟩

end Sys2Proof.Machine

/-! ## The match copier repeats its source with period `distance` (42_match_copier.md R163) -/

namespace Sys2Proof.Machine

/-! ### CopyMatch over written source bytes (R160) -/

/-- A byte that holds a value is loaded. -/
theorem loadBytes_one {sp : Space} {a : Nat} {b : Byte} (hle : a + 1 ≤ sp.limit) (h : readByte sp.cells a = some b) :
    loadBytes a 1 sp = .ok [b] sp := by
  refine loadBytes_of_holdsBytes (bs := [b]) (fun i hi => ?_) hle
  obtain rfl : i = 0 := by simpa using hi
  exact h

/-- One pass of the copy loop: the byte `distance` back is stored at the cursor. -/
theorem copyLoop_succ {sp : Space} {distance count cursor : Nat} {b : Byte} (hle : cursor + 1 ≤ sp.limit)
    (h : readByte sp.cells (cursor - distance) = some b) :
    copyLoop distance (count + 1) cursor sp =
      copyLoop distance count (cursor + 1) { sp with cells := writeCells sp.cells cursor [b] } := by
  rw [copyLoop, bind_of_ok (loadBytes_one (by omega) h), bind_of_ok (storeBytes_of_le hle)]

/-- Storing the byte `distance` back moves the window of the last `distance` bytes up by one, as a rotation. -/
theorem readByte_window_of_copied {m : Memory} {distance cursor j : Nat} {b : Byte} (hd : distance ≤ cursor)
    (h : readByte m (cursor - distance) = some b) (hj : j < distance) :
    readByte (writeCells m cursor [b]) (cursor + 1 - distance + j) =
      readByte m (cursor - distance + (j + 1) % distance) := by
  rcases Nat.lt_or_eq_of_le (show j + 1 ≤ distance from hj) with hlt | rfl
  · rw [readByte_writeCells_outside (.inl (by omega)), Nat.mod_eq_of_lt hlt,
      show cursor + 1 - distance + j = cursor - distance + (j + 1) by omega]
  · rw [Nat.mod_self, Nat.add_zero (cursor - (j + 1)), h, show cursor + 1 - (j + 1) + j = cursor + 0 by omega]
    exact readByte_writeCells_inside (i := 0) (by simp) _ _

/-- The copy loop repeats the `distance` bytes before the cursor with that period, overlaps included (R163). -/
theorem copyLoop_periodic {sp : Space} {distance count cursor : Nat} (h1 : 1 ≤ distance) (hd : distance ≤ cursor)
    (hle : cursor + count ≤ sp.limit) (hw : Written sp.cells (cursor - distance) (min distance count)) :
    ∃ sp', copyLoop distance count cursor sp = .ok () sp' ∧
      ∀ i < count, readByte sp'.cells (cursor + i) = readByte sp.cells (cursor - distance + i % distance) := by
  induction count generalizing cursor sp with
  | zero => exact ⟨sp, rfl, fun i hi => absurd hi (Nat.not_lt_zero i)⟩
  | succ count ih =>
    obtain ⟨b, hb⟩ := Option.isSome_iff_exists.mp (hw 0 (by omega))
    have hwindow := fun j => readByte_window_of_copied (j := j) hd hb
    have hw' : Written (writeCells sp.cells cursor [b]) (cursor + 1 - distance) (min distance count) := fun j hj => by
      have hmod := Nat.mod_lt (j + 1) h1
      have hmodle := Nat.mod_le (j + 1) distance
      rw [hwindow j (by omega)]
      exact hw _ (by omega)
    obtain ⟨sp', hrun, hbytes⟩ := ih (sp := { sp with cells := writeCells sp.cells cursor [b] }) (by omega)
      (by simp only; omega) hw'
    refine ⟨sp', (copyLoop_succ (by omega) hb).trans hrun, fun i hi => ?_⟩
    cases i with
    | zero =>
      rw [(copyLoop_ok hrun).1.outside _ (.inl (by omega)), Nat.zero_mod, hb]
      exact readByte_writeCells_inside (by simp) _ _
    | succ i =>
      calc readByte sp'.cells (cursor + (i + 1))
        _ = readByte sp'.cells (cursor + 1 + i) := by rw [Nat.add_right_comm, Nat.add_assoc]
        _ = readByte (writeCells sp.cells cursor [b]) (cursor + 1 - distance + i % distance) := hbytes i (by omega)
        _ = readByte sp.cells (cursor - distance + (i % distance + 1) % distance) := hwindow _ (Nat.mod_lt i h1)
        _ = readByte sp.cells (cursor - distance + (i + 1) % distance) := by rw [Nat.mod_add_mod]

/-- CopyMatch completes when its preconditions hold and its source is written (R160, R162). -/
theorem copyMatch_periodic {sp : Space} {outBegin cursor length distance bufend : Nat}
    (hallowed : copyAllowed outBegin cursor length distance bufend = true) (hend : bufend ≤ sp.limit)
    (hw : Written sp.cells (cursor - distance) (min distance length)) :
    ∃ sp', copyMatch outBegin cursor length distance bufend sp = .ok (cursor + length) sp' ∧
      ∀ i < length, readByte sp'.cells (cursor + i) = readByte sp.cells (cursor - distance + i % distance) := by
  have hpre := hallowed
  simp only [copyAllowed, Bool.and_eq_true, decide_eq_true_eq] at hpre
  obtain ⟨sp', hrun, hbytes⟩ := copyLoop_periodic (count := length) (by omega) (by omega) (by omega) hw
  refine ⟨sp', ?_, hbytes⟩
  rw [copyMatch, if_pos hallowed]
  exact bind_of_ok hrun

/-! ### The command (R162) -/

/-- What MC_COPY does once its operands are read. -/
def copyChecked (outBegin cursor length distance bufend : Nat) : Run State Unit := do
  requireLmem bufend 0
  let moved ← onLmem (copyMatch outBegin cursor length distance bufend)
  setResult moved

/-- MC_COPY with written operands; min_length only has to hold a value (R161). -/
theorem exec_mcCopy {s : State} {outBegin cursor length distance bufend minLength : Nat} (h0 : ArgIs s 0 outBegin)
    (h1 : ArgIs s 1 cursor) (h2 : ArgIs s 2 length) (h3 : ArgIs s 3 distance) (h4 : ArgIs s 4 bufend)
    (h5 : ArgIs s 5 minLength) :
    exec .mcCopy s = runCommand .mcCopy (copyChecked outBegin cursor length distance bufend) s := by
  change runCommand .mcCopy _ s = _
  unfold runCommand
  rw [bind_of_ok (readArg_of_argIs h0), bind_of_ok (readArg_of_argIs h1), bind_of_ok (readArg_of_argIs h2),
    bind_of_ok (readArg_of_argIs h3), bind_of_ok (readArg_of_argIs h4), bind_of_ok (readArg_of_argIs h5)]
  rfl

theorem copyChecked_of_ok {s : State} {outBegin cursor length distance bufend moved : Nat} {sp : Space}
    (hend : bufend ≤ 2 ^ s.world.params.addrBits)
    (h : copyMatch outBegin cursor length distance bufend (lmemSpace s) = .ok moved sp) :
    copyChecked outBegin cursor length distance bufend s =
      .ok () ((s.setLmem sp.cells).setRes0 (BitVec.ofNat 64 moved)) := by
  have hcopy := zoom_of_ok (part := lmemSpace) (put := fun sp s => s.setLmem sp.cells) h
  rw [copyChecked, bind_of_ok (requireLmem_of_le hend)]
  exact bind_of_ok hcopy

/-- Settles O33: by induction on the length, each pass moving the period's window up by one byte. -/
theorem mcCopyExpandsPeriodically : Obligations.McCopyExpandsPeriodically := by
  intro s ob c len d be ml h0 h1 h2 h3 h4 h5 hend hbegin hlen hdist hback hfit hw
  have hallowed : copyAllowed ob c len d be = true := by
    simp only [copyAllowed, Bool.and_eq_true, decide_eq_true_eq]
    omega
  obtain ⟨sp, hcopy, hbytes⟩ := copyMatch_periodic (sp := lmemSpace s) hallowed hend hw
  have hexec := (exec_mcCopy h0 h1 h2 h3 h4 h5).trans (runCommand_of_ok (copyChecked_of_ok hend hcopy))
  exact ⟨sp.cells, hexec, hbytes, mcCopy_lmem hexec h1 h2⟩

end Sys2Proof.Machine

/-! ## The checks of CA_DECOMPRESS and CB_DECOMPRESS -/

namespace Sys2Proof.Machine

/-! ### The checks the two commands share (43_codec_a.md R171, 44_codec_b.md R193) -/

/-- What a decompress command does once its operands are read: its own operand limits, the two ranges, their overlap,
then the decoder over LMEM. -/
def decompressChecked (legal : Bool) (inBase inSize outBase outSize : Nat) (decode : Job → Run Space Unit) :
    Run State Unit := do
  requireOperand legal .illegal
  requireLmem inBase inSize
  requireLmem outBase outSize
  requireDisjoint inBase inSize outBase outSize
  let t ← get
  onLmem (decode (lmemJob t inBase inSize outBase outSize))

section
variable {s : State} {inBase inSize outBase outSize w : Nat} {decode : Job → Run Space Unit} {i : Instr}

/-- CA_DECOMPRESS with written operands. -/
theorem exec_caDecompress_checked (h0 : ArgIs s 0 inBase) (h1 : ArgIs s 1 inSize) (h2 : ArgIs s 2 outBase)
    (h3 : ArgIs s 3 outSize) :
    exec .caDecompress s =
      runCommand .caDecompress (decompressChecked (outSize ≤ caMaxOut) inBase inSize outBase outSize caDecode) s := by
  change runCommand .caDecompress _ s = _
  unfold runCommand
  rw [bind_of_ok (readArg_of_argIs h0), bind_of_ok (readArg_of_argIs h1), bind_of_ok (readArg_of_argIs h2),
    bind_of_ok (readArg_of_argIs h3)]
  rfl

/-- CB_DECOMPRESS with written operands. -/
theorem exec_cbDecompress_checked (h0 : ArgIs s 0 inBase) (h1 : ArgIs s 1 inSize) (h2 : ArgIs s 2 outBase)
    (h3 : ArgIs s 3 outSize) (h4 : ArgIs s 4 w) :
    exec .cbDecompress s = runCommand .cbDecompress
      (decompressChecked (windowLegal w outSize) inBase inSize outBase outSize fun job => cbDecode job w) s := by
  change runCommand .cbDecompress _ s = _
  unfold runCommand
  rw [bind_of_ok (readArg_of_argIs h0), bind_of_ok (readArg_of_argIs h1), bind_of_ok (readArg_of_argIs h2),
    bind_of_ok (readArg_of_argIs h3), bind_of_ok (readArg_of_argIs h4)]
  rfl

theorem decompressChecked_illegal :
    runCommand i (decompressChecked false inBase inSize outBase outSize decode) s = .next (reported 6#8 s) :=
  runCommand_of_fail (e := .illegal) (bind_of_error (requireOperand_false _ s))

theorem decompressChecked_outside
    (h : 2 ^ s.world.params.addrBits < inBase + inSize ∨ 2 ^ s.world.params.addrBits < outBase + outSize) :
    runCommand i (decompressChecked true inBase inSize outBase outSize decode) s = .next (faulted i 2#8 s) := by
  refine runCommand_of_fault (c := .memRange) ?_
  rw [decompressChecked, bind_of_ok (requireOperand_true _ s)]
  by_cases hin : inBase + inSize ≤ 2 ^ s.world.params.addrBits
  · rw [bind_of_ok (requireLmem_of_le hin)]
    exact bind_of_error (requireLmem_of_lt (h.resolve_left (Nat.not_lt.mpr hin)))
  · exact bind_of_error (requireLmem_of_lt (Nat.not_le.mp hin))

/-- With legal operands and both ranges inside LMEM the test for overlap is next. -/
theorem decompressChecked_inside (hin : inBase + inSize ≤ 2 ^ s.world.params.addrBits)
    (hout : outBase + outSize ≤ 2 ^ s.world.params.addrBits) :
    decompressChecked true inBase inSize outBase outSize decode s =
      (requireDisjoint inBase inSize outBase outSize >>= fun _ => get >>= fun t =>
        onLmem (decode (lmemJob t inBase inSize outBase outSize))) s := by
  rw [decompressChecked, bind_of_ok (requireOperand_true _ s), bind_of_ok (requireLmem_of_le hin),
    bind_of_ok (requireLmem_of_le hout)]

theorem decompressChecked_overlap (hin : inBase + inSize ≤ 2 ^ s.world.params.addrBits)
    (hout : outBase + outSize ≤ 2 ^ s.world.params.addrBits) (h : ¬ Disjoint inBase inSize outBase outSize) :
    runCommand i (decompressChecked true inBase inSize outBase outSize decode) s = .next (faulted i 6#8 s) := by
  refine runCommand_of_fault (c := .overlap) ?_
  rw [decompressChecked_inside hin hout]
  exact bind_of_error (requireDisjoint_of_not_disjoint h)

/-- Every check passed, the decoder works on LMEM. -/
theorem decompressChecked_disjoint (hin : inBase + inSize ≤ 2 ^ s.world.params.addrBits)
    (hout : outBase + outSize ≤ 2 ^ s.world.params.addrBits) (h : Disjoint inBase inSize outBase outSize) :
    decompressChecked true inBase inSize outBase outSize decode s =
      onLmem (decode (lmemJob s inBase inSize outBase outSize)) s := by
  rw [decompressChecked_inside hin hout, bind_of_ok (requireDisjoint_of_disjoint h), bind_of_ok (get_run s)]

/-- A decoder that fails before it writes leaves the state as it is. -/
theorem decompressChecked_fails (hin : inBase + inSize ≤ 2 ^ s.world.params.addrBits)
    (hout : outBase + outSize ≤ 2 ^ s.world.params.addrBits) (h : Disjoint inBase inSize outBase outSize) {e : Status}
    (hrun : decode (lmemJob s inBase inSize outBase outSize) (lmemSpace s) = .error (.fail e) (lmemSpace s)) :
    runCommand i (decompressChecked true inBase inSize outBase outSize decode) s =
      .next (reported (statusCode e) s) :=
  runCommand_of_fail ((decompressChecked_disjoint hin hout h).trans (zoom_of_error (part := lmemSpace) hrun))

theorem windowLegal_iff : windowLegal w outSize = true ↔ w ∈ [15, 16, 17] ∧ outSize ≤ 2 ^ w := by
  simp [windowLegal, or_assoc]

end

/-! ### Chunks that end at once -/

theorem onReader_of_ok {α : Type} {f : Run BitReader α} {s : Sess} {a : α} {r : BitReader}
    (h : f s.reader = .ok a r) : onReader f s = .ok a { s with reader := r } := zoom_of_ok h

theorem onCbReader_of_ok {α : Type} {f : Run BitReader α} {s : CbSess} {a : α} {r : BitReader}
    (h : f s.base.reader = .ok a r) : onCbReader f s = .ok a { s with base := { s.base with reader := r } } :=
  zoom_of_ok (part := CbSess.base) (put := fun b s => { s with base := b }) (onReader_of_ok h)

/-- A range of no bytes shares none with another. -/
theorem disjoint_of_empty_left (a b m : Nat) : Disjoint a 0 b m := fun x _ _ _ _ => by omega

theorem disjoint_of_empty_right (a n b : Nat) : Disjoint a n b 0 := fun x _ _ _ _ => by omega

/-- A chunk shorter than its header (43_codec_a.md R172). -/
theorem caDecode_of_short {job : Job} (h : job.inSize < 256) (out : Space) :
    caDecode job out = .error (.fail .truncated) out := by
  rw [caDecode, if_pos h]
  rfl

section
variable {inp : Space} {r : BitReader}

/-- A reader over written input whose stream is zeros without end. -/
def ReadsZeros (inp : Space) (r : BitReader) : Prop := ReadsWritten inp r ∧ ∀ i, upcomingBit inp.cells r i = false

/-- Without input the stream is zeros (40_bit_reader.md R119). -/
theorem readsZeros_initReader {start : Nat} (h : start ≤ inp.limit) : ReadsZeros inp (initReader start 0) :=
  ⟨⟨initReader_ok _ _, h, fun i hi => by simp at hi⟩, fun i => upcomingBit_past (Nat.zero_le i) (by simp; omega)⟩

theorem bitsValue_of_zeros {bit : Nat → Bool} (h : ∀ i, bit i = false) (n : Nat) : bitsValue bit n = 0 := by
  induction n with
  | zero => rfl
  | succ n ih => rw [bitsValue, ih, h]; rfl

theorem readBits_of_zeros {n : Nat} (hn : n ≤ 16) (h : ReadsZeros inp r) :
    ∃ r', readBits inp n r = .ok 0 r' ∧ ReadsZeros inp r' := by
  obtain ⟨r', hread, hmoves, hin, -, -⟩ := readBits_stream hn h.1
  rw [bitsValue_of_zeros h.2] at hread
  exact ⟨r', hread, hin, fun i => (hmoves i).trans (h.2 _)⟩

/-- A block header of zeros gives block type 0 (44_codec_b.md R195). -/
theorem blockHeader_of_zeros (w : Nat) (h : ReadsZeros inp r) :
    ∃ r', blockHeader inp w r = .ok (0, 0) r' := by
  obtain ⟨r1, htype, h1⟩ := readBits_of_zeros (n := 3) (by decide) h
  obtain ⟨r2, hflag, h2⟩ := readBits_of_zeros (n := 1) (by decide) h1
  obtain ⟨r3, hsize, h3⟩ := readBits_of_zeros (n := 16) (by decide) h2
  obtain ⟨r4, hlow, -⟩ := readBits_of_zeros (n := 8) (by decide) h3
  rw [blockHeader, bind_of_ok htype, bind_of_ok hflag, if_neg Nat.zero_ne_one, bind_of_ok hsize]
  split_ifs
  · exact ⟨r4, bind_of_ok hlow⟩
  · exact ⟨r3, rfl⟩

end

section
variable {job : Job} {w : Nat}

/-- CbDecode of an empty input fails at its first block, which has type 0 (44_codec_b.md R196). -/
theorem cbDecode_of_empty_input (hsize : job.inSize = 0) (hlim : job.inBase ≤ job.inp.limit) (hout : 1 ≤ job.outSize)
    (out : Space) : cbDecode job w out = .error (.fail .metadata) out := by
  obtain ⟨r, hheader⟩ := blockHeader_of_zeros w (readsZeros_initReader hlim)
  have hstart : (sessionStart job w out).base.reader = initReader job.inBase 0 := by rw [← hsize]; rfl
  have hread := onCbReader_of_ok (s := sessionStart job w out) (hstart ▸ hheader)
  have hblock : cbBlock job w (sessionStart job w out) =
      .error (.fail .metadata) { sessionStart job w out with base := { reader := r, out := out, pos := 0 } } := by
    rw [cbBlock, bind_of_ok hread]
    rfl
  obtain ⟨fuel, hfuel⟩ := Nat.exists_eq_add_of_le' hout
  have hblocks : cbBlocks job w job.outSize (sessionStart job w out) =
      .error (.fail .metadata) { sessionStart job w out with base := { reader := r, out := out, pos := 0 } } := by
    rw [hfuel, cbBlocks, bind_of_ok (get_run _), if_neg (by rw [hfuel]; exact (Nat.succ_ne_zero fuel).symm)]
    exact bind_of_error hblock
  have hsession : cbSession job w (sessionStart job w out) = _ := bind_of_error hblocks
  rcases cbDecode_session job w out with ⟨s, hs, -⟩ | ⟨e, s, hs, hd⟩
  · cases hsession.symm.trans hs
  · cases hsession.symm.trans hs
    exact hd

/-- CbDecode of an empty output reads no byte (R194). -/
theorem cbDecode_of_empty_output (h : job.outSize = 0) (out : Space) : cbDecode job w out = .ok () out := by
  have hblocks : cbBlocks job w job.outSize (sessionStart job w out) = .ok () (sessionStart job w out) := by
    rw [h]
    rfl
  have hcheck : onBase (exhaustionCheck job) (sessionStart job w out) = .ok () (sessionStart job w out) :=
    zoom_of_ok (part := CbSess.base) (exhaustionCheck_of_unpadded rfl)
  have hundo : onBase (onOut (e8Undo job.outBase job.outSize)) (sessionStart job w out) =
      .ok () (sessionStart job w out) := by
    rw [h]
    rfl
  have hsession : cbSession job w (sessionStart job w out) = .ok () (sessionStart job w out) :=
    (bind_of_ok hblocks).trans ((bind_of_ok hcheck).trans hundo)
  rcases cbDecode_session job w out with ⟨s, hs, hd⟩ | ⟨e, s, hs, -⟩
  · cases hsession.symm.trans hs
    exact hd
  · cases hsession.symm.trans hs

end

/-! ### The commands -/

/-- Settles O45: the shared checks in their order, then what each decoder does before it reads its first byte. -/
theorem decompressCommandsCheckTheirOperands : Obligations.DecompressCommandsCheckTheirOperands := by
  refine ⟨fun s inBase inSize outBase outSize h0 h1 h2 h3 => ?_,
    fun s inBase inSize outBase outSize w h0 h1 h2 h3 h4 => ?_,
    fun s inBase inSize outBase w h0 h1 h2 h3 h4 hw hin hout => ?_⟩
  · rw [exec_caDecompress_checked h0 h1 h2 h3]
    refine ⟨fun hlt => ?_, fun hle => ?_, fun hle hin hout => ?_⟩
    · rw [decide_eq_false (show ¬ outSize ≤ caMaxOut from Nat.not_le.mpr hlt)]
      exact decompressChecked_illegal
    · rw [decide_eq_true (show outSize ≤ caMaxOut from hle)]
      exact decompressChecked_outside
    · rw [decide_eq_true (show outSize ≤ caMaxOut from hle)]
      exact ⟨decompressChecked_overlap hin hout, fun hdis hshort =>
        decompressChecked_fails hin hout hdis (caDecode_of_short hshort _)⟩
  · rw [exec_cbDecompress_checked h0 h1 h2 h3 h4]
    refine ⟨fun hbad => ?_, fun hw hle => ?_, fun hw hle hin hout => ?_⟩
    · rw [eq_false_of_ne_true (mt windowLegal_iff.mp (by rintro ⟨hw, hle⟩; exact hbad.elim (absurd hw) (by omega)))]
      exact decompressChecked_illegal
    · rw [windowLegal_iff.mpr ⟨hw, hle⟩]
      exact decompressChecked_outside
    · rw [windowLegal_iff.mpr ⟨hw, hle⟩]
      refine ⟨decompressChecked_overlap hin hout, fun hempty hone => ?_⟩
      subst hempty
      exact decompressChecked_fails (decode := fun job => cbDecode job w) hin hout (disjoint_of_empty_left _ _ _)
        (cbDecode_of_empty_input rfl hin hone (lmemSpace s))
  · rw [exec_cbDecompress_checked h0 h1 h2 h3 h4, windowLegal_iff.mpr ⟨hw, Nat.zero_le _⟩]
    exact runCommand_of_ok ((decompressChecked_disjoint hin hout (disjoint_of_empty_right _ _ _)).trans
      (zoom_of_ok (part := lmemSpace) (cbDecode_of_empty_output rfl (lmemSpace s))))

end Sys2Proof.Machine

/-! ## MatchFields of codec A -/

namespace Sys2Proof.Machine

/-! ### Reads over written input -/

section
variable {inp : Space} {r t : BitReader} {k : Nat}

/-- A reader further on in the same input reads written bytes too. -/
theorem ReadsWritten.of_later (h : ReadsWritten inp r) (ht : ReaderOk t) (hstop : t.stop = r.stop)
    (hnext : r.next ≤ t.next) : ReadsWritten inp t := by
  obtain ⟨-, hlim, hw⟩ := h
  refine ⟨ht, hstop ▸ hlim, fun i hi => ?_⟩
  have hbyte := hw (t.next - r.next + i) (by omega)
  rwa [show r.next + (t.next - r.next + i) = t.next + i by omega] at hbyte

theorem ReadsWritten.dropBits (h : ReadsWritten inp r) (hk : k ≤ r.bitsleft) : ReadsWritten inp (dropBits r k) :=
  h.of_later (dropBits_ok h.1 hk) rfl le_rfl

/-- Written bytes read little-endian (20_memory.md R57). -/
theorem memRead_of_written {sp : Space} {a n : Nat} (hle : a + n ≤ sp.limit) (hw : Written sp.cells a n) :
    memRead sp a n = .ok (leNat ((List.range n).map fun i => (readByte sp.cells (a + i)).getD 0#8)) := by
  have hbytes : memReadBytes sp a n = .ok ((List.range n).map fun i => (readByte sp.cells (a + i)).getD 0#8) := by
    refine (memReadBytes_ok_iff sp a n _).mpr ⟨.inr hle, by simp, fun i hi => ?_⟩
    obtain ⟨b, hb⟩ := Option.isSome_iff_exists.mp (hw i (by simpa using hi))
    simp [hb]
  rw [memRead, hbytes]

/-- The reader after a literal of `k` bytes: past them, or where it was when the input does not hold them
(40_bit_reader.md R106). -/
def skipLiteral (k : Nat) (r : BitReader) : BitReader :=
  { r with next := if r.stop < r.next + k then r.next else r.next + k }

theorem readLit_of_written (k : Nat) (h : ReadsWritten inp r) :
    readLit inp k r = .ok (literalAt inp.cells r.stop r.next k) (skipLiteral k r) := by
  obtain ⟨-, hlim, hw⟩ := h
  by_cases hpast : r.stop < r.next + k
  · rw [readLit_of_lt hpast, literalAt, if_pos hpast, skipLiteral, if_pos hpast]
  · have hread := memRead_of_written (sp := inp) (a := r.next) (n := k) (by omega) fun i hi => hw i (by omega)
    rw [readLit_of_ok (by omega) hread, literalAt, if_neg hpast, skipLiteral, if_neg hpast]
    rfl

theorem ReadsWritten.skipLiteral (h : ReadsWritten inp r) (k : Nat) : ReadsWritten inp (skipLiteral k r) := by
  obtain ⟨-, -, -, hok⟩ := (readLit_step inp k).ok (readLit_of_written k h)
  refine h.of_later (hok h.1) rfl ?_
  simp only [Machine.skipLiteral]
  split <;> omega

end

theorem bitsValue_lt (bit : Nat → Bool) (n : Nat) : bitsValue bit n < 2 ^ n := by
  induction n with
  | zero => exact Nat.one_pos
  | succ n ih =>
    have := Bool.toNat_le (bit n)
    rw [bitsValue, Nat.pow_succ]
    omega

/-! ### Distance and length (43_codec_a.md R175, R177) -/

/-- MatchFields after the distance is read: the length from the length header `lh`, or from the byte cursor. -/
def matchRest (inp : Space) (lh dist : Nat) : Run BitReader (Nat × Nat) :=
  if lh = 15 then do
    let ext ← readLit inp 1
    if 15 + ext = 15 + 255 then do
      let long ← readLit inp 2
      pure (long + 3, dist)
    else pure (15 + ext + 3, dist)
  else pure (lh + 3, dist)

section
variable {inp : Space} {r : BitReader}

theorem matchRest_of_short {lh : Nat} (h : lh ≠ 15) (dist : Nat) (r : BitReader) :
    matchRest inp lh dist r = .ok (lh + 3, dist) r := by
  rw [matchRest, if_neg h]
  rfl

theorem matchRest_of_byte (h : ReadsWritten inp r) (hx : literalAt inp.cells r.stop r.next 1 ≠ 255) (dist : Nat) :
    matchRest inp 15 dist r = .ok (15 + literalAt inp.cells r.stop r.next 1 + 3, dist) (skipLiteral 1 r) := by
  rw [matchRest, if_pos rfl, bind_of_ok (readLit_of_written 1 h), if_neg (by omega)]
  rfl

theorem matchRest_of_word (h : ReadsWritten inp r) (hx : literalAt inp.cells r.stop r.next 1 = 255) (dist : Nat) :
    matchRest inp 15 dist r =
      .ok (literalAt inp.cells (skipLiteral 1 r).stop (skipLiteral 1 r).next 2 + 3, dist)
        (skipLiteral 2 (skipLiteral 1 r)) := by
  rw [matchRest, if_pos rfl, bind_of_ok (readLit_of_written 1 h), if_pos (by omega),
    bind_of_ok (readLit_of_written 2 (h.skipLiteral 1))]
  rfl

/-- The distance of a match symbol: 2^k and the stream's next `k` bits, `k` being the offset exponent. -/
def matchDistance (m : Memory) (r : BitReader) (sym : Nat) : Nat :=
  2 ^ (sym / 16 % 16) + bitsValue (upcomingBit m r) (sym / 16 % 16)

/-- MatchFields buffers 16 bits and takes the offset bits from them; the length is read at the byte cursor behind. -/
theorem matchFields_of_written (sym : Nat) (h : ReadsWritten inp r) :
    ∃ e, ensure inp 16 r = .ok () e ∧ 16 ≤ e.bitsleft ∧ StreamMoves inp.cells r e 0 ∧ ReadsWritten inp e ∧
      matchFields inp sym r =
        matchRest inp (sym % 16) (matchDistance inp.cells r sym) (dropBits e (sym / 16 % 16)) := by
  obtain ⟨e, hens, hbuf, hmoves, hin, -⟩ := ensure_stream (n := 16) le_rfl h
  refine ⟨e, hens, hbuf, hmoves, hin, ?_⟩
  have hk : sym / 16 % 16 ≤ e.bitsleft := by omega
  have hvalue : (e.bitbuf >>> (32 - sym / 16 % 16)).toNat = bitsValue (upcomingBit inp.cells r) (sym / 16 % 16) := by
    rw [peek_value hk hin.1.left_le]
    exact bitsValue_congr fun i _ => by rw [hmoves i, Nat.zero_add]
  have hpop : pop (sym / 16 % 16) e =
      .ok (bitsValue (upcomingBit inp.cells r) (sym / 16 % 16)) (dropBits e (sym / 16 % 16)) := by
    rw [← hvalue]
    exact ((pop_cases _ e).resolve_left fun h => absurd h.1 (by omega)).2
  have hdist : (1 <<< (sym / 16 % 16)) ||| bitsValue (upcomingBit inp.cells r) (sym / 16 % 16) =
      matchDistance inp.cells r sym := by
    rw [← Nat.shiftLeft_add_eq_or_of_lt (bitsValue_lt ..), Nat.one_shiftLeft, matchDistance]
  rw [matchFields, bind_of_ok hens, bind_of_ok hpop, hdist]
  rfl

/-- Over written input MatchFields always answers, with a length and a distance of at least 1. -/
theorem matchFields_total (sym : Nat) (h : ReadsWritten inp r) :
    ∃ length dist t, matchFields inp sym r = .ok (length, dist) t ∧ 1 ≤ length ∧ 1 ≤ dist ∧ ReadsWritten inp t := by
  obtain ⟨e, -, hbuf, -, hin, hrun⟩ := matchFields_of_written sym h
  have hdist : 1 ≤ matchDistance inp.cells r sym := Nat.le_add_right_of_le Nat.one_le_two_pow
  have hin' := hin.dropBits (k := sym / 16 % 16) (by omega)
  rw [hrun]
  by_cases hlh : sym % 16 = 15
  · rw [hlh]
    by_cases hx : literalAt inp.cells (dropBits e (sym / 16 % 16)).stop (dropBits e (sym / 16 % 16)).next 1 = 255
    · exact ⟨_, _, _, matchRest_of_word hin' hx _, Nat.le_add_left .., hdist, (hin'.skipLiteral 1).skipLiteral 2⟩
    · exact ⟨_, _, _, matchRest_of_byte hin' hx _, Nat.le_add_left .., hdist, hin'.skipLiteral 1⟩
  · exact ⟨_, _, _, matchRest_of_short hlh _ _, Nat.le_add_left .., hdist, hin'⟩

end

/-- Settles O37: the three ways to the length, behind the offset bits. -/
theorem caMatchFieldsReadLengthAndDistance : Obligations.CaMatchFieldsReadLengthAndDistance := by
  intro inp r lh k h hlh hk
  obtain ⟨e, hens, hbuf, -, hin, hrun⟩ := matchFields_of_written (256 + 16 * k + lh) h
  rw [matchDistance, show (256 + 16 * k + lh) / 16 % 16 = k by omega,
    show (256 + 16 * k + lh) % 16 = lh by omega] at hrun
  have hin' := hin.dropBits (k := k) (by omega)
  refine ⟨e, hens, fun hshort => ?_, fun hlong hx => ?_, fun hlong hx => ?_⟩
  · exact hrun.trans (matchRest_of_short (by omega) _ _)
  · subst hlong
    exact hrun.trans (matchRest_of_byte hin' hx _)
  · subst hlong
    have hthere : ¬ e.stop < e.next + 1 := fun hpast => by
      rw [literalAt, if_pos hpast] at hx
      cases hx
    have hskip : skipLiteral 1 (dropBits e k) = { dropBits e k with next := e.next + 1 } := by
      rw [skipLiteral]
      exact congrArg (fun n => { dropBits e k with next := n }) (if_neg hthere)
    have hword := matchRest_of_word hin' hx (2 ^ k + bitsValue (upcomingBit inp.cells r) k)
    rw [hskip] at hword
    exact hrun.trans hword

end Sys2Proof.Machine

/-! ## A built table decodes any stream -/

namespace Sys2Proof.Machine

/-! ### Records of a built table (41_huffman.md R136, R137) -/

theorem nodeRecord_isNode (c : Nat) : isNode (nodeRecord c) = true := by
  simp only [isNode, nodeRecord, BitVec.le_def, BitVec.toNat_or, decide_eq_true_eq]
  exact Nat.left_le_or

/-- A record that a decoder follows within its direct bits, unless it is a node. -/
def ShortRecord (tb : Nat) (e : Entry) : Prop := isNode e = true ∨ fastLength e ≤ tb

theorem shortRecord_zero (tb : Nat) : ShortRecord tb 0#16 := .inr (Nat.zero_le tb)

theorem shortRecord_leafRecord (tb : Nat) {sym : Nat} (h : sym < 2048) : ShortRecord tb (leafRecord sym) := by
  refine .inr ?_
  rw [fastLength_eq, leafRecord_toNat h, Nat.div_eq_of_lt h]
  exact Nat.zero_le tb

section
variable {tb : Nat} {table : List Entry}

/-- All entries of a table are short records. -/
def ShortRecords (tb : Nat) (table : List Entry) : Prop := ∀ e ∈ table, ShortRecord tb e

theorem ShortRecords.getD (h : ShortRecords tb table) (i : Nat) : ShortRecord tb (table.getD i 0#16) := by
  by_cases hi : i < table.length
  · rw [List.getD_eq_getElem _ _ hi]
    exact h _ (List.getElem_mem hi)
  · rw [List.getD_eq_default _ _ (Nat.not_lt.mp hi)]
    exact shortRecord_zero tb

theorem ShortRecords.set (h : ShortRecords tb table) (i : Nat) {e : Entry} (he : ShortRecord tb e) :
    ShortRecords tb (table.set i e) := fun x hx => (List.mem_or_eq_of_mem_set hx).elim (h x) fun hxe => hxe ▸ he

theorem ShortRecords.append {more : List Entry} (h : ShortRecords tb table) (h' : ShortRecords tb more) :
    ShortRecords tb (table ++ more) := fun x hx => (List.mem_append.mp hx).elim (h x) (h' x)

theorem shortRecords_replicate_zero (tb n : Nat) : ShortRecords tb (List.replicate n 0#16) := fun _ hx =>
  (List.mem_replicate.mp hx).2 ▸ shortRecord_zero tb

theorem trieDescend_shortRecords (h : ShortRecords tb table) (code x node : Nat) :
    ShortRecords tb (trieDescend code x table node).1 := by
  induction x generalizing table node with
  | zero => exact h
  | succ x ih =>
    unfold trieDescend
    split
    · exact ih ((h.set node (.inl (nodeRecord_isNode _))).append (shortRecords_replicate_zero tb 2)) _
    · exact ih h _

theorem trieSymbols_shortRecords {syms : List Nat} (h : ShortRecords tb table) (len code : Nat)
    (hsyms : ∀ sym ∈ syms, sym < 2048) : ShortRecords tb (trieSymbols tb len syms table code).1 := by
  induction syms generalizing table code with
  | nil => exact h
  | cons sym rest ih =>
    exact ih ((trieDescend_shortRecords h _ _ _).set _ (shortRecord_leafRecord tb (hsyms sym List.mem_cons_self))) _
      fun s hs => hsyms s (List.mem_cons_of_mem _ hs)

variable {lens : List Nat}

theorem trieLengths_shortRecords (h : ShortRecords tb table) (hn : lens.length ≤ 2048) (k code : Nat) :
    ShortRecords tb (trieLengths lens tb k table code).1 := by
  induction k with
  | zero => exact h
  | succ k ih =>
    exact trieSymbols_shortRecords ih _ _ fun sym hsym => (lt_length_of_mem_symbolsOfLength hsym).trans_le hn

theorem directPart_shortRecords (hn : lens.length ≤ 2048) (h12 : tb ≤ 12) {k : Nat} (hk : k ≤ tb) :
    ShortRecords tb (directPart lens tb k) := by
  induction k with
  | zero => exact fun _ hx => absurd hx List.not_mem_nil
  | succ k ih =>
    refine (ih (by omega)).append fun e he => .inr ?_
    obtain ⟨sym, hsym, hrep⟩ := List.mem_flatMap.mp he
    rw [(List.mem_replicate.mp hrep).2,
      fastLength_fastRecord (by omega) ((lt_length_of_mem_symbolsOfLength hsym).trans_le hn)]
    exact hk

variable {reject : Bool} {maxLen : Nat}

/-- No fast record of a built table is longer than the direct width. -/
theorem buildTable_shortRecords (hb : buildTable reject lens tb maxLen = some table)
    (hlim : tableLimits lens.length tb maxLen = true) : ShortRecords tb table := by
  obtain ⟨-, hn, -, h12, -⟩ := tableLimits_iff.mp hlim
  obtain ⟨-, left, -, ⟨-, rfl⟩ | ⟨-, rfl⟩⟩ := buildTable_eq_some hb
  · exact shortRecords_replicate_zero tb _
  · exact trieLengths_shortRecords ((directPart_shortRecords hn h12 le_rfl).append (shortRecords_replicate_zero tb _))
      hn _ _

/-! ### Walks through a built table (R137, R141) -/

/-- Every walk from entry `i` ends within `x` steps. -/
def WalkEnds (table : List Entry) : Nat → Nat → Prop
  | 0, i => isNode (table.getD i 0#16) = false
  | x + 1, i => isNode (table.getD i 0#16) = true → ∀ b < 2, WalkEnds table x (childIndex (table.getD i 0#16) + b)

theorem walkEnds_of_not_isNode {x i : Nat} (h : isNode (table.getD i 0#16) = false) : WalkEnds table x i := by
  cases x with
  | zero => exact h
  | succ x => exact fun hnode => absurd (h.symm.trans hnode) Bool.false_ne_true

/-- No entry stands deeper than `D`, and a step goes one deeper. -/
theorem TrieOk.walkEnds {D code x i : Nat} {place : Nat → Place} (h : TrieOk tb D code table place)
    (hx : D ≤ (place i).depth + x) : WalkEnds table x i := by
  induction x generalizing i with
  | zero =>
    refine eq_false_of_ne_true fun hnode => ?_
    obtain ⟨hlt, hplace⟩ := h.node i hnode
    have hdeep := h.depth_le _ hlt
    rw [hplace 1 Nat.one_lt_two] at hdeep
    simp only at hdeep
    omega
  | succ x ih =>
    intro hnode b hb
    refine ih ?_
    rw [(h.node i hnode).2 b hb]
    simp only
    omega

/-- With the last of the lengths tb+1 .. tb+k+1 entered no entry stands deeper than k+1. -/
theorem trieLengths_succ_ok {k : Nat} (hn : lens.length ≤ 2048) (hk : tb + (k + 1) ≤ maxLen)
    (hsome : (kraftLeft lens maxLen).isSome = true) (h : TrieOk tb 1 (firstCode lens tb) table slotPlace)
    (hcap : (trieLengths lens tb (k + 1) table (firstCode lens tb)).1.length ≤ 16384) :
    ∃ code place, TrieOk tb (k + 1) code (trieLengths lens tb (k + 1) table (firstCode lens tb)).1 place := by
  rw [trieLengths] at hcap ⊢
  simp only at hcap ⊢
  obtain ⟨hcode, place, hok, -⟩ := trieLengths_ok hn (by omega) hsome h ((le_trieSymbols_length ..).trans hcap)
  have hspace : firstCode lens (tb + k) + (symbolsOfLength lens (tb + k + 1)).length ≤ 2 ^ (tb + (k + 1)) := by
    rw [symbolsOfLength_length]
    exact firstCode_add_count_le (kraftLeft_isSome_of_le hsome hk)
  rw [hcode] at hcap ⊢
  obtain ⟨-, place', hok', -⟩ := trieSymbols_ok hok hspace
    (fun sym hsym => (lt_length_of_mem_symbolsOfLength hsym).trans_le hn) hcap
  exact ⟨_, place', hok'⟩

/-- A walk from a direct slot of a built table takes at most max_len - tb bits. -/
theorem buildTable_walkEnds (hb : buildTable reject lens tb maxLen = some table)
    (hlim : tableLimits lens.length tb maxLen = true) {i : Nat} (hi : i < 2 ^ tb) :
    WalkEnds table (maxLen - tb) i := by
  obtain ⟨-, hn, -, h12, htb, -, hsize⟩ := tableLimits_iff.mp hlim
  have hlen := (buildTable_length_le htb hb).trans hsize
  obtain ⟨-, left, hk, ⟨-, rfl⟩ | ⟨-, rfl⟩⟩ := buildTable_eq_some hb
  · refine walkEnds_of_not_isNode ?_
    rw [List.getD_replicate _ hi]
    rfl
  · have hsome : (kraftLeft lens maxLen).isSome = true := by
      rw [hk]
      rfl
    have hdirect := directRegion_ok hn h12 htb hsome
    rw [directPart_mul_two] at hlen ⊢
    cases hx : maxLen - tb with
    | zero =>
      refine walkEnds_of_not_isNode (eq_false_of_ne_true fun hnode => ?_)
      exact absurd (congrArg Place.depth ((hdirect.node i hnode).2 0 Nat.two_pos)) (Nat.succ_ne_zero _).symm
    | succ k =>
      rw [hx] at hlen
      obtain ⟨code, place, hok⟩ := trieLengths_succ_ok hn (by omega) hsome hdirect hlen
      exact hok.walkEnds (Nat.le_add_left ..)

/-! ### Decoding any stream (R141, R142) -/

variable {inp : Space} {r : BitReader}

theorem top_bits_lt (b : Word32) {n : Nat} (hn : n ≤ 32) : (b >>> (32 - n)).toNat < 2 ^ n :=
  top_bits_value b hn ▸ bitsValue_lt ..

theorem walkTrie_total {x i fuel : Nat} (hends : WalkEnds table x i) (hnode : isNode (table.getD i 0#16) = true)
    (hfuel : x ≤ fuel) (hbits : x ≤ r.bitsleft) (hin : ReadsWritten inp r) :
    ∃ sym t, walkTrie (listEntry table) fuel (table.getD i 0#16) r = .ok sym t ∧ ReadsWritten inp t := by
  induction x generalizing i fuel r with
  | zero => exact absurd (hends.symm.trans hnode) Bool.false_ne_true
  | succ x ih =>
    obtain ⟨fuel, rfl⟩ := Nat.exists_eq_add_of_le' (Nat.le_of_add_left_le hfuel : 1 ≤ fuel)
    have hpop := ((pop_cases 1 r).resolve_left fun h => absurd h.1 (by omega)).2
    have hin' := hin.dropBits (k := 1) (by omega)
    have hchild := hends hnode _ (top_bits_lt r.bitbuf (n := 1) (by decide))
    rw [walkTrie, bind_of_ok hpop, listEntry, orFault_ok, bind_of_ok (pure_run _ _)]
    split_ifs with hnext
    · exact ih hchild hnext (by omega) (by simp only [dropBits_bitsleft]; omega) hin'
    · exact ⟨_, _, rfl, hin'⟩

/-- Through a built table DecodeSym always answers: no record needs more bits than max_len. -/
theorem decodeSym_total (hb : buildTable reject lens tb maxLen = some table)
    (hlim : tableLimits lens.length tb maxLen = true) (hin : ReadsWritten inp r) :
    ∃ sym t, decodeSym inp (listEntry table) tb maxLen r = .ok sym t ∧ ReadsWritten inp t := by
  obtain ⟨-, -, -, h12, htb, h16, -⟩ := tableLimits_iff.mp hlim
  obtain ⟨e, hens, hbuf, -, hin', -⟩ := ensure_stream h16 hin
  rw [decodeSym_of_entry hens (htb.trans hbuf) rfl]
  split_ifs with hnode hlong
  · exact walkTrie_total (buildTable_walkEnds hb hlim (top_bits_lt _ (by omega))) hnode (by omega)
      (by simp only [dropBits_bitsleft]; omega) (hin'.dropBits (htb.trans hbuf))
  · have hshort := ((buildTable_shortRecords hb hlim).getD _).resolve_left hnode
    omega
  · exact ⟨_, _, rfl, hin'.dropBits (Nat.not_lt.mp hlong)⟩

end

end Sys2Proof.Machine

/-! ## CA_DECOMPRESS never faults on its input -/

namespace Sys2Proof.Machine

/-! ### Parts of a session that end well (43_codec_a.md R176) -/

section
variable {job : Job} {table : List Entry} {s : Sess} {sym : Nat} {r : BitReader}

theorem caItem_of_literal (hdec : decodeSym job.inp (listEntry table) 11 15 s.reader = .ok sym r) (hsym : sym < 256)
    (hroom : job.outBase + s.pos + 1 ≤ s.out.limit) :
    caItem job table s = .ok ()
      { reader := r
        out := { s.out with cells := writeCells s.out.cells (job.outBase + s.pos) [BitVec.ofNat 8 sym] }
        pos := s.pos + 1 } := by
  rw [caItem, bind_of_ok (onReader_of_ok hdec), if_pos hsym]
  exact emitLiteral_of_le (s := { s with reader := r }) hroom

/-- A match is checked against the output so far and against the output's end (R178). -/
theorem caItem_of_match {t : BitReader} {length dist : Nat}
    (hdec : decodeSym job.inp (listEntry table) 11 15 s.reader = .ok sym r) (hsym : 256 ≤ sym)
    (hfields : matchFields job.inp sym r = .ok (length, dist) t) :
    caItem job table s =
      if s.pos < dist ∨ job.outSize < s.pos + length then .error (.fail .reference) { s with reader := t }
      else emitMatch job length dist job.outSize { s with reader := t } := by
  rw [caItem, bind_of_ok (onReader_of_ok hdec), if_neg (Nat.not_lt.mpr hsym),
    bind_of_ok (onReader_of_ok (s := { s with reader := r }) hfields)]
  change (if s.pos < dist then throw (.fail .reference) else if job.outSize < s.pos + length then
    throw (.fail .reference) else emitMatch job length dist job.outSize : Run Sess Unit) { s with reader := t } = _
  by_cases hback : s.pos < dist
  · rw [if_pos hback, if_pos (.inl hback)]
    rfl
  · by_cases hend : job.outSize < s.pos + length
    · rw [if_neg hback, if_pos hend, if_pos (.inr hend)]
      rfl
    · rw [if_neg hback, if_neg hend, if_neg (not_or.mpr ⟨hback, hend⟩)]

/-- A match whose distance stays in an output that is all written, and which ends at or below `stop` (R178). -/
theorem emitMatch_of_filled {length dist stop : Nat} (hfilled : Filled job s) (hlength : 1 ≤ length) (hdist : 1 ≤ dist)
    (hback : dist ≤ s.pos) (hstop : s.pos + length ≤ stop) (hroom : job.outBase + stop ≤ s.out.limit) :
    ∃ out, emitMatch job length dist stop s = .ok () { s with out := out, pos := s.pos + length } ∧
      ChangedWithin (job.outBase + s.pos) (job.outBase + s.pos + length) s.out out ∧
      ∀ i < length, readByte out.cells (job.outBase + s.pos + i) =
        readByte s.out.cells (job.outBase + s.pos - dist + i % dist) := by
  have hallowed : copyAllowed job.outBase (job.outBase + s.pos) length dist (job.outBase + stop) = true := by
    simp only [copyAllowed, Bool.and_eq_true, decide_eq_true_eq]
    omega
  obtain ⟨out, hcopy, hbytes⟩ := copyMatch_periodic hallowed hroom fun i hi => by
    have hbyte := hfilled (s.pos - dist + i) (by omega)
    rwa [show job.outBase + (s.pos - dist + i) = job.outBase + s.pos - dist + i by omega] at hbyte
  refine ⟨out, ?_, (copyMatch_written hcopy).1, hbytes⟩
  have hrun : onOut (copyMatch job.outBase (job.outBase + s.pos) length dist (job.outBase + stop)) s =
      .ok (job.outBase + s.pos + length) { s with out := out } := zoom_of_ok hcopy
  rw [emitMatch, bind_of_ok (get_run s), bind_of_ok hrun, Nat.add_assoc job.outBase, Nat.add_sub_cancel_left]
  rfl

/-- The check at the end of a chunk (R179). -/
theorem exhaustionCheck_run (job : Job) (s : Sess) :
    exhaustionCheck job s =
      if job.params.exhaustion = .failOnPadding ∧ s.reader.padused = true then .error (.fail .truncated) s
      else .ok () s := by
  rw [exhaustionCheck, bind_of_ok (get_run s)]
  split_ifs <;> rfl

theorem runSession_of_ok {f : Run Sess Unit} {out : Space} {t : Sess}
    (h : f { reader := r, out := out, pos := 0 } = .ok () t) : runSession r f out = .ok () t.out := by
  simp only [runSession, h]

theorem runSession_of_error {f : Run Sess Unit} {out : Space} {e : Stop} {t : Sess}
    (h : f { reader := r, out := out, pos := 0 } = .error e t) : runSession r f out = .error e t.out := by
  simp only [runSession, h]

/-- The body of a chunk, through the table its header gives (R174-R176). -/
def caBody (job : Job) (table : List Entry) : Run Sess Unit := do
  caLoop job table job.outSize
  exhaustionCheck job

/-- The reader of a chunk's body, behind the header (R172). -/
def bodyReader (job : Job) : BitReader := initReader (job.inBase + 256) (job.inSize - 256)

theorem caDecode_of_table {header : List Byte} (h256 : 256 ≤ job.inSize)
    (hheader : memReadBytes job.inp job.inBase 256 = .ok header)
    (htable : buildTable job.params.rejectIncomplete (headerLengths header) 11 15 = some table) (out : Space) :
    caDecode job out = runSession (bodyReader job) (caBody job table) out := by
  rw [caDecode, if_neg (by omega), runSession, hheader, orFault_ok, bind_of_ok (pure_run _ _), buildOrFail, htable,
    bind_of_ok (pure_run _ _)]
  rfl

/-- A chunk whose header gives no accepted code (R174). -/
theorem caDecode_of_malformed {header : List Byte} (h256 : 256 ≤ job.inSize)
    (hheader : memReadBytes job.inp job.inBase 256 = .ok header)
    (htable : buildTable job.params.rejectIncomplete (headerLengths header) 11 15 = none) (out : Space) :
    caDecode job out = .error (.fail .malformed) out := by
  rw [caDecode, if_neg (by omega), runSession, hheader, orFault_ok, bind_of_ok (pure_run _ _), buildOrFail, htable,
    bind_of_error (throw_run _ _)]

/-- The body's reader over written input. -/
theorem bodyReader_readsWritten (h256 : 256 ≤ job.inSize) (hin : job.inBase + job.inSize ≤ job.inp.limit)
    (hw : Written job.inp.cells job.inBase job.inSize) : ReadsWritten job.inp (bodyReader job) := by
  refine ⟨initReader_ok _ _, ?_, fun i hi => ?_⟩
  · rw [bodyReader, initReader_stop]
    omega
  · simp only [bodyReader, initReader_next, initReader_stop] at hi ⊢
    rw [Nat.add_assoc]
    exact hw _ (by omega)

end

/-! ### Every ending of a chunk (R171-R179) -/

theorem headerLengths_length (header : List Byte) : (headerLengths header).length = 2 * header.length := by
  simp [headerLengths, List.length_flatMap, Nat.mul_comm]

/-- The table of codec A is inside the limits (R174, 41_huffman.md R131). -/
theorem caTable_limits {lens : List Nat} (h : lens.length = 512) : tableLimits lens.length 11 15 = true := by
  rw [h]
  decide

section
variable {job : Job} {table : List Entry} {s : Sess} {reject : Bool} {lens : List Nat}

/-- A session over written input whose output holds values up to its position. -/
structure Decoding (job : Job) (s : Sess) : Prop where
  input : ReadsWritten job.inp s.reader
  room : job.outBase + job.outSize ≤ s.out.limit
  filled : Filled job s

/-- An item is expanded, or is a match that R178 refuses. -/
theorem caItem_ends (hb : buildTable reject lens 11 15 = some table) (hlens : lens.length = 512) (h : Decoding job s)
    (hlt : s.pos < job.outSize) :
    (∃ t, caItem job table s = .ok () t ∧ Decoding job t ∧ t.pos ≤ job.outSize) ∨
      ∃ t, caItem job table s = .error (.fail .reference) t := by
  obtain ⟨hin, hroom, hfilled⟩ := h
  have moved : ∀ {t}, caItem job table s = .ok () t → ReadsWritten job.inp t.reader → t.out.limit = s.out.limit →
      ∃ t, caItem job table s = .ok () t ∧ Decoding job t ∧ t.pos ≤ job.outSize := by
    intro t hrun hin' hlimit
    obtain ⟨⟨-, -, -, hfill⟩, hle⟩ := caItem_fills hlt hrun
    exact ⟨t, hrun, ⟨hin', hlimit ▸ hroom, hfill hfilled⟩, hle⟩
  obtain ⟨sym, r, hdec, hr⟩ := decodeSym_total hb (caTable_limits hlens) hin
  by_cases hsym : sym < 256
  · exact .inl (moved (caItem_of_literal hdec hsym (by omega)) hr rfl)
  · obtain ⟨length, dist, t, hfields, hlength, hdist, ht⟩ := matchFields_total sym hr
    have hitem := caItem_of_match hdec (Nat.not_lt.mp hsym) hfields
    split_ifs at hitem with hbad
    · exact .inr ⟨_, hitem⟩
    · obtain ⟨out, hcopy, hchanged, -⟩ := emitMatch_of_filled (s := { s with reader := t }) (stop := job.outSize)
        hfilled hlength hdist (by simp only; omega) (by simp only; omega) hroom
      exact .inl (moved (hitem.trans hcopy) ht hchanged.limit)

theorem caLoop_ends (hb : buildTable reject lens 11 15 = some table) (hlens : lens.length = 512) {fuel : Nat}
    (h : Decoding job s) (hle : s.pos ≤ job.outSize) :
    (∃ t, caLoop job table fuel s = .ok () t) ∨ ∃ t, caLoop job table fuel s = .error (.fail .reference) t := by
  induction fuel generalizing s with
  | zero => exact .inl ⟨s, rfl⟩
  | succ fuel ih =>
    rw [caLoop, bind_of_ok (get_run s)]
    split_ifs with hend
    · exact .inl ⟨s, rfl⟩
    · rcases caItem_ends hb hlens h (by omega) with ⟨t, hitem, ht, hle'⟩ | ⟨t, hitem⟩
      · rw [bind_of_ok hitem]
        exact ih ht hle'
      · exact .inr ⟨t, bind_of_error hitem⟩

/-- CaDecode ends well or with E_MALFORMED, E_TRUNCATED or E_REFERENCE. -/
theorem caDecode_ends {out : Space} (hin : job.inBase + job.inSize ≤ job.inp.limit)
    (hroom : job.outBase + job.outSize ≤ out.limit) (hw : Written job.inp.cells job.inBase job.inSize) :
    (∃ out', caDecode job out = .ok () out') ∨
      ∃ e ∈ [Status.malformed, .truncated, .reference], ∃ out', caDecode job out = .error (.fail e) out' := by
  by_cases h256 : job.inSize < 256
  · exact .inr ⟨.truncated, by decide, out, caDecode_of_short h256 out⟩
  have h256 : 256 ≤ job.inSize := Nat.not_lt.mp h256
  obtain ⟨header, hheader⟩ := memReadBytes_of_written (sp := job.inp) (a := job.inBase) (n := 256) (by omega)
    fun i hi => hw i (by omega)
  have hlens : (headerLengths header).length = 512 := by rw [headerLengths_length, memReadBytes_length hheader]
  cases hb : buildTable job.params.rejectIncomplete (headerLengths header) 11 15 with
  | none => exact .inr ⟨.malformed, by decide, out, caDecode_of_malformed h256 hheader hb out⟩
  | some table =>
    have hstart : Decoding job { reader := bodyReader job, out := out, pos := 0 } :=
      ⟨bodyReader_readsWritten h256 hin hw, hroom, fun i hi => absurd hi (Nat.not_lt_zero i)⟩
    rw [caDecode_of_table h256 hheader hb]
    rcases caLoop_ends hb hlens (fuel := job.outSize) hstart (Nat.zero_le _) with ⟨t, hloop⟩ | ⟨t, hloop⟩
    · have hbody : caBody job table _ = _ := (bind_of_ok hloop).trans (exhaustionCheck_run job t)
      split_ifs at hbody with hpad
      · exact .inr ⟨.truncated, by decide, t.out, runSession_of_error hbody⟩
      · exact .inl ⟨t.out, runSession_of_ok hbody⟩
    · exact .inr ⟨.reference, by decide, t.out, runSession_of_error (bind_of_error hloop)⟩

end

/-! ### The command -/

/-- Settles O38: the endings of CaDecode, the frame of the command, and that a chunk which ends well is wholly written. -/
theorem caDecompressNeverFaultsOnInput : Obligations.CaDecompressNeverFaultsOnInput := by
  intro s inBase inSize outBase outSize h0 h1 h2 h3 hmax hin hout hdis hw
  have hrun := exec_caDecompress h0 h1 h2 h3 hmax hin hout hdis
  rcases caDecode_ends (job := lmemJob s inBase inSize outBase outSize) (out := lmemSpace s) hin hout hw with
    ⟨out, hdec⟩ | ⟨e, he, out, hdec⟩
  · have hexec := hrun.trans (runCommand_of_ok (t := s.setLmem out.cells) (zoom_of_ok (part := lmemSpace) hdec))
    exact ⟨0#8, out.cells, hexec, by decide, caDecompress_lmem hexec h2 h3, fun _ => caDecode_written hdec⟩
  · have hexec := hrun.trans (runCommand_of_fail (t := s.setLmem out.cells) (zoom_of_error (part := lmemSpace) hdec))
    have hcode : statusCode e ∈ ([0#8, 1#8, 2#8, 3#8] : List (BitVec 8)) ∧ statusCode e ≠ 0#8 := by
      simp only [List.mem_cons, List.not_mem_nil, or_false] at he
      rcases he with rfl | rfl | rfl <;> decide
    exact ⟨statusCode e, out.cells, hexec, hcode.1, caDecompress_lmem hexec h2 h3, fun h => absurd h hcode.2⟩

end Sys2Proof.Machine

/-! ## CA_DECOMPRESS expands the items of its chunk -/

namespace Sys2Proof.Machine

/-! ### Bit strings as numbers (20_memory.md R59) -/

theorem bitsValue_testBit (v n : Nat) : bitsValue (fun i => v.testBit (n - 1 - i)) n = v % 2 ^ n := by
  induction n generalizing v with
  | zero => simp [bitsValue, Nat.mod_one]
  | succ n ih =>
    have hhigh : bitsValue (fun i => v.testBit (n + 1 - 1 - i)) n = v / 2 % 2 ^ n := by
      rw [← ih (v / 2)]
      refine bitsValue_congr fun i hi => ?_
      rw [show n + 1 - 1 - i = n - 1 - i + 1 by omega, Nat.testBit_succ]
    rw [bitsValue, hhigh, show n + 1 - 1 - n = 0 by omega, Nat.toNat_testBit, Nat.pow_zero, Nat.div_one, Nat.pow_succ,
      Nat.mul_comm (2 ^ n), Nat.mod_mul]
    omega

/-- A stream that starts with the `n` bits of a number gives the number. -/
theorem bitsValue_of_streamStarts {m : Memory} {r : BitReader} {v n : Nat} (h : StreamStarts m r (bitsOf v n))
    (hv : v < 2 ^ n) : bitsValue (upcomingBit m r) n = v := by
  calc bitsValue (upcomingBit m r) n
      = bitsValue (fun i => v.testBit (n - 1 - i)) n := bitsValue_congr fun i hi => by
        rw [h i (by simpa using hi)]
        simp [bitsOf]
    _ = v := by rw [bitsValue_testBit, Nat.mod_eq_of_lt hv]

/-- A codeword of a built table fits its length (41_huffman.md R130, R134). -/
theorem codeword_lt {reject : Bool} {lens : List Nat} {tb maxLen sym : Nat} {table : List Entry}
    (hb : buildTable reject lens tb maxLen = some table) (hsym : sym < lens.length) (h1 : 1 ≤ lens.getD sym 0) :
    codeword lens sym < 2 ^ lens.getD sym 0 := by
  obtain ⟨k, hk⟩ := Nat.exists_eq_add_of_le' h1
  obtain ⟨-, left, hleft, -⟩ := buildTable_eq_some hb
  have hsome : (kraftLeft lens (k + 1)).isSome = true :=
    kraftLeft_isSome_of_le (n := maxLen) (by rw [hleft]; rfl) (hk ▸ length_le_of_buildTable hb hsym)
  have hspace := firstCode_add_count_le hsome
  have hrank := (List.getElem?_eq_some_iff.mp (symbolsOfLength_getElem? hsym)).1
  rw [symbolsOfLength_length, hk] at hrank
  rw [codeword_of_length hk, hk]
  omega

/-! ### How much of the input is left (40_bit_reader.md R119) -/

/-- The bits of the input that the reader has not given yet. -/
def inputBits (r : BitReader) : Nat := r.realbits + 16 * ((r.stop - r.next) / 2)

/-- The reader `t` reads the same input `n` bits further on: pad bits count as given once the input holds no more. -/
structure Consumes (inp : Space) (r t : BitReader) (n : Nat) : Prop where
  reads : ReadsWritten inp t
  moves : StreamMoves inp.cells r t n
  left : inputBits t = inputBits r - n
  padused : t.padused = (r.padused || decide (inputBits r < n))

section
variable {inp : Space} {r t u e : BitReader} {j k n : Nat}

theorem Consumes.refl (h : ReadsWritten inp r) : Consumes inp r r 0 :=
  ⟨h, fun i => by rw [Nat.zero_add], rfl, by simp⟩

theorem Consumes.trans (h : Consumes inp r t j) (h' : Consumes inp t u k) : Consumes inp r u (j + k) := by
  refine ⟨h'.reads, h.moves.trans h'.moves, by rw [h'.left, h.left, Nat.sub_sub], ?_⟩
  rw [h'.padused, h.padused, h.left, Bool.or_assoc, ← Bool.decide_or]
  congr 2
  rw [eq_iff_iff]
  omega

/-- Ensure takes units into the accumulator and gives none of their bits away (R102). -/
theorem ensure_inputBits (h : ensure inp n r = .ok () e) : inputBits e = inputBits r := by
  rcases ensure_cases inp n r with ⟨-, h'⟩ | ⟨-, -, h'⟩ | ⟨-, hfit, ⟨v, -, h'⟩ | ⟨c, -, h'⟩⟩ <;> cases h'.symm.trans h
  · rfl
  · rfl
  · simp only [inputBits, refillReader_realbits, refillReader_next, refillReader_stop]
    omega

/-- Bits discarded once Ensure has buffered them (R102, R104). -/
theorem consumes_of_ensure (hn : n ≤ 16) (h : ReadsWritten inp r) (hens : ensure inp n r = .ok () e)
    (hk : k ≤ e.bitsleft) : Consumes inp r (dropBits e k) k := by
  obtain ⟨e', hens', -, hmoves, hin, -, hpad, -⟩ := ensure_stream hn h
  obtain rfl : e' = e := by
    cases hens'.symm.trans hens
    rfl
  have hleft := ensure_inputBits hens
  have hreal : e'.realbits < k ↔ inputBits r < k := by
    rw [← hleft, inputBits]
    rcases hin.1.padded with hp | hp <;> omega
  refine ⟨hin.dropBits hk, ?_, ?_, ?_⟩
  · have := hmoves.trans (dropBits_stream (m := inp.cells) hk)
    rwa [Nat.zero_add] at this
  · rw [← hleft, inputBits, inputBits, dropBits_realbits, dropBits_next, dropBits_stop]
    rcases hin.1.padded with hp | hp <;> omega
  · rw [dropBits_padused, padusedAfter, hpad, decide_eq_decide.mpr hreal]

/-! ### Symbols and match fields at the front of the stream -/

variable {reject : Bool} {lens : List Nat} {table : List Entry} {tb maxLen sym : Nat}

/-- DecodeSym through a built table takes the codeword of a symbol that the code can send (41_huffman.md R141, R135). -/
theorem decodeSym_of_sendable (hb : buildTable reject lens tb maxLen = some table)
    (hlim : tableLimits lens.length tb maxLen = true) (hsym : sym < lens.length) (hsend : Sendable lens sym)
    (hin : ReadsWritten inp r) (hstream : StreamStarts inp.cells r (codeBits lens sym)) :
    ∃ t, decodeSym inp (listEntry table) tb maxLen r = .ok sym t ∧ Consumes inp r t (lens.getD sym 0) := by
  obtain ⟨-, -, -, -, htb, h16, -⟩ := tableLimits_iff.mp hlim
  obtain ⟨e, hens, hbuf, hmoves, -⟩ := ensure_stream h16 hin
  rcases hsend with h1 | ⟨rfl, hempty⟩
  · have hmax := length_le_of_buildTable hb hsym
    have hfront : bitsValue e.bitbuf.getMsbD (lens.getD sym 0) = codeword lens sym := by
      rw [← bitsValue_of_streamStarts hstream (codeword_lt hb hsym h1)]
      refine bitsValue_congr fun i hi => ?_
      rw [← upcomingBit_buffered (m := inp.cells) (show i < e.bitsleft by omega), hmoves i, Nat.zero_add]
    exact ⟨_, decodeSym_of_buildTable hb hlim (fun _ _ => rfl) hsym h1 hens hbuf hfront,
      consumes_of_ensure h16 hin hens (hmax.trans hbuf)⟩
  · cases (buildTable_of_empty reject hempty tb maxLen).symm.trans hb
    have hrun := decodeSym_of_entry hens (htb.trans hbuf) (listEntry_replicate_zero (2 ^ tb) _)
    have hzero : lens.getD 0 0 = 0 := by
      rw [List.getD_eq_getElem _ _ hsym]
      exact hempty _ (List.getElem_mem hsym)
    rw [hzero]
    exact ⟨_, hrun, consumes_of_ensure h16 hin hens (Nat.zero_le _)⟩

/-- MatchFields of a length header below 15 takes the offset bits (43_codec_a.md R177). -/
theorem matchFields_of_stream {lh raw : Nat} (hlh : lh < 15) (hk : k < 16) (hraw : raw < 2 ^ k)
    (hin : ReadsWritten inp r) (hstream : StreamStarts inp.cells r (bitsOf raw k)) :
    ∃ t, matchFields inp (256 + 16 * k + lh) r = .ok (lh + 3, 2 ^ k + raw) t ∧ Consumes inp r t k := by
  obtain ⟨e, hens, hbuf, -, -, hrun⟩ := matchFields_of_written (256 + 16 * k + lh) hin
  rw [matchDistance, show (256 + 16 * k + lh) / 16 % 16 = k by omega, show (256 + 16 * k + lh) % 16 = lh by omega,
    bitsValue_of_streamStarts hstream hraw] at hrun
  exact ⟨_, hrun.trans (matchRest_of_short (by omega) _ _), consumes_of_ensure le_rfl hin hens (by omega)⟩

end

/-! ### The header (43_codec_a.md R173) -/

theorem nibbles_of_byte {a b : Nat} (ha : a ≤ 15) (hb : b ≤ 15) :
    (BitVec.ofNat 8 (a + 16 * b) &&& 0x0F#8).toNat = a ∧ (BitVec.ofNat 8 (a + 16 * b) >>> 4).toNat = b := by
  constructor
  · rw [BitVec.toNat_and, BitVec.toNat_ofNat]
    exact (Nat.and_two_pow_sub_one_eq_mod _ 4).trans (by omega)
  · rw [BitVec.toNat_ushiftRight, BitVec.toNat_ofNat, Nat.shiftRight_eq_div_pow]
    omega

/-- The members of a list, two at a time. -/
theorem flatMap_pairs {l : List Nat} {n : Nat} (h : 2 * n ≤ l.length) :
    ((List.range n).flatMap fun i => [l.getD (2 * i) 0, l.getD (2 * i + 1) 0]) = l.take (2 * n) := by
  induction n with
  | zero => rfl
  | succ n ih =>
    rw [List.range_succ, List.flatMap_append, ih (by omega), List.flatMap_singleton, Nat.mul_succ,
      List.take_add_one, List.take_add_one, List.getD_eq_getElem _ _ (by omega), List.getD_eq_getElem _ _ (by omega),
      List.getElem?_eq_getElem (by omega), List.getElem?_eq_getElem (by omega), List.append_assoc]
    rfl

/-- The header's bytes give the lengths back. -/
theorem headerLengths_caHeader {lens : List Nat} (hlens : lens.length = 512) (h15 : ∀ l ∈ lens, l ≤ 15) :
    headerLengths (caHeader lens) = lens := by
  have hle : ∀ i, lens.getD i 0 ≤ 15 := fun i => by
    by_cases hi : i < lens.length
    · rw [List.getD_eq_getElem _ _ hi]
      exact h15 _ (List.getElem_mem hi)
    · rw [List.getD_eq_default _ _ (Nat.not_lt.mp hi)]
      exact Nat.zero_le 15
  have hpairs := flatMap_pairs (l := lens) (n := 256) (by omega)
  rw [show 2 * 256 = lens.length by omega, List.take_length] at hpairs
  rw [headerLengths, caHeader, List.flatMap_map]
  simp only [nibbles_of_byte (hle _) (hle _)]
  exact hpairs

end Sys2Proof.Machine

/-! ## The items of a chunk, one after another -/

namespace Sys2Proof.Machine

section
variable {job : Job} {reject : Bool} {lens : List Nat} {table : List Entry} {start : BitReader} {m : Memory}
  {sent : List Bool} {out : List Byte} {s : Sess}

/-! ### The session after some items (43_codec_a.md R176) -/

/-- The session, started with the reader `start` over an output memory `m`, has taken the bits `sent` and expanded them
to the bytes `out`, changing no other byte. -/
structure Expanded (job : Job) (start : BitReader) (m : Memory) (sent : List Bool) (out : List Byte) (s : Sess) :
    Prop where
  consumed : Consumes job.inp start s.reader sent.length
  room : job.outBase + job.outSize ≤ s.out.limit
  pos : s.pos = out.length
  bytes : HoldsBytes s.out.cells job.outBase out
  frame : UnchangedOutside m s.out.cells job.outBase (job.outBase + out.length)

theorem Expanded.filled (h : Expanded job start m sent out s) : Filled job s := fun i hi => by
  rw [h.bytes i (h.pos ▸ hi)]
  rfl

/-- What the stream still gives. -/
theorem Expanded.stream {bits : List Bool} (h : Expanded job start m sent out s)
    (hstream : StreamStarts job.inp.cells start (sent ++ bits)) : StreamStarts job.inp.cells s.reader bits :=
  hstream.right h.consumed.moves

/-- More bits taken, and the bytes `more` stored behind the output so far. -/
theorem Expanded.extend (h : Expanded job start m sent out s) {t : BitReader} {bits : List Bool} {more : List Byte}
    {sp : Space} (hconsumed : Consumes job.inp start t (sent ++ bits).length)
    (hchanged : ChangedWithin (job.outBase + s.pos) (job.outBase + s.pos + more.length) s.out sp)
    (hmore : HoldsBytes sp.cells (job.outBase + s.pos) more) :
    Expanded job start m (sent ++ bits) (out ++ more) { reader := t, out := sp, pos := s.pos + more.length } := by
  have hpos := h.pos
  refine ⟨hconsumed, hchanged.limit ▸ h.room, by simp [hpos], fun i hi => ?_, fun a ha => ?_⟩
  · rw [List.length_append] at hi
    by_cases hold : i < out.length
    · rw [List.getElem_append_left hold, ← h.bytes i hold]
      exact hchanged.outside _ (.inl (by omega))
    · rw [List.getElem_append_right (Nat.not_lt.mp hold), ← hmore (i - out.length) (by omega),
        show job.outBase + s.pos + (i - out.length) = job.outBase + i by omega]
  · rw [List.length_append] at ha
    exact (hchanged.outside a (by omega)).trans (h.frame a (by omega))

/-! ### One item (R175-R178) -/

/-- The bits of a token behind those already taken. -/
theorem Expanded.consumes {t : BitReader} {bits : List Bool} {n : Nat} (h : Expanded job start m sent out s)
    (ht : Consumes job.inp s.reader t n) (hn : n = bits.length) : Consumes job.inp start t (sent ++ bits).length := by
  rw [List.length_append, ← hn]
  exact h.consumed.trans ht

theorem caItem_of_literalToken (hb : buildTable reject lens 11 15 = some table) (hlens : lens.length = 512) {b : Byte}
    (hlegal : (CaToken.literal b).Legal lens) (h : Expanded job start m sent out s)
    (hstream : StreamStarts job.inp.cells start (sent ++ (CaToken.literal b).bits lens))
    (hlt : out.length < job.outSize) :
    ∃ t, caItem job table s = .ok () t ∧
      Expanded job start m (sent ++ (CaToken.literal b).bits lens) (out ++ [b]) t := by
  have hroom : job.outBase + s.pos + 1 ≤ s.out.limit := by
    have := h.room
    have := h.pos
    omega
  have hbyte : b.toNat < 256 := b.isLt
  obtain ⟨r, hdec, hr⟩ := decodeSym_of_sendable hb (caTable_limits hlens)
    (show b.toNat < lens.length by omega) hlegal.1 h.consumed.reads (h.stream hstream)
  have hstore := storeBytes_of_le (bs := [b]) hroom
  have hitem := caItem_of_literal hdec hbyte hroom
  rw [BitVec.ofNat_toNat, BitVec.setWidth_eq] at hitem
  exact ⟨_, hitem, h.extend (more := [b]) (h.consumes hr (codeBits_length ..).symm) (storeBytes_ok hstore).1
    fun i hi => readByte_writeCells_inside hi _ _⟩

/-- The fields of a match token taken from the stream; what is left is the check of R178. -/
theorem caItem_of_copyToken (hb : buildTable reject lens 11 15 = some table) (hlens : lens.length = 512)
    {lh k raw : Nat} (hlegal : (CaToken.copy lh k raw).Legal lens) (h : Expanded job start m sent out s)
    (hstream : StreamStarts job.inp.cells start (sent ++ (CaToken.copy lh k raw).bits lens)) :
    ∃ t, Consumes job.inp start t (sent ++ (CaToken.copy lh k raw).bits lens).length ∧
      caItem job table s =
        if s.pos < 2 ^ k + raw ∨ job.outSize < s.pos + (lh + 3) then .error (.fail .reference) { s with reader := t }
        else emitMatch job (lh + 3) (2 ^ k + raw) job.outSize { s with reader := t } := by
  obtain ⟨hsend, hlh, hk, hraw⟩ := hlegal
  have hbits := h.stream hstream
  obtain ⟨r, hdec, hr⟩ := decodeSym_of_sendable hb (caTable_limits hlens)
    (show 256 + 16 * k + lh < lens.length by omega) hsend h.consumed.reads hbits.left
  obtain ⟨t, hfields, ht⟩ := matchFields_of_stream hlh hk hraw hr.reads
    (hbits.right (by rw [codeBits_length]; exact hr.moves))
  exact ⟨t, h.consumes (hr.trans ht) (by simp [CaToken.bits]), caItem_of_match hdec (by omega) hfields⟩

/-- An item that R178 allows is expanded (42_match_copier.md R163). -/
theorem caItem_of_token (hb : buildTable reject lens 11 15 = some table) (hlens : lens.length = 512) {x : CaToken}
    {out' : List Byte} (hlegal : x.Legal lens) (h : Expanded job start m sent out s)
    (hstream : StreamStarts job.inp.cells start (sent ++ x.bits lens))
    (hexp : expandItem job.outSize out x.meaning = some out') :
    ∃ t, caItem job table s = .ok () t ∧ Expanded job start m (sent ++ x.bits lens) out' t ∧
      out.length < out'.length := by
  have hpos := h.pos
  cases x with
  | literal b =>
    simp only [CaToken.meaning, expandItem, Option.ite_none_right_eq_some, Option.some.injEq] at hexp
    obtain ⟨hlt, rfl⟩ := hexp
    obtain ⟨t, hitem, ht⟩ := caItem_of_literalToken hb hlens hlegal h hstream hlt
    exact ⟨t, hitem, ht, by simp⟩
  | copy lh k raw =>
    simp only [CaToken.meaning, expandItem, Option.ite_none_right_eq_some, Option.some.injEq] at hexp
    obtain ⟨⟨hback, hend⟩, rfl⟩ := hexp
    obtain ⟨t, ht, hitem⟩ := caItem_of_copyToken hb hlens hlegal h hstream
    have hdist : 1 ≤ 2 ^ k + raw := Nat.le_add_right_of_le Nat.one_le_two_pow
    generalize 2 ^ k + raw = dist at hback hitem hdist ⊢
    rw [if_neg (by omega)] at hitem
    obtain ⟨sp, hcopy, hchanged, hbytes⟩ := emitMatch_of_filled (s := { s with reader := t }) (stop := job.outSize)
      h.filled (Nat.le_add_left 1 (lh + 2)) hdist (by simp only; omega) (by simp only; omega) h.room
    have hext := h.extend (more := (List.range (lh + 3)).map fun i => out.getD (out.length - dist + i % dist) 0#8) ht
      (by simpa using hchanged) fun i hi => ?_
    · rw [List.length_map, List.length_range] at hext
      exact ⟨_, hitem.trans hcopy, hext, by simp⟩
    · have hmod := Nat.mod_lt i hdist
      rw [hbytes i (by rwa [List.length_map, List.length_range] at hi), List.getElem_map, List.getElem_range,
        show job.outBase + s.pos - dist + i % dist = job.outBase + (out.length - dist + i % dist) by omega,
        h.bytes _ (by omega), List.getD_eq_getElem _ _ (by omega)]

/-- A match that R178 refuses ends the chunk, the output as it was. -/
theorem caItem_of_refused (hb : buildTable reject lens 11 15 = some table) (hlens : lens.length = 512) {x : CaToken}
    (hlegal : x.Legal lens) (h : Expanded job start m sent out s)
    (hstream : StreamStarts job.inp.cells start (sent ++ x.bits lens)) (hlt : out.length < job.outSize)
    (hexp : expandItem job.outSize out x.meaning = none) :
    ∃ t, caItem job table s = .error (.fail .reference) { s with reader := t } := by
  cases x with
  | literal b => simp [CaToken.meaning, expandItem, hlt] at hexp
  | copy lh k raw =>
    have hpos := h.pos
    simp only [CaToken.meaning, expandItem, ite_eq_right_iff, reduceCtorEq, imp_false] at hexp
    obtain ⟨t, -, hitem⟩ := caItem_of_copyToken hb hlens hlegal h hstream
    rw [if_pos (by omega)] at hitem
    exact ⟨t, hitem⟩

/-! ### All items (R176) -/

theorem caLoop_succ {fuel : Nat} (h : s.pos ≠ job.outSize) :
    caLoop job table (fuel + 1) s = (caItem job table >>= fun _ => caLoop job table fuel) s := by
  rw [caLoop, bind_of_ok (get_run s), if_neg h]

theorem caLoop_of_full (h : s.pos = job.outSize) (fuel : Nat) : caLoop job table fuel s = .ok () s := by
  cases fuel with
  | zero => rfl
  | succ fuel =>
    rw [caLoop, bind_of_ok (get_run s), if_pos h]
    rfl

/-- The loop expands one item a pass and has passes left for the rest of the output. -/
theorem caLoop_of_tokens (hb : buildTable reject lens 11 15 = some table) (hlens : lens.length = 512)
    {tokens : List CaToken} {out' : List Byte} {fuel : Nat} (hlegal : ∀ x ∈ tokens, x.Legal lens)
    (h : Expanded job start m sent out s)
    (hstream : StreamStarts job.inp.cells start (sent ++ tokens.flatMap (CaToken.bits lens)))
    (hexp : expandItems job.outSize out (tokens.map CaToken.meaning) = some out')
    (hfuel : job.outSize ≤ s.pos + fuel) :
    ∃ t fuel', caLoop job table fuel s = caLoop job table fuel' t ∧
      Expanded job start m (sent ++ tokens.flatMap (CaToken.bits lens)) out' t ∧ job.outSize ≤ t.pos + fuel' := by
  induction tokens generalizing sent out s fuel with
  | nil =>
    cases hexp
    exact ⟨s, fuel, rfl, by rwa [List.flatMap_nil, List.append_nil], hfuel⟩
  | cons x xs ih =>
    rw [List.map_cons, expandItems] at hexp
    rw [List.flatMap_cons, ← List.append_assoc] at hstream ⊢
    cases hx : expandItem job.outSize out x.meaning with
    | none =>
      rw [hx] at hexp
      cases hexp
    | some mid =>
      rw [hx] at hexp
      obtain ⟨t, hitem, ht, hgrow⟩ := caItem_of_token hb hlens (hlegal x List.mem_cons_self) h hstream.left hx
      have hlimit := (expandItem_grows hx).1
      have hpos := h.pos
      have hpos' := ht.pos
      obtain ⟨fuel, rfl⟩ := Nat.exists_eq_add_of_le' (show 1 ≤ fuel by omega)
      rw [caLoop_succ (by omega), bind_of_ok hitem]
      exact ih (fun y hy => hlegal y (List.mem_cons_of_mem _ hy)) ht hstream hexp (by omega)

/-! ### The chunk (R176, R178, R179) -/

variable {tokens : List CaToken} {sp : Space}

/-- A session before its first item. -/
theorem expanded_nil (hroom : job.outBase + job.outSize ≤ sp.limit) (hin : ReadsWritten job.inp (bodyReader job)) :
    Expanded job (bodyReader job) sp.cells [] [] { reader := bodyReader job, out := sp, pos := 0 } :=
  ⟨.refl hin, hroom, rfl, fun i hi => absurd hi (Nat.not_lt_zero i), fun _ _ => rfl⟩

/-- Items that fill the output end the loop; then the check of the exhaustion policy. -/
theorem caBody_of_tokens (hb : buildTable reject lens 11 15 = some table) (hlens : lens.length = 512)
    (hroom : job.outBase + job.outSize ≤ sp.limit) (hin : ReadsWritten job.inp (bodyReader job))
    (hlegal : ∀ x ∈ tokens, x.Legal lens)
    (hstream : StreamStarts job.inp.cells (bodyReader job) (tokens.flatMap (CaToken.bits lens)))
    (hexp : expandItems job.outSize [] (tokens.map CaToken.meaning) = some out) (hfull : out.length = job.outSize) :
    ∃ t, Expanded job (bodyReader job) sp.cells (tokens.flatMap (CaToken.bits lens)) out t ∧
      caBody job table { reader := bodyReader job, out := sp, pos := 0 } = exhaustionCheck job t := by
  obtain ⟨t, fuel, hloop, ht, -⟩ := caLoop_of_tokens (fuel := job.outSize) hb hlens hlegal (expanded_nil hroom hin)
    hstream hexp (Nat.le_add_left ..)
  rw [caLoop_of_full (ht.pos.trans hfull)] at hloop
  exact ⟨t, ht, bind_of_ok hloop⟩

/-- A refused match after other items ends the chunk with what they expanded to. -/
theorem caBody_of_refused (hb : buildTable reject lens 11 15 = some table) (hlens : lens.length = 512)
    (hroom : job.outBase + job.outSize ≤ sp.limit) (hin : ReadsWritten job.inp (bodyReader job)) {last : CaToken}
    (hlegal : ∀ x ∈ tokens ++ [last], x.Legal lens)
    (hstream : StreamStarts job.inp.cells (bodyReader job) ((tokens ++ [last]).flatMap (CaToken.bits lens)))
    (hexp : expandItems job.outSize [] (tokens.map CaToken.meaning) = some out) (hlt : out.length < job.outSize)
    (hrefused : expandItem job.outSize out last.meaning = none) :
    ∃ t, HoldsBytes t.out.cells job.outBase out ∧
      UnchangedOutside sp.cells t.out.cells job.outBase (job.outBase + out.length) ∧
      caBody job table { reader := bodyReader job, out := sp, pos := 0 } = .error (.fail .reference) t := by
  rw [List.flatMap_append, List.flatMap_singleton] at hstream
  obtain ⟨t, fuel, hloop, ht, hfuel⟩ := caLoop_of_tokens (fuel := job.outSize) hb hlens
    (fun x hx => hlegal x (List.mem_append_left _ hx)) (expanded_nil hroom hin) hstream.left hexp (Nat.le_add_left ..)
  obtain ⟨r, hitem⟩ := caItem_of_refused hb hlens (hlegal last (by simp)) ht hstream hlt hrefused
  have hpos := ht.pos
  obtain ⟨fuel, rfl⟩ := Nat.exists_eq_add_of_le' (show 1 ≤ fuel by omega)
  rw [caLoop_succ (by omega), bind_of_error hitem] at hloop
  exact ⟨{ t with reader := r }, ht.bytes, ht.frame, bind_of_error hloop⟩

/-- A chunk takes more bits than its body's whole units hold exactly when it consumed a pad bit (R179). -/
theorem Expanded.padused (h : Expanded job (bodyReader job) m sent out s) :
    s.reader.padused = true ↔ 16 * ((job.inSize - 256) / 2) < sent.length := by
  rw [h.consumed.padused]
  simp [bodyReader, inputBits]

end

/-! ### The command -/

/-- Settles O36: the header gives the code's table, through which the loop takes the items one by one. -/
theorem caDecompressExpandsItsItems : Obligations.CaDecompressExpandsItsItems := by
  intro s inBase inSize outBase outSize lens tokens h0 h1 h2 h3 hmax hin hout hdis h256 hw hlens hheader hacc hlegal
    hstream
  have hrun := exec_caDecompress h0 h1 h2 h3 hmax hin hout hdis
  obtain ⟨table, hb⟩ := Option.isSome_iff_exists.mp ((buildTable_isSome_iff _ _ 11 _).mpr hacc)
  have hread : memReadBytes (lmemSpace s) inBase 256 = .ok (caHeader lens) :=
    (memReadBytes_ok_iff ..).mpr ⟨.inr ((Nat.add_le_add_left h256 inBase).trans hin), by simp [caHeader], hheader⟩
  have hdecode := caDecode_of_table (job := lmemJob s inBase inSize outBase outSize) h256 hread
    ((headerLengths_caHeader hlens hacc.1).symm ▸ hb) (lmemSpace s)
  have hbody := bodyReader_readsWritten (job := lmemJob s inBase inSize outBase outSize) h256 hin hw
  refine ⟨fun out hexp hfull => ?_, fun before last out htokens hexp hlt hrefused => ?_⟩
  · obtain ⟨t, ht, hend⟩ := caBody_of_tokens (sp := lmemSpace s) hb hlens hout hbody hlegal hstream hexp hfull
    have hpadded : s.world.params.exhaustion = .failOnPadding ∧ t.reader.padused = true ↔
        s.world.params.exhaustion = .failOnPadding ∧
          16 * ((inSize - 256) / 2) < (tokens.flatMap (CaToken.bits lens)).length :=
      and_congr_right fun _ => ht.padused
    refine ⟨t.out.cells, ht.bytes, hfull ▸ ht.frame, ?_⟩
    by_cases hpad : s.world.params.exhaustion = .failOnPadding ∧ t.reader.padused = true
    · have hstop := hend.trans ((exhaustionCheck_run _ t).trans (if_pos hpad))
      rw [hrun, if_pos (hpadded.mp hpad)]
      exact runCommand_of_fail (zoom_of_error (part := lmemSpace) (hdecode.trans (runSession_of_error hstop)))
    · have hdone := hend.trans ((exhaustionCheck_run _ t).trans (if_neg hpad))
      rw [hrun, if_neg (mt hpadded.mpr hpad)]
      exact runCommand_of_ok (zoom_of_ok (part := lmemSpace) (hdecode.trans (runSession_of_ok hdone)))
  · subst htokens
    obtain ⟨t, hbytes, hframe, hend⟩ := caBody_of_refused (sp := lmemSpace s) hb hlens hout hbody hlegal hstream hexp
      hlt hrefused
    refine ⟨t.out.cells, hbytes, hframe, ?_⟩
    rw [hrun]
    exact runCommand_of_fail (zoom_of_error (part := lmemSpace) (hdecode.trans (runSession_of_error hend)))

end Sys2Proof.Machine

/-! ## The recent offsets of codec B -/

namespace Sys2Proof.Machine

section
variable {job : Job} {aligned : List Entry} {btype slot : Nat} {s : CbSess}

/-- A recent slot answers its offset and updates the cache under the policy (44_codec_b.md R205, R207). -/
theorem offset_of_recent (h : slot < 3) :
    offset job aligned btype slot s =
      .ok (recentDistance s.recent slot) { s with recent := reuseRecent job.params.reuse s.recent slot } := by
  rw [offset, if_pos h]
  rfl

/-- An explicit slot reads its distance and pushes it onto the cache (R205). -/
theorem offset_of_explicit (h : 3 ≤ slot) {dist : Nat} {r : BitReader}
    (hread : explicitDistance job.inp aligned btype slot s.base.reader = .ok dist r) :
    offset job aligned btype slot s =
      .ok dist { s with base := { s.base with reader := r }, recent := pushRecent s.recent dist } := by
  rw [offset, if_neg (Nat.not_lt.mpr h), bind_of_ok (onCbReader_of_ok hread)]
  rfl

/-- When an explicit slot answers, its distance was read. -/
theorem offset_explicit_inv (h : 3 ≤ slot) {dist : Nat} {t : CbSess}
    (ho : offset job aligned btype slot s = .ok dist t) :
    ∃ r, explicitDistance job.inp aligned btype slot s.base.reader = .ok dist r ∧
      t = { s with base := { s.base with reader := r }, recent := pushRecent s.recent dist } := by
  have hdist := ho
  rw [offset, if_neg (Nat.not_lt.mpr h)] at hdist
  obtain ⟨d, u, hu, hrest⟩ := bind_ok_inv hdist
  obtain ⟨r, hread, -⟩ := onCbReader_ok hu
  cases (offset_of_explicit h hread).symm.trans ho
  exact ⟨r, hread, rfl⟩

end

/-- Settles O46: the three recent slots evaluated, and an explicit slot, which does not look at the policy. -/
theorem recentOffsetsUpdateByPolicy : Obligations.RecentOffsetsUpdateByPolicy := by
  refine ⟨rfl, fun job aligned btype s q0 q1 q2 hq => ?_⟩
  obtain ⟨base, recent, mainLens, lenLens⟩ := s
  obtain rfl : recent = { r0 := q0, r1 := q1, r2 := q2 } := hq
  refine ⟨offset_of_recent (by decide), offset_of_recent (by decide), fun hswap => ?_, fun hfront => ?_,
    fun slot dist t hslot ho => ?_⟩
  · rw [offset_of_recent (by decide), hswap]
    rfl
  · rw [offset_of_recent (by decide), hfront]
    rfl
  · obtain ⟨r, hread, rfl⟩ := offset_explicit_inv hslot ho
    exact ⟨rfl, fun p => offset_of_explicit hslot hread⟩

end Sys2Proof.Machine

/-! ## E8Undo -/

namespace Sys2Proof.Machine

/-! ### One translation (44_codec_b.md R208) -/

/-- What E8Undo makes of the field `a` that it reads at position `i`. -/
def e8Undone (a : Word32) (i : Nat) : Word32 :=
  if 0 ≤ a.toInt ∧ a.toInt < 12000000 then a - BitVec.ofNat 32 i
  else if a.toInt < 0 ∧ -(i : Int) ≤ a.toInt then a + 12000000#32 else a

/-- The field that E8Undo writes, if it writes one, is the undone one; otherwise the field stays. -/
theorem e8Field_getD (a : Word32) (i : Nat) : (e8Field a i).getD a.toNat = (e8Undone a i).toNat := by
  have hint : a.toInt = if 2 * a.toNat < 2 ^ 32 then (a.toNat : Int) else a.toNat - (2 : Int) ^ 32 :=
    BitVec.toInt_eq_toNat_cond a
  have hlt := a.isLt
  unfold e8Field e8Undone e8Size
  by_cases habs : 0 ≤ a.toInt ∧ a.toInt < 12000000
  · rw [if_pos habs, if_pos habs, Option.getD_some, BitVec.toNat_sub, BitVec.toNat_ofNat]
    split at hint <;> omega
  · rw [if_neg habs, if_neg habs]
    by_cases hrel : a.toInt < 0 ∧ -(i : Int) ≤ a.toInt
    · rw [if_pos hrel, if_pos hrel, Option.getD_some, BitVec.toNat_add, BitVec.toNat_ofNat]
      split at hint <;> omega
    · rw [if_neg hrel, if_neg hrel, Option.getD_none]

section
variable {base n i fuel : Nat} {sp : Space}

/-- A translation puts the undone field where the field stood and leaves every other byte alone. -/
theorem e8Translate_of_field {a : Word32} (hroom : base + i + 5 ≤ sp.limit)
    (hfield : HoldsBytes sp.cells (base + i + 1) (leBytes 4 a.toNat)) :
    ∃ m, e8Translate base i sp = .ok () { sp with cells := m } ∧
      HoldsBytes m (base + i + 1) (leBytes 4 (e8Undone a i).toNat) ∧
      UnchangedOutside sp.cells m (base + i + 1) (base + i + 5) := by
  have hload := loadBytes_of_holdsBytes hfield (by rw [leBytes_length]; omega)
  have hword : BitVec.ofNat 32 (leNat (leBytes 4 a.toNat)) = a := by
    rw [leNat_leBytes, Nat.mod_eq_of_lt a.isLt, BitVec.ofNat_toNat, BitVec.setWidth_eq]
  have hvalue := e8Field_getD a i
  rw [leBytes_length] at hload
  rw [e8Translate, bind_of_ok hload, hword]
  cases hv : e8Field a i with
  | none =>
    rw [hv] at hvalue
    exact ⟨sp.cells, rfl, hvalue ▸ hfield, fun _ _ => rfl⟩
  | some v =>
    rw [hv] at hvalue
    obtain rfl : v = (e8Undone a i).toNat := hvalue
    exact ⟨_, storeBytes_of_le (by rw [leBytes_length]; omega), fun j hj => readByte_writeCells_inside hj _ _,
      fun b hb => readByte_writeCells_outside (by rw [leBytes_length]; omega) _⟩

/-- Over written bytes a translation always answers. -/
theorem e8Translate_total (hroom : base + i + 5 ≤ sp.limit) (hw : Written sp.cells (base + i + 1) 4) :
    ∃ t, e8Translate base i sp = .ok () t := by
  obtain ⟨bs, hbs⟩ := memReadBytes_of_written (by omega) hw
  have hload : loadBytes (base + i + 1) 4 sp = .ok bs sp := by rw [loadBytes, hbs]
  rw [e8Translate, bind_of_ok hload]
  cases e8Field (BitVec.ofNat 32 (leNat bs)) i with
  | none => exact ⟨sp, rfl⟩
  | some v => exact ⟨_, storeBytes_of_le (by rw [leBytes_length]; omega)⟩

/-! ### The loop -/

theorem e8Loop_of_end (h : n ≤ i + 10) (fuel : Nat) : e8Loop base n fuel i sp = .ok () sp := by
  cases fuel with
  | zero => rfl
  | succ fuel =>
    rw [e8Loop, if_neg (by omega)]
    rfl

/-- A byte other than 0xE8 is passed over. -/
theorem e8Loop_of_other {b : Byte} (hn : i + 10 < n) (hle : base + n ≤ sp.limit)
    (hb : readByte sp.cells (base + i) = some b) (hne : b ≠ 0xE8#8) :
    e8Loop base n (fuel + 1) i sp = e8Loop base n fuel (i + 1) sp := by
  rw [e8Loop, if_pos hn, bind_of_ok (loadBytes_one (by omega) hb), if_neg (by simpa using hne)]

/-- A byte 0xE8 has the field after it translated, and the field passed over. -/
theorem e8Loop_of_call {t : Space} (hn : i + 10 < n) (hle : base + n ≤ sp.limit)
    (hb : readByte sp.cells (base + i) = some 0xE8#8) (ht : e8Translate base i sp = .ok () t) :
    e8Loop base n (fuel + 1) i sp = e8Loop base n fuel (i + 5) t := by
  rw [e8Loop, if_pos hn, bind_of_ok (loadBytes_one (by omega) hb), if_pos rfl, bind_of_ok ht]

/-- The positions from `i` on up to `i + k` are in reach of the loop and hold no 0xE8. -/
def NoCalls (m : Memory) (base n i k : Nat) : Prop :=
  ∀ j, i ≤ j → j < i + k → j + 10 < n → readByte m (base + j) ≠ some 0xE8#8

/-- The loop passes over positions without 0xE8. -/
theorem e8Loop_of_noCalls {k : Nat} (hle : base + n ≤ sp.limit) (hw : Written sp.cells base n)
    (h : NoCalls sp.cells base n i k) : e8Loop base n (fuel + k) i sp = e8Loop base n fuel (i + k) sp := by
  induction k generalizing i with
  | zero => rfl
  | succ k ih =>
    by_cases hn : i + 10 < n
    · obtain ⟨b, hb⟩ := Option.isSome_iff_exists.mp (hw i (by omega))
      have hne : b ≠ 0xE8#8 := by
        rintro rfl
        exact h i le_rfl (by omega) hn hb
      rw [← Nat.add_assoc, e8Loop_of_other hn hle hb hne, ih fun j h1 h2 => h j (by omega) (by omega),
        show i + 1 + k = i + (k + 1) by omega]
    · rw [e8Loop_of_end (by omega), e8Loop_of_end (by omega)]

theorem e8Loop_total (hle : base + n ≤ sp.limit) (hw : Written sp.cells base n) :
    ∃ t, e8Loop base n fuel i sp = .ok () t := by
  induction fuel generalizing i sp with
  | zero => exact ⟨sp, rfl⟩
  | succ fuel ih =>
    by_cases hn : i + 10 < n
    · obtain ⟨b, hb⟩ := Option.isSome_iff_exists.mp (hw i (by omega))
      by_cases hcall : b = 0xE8#8
      · subst hcall
        obtain ⟨t, ht⟩ := e8Translate_total (base := base) (i := i) (sp := sp) (by omega) fun j hj => by
          have hbyte := hw (i + 1 + j) (by omega)
          rwa [show base + (i + 1 + j) = base + i + 1 + j by omega] at hbyte
        have hkept := (e8Translate_within hn).ok ht
        rw [e8Loop_of_call hn hle hb ht]
        exact ih (hkept.limit ▸ hle) (hkept.written hw)
      · rw [e8Loop_of_other hn hle hb hcall]
        exact ih hle hw
    · exact ⟨sp, e8Loop_of_end (by omega) _⟩

/-! ### E8Undo -/

/-- Over a written output E8Undo always answers. -/
theorem e8Undo_total (hle : base + n ≤ sp.limit) (hw : Written sp.cells base n) :
    ∃ t, e8Undo base n sp = .ok () t := by
  unfold e8Undo
  split_ifs
  · exact ⟨sp, rfl⟩
  · exact e8Loop_total hle hw

/-- Without a byte 0xE8 E8Undo changes nothing. -/
theorem e8Undo_of_noCalls (hle : base + n ≤ sp.limit) (hw : Written sp.cells base n)
    (h : NoCalls sp.cells base n 0 n) : e8Undo base n sp = .ok () sp := by
  unfold e8Undo
  split_ifs
  · rfl
  · have hloop := e8Loop_of_noCalls (fuel := 0) hle hw h
    rwa [Nat.zero_add] at hloop

end

/-- Settles O47: the loop passes over the positions before the call, translates its field, and passes over the rest. -/
theorem e8UndoRewritesOneCall : Obligations.E8UndoRewritesOneCall := by
  intro sp base n i a hle hw hn hcall hfield hbefore hafter
  obtain ⟨m, ht, hundone, hframe⟩ := e8Translate_of_field (base := base) (i := i) (by omega) hfield
  have hw' := ((e8Translate_within hn).ok ht).written hw
  obtain ⟨k, rfl⟩ : ∃ k, n = k + 1 + i := ⟨n - 1 - i, by omega⟩
  have hskip := e8Loop_of_noCalls (fuel := k + 1) (i := 0) (k := i) hle hw fun j _ hj _ => hbefore j (by omega)
  have hrest := e8Loop_of_noCalls (fuel := 0) (k := k) (i := i + 5) (sp := { sp with cells := m }) hle hw'
    fun j h1 _ h3 => by
      simp only
      rw [hframe _ (.inr (by omega))]
      exact hafter j h1 h3
  rw [Nat.zero_add] at hskip hrest
  refine ⟨m, ?_, hundone, hframe⟩
  rw [e8Undo, if_neg (by omega), hskip, e8Loop_of_call hn hle hcall ht, hrest]
  rfl

end Sys2Proof.Machine

/-! ## Computations that take given bits from the stream -/

namespace Sys2Proof.Machine

/-! ### Bit strings (20_memory.md R59) -/

/-- A string of bits is its high part, then its low part. -/
theorem bitsOf_add (v n k : Nat) : bitsOf v (n + k) = bitsOf (v / 2 ^ k) n ++ bitsOf (v % 2 ^ k) k := by
  refine List.ext_getElem (by simp) fun i hi _ => ?_
  rw [bitsOf_length] at hi
  by_cases hhigh : i < n
  · rw [List.getElem_append_left (by simpa using hhigh)]
    simp only [bitsOf, List.getElem_map, List.getElem_range, Nat.testBit_div_two_pow]
    congr 1
    omega
  · rw [List.getElem_append_right (by simpa using hhigh)]
    simp only [bitsOf, List.getElem_map, List.getElem_range, List.length_map, List.length_range,
      Nat.testBit_mod_two_pow]
    rw [decide_eq_true (by omega), Bool.true_and]
    congr 1
    omega

/-- The high part and the low part of a number, put together, give the bits of both. -/
theorem bitsOf_mul_add {v n k low : Nat} (h : low < 2 ^ k) :
    bitsOf (v * 2 ^ k + low) (n + k) = bitsOf v n ++ bitsOf low k := by
  rw [bitsOf_add, Nat.mul_comm, Nat.mul_add_div (Nat.two_pow_pos k), Nat.div_eq_of_lt h, Nat.add_zero,
    Nat.mul_add_mod, Nat.mod_eq_of_lt h]

theorem bitsOf_toNat_one (b : Bool) : bitsOf b.toNat 1 = [b] := by
  cases b <;> rfl

/-! ### Taking bits -/

section
variable {α β : Type} {inp : Space} {f : Run BitReader α} {g : α → Run BitReader β} {a b : List Bool} {u : β} {v : α}

/-- Over written input, from a reader whose stream starts with `bits`, the computation answers `v` and takes the bits. -/
def Takes (inp : Space) (f : Run BitReader α) (bits : List Bool) (v : α) : Prop :=
  ∀ r, ReadsWritten inp r → StreamStarts inp.cells r bits →
    ∃ t, f r = .ok v t ∧ Consumes inp r t bits.length ∧ t.stop = r.stop

theorem takes_pure (inp : Space) (v : α) : Takes inp (pure v) [] v := fun r hr _ => ⟨r, rfl, .refl hr, rfl⟩

theorem Takes.bind (hf : Takes inp f a v) (hg : Takes inp (g v) b u) : Takes inp (f >>= g) (a ++ b) u := by
  intro r hr hstream
  obtain ⟨t, hft, hrt, hstop⟩ := hf r hr hstream.left
  obtain ⟨t', hgt, htt, hstop'⟩ := hg t hrt.reads (hstream.right hrt.moves)
  exact ⟨t', (bind_of_ok hft).trans hgt, by rw [List.length_append]; exact hrt.trans htt, hstop'.trans hstop⟩

/-- A last step that takes nothing. -/
theorem Takes.map (hf : Takes inp f a v) {g : α → β} : Takes inp (f >>= fun x => pure (g x)) a (g v) := by
  have h := hf.bind (g := fun x => pure (g x)) (takes_pure inp (g v))
  rwa [List.append_nil] at h

/-- A fixed answer behind a step that fails. -/
theorem Takes.bind_error (hf : Takes inp f a v) {e : Stop}
    (hg : ∀ r, ReadsWritten inp r → StreamStarts inp.cells r b → ∃ t, g v r = .error e t) {r : BitReader}
    (hr : ReadsWritten inp r) (hstream : StreamStarts inp.cells r (a ++ b)) : ∃ t, (f >>= g) r = .error e t := by
  obtain ⟨t, hft, hrt, -⟩ := hf r hr hstream.left
  obtain ⟨t', hgt⟩ := hg t hrt.reads (hstream.right hrt.moves)
  exact ⟨t', (bind_of_ok hft).trans hgt⟩

/-! ### Input that goes on behind the bits taken -/

/-- For the next `n` bits the input may be taken to end at `stop`: where it ends, or anywhere behind when its whole units
hold the bits. -/
def MayEndAt (r : BitReader) (n stop : Nat) : Prop := stop = r.stop ∨ r.stop ≤ stop ∧ n ≤ inputBits r

/-- As `Takes`, and it does not look at the input behind the units that hold the bits. -/
def TakesUnits (inp : Space) (f : Run BitReader α) (bits : List Bool) (v : α) : Prop :=
  ∀ r stop, ReadsWritten inp r → StreamStarts inp.cells r bits → MayEndAt r bits.length stop →
    ∃ t, f { r with stop := stop } = .ok v { t with stop := stop } ∧ Consumes inp r t bits.length ∧ t.stop = r.stop

theorem TakesUnits.takes (h : TakesUnits inp f a v) : Takes inp f a v := by
  intro r hr hstream
  obtain ⟨t, hft, hrt, hstop⟩ := h r r.stop hr hstream (.inl rfl)
  have hsame : ({ t with stop := r.stop } : BitReader) = t := by rw [← hstop]
  exact ⟨t, hft.trans (congrArg (EStateM.Result.ok v) hsame), hrt, hstop⟩

theorem takesUnits_pure (inp : Space) (v : α) : TakesUnits inp (pure v) [] v := fun r _ hr _ _ =>
  ⟨r, rfl, .refl hr, rfl⟩

theorem TakesUnits.bind (hf : TakesUnits inp f a v) (hg : TakesUnits inp (g v) b u) :
    TakesUnits inp (f >>= g) (a ++ b) u := by
  intro r stop hr hstream hend
  rw [List.length_append] at hend ⊢
  obtain ⟨t, hft, hrt, hstop⟩ := hf r stop hr hstream.left (hend.imp id fun h => ⟨h.1, by omega⟩)
  have hleft := hrt.left
  obtain ⟨t', hgt, htt, hstop'⟩ := hg t stop hrt.reads (hstream.right hrt.moves)
    (hend.imp (·.trans hstop.symm) fun h => ⟨hstop.trans_le h.1, by omega⟩)
  exact ⟨t', (bind_of_ok hft).trans hgt, hrt.trans htt, hstop'.trans hstop⟩

theorem TakesUnits.map (hf : TakesUnits inp f a v) {g : α → β} :
    TakesUnits inp (f >>= fun x => pure (g x)) a (g v) := by
  have h := hf.bind (g := fun x => pure (g x)) (takesUnits_pure inp (g v))
  rwa [List.append_nil] at h

end

/-! ### ReadBits and DecodeSym -/

section
variable {inp : Space} {r e : BitReader} {n v stop : Nat}

/-- Ensure does the same over a longer input when it does not have to pad (40_bit_reader.md R102). -/
theorem ensure_of_mayEndAt (hr : ReadsWritten inp r) (hens : ensure inp n r = .ok () e) (hend : MayEndAt r n stop) :
    ensure inp n { r with stop := stop } = .ok () { e with stop := stop } := by
  rcases ensure_cases inp n r with ⟨hle, h⟩ | ⟨hlt, hpad, h⟩ | ⟨hlt, hfit, ⟨u, hu, h⟩ | ⟨c, -, h⟩⟩ <;>
    cases h.symm.trans hens
  · exact ensure_of_le hle
  · refine ensure_of_exhausted hlt ?_
    have hreal := hr.1.real_le
    rcases hend with rfl | ⟨-, hbits⟩
    · exact hpad
    · rw [inputBits] at hbits
      omega
  · refine ensure_of_unit (r := { r with stop := stop }) hlt ?_ hu
    rcases hend with rfl | ⟨hle, -⟩
    · exact hfit
    · exact hfit.trans hle

theorem takesUnits_readBits (inp : Space) (hn : n ≤ 16) (hv : v < 2 ^ n) :
    TakesUnits inp (readBits inp n) (bitsOf v n) v := by
  intro r stop hr hstream hend
  rw [bitsOf_length] at hend ⊢
  obtain ⟨e, hens, hle, hmoves, hin, ⟨-, hstop, -⟩, -⟩ := ensure_stream hn hr
  have hvalue : (e.bitbuf >>> (32 - n)).toNat = v := by
    rw [peek_value hle hin.1.left_le, ← bitsValue_of_streamStarts hstream hv]
    exact bitsValue_congr fun i _ => by rw [hmoves i, Nat.zero_add]
  have hpop := ((pop_cases n { e with stop := stop }).resolve_left fun h => absurd h.1 (Nat.not_lt.mpr hle)).2
  exact ⟨dropBits e n, (bind_of_ok (ensure_of_mayEndAt hr hens hend)).trans (hvalue ▸ hpop),
    consumes_of_ensure hn hr hens hle, hstop⟩

theorem takes_readBits (inp : Space) (hn : n ≤ 16) (hv : v < 2 ^ n) : Takes inp (readBits inp n) (bitsOf v n) v :=
  (takesUnits_readBits inp hn hv).takes

variable {reject : Bool} {lens : List Nat} {table : List Entry} {tb maxLen sym : Nat}

/-- A symbol with a codeword is a symbol of the code. -/
theorem lt_length_of_used (h : 1 ≤ lens.getD sym 0) : sym < lens.length := by
  by_contra hsym
  rw [List.getD_eq_default _ _ (Nat.not_lt.mp hsym)] at h
  exact absurd h (by decide)

/-- Through the empty code's table DecodeSym gives symbol 0 and takes no bits (41_huffman.md R135). -/
theorem takes_decodeSym_of_empty (inp : Space) (hempty : ∀ l ∈ lens, l = 0)
    (hb : buildTable reject lens tb maxLen = some table) (htb : tb ≤ maxLen) (h16 : maxLen ≤ 16) :
    Takes inp (decodeSym inp (listEntry table) tb maxLen) (codeBits lens 0) 0 := by
  intro r hr _
  cases (buildTable_of_empty reject hempty tb maxLen).symm.trans hb
  obtain ⟨e, hens, hbuf, -, -, ⟨-, hstop, -⟩, -⟩ := ensure_stream h16 hr
  have hzero : lens.getD 0 0 = 0 := by
    cases lens with
    | nil => rfl
    | cons l ls => exact hempty l List.mem_cons_self
  rw [codeBits_length, hzero]
  exact ⟨dropBits e 0, decodeSym_of_entry hens (htb.trans hbuf) (listEntry_replicate_zero (2 ^ tb) _),
    consumes_of_ensure h16 hr hens (Nat.zero_le _), hstop⟩

/-- Through a built table DecodeSym takes the codeword of a symbol that the code can send (R141). -/
theorem takes_decodeSym (inp : Space) (hb : buildTable reject lens tb maxLen = some table)
    (hlim : tableLimits (max 1 lens.length) tb maxLen = true) (hsend : Sendable lens sym) :
    Takes inp (decodeSym inp (listEntry table) tb maxLen) (codeBits lens sym) sym := by
  obtain ⟨-, -, -, -, htb, h16, -⟩ := tableLimits_iff.mp hlim
  rcases hsend with hused | ⟨rfl, hempty⟩
  · have hsym := lt_length_of_used hused
    rw [max_eq_right (by omega)] at hlim
    intro r hr hstream
    obtain ⟨t, hdec, ht⟩ := decodeSym_of_sendable hb hlim hsym (.inl hused) hr hstream
    rw [codeBits_length]
    exact ⟨t, hdec, ht, ((decodeSym_step inp _ tb h16).ok hdec).2.1⟩
  · exact takes_decodeSym_of_empty inp hempty hb htb h16

end

end Sys2Proof.Machine

/-! ## The block header of codec B -/

namespace Sys2Proof.Machine

/-! ### The three forms (44_codec_b.md R195) -/

/-- The size of a block header behind the default-size flag, 16 bits or 24. -/
def sizeField (inp : Space) (w btype : Nat) : Run BitReader (Nat × Nat) := do
  let size ← readBits inp 16
  if 16 ≤ w then do
    let low ← readBits inp 8
    pure (btype, (size <<< 8) ||| low)
  else pure (btype, size)

theorem takesUnits_sizeField (inp : Space) {w size : Nat} (btype : Nat) (hw : w ∈ [15, 16, 17])
    (hsize : size < 2 ^ (if w = 15 then 16 else 24)) :
    TakesUnits inp (sizeField inp w btype) (bitsOf size (if w = 15 then 16 else 24)) (btype, size) := by
  unfold sizeField
  by_cases h15 : w = 15
  · subst h15
    exact (takesUnits_readBits inp le_rfl hsize).map
  · rw [if_neg h15] at hsize ⊢
    simp only [if_pos (show 16 ≤ w by simp at hw; omega)]
    have hjoin : (size / 2 ^ 8) <<< 8 ||| size % 2 ^ 8 = size := by
      rw [← Nat.shiftLeft_add_eq_or_of_lt (Nat.mod_lt _ (by decide)), Nat.shiftLeft_eq, Nat.div_add_mod']
    rw [show 24 = 16 + 8 from rfl, bitsOf_add]
    have hlow := takesUnits_readBits inp (n := 8) (v := size % 2 ^ 8) (by decide) (Nat.mod_lt _ (by decide))
    have hread := (takesUnits_readBits inp (n := 16) (v := size / 2 ^ 8) le_rfl (by omega)).bind
      (g := fun size => readBits inp 8 >>= fun low => pure (btype, (size <<< 8) ||| low)) hlow.map
    rwa [hjoin] at hread

/-- BlockHeader takes the bits of a header and answers its type and size. -/
theorem takesUnits_blockHeader (inp : Space) {w btype size : Nat} {byDefault : Bool} (hw : w ∈ [15, 16, 17])
    (htype : btype < 8) (hdefault : byDefault = true → size = 32768)
    (hsize : byDefault = false → size < 2 ^ (if w = 15 then 16 else 24)) :
    TakesUnits inp (blockHeader inp w) (blockHeaderBits w btype size byDefault) (btype, size) := by
  have hread := takesUnits_readBits inp (n := 3) (v := btype) (by decide) htype
  have hflag := takesUnits_readBits inp (n := 1) (v := byDefault.toNat) (by decide) (Bool.toNat_lt _)
  rw [blockHeaderBits, List.append_assoc, ← bitsOf_toNat_one]
  refine hread.bind (hflag.bind ?_)
  cases byDefault with
  | true =>
    obtain rfl := hdefault rfl
    exact takesUnits_pure inp _
  | false => exact takesUnits_sizeField inp btype hw (hsize rfl)

/-! ### A header that fails its checks (R196) -/

theorem headerLegal_iff {btype bsize pos outSize : Nat} : headerLegal btype bsize pos outSize = true ↔
    (btype = 1 ∨ btype = 2 ∨ btype = 3) ∧ bsize ≠ 0 ∧ pos + bsize ≤ outSize := by
  simp [headerLegal, or_assoc, and_assoc]

section
variable {job : Job} {w btype bsize : Nat} {s : CbSess} {r : BitReader}

theorem cbBlock_of_illegal (hread : blockHeader job.inp w s.base.reader = .ok (btype, bsize) r)
    (h : headerLegal btype bsize s.base.pos job.outSize = false) :
    cbBlock job w s = .error (.fail .metadata) { s with base := { s.base with reader := r } } := by
  rw [cbBlock, bind_of_ok (onCbReader_of_ok hread)]
  change (if headerLegal btype bsize s.base.pos job.outSize = true then _ else throw (.fail .metadata) :
    Run CbSess Unit) _ = _
  rw [h, if_neg Bool.false_ne_true]
  rfl

end

/-- Settles O40: the header's fields one by one, and the check that refuses a header. -/
theorem cbBlockHeaderReadsTypeAndSize : Obligations.CbBlockHeaderReadsTypeAndSize := by
  refine ⟨fun inp r w btype size byDefault hr hw htype hdefault hsize hstream => ?_,
    fun job w btype size s t hread hbad => ?_⟩
  · obtain ⟨t, ht, hrt, hstop⟩ := (takesUnits_blockHeader inp hw htype hdefault hsize).takes r hr hstream
    exact ⟨t, ht, hrt.reads.1, hstop, hrt.moves⟩
  · exact ⟨_, cbBlock_of_illegal hread (eq_false_of_ne_true (mt headerLegal_iff.mp hbad)), rfl⟩

end Sys2Proof.Machine

/-! ## The code lengths of codec B -/

namespace Sys2Proof.Machine

/-! ### Runs of one length (44_codec_b.md R200, R203) -/

theorem putRun_getElem? (v run i j : Nat) (lens : List Nat) :
    (putRun lens.length v run lens i)[j]? = lens[j]?.map fun old => if i ≤ j ∧ j < i + run then v else old := by
  induction run generalizing lens i with
  | zero => simp [putRun, show ¬ (i ≤ j ∧ j < i) by omega]
  | succ run ih =>
    have hset : (if i < lens.length then lens.set i v else lens) = lens.set i v :=
      ite_eq_left_iff.mpr fun h => (List.set_eq_of_length_le (Nat.not_lt.mp h)).symm
    have hrest := ih (i + 1) (lens.set i v)
    rw [List.length_set] at hrest
    rw [putRun, hset, hrest, List.getElem?_set]
    by_cases heq : i = j
    · subst heq
      by_cases hlt : i < lens.length <;> simp [hlt]
    · rw [if_neg heq]
      congr 2
      funext old
      congr 1
      rw [eq_iff_iff]
      omega

/-- An operation writes one run of its value, and what passes the end is discarded (R203). -/
theorem LenOp.apply_eq_putRun (op : LenOp) (lens : List Nat) (i : Nat) :
    op.apply lens i = putRun lens.length (op.value (lens.getD i 0)) op.run lens i := by
  refine List.ext_getElem? fun j => ?_
  rw [putRun_getElem?, LenOp.apply, List.getElem?_map, List.getElem?_zipIdx, Option.map_map]
  simp only [Nat.zero_add]
  rfl

/-! ### One operation (R201, R202) -/

/-- The presymbol that announces an operation. -/
def LenOp.symbol : LenOp → Nat
  | .delta p => p
  | .zeros _ => 17
  | .moreZeros _ => 18
  | .copies _ _ => 19

/-- The bits behind the presymbol. -/
def LenOp.fieldBits (precode : List Nat) : LenOp → List Bool
  | .delta _ => []
  | .zeros x => bitsOf x 4
  | .moreZeros x => bitsOf x 5
  | .copies x q => bitsOf x 1 ++ codeBits precode q

theorem LenOp.bits_eq (precode : List Nat) (op : LenOp) :
    op.bits precode = codeBits precode op.symbol ++ op.fieldBits precode := by
  cases op with
  | delta p => exact (List.append_nil _).symm
  | zeros x => rfl
  | moreZeros x => rfl
  | copies x q => exact List.append_assoc ..

theorem LenOp.Legal.sendable {precode : List Nat} {op : LenOp} (h : op.Legal precode) :
    Sendable precode op.symbol := by
  cases op with
  | delta p => exact h.2
  | zeros x => exact h.2
  | moreZeros x => exact h.2
  | copies x q =>
    obtain ⟨-, -, hsend, -⟩ := h
    exact hsend

theorem LenOp.run_pos (op : LenOp) : 1 ≤ op.run := by
  cases op <;> simp only [LenOp.run] <;> omega

/-- The precode's table is inside the limits (41_huffman.md R131). -/
theorem precode_limits {precode : List Nat} (h : precode.length = 20) :
    tableLimits (max 1 precode.length) 6 15 = true := by
  rw [h]
  decide

section
variable {inp : Space} {reject : Bool} {precode lens : List Nat} {pre : List Entry} {op : LenOp} {ops : List LenOp}
  {i fuel stop : Nat} {r : BitReader}

/-- A run of copies takes its count and a second presymbol, which must be below 18 (R202). -/
theorem runLength_of_copies (hb : buildTable reject precode 6 15 = some pre) (hcount : precode.length = 20) {x q : Nat}
    (hx : x < 2) (hsend : Sendable precode q) (hr : ReadsWritten inp r)
    (hstream : StreamStarts inp.cells r (bitsOf x 1 ++ codeBits precode q)) :
    ∃ t, Consumes inp r t (bitsOf x 1 ++ codeBits precode q).length ∧ t.stop = r.stop ∧
      runLength inp pre lens i 19 r =
        if 17 < q then .error (.fail .malformed) t else .ok (4 + x, deltaLength lens i q) t := by
  obtain ⟨r', hcopies, hr', hstop'⟩ := takes_readBits inp (n := 1) (by decide) hx r hr hstream.left
  obtain ⟨t, hdec, ht, hstop⟩ := takes_decodeSym inp hb (precode_limits hcount) hsend r' hr'.reads
    (hstream.right hr'.moves)
  refine ⟨t, by rw [List.length_append]; exact hr'.trans ht, hstop.trans hstop', ?_⟩
  rw [runLength, if_neg (by decide), if_neg (by decide), bind_of_ok hcopies, bind_of_ok hdec]
  split_ifs <;> rfl

/-- The run and the length that a presymbol above 16 announces (R202). -/
theorem takes_runLength (hb : buildTable reject precode 6 15 = some pre) (hcount : precode.length = 20)
    (hop : op.Legal precode) (hrun : 17 ≤ op.symbol) :
    Takes inp (runLength inp pre lens i op.symbol) (op.fieldBits precode) (op.run, op.value (lens.getD i 0)) := by
  cases op with
  | delta p => exact absurd (hrun.trans hop.1) (by decide)
  | zeros x => exact (takes_readBits inp (n := 4) (by decide) hop.1).map
  | moreZeros x => exact (takes_readBits inp (n := 5) (by decide) hop.1).map
  | copies x q =>
    obtain ⟨hx, hq, -, hsend⟩ := hop
    intro r hr hstream
    obtain ⟨t, ht, hstop, hrun⟩ := runLength_of_copies (lens := lens) (i := i) hb hcount hx hsend hr hstream
    rw [if_neg (Nat.not_lt.mpr hq)] at hrun
    exact ⟨t, hrun, ht, hstop⟩

/-- One pass of the loop of ReadLens applies one operation. -/
theorem lensLoop_of_op (hb : buildTable reject precode 6 15 = some pre) (hcount : precode.length = 20)
    (hop : op.Legal precode) (hlt : i < stop) (hr : ReadsWritten inp r)
    (hstream : StreamStarts inp.cells r (op.bits precode)) :
    ∃ t, Consumes inp r t (op.bits precode).length ∧ t.stop = r.stop ∧
      lensLoop inp pre stop lens.length (fuel + 1) lens i r =
        lensLoop inp pre stop lens.length fuel (op.apply lens i) (i + op.run) t := by
  rw [LenOp.bits_eq] at hstream ⊢
  obtain ⟨r', hdec, hr', hstop'⟩ := takes_decodeSym inp hb (precode_limits hcount) hop.sendable r hr hstream.left
  rw [LenOp.apply_eq_putRun, lensLoop, if_neg (Nat.not_le.mpr hlt), bind_of_ok hdec]
  by_cases hrun : op.symbol < 17
  · obtain ⟨p, rfl⟩ : ∃ p, op = .delta p := by
      cases op with
      | delta p => exact ⟨p, rfl⟩
      | zeros x => exact absurd hrun (show ¬ 17 < 17 by decide)
      | moreZeros x => exact absurd hrun (show ¬ 18 < 17 by decide)
      | copies x q => exact absurd hrun (show ¬ 19 < 17 by decide)
    refine ⟨r', ?_, hstop', ?_⟩
    · rwa [LenOp.fieldBits, List.append_nil]
    · rw [if_pos hrun]
      rfl
  · obtain ⟨t, hfield, ht, hstop⟩ := takes_runLength (lens := lens) (i := i) hb hcount hop (Nat.not_lt.mp hrun) r'
      hr'.reads (hstream.right hr'.moves)
    refine ⟨t, by rw [List.length_append]; exact hr'.trans ht, hstop.trans hstop', ?_⟩
    rw [if_neg hrun, bind_of_ok hfield]

/-! ### All operations of a section (R200) -/

/-- Every operation starts below `stop`. -/
def OpsBelow (stop : Nat) : List LenOp → Nat → Prop
  | [], _ => True
  | op :: ops, i => i < stop ∧ OpsBelow stop ops (i + op.run)

/-- Operations that start below `stop` are no more than the lengths up to there. -/
theorem OpsBelow.length_le (h : OpsBelow stop ops i) (hi : i ≤ stop) : i + ops.length ≤ stop := by
  induction ops generalizing i with
  | nil => exact hi
  | cons op ops ih =>
    obtain ⟨hlt, hrest⟩ := h
    cases ops with
    | nil => exact hlt
    | cons op' ops' =>
      have hle := ih hrest hrest.1.le
      have hpos := op.run_pos
      rw [List.length_cons]
      omega

/-- Operations that fit end at `stop` or behind it. -/
theorem OpsFit.below (h : OpsFit stop ops i) : OpsBelow stop ops i ∧ stop ≤ i + (ops.map LenOp.run).sum := by
  induction ops generalizing i with
  | nil => exact ⟨trivial, h⟩
  | cons op ops ih =>
    obtain ⟨hlt, hrest⟩ := h
    obtain ⟨hbelow, hend⟩ := ih hrest
    exact ⟨⟨hlt, hbelow⟩, by rwa [List.map_cons, List.sum_cons, ← Nat.add_assoc]⟩

theorem length_le_sum_run (ops : List LenOp) : ops.length ≤ (ops.map LenOp.run).sum := by
  have h := List.length_le_sum_of_one_le (ops.map LenOp.run) (List.forall_mem_map.mpr fun op _ => op.run_pos)
  rwa [List.length_map] at h

theorem opsBelow_of_sum_lt (h : i + (ops.map LenOp.run).sum < stop) : OpsBelow stop ops i := by
  induction ops generalizing i with
  | nil => trivial
  | cons op ops ih =>
    rw [List.map_cons, List.sum_cons] at h
    exact ⟨by omega, ih (by omega)⟩

/-- The loop applies one operation a pass. -/
theorem lensLoop_of_ops (hb : buildTable reject precode 6 15 = some pre) (hcount : precode.length = 20)
    (hops : ∀ op ∈ ops, op.Legal precode) (hbelow : OpsBelow stop ops i) (hr : ReadsWritten inp r)
    (hstream : StreamStarts inp.cells r (ops.flatMap (LenOp.bits precode))) :
    ∃ t, Consumes inp r t (ops.flatMap (LenOp.bits precode)).length ∧ t.stop = r.stop ∧
      lensLoop inp pre stop lens.length (fuel + ops.length) lens i r =
        lensLoop inp pre stop lens.length fuel (applyOps ops lens i) (i + (ops.map LenOp.run).sum) t := by
  induction ops generalizing lens i r with
  | nil => exact ⟨r, .refl hr, rfl, rfl⟩
  | cons op ops ih =>
    obtain ⟨hlt, hrest⟩ := hbelow
    rw [List.flatMap_cons] at hstream ⊢
    obtain ⟨r', hr', hstop', hpass⟩ := lensLoop_of_op (lens := lens) (fuel := fuel + ops.length) hb hcount
      (hops op List.mem_cons_self) hlt hr hstream.left
    obtain ⟨t, ht, hstop, hloop⟩ := ih (lens := op.apply lens i) (fun x hx => hops x (List.mem_cons_of_mem _ hx)) hrest
      hr'.reads (hstream.right hr'.moves)
    rw [LenOp.apply_length] at hloop
    refine ⟨t, by rw [List.length_append]; exact hr'.trans ht, hstop.trans hstop', ?_⟩
    rw [List.length_cons, ← Nat.add_assoc, hpass, hloop, List.map_cons, List.sum_cons, ← Nat.add_assoc]
    rfl

theorem lensLoop_of_end (h : stop ≤ i) (fuel : Nat) (limit : Nat) (r : BitReader) :
    lensLoop inp pre stop limit fuel lens i r = .ok lens r := by
  cases fuel with
  | zero => rfl
  | succ fuel =>
    rw [lensLoop, if_pos h]
    rfl

/-- A run of copies of a presymbol above 17 ends the section (R202). -/
theorem lensLoop_of_bad_copies (hb : buildTable reject precode 6 15 = some pre) (hcount : precode.length = 20)
    {y q limit : Nat} (hy : y < 2) (hq : 17 < q) (hcopies : Sendable precode 19) (hsend : Sendable precode q)
    (hlt : i < stop) (hr : ReadsWritten inp r)
    (hstream : StreamStarts inp.cells r (codeBits precode 19 ++ (bitsOf y 1 ++ codeBits precode q))) :
    ∃ t, lensLoop inp pre stop limit (fuel + 1) lens i r = .error (.fail .malformed) t := by
  obtain ⟨r', hdec, hr', -⟩ := takes_decodeSym inp hb (precode_limits hcount) hcopies r hr hstream.left
  obtain ⟨t, -, -, hrun⟩ := runLength_of_copies (lens := lens) (i := i) hb hcount hy hsend hr'.reads
    (hstream.right hr'.moves)
  rw [if_pos hq] at hrun
  refine ⟨t, ?_⟩
  rw [lensLoop, if_neg (Nat.not_le.mpr hlt), bind_of_ok hdec, if_neg (by decide), bind_of_error hrun]

/-! ### ReadLens -/

/-- Fields of `k` bits, one after another. -/
theorem takes_readFields (inp : Space) {k : Nat} (hk : k ≤ 16) {vs : List Nat} (hvs : ∀ v ∈ vs, v < 2 ^ k) :
    Takes inp (readFields inp k vs.length) (vs.flatMap fun v => bitsOf v k) vs := by
  induction vs with
  | nil => exact takes_pure inp []
  | cons v vs ih =>
    rw [List.flatMap_cons]
    exact (takes_readBits inp hk (hvs v List.mem_cons_self)).bind
      (g := fun v => readFields inp k vs.length >>= fun rest => pure (v :: rest))
      (ih fun x hx => hvs x (List.mem_cons_of_mem _ hx)).map

theorem buildOrFail_of_some {σ : Type} {tb maxLen : Nat} (hb : buildTable reject lens tb maxLen = some pre) :
    (buildOrFail reject lens tb maxLen : Run σ (List Entry)) = pure pre := by
  rw [buildOrFail, hb]

theorem buildOrFail_of_none {σ : Type} {tb maxLen : Nat} (hb : buildTable reject lens tb maxLen = none) :
    (buildOrFail reject lens tb maxLen : Run σ (List Entry)) = throw (.fail .malformed) := by
  rw [buildOrFail, hb]

theorem exists_buildTable {maxLen : Nat} (h : CodeAccepted reject lens maxLen) (tb : Nat) :
    ∃ table, buildTable reject lens tb maxLen = some table :=
  Option.isSome_iff_exists.mp ((buildTable_isSome_iff reject lens tb maxLen).mpr h)

/-- The precode read; the loop goes on through its table. -/
theorem readLens_of_precode {start num limit : Nat} (hcount : precode.length = 20) (hnibbles : ∀ p ∈ precode, p < 16)
    (hr : ReadsWritten inp r) (hstream : StreamStarts inp.cells r (precode.flatMap fun p => bitsOf p 4)) :
    ∃ t, Consumes inp r t (precode.flatMap fun p => bitsOf p 4).length ∧ t.stop = r.stop ∧
      readLens inp reject lens start num limit r =
        (buildOrFail reject precode 6 15 >>= fun pre => lensLoop inp pre (start + num) limit num lens start) t := by
  obtain ⟨t, hfields, ht, hstop⟩ := takes_readFields inp (k := 4) (by decide) hnibbles r hr hstream
  rw [hcount] at hfields
  exact ⟨t, ht, hstop, bind_of_ok hfields⟩

/-- The precode and operations below the section's end read. -/
theorem readLens_of_ops {start num : Nat} {x : LenSection} (hcount : x.precode.length = 20)
    (hnibbles : ∀ p ∈ x.precode, p < 16) (hb : buildTable reject x.precode 6 15 = some pre)
    (hops : ∀ op ∈ x.ops, op.Legal x.precode) (hbelow : OpsBelow (start + num) x.ops start) (hr : ReadsWritten inp r)
    (hstream : StreamStarts inp.cells r x.bits) :
    ∃ t, Consumes inp r t x.bits.length ∧ t.stop = r.stop ∧
      readLens inp reject lens start num lens.length r =
        lensLoop inp pre (start + num) lens.length (num - x.ops.length) (applyOps x.ops lens start)
          (start + (x.ops.map LenOp.run).sum) t := by
  obtain ⟨r', hr', hstop', hread⟩ := readLens_of_precode (reject := reject) (lens := lens) (start := start) (num := num)
    (limit := lens.length) hcount hnibbles hr hstream.left
  obtain ⟨t, ht, hstop, hloop⟩ := lensLoop_of_ops (lens := lens) (fuel := num - x.ops.length) hb hcount hops hbelow
    hr'.reads (hstream.right hr'.moves)
  have hle := hbelow.length_le (Nat.le_add_right start num)
  refine ⟨t, by rw [LenSection.bits, List.length_append]; exact hr'.trans ht, hstop.trans hstop', ?_⟩
  rw [hread, buildOrFail_of_some hb, bind_of_ok (pure_run _ _), ← hloop, Nat.sub_add_cancel (by omega)]

/-- ReadLens takes a section and applies its operations (R200-R203). -/
theorem takes_readLens (inp : Space) {start num : Nat} {x : LenSection} (hx : x.Legal reject start (start + num)) :
    Takes inp (readLens inp reject lens start num lens.length) x.bits (applyOps x.ops lens start) := by
  intro r hr hstream
  obtain ⟨pre, hb⟩ := exists_buildTable hx.accepted 6
  obtain ⟨hbelow, hend⟩ := hx.fit.below
  obtain ⟨t, ht, hstop, hread⟩ := readLens_of_ops (lens := lens) hx.count hx.nibbles hb hx.ops hbelow hr hstream
  exact ⟨t, hread.trans (lensLoop_of_end hend ..), ht, hstop⟩

end

/-- Settles O41: the precode, then one pass of the loop for each operation; a precode without a table and a bad run of
copies end it. -/
theorem cbReadLensAppliesItsSection : Obligations.CbReadLensAppliesItsSection := by
  intro inp r reject lens start num x hr _ _
  refine ⟨fun hx hstream => ?_, fun hcount hnibbles hstream => ⟨fun hbad => ?_,
    fun hacc hops hsum y q hy hq hcopies hsend hstream => ?_⟩⟩
  · obtain ⟨t, hread, ht, hstop⟩ := takes_readLens inp (lens := lens) hx r hr hstream
    exact ⟨t, hread, ht.reads.1, hstop, ht.moves⟩
  · obtain ⟨t, -, -, hread⟩ := readLens_of_precode (reject := reject) (lens := lens) (start := start) (num := num)
      (limit := lens.length) hcount hnibbles hr hstream
    rw [buildOrFail_of_none (buildTable_eq_none_iff.mpr hbad)] at hread
    exact ⟨t, hread⟩
  · obtain ⟨pre, hb⟩ := exists_buildTable hacc 6
    rw [List.append_assoc, List.append_assoc] at hstream
    have hbelow := opsBelow_of_sum_lt (i := start) (ops := x.ops) (stop := start + num) (by omega)
    have hlength := length_le_sum_run x.ops
    obtain ⟨t, ht, -, hread⟩ := readLens_of_ops (lens := lens) hcount hnibbles hb hops hbelow hr hstream.left
    obtain ⟨fuel, hfuel⟩ : ∃ fuel, num - x.ops.length = fuel + 1 := ⟨num - x.ops.length - 1, by omega⟩
    obtain ⟨u, hloop⟩ := lensLoop_of_bad_copies (fuel := fuel) (lens := applyOps x.ops lens start)
      (limit := lens.length) (i := start + (x.ops.map LenOp.run).sum) (stop := start + num) hb hcount hy hq hcopies
      hsend (by omega) ht.reads (hstream.right ht.moves)
    exact ⟨u, by rw [hread, hfuel, hloop]⟩

end Sys2Proof.Machine

/-! ## The items of codec B -/

namespace Sys2Proof.Machine

/-! ### Offset slots (44_codec_b.md R205, R211) -/

/-- The table of R211 is what the model computes. -/
theorem offsetSlots_eq : ∀ slot < 34, slotExtra slot = (offsetSlots.getD slot (0, 0)).1 ∧
    slotBase slot = (offsetSlots.getD slot (0, 0)).2 := by
  decide

/-- No slot has more than 15 extra bits, the recent slots have none, and the others start at 3. -/
theorem offsetSlots_bounds : ∀ slot < 34, (offsetSlots.getD slot (0, 0)).1 ≤ 15 ∧
    (slot < 3 → (offsetSlots.getD slot (0, 0)).1 = 0) ∧ (3 ≤ slot → 3 ≤ (offsetSlots.getD slot (0, 0)).2) := by
  decide

/-! ### What an item's fields stand for (R204, R205, R207) -/

/-- The length of a match. -/
def tokenLength (lh len : Nat) : Nat := if lh = 7 then 9 + len else lh + 2

/-- The distance of a match. -/
def tokenDist (q : Recent) (slot x : Nat) : Nat :=
  if slot < 3 then recentDistance q slot else (offsetSlots.getD slot (0, 0)).2 + x - 2

/-- The recent offsets after a match. -/
def tokenRecent (policy : ReuseUpdate) (q : Recent) (slot x : Nat) : Recent :=
  if slot < 3 then reuseRecent policy q slot else pushRecent q (tokenDist q slot x)

theorem cbStep_literal (policy : ReuseUpdate) (bend : Nat) (q : Recent) (out : List Byte) (b : Byte) :
    cbStep policy bend q out (.literal b) = (expandItem bend out (.literal b)).map fun out' => (q, out') := rfl

theorem cbStep_copy (policy : ReuseUpdate) (bend : Nat) (q : Recent) (out : List Byte) (slot x lh len : Nat) :
    cbStep policy bend q out (.copy slot x lh len) =
      (expandItem bend out (.copy (tokenLength lh len) (tokenDist q slot x))).map fun out' =>
        (tokenRecent policy q slot x, out') := rfl

theorem tokenLength_pos (lh len : Nat) : 1 ≤ tokenLength lh len := by
  unfold tokenLength
  split <;> omega

/-- The recent offsets that a session holds: none is 0. -/
structure Recent.Positive (q : Recent) : Prop where
  r0 : 1 ≤ q.r0
  r1 : 1 ≤ q.r1
  r2 : 1 ≤ q.r2

section
variable {q : Recent} {slot x : Nat}

theorem recentDistance_pos (hq : q.Positive) (slot : Nat) : 1 ≤ recentDistance q slot := by
  unfold recentDistance
  split_ifs
  · exact hq.r0
  · exact hq.r1
  · exact hq.r2

theorem reuseRecent_positive (policy : ReuseUpdate) (hq : q.Positive) (slot : Nat) :
    (reuseRecent policy q slot).Positive := by
  unfold reuseRecent
  split_ifs
  · exact hq
  · exact ⟨hq.r1, hq.r0, hq.r2⟩
  · cases policy with
    | swapWithR0 => exact ⟨hq.r2, hq.r1, hq.r0⟩
    | moveToFront => exact ⟨hq.r2, hq.r0, hq.r1⟩

theorem pushRecent_positive (hq : q.Positive) {dist : Nat} (hdist : 1 ≤ dist) : (pushRecent q dist).Positive :=
  ⟨hdist, hq.r0, hq.r1⟩

theorem tokenDist_pos (hq : q.Positive) (hslot : slot < 34) : 1 ≤ tokenDist q slot x := by
  obtain ⟨-, -, hbase⟩ := offsetSlots_bounds slot hslot
  unfold tokenDist
  split_ifs with h
  · exact recentDistance_pos hq slot
  · have := hbase (Nat.not_lt.mp h)
    omega

theorem tokenRecent_positive (policy : ReuseUpdate) (hq : q.Positive) (hslot : slot < 34) :
    (tokenRecent policy q slot x).Positive := by
  unfold tokenRecent
  split_ifs
  · exact reuseRecent_positive policy hq slot
  · exact pushRecent_positive hq (tokenDist_pos hq hslot)

end

/-! ### The tables of a block (R197) -/

/-- The tables of a block are those of its codes. -/
structure CodesBuilt (reject : Bool) (btype : Nat) (codes : CbCodes) (tables : CbTables) : Prop where
  mainCount : codes.main.length ≤ 528
  lenCount : codes.len.length ≤ 249
  alignedCount : btype = 2 → codes.aligned.length ≤ 8
  main : buildTable reject codes.main 11 16 = some tables.main
  len : buildTable reject codes.len 10 16 = some tables.len
  aligned : btype = 2 → buildTable reject codes.aligned 7 7 = some tables.aligned

/-- Fewer symbols need no larger table. -/
theorem tableLimits_of_le {k n tb maxLen : Nat} (hn : 1 ≤ n) (hle : k ≤ n) (h : tableLimits n tb maxLen = true) :
    tableLimits (max 1 k) tb maxLen = true := by
  obtain ⟨-, h2048, htb, h12, hmax, h16, hsize⟩ := tableLimits_iff.mp h
  have hk : max 1 k ≤ n := max_le hn hle
  have hmul : 2 * max 1 k * (maxLen - tb) ≤ 2 * n * (maxLen - tb) :=
    Nat.mul_le_mul_right _ (Nat.mul_le_mul_left 2 hk)
  exact tableLimits_iff.mpr ⟨le_max_left .., hk.trans h2048, htb, h12, hmax, h16, by omega⟩

section
variable {inp : Space} {reject : Bool} {btype bend : Nat} {codes : CbCodes} {tables : CbTables}

theorem CodesBuilt.takes_main (h : CodesBuilt reject btype codes tables) {sym : Nat}
    (hsend : Sendable codes.main sym) :
    Takes inp (decodeSym inp (listEntry tables.main) 11 16) (codeBits codes.main sym) sym :=
  takes_decodeSym inp h.main (tableLimits_of_le (n := 528) (by decide) h.mainCount (by decide)) hsend

theorem CodesBuilt.takes_len (h : CodesBuilt reject btype codes tables) {sym : Nat}
    (hsend : Sendable codes.len sym) :
    Takes inp (decodeSym inp (listEntry tables.len) 10 16) (codeBits codes.len sym) sym :=
  takes_decodeSym inp h.len (tableLimits_of_le (n := 249) (by decide) h.lenCount (by decide)) hsend

theorem CodesBuilt.takes_aligned (h : CodesBuilt reject btype codes tables) (h2 : btype = 2) {sym : Nat}
    (hsend : Sendable codes.aligned sym) :
    Takes inp (decodeSym inp (listEntry tables.aligned) 7 7) (codeBits codes.aligned sym) sym :=
  takes_decodeSym inp (h.aligned h2) (tableLimits_of_le (n := 8) (by decide) (h.alignedCount h2) (by decide)) hsend

/-! ### The fields of a match (R204, R205) -/

theorem takes_matchLength (h : CodesBuilt reject btype codes tables) {lh len : Nat}
    (hsend : lh = 7 → Sendable codes.len len) :
    Takes inp (matchLength inp tables.len lh) (if lh = 7 then codeBits codes.len len else []) (tokenLength lh len) := by
  unfold matchLength tokenLength
  by_cases hlh : lh = 7
  · simp only [if_pos hlh]
    have hlen := (h.takes_len (inp := inp) (hsend hlh)).map (g := fun x => 7 + x + 2)
    rwa [show 7 + len + 2 = 9 + len by omega] at hlen
  · simp only [if_neg hlh]
    exact takes_pure inp _

/-- The explicit distance of a slot: its base and its extra bits, the low three of them in the aligned code of an aligned
block. -/
theorem takes_explicitDistance (h : CodesBuilt reject btype codes tables) {slot x : Nat} (hslot : slot < 34)
    (hx : x < 2 ^ (offsetSlots.getD slot (0, 0)).1)
    (hsend : btype = 2 → 3 ≤ (offsetSlots.getD slot (0, 0)).1 → Sendable codes.aligned (x % 8)) :
    Takes inp (explicitDistance inp tables.aligned btype slot) (offsetBits btype codes.aligned slot x)
      ((offsetSlots.getD slot (0, 0)).2 + x - 2) := by
  obtain ⟨hextra, hbase⟩ := offsetSlots_eq slot hslot
  obtain ⟨h15, -⟩ := offsetSlots_bounds slot hslot
  rw [explicitDistance, hextra, hbase, offsetBits]
  generalize (offsetSlots.getD slot (0, 0)).1 = extra at *
  by_cases hcase : btype = 2 ∧ 3 ≤ extra
  · rw [if_pos hcase, if_pos hcase]
    obtain ⟨h2, h3⟩ := hcase
    have hhigh : x / 8 < 2 ^ (extra - 3) :=
      Nat.div_lt_of_lt_mul (by rwa [show 8 = 2 ^ 3 from rfl, ← Nat.pow_add, Nat.add_sub_cancel' h3])
    have hread := (takes_readBits inp (by omega) hhigh).bind
      (g := fun high => decodeSym inp (listEntry tables.aligned) 7 7 >>= fun low =>
        pure ((offsetSlots.getD slot (0, 0)).2 + (high <<< 3) + low - 2))
      (h.takes_aligned h2 (hsend h2 h3)).map
    rwa [Nat.shiftLeft_eq, Nat.add_assoc _ (x / 8 * 2 ^ 3), Nat.div_add_mod'] at hread
  · rw [if_neg hcase, if_neg hcase]
    exact (takes_readBits inp (by omega) hx).map

end

/-! ### DecodeItem (R204, R206) -/

section
variable {job : Job} {btype bend : Nat} {codes : CbCodes} {tables : CbTables} {s : CbSess} {out out' : List Byte}
  {q : Recent}

/-- The session with its reader further on and the recent offsets `q`. -/
def CbSess.readTo (s : CbSess) (r : BitReader) (q : Recent) : CbSess :=
  { s with base := { s.base with reader := r }, recent := q }

/-- The offset of a match, and what it makes of the recent offsets. -/
theorem offset_of_token (h : CodesBuilt job.params.rejectIncomplete btype codes tables) {slot x : Nat}
    (hslot : slot < 34) (hx : x < 2 ^ (offsetSlots.getD slot (0, 0)).1)
    (hsend : btype = 2 → 3 ≤ (offsetSlots.getD slot (0, 0)).1 → Sendable codes.aligned (x % 8))
    (hr : ReadsWritten job.inp s.base.reader)
    (hstream : StreamStarts job.inp.cells s.base.reader (offsetBits btype codes.aligned slot x)) :
    ∃ t, Consumes job.inp s.base.reader t (offsetBits btype codes.aligned slot x).length ∧
      t.stop = s.base.reader.stop ∧ offset job tables.aligned btype slot s =
        .ok (tokenDist s.recent slot x) (s.readTo t (tokenRecent job.params.reuse s.recent slot x)) := by
  by_cases hrecent : slot < 3
  · obtain ⟨-, hzero, -⟩ := offsetSlots_bounds slot hslot
    have hnone : (offsetBits btype codes.aligned slot x).length = 0 := by
      rw [offsetBits, hzero hrecent, if_neg (by omega), bitsOf_length]
    rw [hnone, tokenDist, tokenRecent, if_pos hrecent, if_pos hrecent]
    exact ⟨s.base.reader, .refl hr, rfl, offset_of_recent hrecent⟩
  · obtain ⟨t, hread, ht, hstop⟩ := takes_explicitDistance h hslot hx hsend s.base.reader hr hstream
    rw [tokenRecent, if_neg hrecent, tokenDist, if_neg hrecent]
    exact ⟨t, ht, hstop, offset_of_explicit (Nat.not_lt.mp hrecent) hread⟩

/-- A literal takes its codeword. -/
theorem cbItem_of_literal (h : CodesBuilt job.params.rejectIncomplete btype codes tables) {b : Byte}
    (hsend : Sendable codes.main b.toNat) (hr : ReadsWritten job.inp s.base.reader)
    (hstream : StreamStarts job.inp.cells s.base.reader (codeBits codes.main b.toNat))
    (hroom : job.outBase + s.base.pos + 1 ≤ s.base.out.limit) :
    ∃ t, Consumes job.inp s.base.reader t (codeBits codes.main b.toNat).length ∧ t.stop = s.base.reader.stop ∧
      cbItem job tables btype bend s = .ok () { s with base :=
        { reader := t
          out := { s.base.out with cells := writeCells s.base.out.cells (job.outBase + s.base.pos) [b] }
          pos := s.base.pos + 1 } } := by
  obtain ⟨t, hdec, ht, hstop⟩ := h.takes_main hsend s.base.reader hr hstream
  have hemit := emitLiteral_of_le (job := job) (s := { s.base with reader := t }) (sym := b.toNat) hroom
  rw [BitVec.ofNat_toNat, BitVec.setWidth_eq] at hemit
  refine ⟨t, ht, hstop, ?_⟩
  rw [cbItem, bind_of_ok (onCbReader_of_ok hdec), if_pos b.isLt]
  exact zoom_of_ok (part := CbSess.base) (put := fun b s => { s with base := b }) hemit

/-- A match takes its fields; what is left is the check of R206. -/
theorem cbItem_of_copy (h : CodesBuilt job.params.rejectIncomplete btype codes tables) {slot x lh len : Nat}
    (hlegal : (CbToken.copy slot x lh len).Legal btype codes) (hr : ReadsWritten job.inp s.base.reader)
    (hstream : StreamStarts job.inp.cells s.base.reader ((CbToken.copy slot x lh len).bits btype codes)) :
    ∃ t, Consumes job.inp s.base.reader t ((CbToken.copy slot x lh len).bits btype codes).length ∧
      t.stop = s.base.reader.stop ∧ cbItem job tables btype bend s =
        (if bend < s.base.pos + tokenLength lh len then throw (.fail .reference)
          else if s.base.pos < tokenDist s.recent slot x then throw (.fail .reference)
          else onBase (emitMatch job (tokenLength lh len) (tokenDist s.recent slot x) bend) : Run CbSess Unit)
          (s.readTo t (tokenRecent job.params.reuse s.recent slot x)) := by
  obtain ⟨hslot, hlh, hmain, hlen, hx, haligned⟩ := hlegal
  rw [CbToken.bits] at hstream ⊢
  obtain ⟨r1, hdec, h1, hstop1⟩ := h.takes_main hmain s.base.reader hr hstream.left.left
  obtain ⟨r2, hlength, h2, hstop2⟩ := takes_matchLength h hlen r1 h1.reads (hstream.left.right h1.moves)
  have h12 := h1.trans h2
  rw [← List.length_append] at h12
  obtain ⟨r3, h3, hstop3, hoffset⟩ := offset_of_token (s := s.readTo r2 s.recent) h hslot hx haligned h2.reads
    (hstream.right h12.moves)
  refine ⟨r3, by rw [List.length_append]; exact h12.trans h3, hstop3.trans (hstop2.trans hstop1), ?_⟩
  have hdec' : onCbReader (decodeSym job.inp (listEntry tables.main) 11 16) s =
      .ok (256 + 8 * slot + lh) (s.readTo r1 s.recent) := onCbReader_of_ok hdec
  have hlength' : onCbReader (matchLength job.inp tables.len lh) (s.readTo r1 s.recent) =
      .ok (tokenLength lh len) (s.readTo r2 s.recent) := onCbReader_of_ok (s := s.readTo r1 s.recent) hlength
  have hlhField : (256 + 8 * slot + lh - 256) % 8 = lh := by omega
  have hslotField : (256 + 8 * slot + lh - 256) / 8 = slot := by omega
  rw [cbItem, bind_of_ok hdec', if_neg (by omega), hlhField, hslotField, bind_of_ok hlength',
    bind_of_ok hoffset, bind_of_ok (get_run _)]
  rfl

/-- What an item that R206 allows does: it takes its bits, stores the bytes it adds and updates the recent offsets. -/
theorem cbItem_of_token (h : CodesBuilt job.params.rejectIncomplete btype codes tables) {x : CbToken}
    (hlegal : x.Legal btype codes) (hr : ReadsWritten job.inp s.base.reader)
    (hstream : StreamStarts job.inp.cells s.base.reader (x.bits btype codes)) (hpos : s.base.pos = out.length)
    (hbytes : HoldsBytes s.base.out.cells job.outBase out) (hroom : job.outBase + bend ≤ s.base.out.limit)
    (hrecent : s.recent.Positive) (hstep : cbStep job.params.reuse bend s.recent out x = some (q, out')) :
    ∃ (t : BitReader) (sp : Space) (more : List Byte), out' = out ++ more ∧ 1 ≤ more.length ∧ q.Positive ∧
      Consumes job.inp s.base.reader t (x.bits btype codes).length ∧ t.stop = s.base.reader.stop ∧
      ChangedWithin (job.outBase + s.base.pos) (job.outBase + s.base.pos + more.length) s.base.out sp ∧
      HoldsBytes sp.cells (job.outBase + s.base.pos) more ∧
      cbItem job tables btype bend s = .ok ()
        { s with base := { reader := t, out := sp, pos := s.base.pos + more.length }, recent := q } := by
  cases x with
  | literal b =>
    rw [cbStep_literal, Option.map_eq_some_iff] at hstep
    obtain ⟨_, hexp, ⟨⟩⟩ := hstep
    simp only [expandItem, Option.ite_none_right_eq_some, Option.some.injEq] at hexp
    obtain ⟨hlt, rfl⟩ := hexp
    have hfit : job.outBase + s.base.pos + [b].length ≤ s.base.out.limit := by
      simp only [List.length_singleton]
      omega
    obtain ⟨t, ht, hstop, hitem⟩ := cbItem_of_literal (bend := bend) h hlegal hr hstream hfit
    exact ⟨t, _, [b], rfl, le_rfl, hrecent, ht, hstop, (storeBytes_ok (storeBytes_of_le hfit)).1,
      fun i hi => readByte_writeCells_inside hi _ _, hitem⟩
  | copy slot x lh len =>
    rw [cbStep_copy, Option.map_eq_some_iff] at hstep
    obtain ⟨_, hexp, ⟨⟩⟩ := hstep
    simp only [expandItem, Option.ite_none_right_eq_some, Option.some.injEq] at hexp
    obtain ⟨⟨hback, hend⟩, rfl⟩ := hexp
    obtain ⟨t, ht, hstop, hitem⟩ := cbItem_of_copy (bend := bend) h hlegal hr hstream
    have hlength := tokenLength_pos lh len
    have hdist : 1 ≤ tokenDist s.recent slot x := tokenDist_pos hrecent hlegal.1
    have hnext : (tokenRecent job.params.reuse s.recent slot x).Positive :=
      tokenRecent_positive job.params.reuse hrecent hlegal.1
    generalize tokenDist s.recent slot x = dist at hback hitem hdist ⊢
    generalize tokenLength lh len = length at hend hitem hlength ⊢
    rw [if_neg (by omega), if_neg (by omega)] at hitem
    have hfilled : Filled job s.base := fun i hi => by
      rw [hbytes i (hpos ▸ hi)]
      rfl
    obtain ⟨sp, hcopy, hchanged, hcopied⟩ := emitMatch_of_filled (s := { s.base with reader := t }) (stop := bend)
      hfilled hlength hdist (by simp only; omega) (by simp only; omega) hroom
    have hmore : ((List.range length).map fun i => out.getD (out.length - dist + i % dist) 0#8).length = length := by
      rw [List.length_map, List.length_range]
    refine ⟨t, sp, _, rfl, by rwa [hmore], hnext, ht, hstop, by rwa [hmore], fun i hi => ?_, ?_⟩
    · have hmod := Nat.mod_lt i hdist
      rw [hcopied i (by rwa [hmore] at hi), List.getElem_map, List.getElem_range,
        show job.outBase + s.base.pos - dist + i % dist = job.outBase + (out.length - dist + i % dist) by omega,
        hbytes _ (by omega), List.getD_eq_getElem _ _ (by omega)]
    · rw [hitem, hmore]
      exact zoom_of_ok (part := CbSess.base) (put := fun b s => { s with base := b }) hcopy

/-- A match that R206 refuses, the output as it was. -/
theorem cbItem_of_refused (h : CodesBuilt job.params.rejectIncomplete btype codes tables) {x : CbToken}
    (hlegal : x.Legal btype codes) (hr : ReadsWritten job.inp s.base.reader)
    (hstream : StreamStarts job.inp.cells s.base.reader (x.bits btype codes)) (hpos : s.base.pos = out.length)
    (hlt : out.length < bend) (hstep : cbStep job.params.reuse bend s.recent out x = none) :
    ∃ u, cbItem job tables btype bend s = .error (.fail .reference) u ∧ u.base.out = s.base.out := by
  cases x with
  | literal b => simp [cbStep_literal, expandItem, hlt] at hstep
  | copy slot x lh len =>
    rw [cbStep_copy, Option.map_eq_none_iff] at hstep
    simp only [expandItem, ite_eq_right_iff, reduceCtorEq, imp_false] at hstep
    obtain ⟨t, -, -, hitem⟩ := cbItem_of_copy (bend := bend) h hlegal hr hstream
    refine ⟨s.readTo t (tokenRecent job.params.reuse s.recent slot x), hitem.trans ?_, rfl⟩
    split_ifs
    · rfl
    · rfl
    · omega

end

/-- Settles O42: a literal or a match taken from the stream, and the check of R206. -/
theorem cbItemExpandsLiteralsAndMatches : Obligations.CbItemExpandsLiteralsAndMatches := by
  intro job tables codes btype bend s out x hr hmainCount hlenCount halignedCount hmain hlen haligned hpos hbytes hlt
    hroom h0 h1 h2 hlegal hstream
  have hcodes : CodesBuilt job.params.rejectIncomplete btype codes tables :=
    ⟨hmainCount, hlenCount, fun _ => halignedCount, hmain, hlen, haligned⟩
  refine ⟨fun q out' hstep => ?_, fun hstep => cbItem_of_refused hcodes hlegal hr hstream hpos hlt hstep⟩
  obtain ⟨t, sp, more, rfl, -, -, ht, hstop, hchanged, hmore, hitem⟩ := cbItem_of_token hcodes hlegal hr hstream hpos
    hbytes hroom ⟨h0, h1, h2⟩ hstep
  have hstart : Expanded { job with outSize := bend } s.base.reader s.base.out.cells [] out s.base :=
    ⟨.refl hr, hroom, hpos, hbytes, fun _ _ => rfl⟩
  have hext := hstart.extend (bits := x.bits btype codes) ht hchanged hmore
  refine ⟨_, hitem, rfl, rfl, rfl, hext.pos, hchanged.limit, hext.bytes, fun a ha => hchanged.outside a ?_, ht.reads.1,
    hstop, ht.moves⟩
  rw [List.length_append] at ha
  omega

end Sys2Proof.Machine

/-! ## CB_DECOMPRESS -/

namespace Sys2Proof.Machine

/-! ### The session behind its blocks (44_codec_b.md R194, R209) -/

section
variable {job : Job} {w : Nat} {out sp : Space} {s t : CbSess} {fuel : Nat}

theorem cbBlocks_succ (h : s.base.pos ≠ job.outSize) :
    cbBlocks job w (fuel + 1) s = (cbBlock job w >>= fun _ => cbBlocks job w fuel) s := by
  rw [cbBlocks, bind_of_ok (get_run s), if_neg h]

theorem cbBlocks_of_full (h : s.base.pos = job.outSize) (fuel : Nat) : cbBlocks job w fuel s = .ok () s := by
  cases fuel with
  | zero => rfl
  | succ fuel =>
    rw [cbBlocks, bind_of_ok (get_run s), if_pos h]
    rfl

/-- A decode whose session fails. -/
theorem cbDecode_of_session_error {e : Stop} (h : cbSession job w (sessionStart job w out) = .error e t) :
    cbDecode job w out = .error e t.base.out := by
  rcases cbDecode_session job w out with ⟨s, hs, -⟩ | ⟨e', s, hs, hd⟩ <;> cases h.symm.trans hs
  exact hd

/-- A decode whose session ends well. -/
theorem cbDecode_of_session_ok (h : cbSession job w (sessionStart job w out) = .ok () t) :
    cbDecode job w out = .ok () t.base.out := by
  rcases cbDecode_session job w out with ⟨s, hs, hd⟩ | ⟨e', s, hs, -⟩ <;> cases h.symm.trans hs
  exact hd

/-- Behind the last block the padding check may end the chunk (R209). -/
theorem cbDecode_of_padded (hblocks : cbBlocks job w job.outSize (sessionStart job w out) = .ok () t)
    (hpad : job.params.exhaustion = .failOnPadding ∧ t.base.reader.padused = true) :
    cbDecode job w out = .error (.fail .truncated) t.base.out := by
  have hcheck := (exhaustionCheck_run job t.base).trans (if_pos hpad)
  exact cbDecode_of_session_error ((bind_of_ok hblocks).trans
    (bind_of_error (zoom_of_error (part := CbSess.base) (put := fun b s => { s with base := b }) hcheck)))

/-- Otherwise E8Undo is the last step (R194, R208). -/
theorem cbDecode_of_unpadded (hblocks : cbBlocks job w job.outSize (sessionStart job w out) = .ok () t)
    (hpad : ¬ (job.params.exhaustion = .failOnPadding ∧ t.base.reader.padused = true))
    (hundo : e8Undo job.outBase job.outSize t.base.out = .ok () sp) : cbDecode job w out = .ok () sp := by
  have hcheck : onBase (exhaustionCheck job) t = .ok () t :=
    zoom_of_ok (part := CbSess.base) ((exhaustionCheck_run job t.base).trans (if_neg hpad))
  have hlast : onBase (onOut (e8Undo job.outBase job.outSize)) t =
      .ok () { t with base := { t.base with out := sp } } :=
    zoom_of_ok (part := CbSess.base) (put := fun b s => { s with base := b })
      (zoom_of_ok (part := Sess.out) (put := fun sp s => { s with out := sp }) hundo)
  exact cbDecode_of_session_ok ((bind_of_ok hblocks).trans ((bind_of_ok hcheck).trans hlast))

/-- Blocks that end well leave a written output, over which E8Undo answers; the memory keeps its size. -/
theorem cbDecode_of_blocks (hroom : job.outBase + job.outSize ≤ out.limit)
    (hblocks : cbBlocks job w job.outSize (sessionStart job w out) = .ok () t)
    (hpad : ¬ (job.params.exhaustion = .failOnPadding ∧ t.base.reader.padused = true)) :
    ∃ m, e8Undo job.outBase job.outSize { limit := out.limit, cells := t.base.out.cells } =
        .ok () { limit := out.limit, cells := m } ∧
      cbDecode job w out = .ok () { limit := out.limit, cells := m } := by
  obtain ⟨-, -, hchanged⟩ := (cbBlocks_step job w _).ok hblocks (Nat.zero_le _)
  obtain ⟨hend, hfill⟩ := cbBlocks_fills (Nat.zero_le _) (Nat.le_add_left ..) hblocks
  have hfilled := hfill fun i hi => absurd hi (Nat.not_lt_zero i)
  rw [Filled, hend] at hfilled
  have hlimit : t.base.out.limit = out.limit := hchanged.limit
  obtain ⟨⟨limit, m⟩, hundo⟩ := e8Undo_total (hlimit ▸ hroom) hfilled
  obtain rfl : limit = out.limit := ((e8Undo_within _ _).ok hundo).limit.trans hlimit
  refine ⟨m, ?_, cbDecode_of_unpadded hblocks hpad hundo⟩
  rw [← hlimit] at hundo ⊢
  exact hundo

end

/-! ### The command (R193) -/

/-- CB_DECOMPRESS with written operands that pass its checks. -/
theorem exec_cbDecompress {s : State} {inBase inSize outBase outSize w : Nat} (h0 : ArgIs s 0 inBase)
    (h1 : ArgIs s 1 inSize) (h2 : ArgIs s 2 outBase) (h3 : ArgIs s 3 outSize) (h4 : ArgIs s 4 w)
    (hw : w ∈ [15, 16, 17]) (hmax : outSize ≤ 2 ^ w) (hin : inBase + inSize ≤ 2 ^ s.world.params.addrBits)
    (hout : outBase + outSize ≤ 2 ^ s.world.params.addrBits) (hdis : Disjoint inBase inSize outBase outSize) :
    exec .cbDecompress s =
      runCommand .cbDecompress (onLmem (cbDecode (lmemJob s inBase inSize outBase outSize) w)) s := by
  rw [exec_cbDecompress_checked h0 h1 h2 h3 h4, windowLegal_iff.mpr ⟨hw, hmax⟩, runCommand, runCommand,
    decompressChecked_disjoint hin hout hdis]

section
variable {s : State} {job : Job} {w : Nat} {out : Space}

theorem runCommand_of_cbDecode (h : cbDecode job w (lmemSpace s) = .ok () out) :
    runCommand .cbDecompress (onLmem (cbDecode job w)) s = .next (completed { s with lmem := out.cells }) :=
  runCommand_of_ok (zoom_of_ok (part := lmemSpace) h)

theorem runCommand_of_cbDecode_fail {e : Status} (h : cbDecode job w (lmemSpace s) = .error (.fail e) out) :
    runCommand .cbDecompress (onLmem (cbDecode job w)) s =
      .next (reported (statusCode e) { s with lmem := out.cells }) :=
  runCommand_of_fail (zoom_of_error (part := lmemSpace) h)

end

/-- The reader of a chunk's start over written input. -/
theorem initReader_readsWritten {inp : Space} {a n : Nat} (hin : a + n ≤ inp.limit) (hw : Written inp.cells a n) :
    ReadsWritten inp (initReader a n) := by
  refine ⟨initReader_ok a n, hin, fun i hi => hw i ?_⟩
  rw [initReader_next, initReader_stop] at hi
  omega

end Sys2Proof.Machine

/-! ## The verbatim and aligned blocks of a chunk -/

namespace Sys2Proof.Machine

/-! ### The session after some blocks -/

/-- The session, started with the reader `start` over an output memory `m`, has taken the bits `sent` and is as far as
`p`. -/
structure CbExpanded (job : Job) (start : BitReader) (m : Memory) (sent : List Bool) (p : CbProgress) (s : CbSess) :
    Prop where
  base : Expanded job start m sent p.out s.base
  recent : s.recent = p.recent
  positive : p.recent.Positive
  mainLens : s.mainLens = p.mainLens
  lenLens : s.lenLens = p.lenLens

section
variable {job : Job} {start : BitReader} {m : Memory} {sent : List Bool} {p q : CbProgress} {s : CbSess} {w : Nat}

/-- More bits taken by the session's reader. -/
theorem CbExpanded.take {α : Type} {f : Run BitReader α} {bits : List Bool} {v : α}
    (h : CbExpanded job start m sent p s) (hf : Takes job.inp f bits v)
    (hstream : StreamStarts job.inp.cells start (sent ++ bits)) :
    ∃ t, onCbReader f s = .ok v t ∧ CbExpanded job start m (sent ++ bits) p t := by
  obtain ⟨⟨hconsumed, hroom, hpos, hbytes, hframe⟩, hrecent, hpositive, hmain, hlen⟩ := h
  obtain ⟨t, ht, hrt, -⟩ := hf s.base.reader hconsumed.reads (hstream.right hconsumed.moves)
  have hall := hconsumed.trans hrt
  rw [← List.length_append] at hall
  exact ⟨_, onCbReader_of_ok ht, ⟨hall, hroom, hpos, hbytes, hframe⟩, hrecent, hpositive, hmain, hlen⟩

/-! ### The items of a block (R194, R204) -/

variable {btype bend : Nat} {codes : CbCodes} {tables : CbTables} {tokens : List CbToken}

theorem cbStep_length_le {policy : ReuseUpdate} {r r' : Recent} {out out' : List Byte} {x : CbToken}
    (h : cbStep policy bend r out x = some (r', out')) : out'.length ≤ bend := by
  cases x with
  | literal b =>
    rw [cbStep_literal, Option.map_eq_some_iff] at h
    obtain ⟨_, hexp, ⟨⟩⟩ := h
    exact (expandItem_grows hexp).1
  | copy slot x lh len =>
    rw [cbStep_copy, Option.map_eq_some_iff] at h
    obtain ⟨_, hexp, ⟨⟩⟩ := h
    exact (expandItem_grows hexp).1

theorem cbItems_succ {fuel : Nat} (h : s.base.pos ≠ bend) :
    cbItems job tables btype bend (fuel + 1) s =
      (cbItem job tables btype bend >>= fun _ => cbItems job tables btype bend fuel) s := by
  rw [cbItems, bind_of_ok (get_run s), if_neg h]

theorem cbItems_of_full (h : s.base.pos = bend) (fuel : Nat) : cbItems job tables btype bend fuel s = .ok () s := by
  cases fuel with
  | zero => rfl
  | succ fuel =>
    rw [cbItems, bind_of_ok (get_run s), if_pos h]
    rfl

/-- One item more. -/
theorem CbExpanded.item (h : CbExpanded job start m sent p s)
    (hcodes : CodesBuilt job.params.rejectIncomplete btype codes tables) (hbend : bend ≤ job.outSize) {x : CbToken}
    (hlegal : x.Legal btype codes) (hstream : StreamStarts job.inp.cells start (sent ++ x.bits btype codes))
    {recent : Recent} {out : List Byte}
    (hstep : cbStep job.params.reuse bend p.recent p.out x = some (recent, out)) :
    ∃ t, cbItem job tables btype bend s = .ok () t ∧ p.out.length < out.length ∧
      CbExpanded job start m (sent ++ x.bits btype codes) { p with recent := recent, out := out } t := by
  have hroom := h.base.room
  obtain ⟨t, sp, more, rfl, hgrow, hpositive, ht, -, hchanged, hmore, hitem⟩ := cbItem_of_token hcodes hlegal
    h.base.consumed.reads (h.base.stream hstream) h.base.pos h.base.bytes (by omega) (h.recent ▸ h.positive)
    (h.recent ▸ hstep)
  exact ⟨_, hitem, by rw [List.length_append]; omega,
    h.base.extend (h.base.consumes ht rfl) hchanged hmore, rfl, hpositive, h.mainLens, h.lenLens⟩

/-- Items that fill a block. -/
theorem cbItems_of_tokens (hcodes : CodesBuilt job.params.rejectIncomplete btype codes tables)
    (hbend : bend ≤ job.outSize) (hlegal : ∀ x ∈ tokens, x.Legal btype codes) (h : CbExpanded job start m sent p s)
    (hstream : StreamStarts job.inp.cells start (sent ++ tokens.flatMap (CbToken.bits btype codes)))
    {recent : Recent} {out : List Byte}
    (hsteps : cbSteps job.params.reuse bend p.recent p.out tokens = some (recent, out)) (hfull : out.length = bend)
    {fuel : Nat} (hfuel : bend ≤ s.base.pos + fuel) :
    ∃ t, cbItems job tables btype bend fuel s = .ok () t ∧
      CbExpanded job start m (sent ++ tokens.flatMap (CbToken.bits btype codes))
        { p with recent := recent, out := out } t := by
  induction tokens generalizing sent p s fuel with
  | nil =>
    cases hsteps
    rw [List.flatMap_nil, List.append_nil]
    exact ⟨s, cbItems_of_full (h.base.pos.trans hfull) fuel, h⟩
  | cons x xs ih =>
    rw [List.flatMap_cons, ← List.append_assoc] at hstream ⊢
    rw [cbSteps] at hsteps
    cases hx : cbStep job.params.reuse bend p.recent p.out x with
    | none =>
      rw [hx] at hsteps
      cases hsteps
    | some next =>
      obtain ⟨recent1, out1⟩ := next
      rw [hx] at hsteps
      obtain ⟨t, hitem, hgrow, ht⟩ := h.item hcodes hbend (hlegal x List.mem_cons_self) hstream.left hx
      have hle := cbStep_length_le hx
      have hpos := h.base.pos
      have hpos' : t.base.pos = out1.length := ht.base.pos
      obtain ⟨fuel, rfl⟩ := Nat.exists_eq_add_of_le' (show 1 ≤ fuel by omega)
      rw [cbItems_succ (by omega), bind_of_ok hitem]
      exact ih (p := { p with recent := recent1, out := out1 }) (fun y hy => hlegal y (List.mem_cons_of_mem _ hy)) ht
        hstream hsteps (by omega)

/-! ### The code lengths of a block (R197, R198) -/

theorem numMain_of_window (hw : w ∈ [15, 16, 17]) : numMain w = if w = 15 then 496 else if w = 16 then 512 else 528 := by
  simp only [List.mem_cons, List.not_mem_nil, or_false] at hw
  rcases hw with rfl | rfl | rfl <;> rfl

theorem numMain_bounds (hw : w ∈ [15, 16, 17]) : 256 ≤ numMain w ∧ numMain w ≤ 528 := by
  rw [numMain_of_window hw]
  split_ifs <;> omega

theorem takes_buildOrFail (inp : Space) {reject : Bool} {lens : List Nat} {tb maxLen : Nat} {table : List Entry}
    (hb : buildTable reject lens tb maxLen = some table) : Takes inp (buildOrFail reject lens tb maxLen) [] table := by
  rw [buildOrFail_of_some hb]
  exact takes_pure inp table

/-- The aligned code's lengths and its table (R198). -/
theorem takes_alignedTable (inp : Space) {reject : Bool} {lens : List Nat} {table : List Entry}
    (hcount : lens.length = 8) (hlens : ∀ l ∈ lens, l < 8) (hb : buildTable reject lens 7 7 = some table) :
    Takes inp (alignedTable inp reject) (lens.flatMap fun l => bitsOf l 3) table := by
  have hread := takes_readFields inp (k := 3) (by decide) hlens
  rw [hcount] at hread
  have h := hread.bind (g := fun lens => buildOrFail reject lens 7 7) (takes_buildOrFail inp hb)
  rwa [List.append_nil] at h

/-- The bits of the aligned code's lengths, which only an aligned block has. -/
def CbBlock.alignedBits (b : CbBlock) : List Bool :=
  if b.btype = 2 then b.alignedLens.flatMap fun l => bitsOf l 3 else []

/-- The bits of a block's code lengths. -/
def CbBlock.codeBits (b : CbBlock) : List Bool := b.alignedBits ++ b.main1.bits ++ b.main2.bits ++ b.len.bits

theorem CbBlock.bits_eq (w : Nat) (p : CbProgress) (b : CbBlock) :
    b.bits w p = blockHeaderBits w b.btype b.size b.byDefault ++ b.codeBits ++
      b.tokens.flatMap (CbToken.bits b.btype (b.codes p)) := by
  simp only [CbBlock.bits, CbBlock.codeBits, CbBlock.alignedBits, List.append_assoc]

variable {b : CbBlock}

/-- The aligned code's table, or none. -/
theorem CbExpanded.aligned (h : CbExpanded job start m sent p s)
    (hb : b.Legal job.params.rejectIncomplete job.outSize p)
    (hstream : StreamStarts job.inp.cells start (sent ++ b.alignedBits)) :
    ∃ table t, blockAligned job b.btype s = .ok table t ∧ CbExpanded job start m (sent ++ b.alignedBits) p t ∧
      (b.btype = 2 → buildTable job.params.rejectIncomplete b.alignedLens 7 7 = some table) := by
  unfold blockAligned
  by_cases h2 : b.btype = 2
  · obtain ⟨hcount, hlens, hacc⟩ := hb.aligned h2
    obtain ⟨table, htable⟩ := exists_buildTable hacc 7
    rw [CbBlock.alignedBits, if_pos h2] at hstream ⊢
    rw [if_pos h2]
    obtain ⟨t, hread, ht⟩ := h.take (takes_alignedTable job.inp hcount hlens htable) hstream
    exact ⟨table, t, hread, ht, fun _ => htable⟩
  · rw [CbBlock.alignedBits, if_neg h2, if_neg h2, List.append_nil]
    exact ⟨[], s, rfl, h, fun h => absurd h h2⟩

/-- CodeLengths takes a block's sections and builds its tables, keeping the lengths for the next block (R197, R203). -/
theorem CbExpanded.codeLengths (h : CbExpanded job start m sent p s) (hw : w ∈ [15, 16, 17])
    (hmain : p.mainLens.length = numMain w) (hlen : p.lenLens.length = numLen)
    (hb : b.Legal job.params.rejectIncomplete job.outSize p)
    (hstream : StreamStarts job.inp.cells start (sent ++ b.codeBits)) :
    ∃ tables t, Machine.codeLengths job w b.btype s = .ok tables t ∧
      CodesBuilt job.params.rejectIncomplete b.btype (b.codes p) tables ∧
      CbExpanded job start m (sent ++ b.codeBits)
        { p with mainLens := (b.codes p).main, lenLens := (b.codes p).len } t := by
  obtain ⟨h256, h528⟩ := numMain_bounds hw
  simp only [CbBlock.codeBits, ← List.append_assoc] at hstream ⊢
  obtain ⟨aligned, s1, hread1, h1, haligned⟩ := h.aligned hb hstream.left.left.left
  have hmain1 := takes_readLens job.inp (lens := p.mainLens) (start := 0) (num := 256) hb.main1
  have hmain2 := takes_readLens job.inp (reject := job.params.rejectIncomplete)
    (lens := applyOps b.main1.ops p.mainLens 0) (start := 256) (num := numMain w - 256) (x := b.main2)
    (by rw [Nat.add_sub_cancel' h256, ← hmain]; exact hb.main2)
  have hlens := takes_readLens job.inp (lens := p.lenLens) (start := 0) (num := numLen) hb.len
  rw [applyOps_length, hmain] at hmain2
  rw [hmain, ← h1.mainLens] at hmain1
  rw [hlen, ← h1.lenLens] at hlens
  obtain ⟨s2, hread2, h2⟩ := h1.take hmain1 hstream.left.left
  rw [h1.mainLens] at hread2
  obtain ⟨s3, hread3, h3⟩ := h2.take hmain2 hstream.left
  obtain ⟨s4, hread4, h4⟩ := h3.take hlens hstream
  rw [h1.lenLens] at hread4
  obtain ⟨mainTable, hmainTable⟩ := exists_buildTable hb.mainCode 11
  obtain ⟨lenTable, hlenTable⟩ := exists_buildTable hb.lenCode 10
  refine ⟨⟨mainTable, lenTable, aligned⟩, { s4 with mainLens := (b.codes p).main, lenLens := (b.codes p).len }, ?_,
    ⟨?_, ?_, fun hbtype => (hb.aligned hbtype).1.le, hmainTable, hlenTable, haligned⟩,
    h4.base, h4.recent, h4.positive, rfl, rfl⟩
  · rw [Machine.codeLengths, bind_of_ok hread1, bind_of_ok (get_run s1), h1.mainLens, h1.lenLens, bind_of_ok hread2,
      bind_of_ok hread3, bind_of_ok hread4, bind_of_ok (modify_run _ s4)]
    have hmainBuild := buildOrFail_of_some (σ := CbSess) hmainTable
    have hlenBuild := buildOrFail_of_some (σ := CbSess) hlenTable
    simp only [CbBlock.codes] at hmainBuild hlenBuild ⊢
    rw [hmainBuild, hlenBuild]
    rfl
  · simp only [CbBlock.codes, applyOps_length, hmain]
    exact h528
  · simp only [CbBlock.codes, applyOps_length, hlen]
    exact le_rfl

end

/-! ### A block (R194-R196) -/

section
variable {job : Job} {start : BitReader} {m : Memory} {sent : List Bool} {p q : CbProgress} {s : CbSess} {w : Nat}

/-- A verbatim or aligned block behind a header that passes. -/
theorem cbBlock_of_coded {btype bsize : Nat} {t : CbSess}
    (hread : onCbReader (blockHeader job.inp w) s = .ok (btype, bsize) t) (htype : btype = 1 ∨ btype = 2)
    (hsize : 1 ≤ bsize) (hroom : t.base.pos + bsize ≤ job.outSize) :
    cbBlock job w s =
      (codeLengths job w btype >>= fun tables => cbItems job tables btype (t.base.pos + bsize) bsize) t := by
  have hlegal : headerLegal btype bsize t.base.pos job.outSize = true :=
    headerLegal_iff.mpr ⟨htype.imp id .inl, by omega, hroom⟩
  rw [cbBlock, bind_of_ok hread]
  change (if headerLegal btype bsize t.base.pos job.outSize = true then if btype = 3 then _ else _ else _ :
    Run CbSess Unit) t = _
  rw [if_pos hlegal, if_neg (by omega)]

/-- One block more. -/
theorem CbExpanded.block {b : CbBlock} (h : CbExpanded job start m sent p s) (hw : w ∈ [15, 16, 17])
    (hmax : job.outSize ≤ 2 ^ w) (hmain : p.mainLens.length = numMain w) (hlen : p.lenLens.length = numLen)
    (hb : b.Legal job.params.rejectIncomplete job.outSize p)
    (hstream : StreamStarts job.inp.cells start (sent ++ b.bits w p)) {recent : Recent} {out : List Byte}
    (hsteps : cbSteps job.params.reuse (p.out.length + b.size) p.recent p.out b.tokens = some (recent, out))
    (hfull : out.length = p.out.length + b.size) :
    ∃ t, cbBlock job w s = .ok () t ∧ CbExpanded job start m (sent ++ b.bits w p)
      { mainLens := (b.codes p).main, lenLens := (b.codes p).len, recent := recent, out := out } t := by
  obtain ⟨hpos, hroom⟩ := hb.size
  have hsize : b.byDefault = false → b.size < 2 ^ (if w = 15 then 16 else 24) := fun _ => by
    simp only [List.mem_cons, List.not_mem_nil, or_false] at hw
    rcases hw with rfl | rfl | rfl <;> simp only [Nat.reduceEqDiff, if_true, if_false] <;> omega
  simp only [CbBlock.bits_eq, ← List.append_assoc] at hstream ⊢
  obtain ⟨s1, hread, h1⟩ := h.take (takesUnits_blockHeader job.inp hw (by have := hb.btype; omega) hb.byDefault
    hsize).takes hstream.left.left
  obtain ⟨tables, s2, hcodes, hbuilt, h2⟩ := h1.codeLengths hw hmain hlen hb hstream.left
  have hpos1 := h1.base.pos
  have hpos2 : s2.base.pos = p.out.length := h2.base.pos
  obtain ⟨t, hitems, ht⟩ := cbItems_of_tokens (fuel := b.size) hbuilt hroom hb.tokens h2 hstream hsteps hfull
    (by omega)
  refine ⟨t, ?_, ht⟩
  rw [cbBlock_of_coded hread hb.btype hpos (by omega), bind_of_ok hcodes, hpos1, hitems]

/-! ### All blocks (R194) -/

theorem cbBlocks_of_stream {bits : List Bool} (hs : CbStream job.params w job.outSize p bits q)
    (hw : w ∈ [15, 16, 17]) (hmax : job.outSize ≤ 2 ^ w) (hmain : p.mainLens.length = numMain w)
    (hlen : p.lenLens.length = numLen) (h : CbExpanded job start m sent p s)
    (hstream : StreamStarts job.inp.cells start (sent ++ bits)) (hfull : q.out.length = job.outSize) {fuel : Nat}
    (hfuel : job.outSize ≤ s.base.pos + fuel) :
    ∃ t, cbBlocks job w fuel s = .ok () t ∧ CbExpanded job start m (sent ++ bits) q t := by
  induction hs generalizing sent s fuel with
  | done p =>
    rw [List.append_nil]
    exact ⟨s, cbBlocks_of_full (h.base.pos.trans hfull) fuel, h⟩
  | block p q b recent out bs hb hsteps hout _ ih =>
    rw [← List.append_assoc] at hstream ⊢
    obtain ⟨hsize, hroom⟩ := hb.size
    obtain ⟨t, hblock, ht⟩ := h.block hw hmax hmain hlen hb hstream.left hsteps hout
    have hpos := h.base.pos
    have hpos' : t.base.pos = out.length := ht.base.pos
    obtain ⟨fuel, rfl⟩ := Nat.exists_eq_add_of_le' (show 1 ≤ fuel by omega)
    rw [cbBlocks_succ (by omega), bind_of_ok hblock]
    refine ih ?_ ?_ ht hstream hfull (by omega)
    · simp only [CbBlock.codes, applyOps_length, hmain]
    · simp only [CbBlock.codes, applyOps_length, hlen]

/-! ### The chunk (R192, R209) -/

/-- A session at its start (R192). -/
theorem cbExpanded_start {sp : Space} (hw : w ∈ [15, 16, 17]) (hroom : job.outBase + job.outSize ≤ sp.limit)
    (hin : ReadsWritten job.inp (initReader job.inBase job.inSize)) :
    CbExpanded job (initReader job.inBase job.inSize) sp.cells [] (CbProgress.start w) (sessionStart job w sp) :=
  ⟨⟨.refl hin, hroom, rfl, fun i hi => absurd hi (Nat.not_lt_zero i), fun _ _ => rfl⟩, rfl, ⟨le_rfl, le_rfl, le_rfl⟩,
    congrArg (List.replicate · 0) (numMain_of_window hw), rfl⟩

/-- A chunk of blocks takes more bits than its input's whole units hold exactly when it consumed a pad bit (R209). -/
theorem CbExpanded.padused (h : CbExpanded job (initReader job.inBase job.inSize) m sent p s) :
    s.base.reader.padused = true ↔ 16 * (job.inSize / 2) < sent.length := by
  rw [h.base.consumed.padused]
  simp [inputBits]

end

/-- Settles O43: the blocks one after another from the start of the session, then the padding check and E8Undo. -/
theorem cbDecompressExpandsItsBlocks : Obligations.CbDecompressExpandsItsBlocks := by
  intro s inBase inSize outBase outSize w bits q h0 h1 h2 h3 h4 hw hmax hin hout hdis hwritten hs hfull hstream
  have hrun := exec_cbDecompress h0 h1 h2 h3 h4 hw hmax hin hout hdis
  have hread := initReader_readsWritten (inp := lmemSpace s) hin hwritten
  have hmain : (CbProgress.start w).mainLens.length = numMain w := by
    rw [numMain_of_window hw]
    exact List.length_replicate
  obtain ⟨t, hblocks, ht⟩ := cbBlocks_of_stream (job := lmemJob s inBase inSize outBase outSize) hs hw hmax hmain
    List.length_replicate (cbExpanded_start (sp := lmemSpace s) hw hout hread) hstream hfull (Nat.le_add_left ..)
  have hpadded : s.world.params.exhaustion = .failOnPadding ∧ t.base.reader.padused = true ↔
      s.world.params.exhaustion = .failOnPadding ∧ 16 * (inSize / 2) < bits.length :=
    and_congr_right fun _ => ht.padused
  refine ⟨t.base.out.cells, ht.base.bytes, hfull ▸ ht.base.frame, fun hpad => ?_, fun hpad => ?_⟩
  · exact hrun.trans (runCommand_of_cbDecode_fail (cbDecode_of_padded hblocks (hpadded.mpr hpad)))
  · obtain ⟨m, hundo, hdecode⟩ := cbDecode_of_blocks (out := lmemSpace s) hout hblocks (mt hpadded.mp hpad)
    exact ⟨m, hundo, hrun.trans (runCommand_of_cbDecode hdecode)⟩

end Sys2Proof.Machine

/-! ## The symbols of a built table -/

namespace Sys2Proof.Machine

/-! ### Records that name symbols (41_huffman.md R136, R137) -/

section
variable {tb n : Nat} {table : List Entry}

/-- A record that is no node names a symbol below `n`: as a fast record wherever it stands, as a leaf above the direct
slots. -/
def SymbolsBelow (tb n : Nat) (table : List Entry) : Prop :=
  ∀ i, isNode (table.getD i 0#16) = false →
    fastSymbol (table.getD i 0#16) < n ∧ (2 ^ tb ≤ i → (table.getD i 0#16).toNat < n)

theorem symbolsBelow_replicate_zero (tb : Nat) (hn : 1 ≤ n) (k : Nat) :
    SymbolsBelow tb n (List.replicate k 0#16) := fun i _ => by
  have hzero : (List.replicate k 0#16).getD i 0#16 = 0#16 := Except.ok.inj (listEntry_replicate_zero k i)
  rw [hzero]
  exact ⟨hn, fun _ => hn⟩

theorem SymbolsBelow.set (h : SymbolsBelow tb n table) (node : Nat) {e : Entry}
    (he : isNode e = false → fastSymbol e < n ∧ e.toNat < n) : SymbolsBelow tb n (table.set node e) := by
  intro i hi
  by_cases hnode : node = i ∧ i < table.length
  · obtain ⟨rfl, hlt⟩ := hnode
    rw [getD_set_same hlt] at hi ⊢
    exact (he hi).imp id fun hleaf _ => hleaf
  · have hsame : (table.set node e).getD i 0#16 = table.getD i 0#16 := by
      by_cases heq : node = i
      · rw [List.set_eq_of_length_le (by omega)]
      · exact getD_set_other heq ..
    rw [hsame] at hi ⊢
    exact h i hi

theorem SymbolsBelow.append_zeros (h : SymbolsBelow tb n table) : SymbolsBelow tb n (table ++ [0#16, 0#16]) := by
  intro i
  rw [getD_append_zeros]
  exact h i

theorem leafRecord_below {sym : Nat} (hsym : sym < n) (hn : n ≤ 2048) :
    fastSymbol (leafRecord sym) < n ∧ (leafRecord sym).toNat < n := by
  rw [fastSymbol_eq, leafRecord_toNat (hsym.trans_le hn)]
  exact ⟨(Nat.mod_le ..).trans_lt hsym, hsym⟩

theorem trieDescend_symbolsBelow (h : SymbolsBelow tb n table) (code x node : Nat) :
    SymbolsBelow tb n (trieDescend code x table node).1 := by
  induction x generalizing table node with
  | zero => exact h
  | succ x ih =>
    unfold trieDescend
    split
    · refine ih (h.set node fun hleaf => ?_).append_zeros _
      rw [nodeRecord_isNode] at hleaf
      cases hleaf
    · exact ih h _

theorem trieSymbols_symbolsBelow {syms : List Nat} (h : SymbolsBelow tb n table) (hn : n ≤ 2048) (len code : Nat)
    (hsyms : ∀ sym ∈ syms, sym < n) : SymbolsBelow tb n (trieSymbols tb len syms table code).1 := by
  induction syms generalizing table code with
  | nil => exact h
  | cons sym rest ih =>
    exact ih ((trieDescend_symbolsBelow h _ _ _).set _ fun _ => leafRecord_below (hsyms sym List.mem_cons_self) hn) _
      fun s hs => hsyms s (List.mem_cons_of_mem _ hs)

variable {lens : List Nat}

theorem trieLengths_symbolsBelow (h : SymbolsBelow tb lens.length table) (hn : lens.length ≤ 2048) (k code : Nat) :
    SymbolsBelow tb lens.length (trieLengths lens tb k table code).1 := by
  induction k with
  | zero => exact h
  | succ k ih => exact trieSymbols_symbolsBelow ih hn _ _ fun sym hsym => lt_length_of_mem_symbolsOfLength hsym

/-- A direct slot names a symbol of its length. -/
theorem fastSymbol_lt_of_mem_directPart (hn : lens.length ≤ 2048) {k : Nat} (hk : k < 32) {e : Entry}
    (he : e ∈ directPart lens tb k) : fastSymbol e < lens.length := by
  induction k with
  | zero => cases he
  | succ k ih =>
    rcases List.mem_append.mp he with he | he
    · exact ih (by omega) he
    · obtain ⟨sym, hsym, hrep⟩ := List.mem_flatMap.mp he
      have hlt := lt_length_of_mem_symbolsOfLength hsym
      rw [(List.mem_replicate.mp hrep).2, fastSymbol_fastRecord hk (hlt.trans_le hn)]
      exact hlt

variable {maxLen : Nat} {reject : Bool}

theorem directRegion_symbolsBelow (h1 : 1 ≤ lens.length) (hn : lens.length ≤ 2048) (h12 : tb ≤ 12) (htb : tb ≤ maxLen)
    (hk : (kraftLeft lens maxLen).isSome = true) : SymbolsBelow tb lens.length (directRegion lens tb) := by
  intro i _
  refine ⟨?_, fun hi => ?_⟩
  · rw [directRegion_getD]
    by_cases hi : i < (directPart lens tb tb).length
    · rw [List.getD_eq_getElem _ _ hi]
      exact fastSymbol_lt_of_mem_directPart hn (by omega) (List.getElem_mem hi)
    · rw [List.getD_eq_default _ _ (Nat.not_lt.mp hi)]
      exact h1
  · rw [List.getD_eq_default _ _ ((directRegion_length htb hk).trans_le hi)]
    exact h1

/-- The records of a built table name symbols of its code. -/
theorem buildTable_symbolsBelow (hb : buildTable reject lens tb maxLen = some table)
    (hlim : tableLimits lens.length tb maxLen = true) : SymbolsBelow tb lens.length table := by
  obtain ⟨h1, hn, -, h12, htb, -⟩ := tableLimits_iff.mp hlim
  obtain ⟨-, left, hk, ⟨-, rfl⟩ | ⟨-, rfl⟩⟩ := buildTable_eq_some hb
  · exact symbolsBelow_replicate_zero tb h1 _
  · exact trieLengths_symbolsBelow (directRegion_symbolsBelow h1 hn h12 htb (by rw [hk]; rfl)) hn _ _

/-- A step of a walk never leads to a direct slot: those stand at depth 0. -/
theorem TrieOk.le_child {D code i : Nat} {place : Nat → Place} (h : TrieOk tb D code table place)
    (hnode : isNode (table.getD i 0#16) = true) {b : Nat} (hb : b < 2) :
    2 ^ tb ≤ childIndex (table.getD i 0#16) + b := by
  by_contra hslot
  have hdepth := ((h.node i hnode).2 b hb).symm.trans (h.slot _ (Nat.not_le.mp hslot))
  exact absurd (congrArg Place.depth hdepth) (Nat.succ_ne_zero _)

theorem buildTable_le_child (hb : buildTable reject lens tb maxLen = some table)
    (hlim : tableLimits lens.length tb maxLen = true) {i : Nat} (hnode : isNode (table.getD i 0#16) = true) {b : Nat}
    (hbit : b < 2) : 2 ^ tb ≤ childIndex (table.getD i 0#16) + b := by
  obtain ⟨-, hn, -, h12, htb, -, hsize⟩ := tableLimits_iff.mp hlim
  have hlen := (buildTable_length_le htb hb).trans hsize
  obtain ⟨-, left, hk, ⟨-, rfl⟩ | ⟨-, rfl⟩⟩ := buildTable_eq_some hb
  · have hzero : (List.replicate (2 ^ tb) 0#16).getD i 0#16 = 0#16 := Except.ok.inj (listEntry_replicate_zero _ i)
    rw [hzero] at hnode
    exact absurd hnode (by decide)
  · have hsome : (kraftLeft lens maxLen).isSome = true := by
      rw [hk]
      rfl
    have hdirect := directRegion_ok hn h12 htb hsome
    rw [directPart_mul_two] at hlen hnode ⊢
    cases hx : maxLen - tb with
    | zero =>
      rw [hx] at hnode
      exact hdirect.le_child hnode hbit
    | succ k =>
      rw [hx] at hlen hnode
      obtain ⟨code, place, hok⟩ := trieLengths_succ_ok hn (by omega) hsome hdirect hlen
      exact hok.le_child hnode hbit

/-! ### The symbols that DecodeSym answers (R141) -/

variable {inp : Space} {r t : BitReader} {sym : Nat}

theorem walkTrie_symbol_lt (hb : buildTable reject lens tb maxLen = some table)
    (hlim : tableLimits lens.length tb maxLen = true) {fuel i : Nat} (hnode : isNode (table.getD i 0#16) = true)
    (h : walkTrie (listEntry table) fuel (table.getD i 0#16) r = .ok sym t) : sym < lens.length := by
  induction fuel generalizing i r with
  | zero => cases h
  | succ fuel ih =>
    obtain ⟨b, r1, hpop, h⟩ := bind_ok_inv h
    obtain ⟨e, r2, hentry, h⟩ := bind_ok_inv h
    cases hentry
    have hbit : b < 2 := by
      rcases pop_cases 1 r with ⟨-, hp⟩ | ⟨-, hp⟩ <;> cases hp.symm.trans hpop
      exact top_bits_lt r.bitbuf (n := 1) (by decide)
    rcases ite_ok_inv h with ⟨hnext, h⟩ | ⟨hleaf, h⟩
    · exact ih hnext h
    · cases h
      exact (buildTable_symbolsBelow hb hlim _ (eq_false_of_ne_true hleaf)).2 (buildTable_le_child hb hlim hnode hbit)

/-- DecodeSym through a built table answers a symbol of the code. -/
theorem decodeSym_symbol_lt (hb : buildTable reject lens tb maxLen = some table)
    (hlim : tableLimits lens.length tb maxLen = true)
    (h : decodeSym inp (listEntry table) tb maxLen r = .ok sym t) : sym < lens.length := by
  obtain ⟨_, r1, -, h⟩ := bind_ok_inv h
  obtain ⟨i, r2, -, h⟩ := bind_ok_inv h
  obtain ⟨e, r3, hentry, h⟩ := bind_ok_inv h
  cases hentry
  rcases ite_ok_inv h with ⟨hnode, h⟩ | ⟨hleaf, h⟩
  · obtain ⟨_, r4, -, h⟩ := bind_ok_inv h
    exact walkTrie_symbol_lt hb hlim hnode (get_bind_ok_inv h)
  · obtain ⟨_, r4, -, h⟩ := bind_ok_inv h
    cases h
    exact (buildTable_symbolsBelow hb hlim i (eq_false_of_ne_true hleaf)).1

end

end Sys2Proof.Machine

/-! ## CB_DECOMPRESS never faults on its input -/

namespace Sys2Proof.Machine

/-! ### Ending well or with one of the codec's statuses (44_codec_b.md R264) -/

/-- The statuses a codec B chunk can fail with. -/
def cbFailures : List Status := [.malformed, .truncated, .reference, .metadata]

section
variable {σ α β : Type} {I : σ → Prop} {J : α → σ → Prop} {K : β → σ → Prop} {f : Run σ α}

/-- From a state with `I` the computation ends well with `J` of its value and state, or fails with one of the codec's
statuses; it never faults. -/
def CbEnds (I : σ → Prop) (f : Run σ α) (J : α → σ → Prop) : Prop :=
  ∀ s, I s → (∃ a t, f s = .ok a t ∧ J a t) ∨ ∃ e ∈ cbFailures, ∃ t, f s = .error (.fail e) t

theorem cbEnds_pure {a : α} (h : ∀ s, I s → J a s) : CbEnds I (pure a) J := fun s hs => .inl ⟨a, s, rfl, h s hs⟩

theorem cbEnds_fail {e : Status} (he : e ∈ cbFailures) : CbEnds I (throw (.fail e) : Run σ α) J := fun s _ =>
  .inr ⟨e, he, s, rfl⟩

theorem CbEnds.bind (hf : CbEnds I f J) {g : α → Run σ β} (hg : ∀ a, CbEnds (J a) (g a) K) : CbEnds I (f >>= g) K := by
  intro s hs
  rcases hf s hs with ⟨a, t, hft, ht⟩ | ⟨e, he, t, hft⟩
  · rw [bind_of_ok hft]
    exact hg a t ht
  · exact .inr ⟨e, he, t, bind_of_error hft⟩

/-- What is known of the value alone is a hypothesis for the rest. -/
theorem CbEnds.bind_of {Q : α → Prop} {J : σ → Prop} (hf : CbEnds I f fun a s => Q a ∧ J s) {g : α → Run σ β}
    (hg : ∀ a, Q a → CbEnds J (g a) K) : CbEnds I (f >>= g) K :=
  hf.bind fun a s hs => hg a hs.1 s hs.2

theorem cbEnds_get {g : σ → Run σ β} (hg : ∀ s, I s → CbEnds I (g s) K) : CbEnds I ((get : Run σ σ) >>= g) K :=
  fun s hs => hg s hs s hs

theorem cbEnds_ite {c : Prop} [Decidable c] {f g : Run σ α} (hf : c → CbEnds I f J) (hg : ¬ c → CbEnds I g J) :
    CbEnds I (if c then f else g) J := by
  split_ifs with h
  · exact hf h
  · exact hg h

theorem CbEnds.mono (hf : CbEnds I f J) {J' : α → σ → Prop} (h : ∀ a s, J a s → J' a s) : CbEnds I f J' := fun s hs =>
  (hf s hs).imp (fun ⟨a, t, hft, ht⟩ => ⟨a, t, hft, h a t ht⟩) id

end

/-! ### The bit reader -/

section
variable {α β : Type} {inp : Space} {reject : Bool} {lens : List Nat} {table : List Entry} {tb maxLen : Nat}

/-- Over written input the computation ends so, its value having `Q`, and the input still written. -/
def Reads (inp : Space) (f : Run BitReader α) (Q : α → Prop) : Prop :=
  CbEnds (ReadsWritten inp) f fun a r => Q a ∧ ReadsWritten inp r

theorem reads_pure {Q : α → Prop} {a : α} (h : Q a) : Reads inp (pure a) Q := cbEnds_pure fun _ hr => ⟨h, hr⟩

theorem Reads.bind {Q : α → Prop} {Q' : β → Prop} {f : Run BitReader α} (hf : Reads inp f Q) {g : α → Run BitReader β}
    (hg : ∀ a, Q a → Reads inp (g a) Q') : Reads inp (f >>= g) Q' := CbEnds.bind_of hf hg

theorem reads_readBits (inp : Space) {n : Nat} (hn : n ≤ 16) : Reads inp (readBits inp n) fun _ => True := fun _ hr =>
  let ⟨t, ht, _, hin, _⟩ := readBits_stream hn hr
  .inl ⟨_, t, ht, trivial, hin⟩

theorem reads_readLit (inp : Space) (k : Nat) : Reads inp (readLit inp k) fun _ => True := fun _ hr =>
  .inl ⟨_, _, readLit_of_written k hr, trivial, hr.skipLiteral k⟩

/-- ReadBytes gives the bytes asked for, or ends the chunk with E_TRUNCATED (40_bit_reader.md R107). -/
theorem reads_readBytes (inp : Space) (n : Nat) : Reads inp (readBytes inp n) fun bs => bs.length = n := by
  intro r hr
  by_cases hfit : r.next + n ≤ r.stop
  · obtain ⟨hok, hlim, hw⟩ := hr
    obtain ⟨bs, -, hread⟩ := readBytes_of_written (inp := inp) hfit hlim fun i hi => hw i (by omega)
    exact .inl ⟨bs, _, hread, readBytes_length hread,
      ReadsWritten.of_later ⟨hok, hlim, hw⟩ (advance_ok hok hfit) rfl (Nat.le_add_right ..)⟩
  · exact .inr ⟨.truncated, by decide, r, readBytes_of_lt (Nat.not_le.mp hfit)⟩

theorem reads_buildOrFail (inp : Space) (reject : Bool) (lens : List Nat) (tb maxLen : Nat) :
    Reads inp (buildOrFail reject lens tb maxLen) fun table => buildTable reject lens tb maxLen = some table := by
  cases hb : buildTable reject lens tb maxLen with
  | none =>
    rw [buildOrFail_of_none hb]
    exact cbEnds_fail (by decide)
  | some table =>
    rw [buildOrFail_of_some hb]
    exact reads_pure rfl

/-- The table of no symbols is that of one unused symbol (41_huffman.md R135). -/
theorem buildTable_nil (reject : Bool) (tb maxLen : Nat) : buildTable reject [] tb maxLen = buildTable reject [0] tb maxLen :=
  (buildTable_of_empty reject (by simp) tb maxLen).trans (buildTable_of_empty reject (by simp) tb maxLen).symm

/-- Through a built table DecodeSym always answers, with a symbol of the code. -/
theorem reads_decodeSym (inp : Space) (hb : buildTable reject lens tb maxLen = some table)
    (hlim : tableLimits (max 1 lens.length) tb maxLen = true) :
    Reads inp (decodeSym inp (listEntry table) tb maxLen) fun sym => sym < max 1 lens.length := by
  intro r hr
  obtain ⟨lens', hlens, hb'⟩ : ∃ lens', lens'.length = max 1 lens.length ∧
      buildTable reject lens' tb maxLen = some table := by
    cases lens with
    | nil => exact ⟨[0], rfl, (buildTable_nil reject tb maxLen).symm.trans hb⟩
    | cons l ls => exact ⟨l :: ls, (max_eq_right (Nat.le_add_left 1 ls.length)).symm, hb⟩
  rw [← hlens] at hlim ⊢
  obtain ⟨sym, t, hdec, ht⟩ := decodeSym_total hb' hlim hr
  exact .inl ⟨sym, t, hdec, decodeSym_symbol_lt hb' hlim hdec, ht⟩

/-! ### The block header and the code lengths (R195, R198, R200) -/

theorem reads_blockHeader (inp : Space) (w : Nat) : Reads inp (blockHeader inp w) fun _ => True := by
  refine (reads_readBits inp (by decide)).bind fun btype _ => ?_
  refine (reads_readBits inp (by decide)).bind fun std _ => ?_
  refine cbEnds_ite (fun _ => reads_pure trivial) fun _ => ?_
  refine (reads_readBits inp (by decide)).bind fun size _ => ?_
  exact cbEnds_ite (fun _ => (reads_readBits inp (by decide)).bind fun _ _ => reads_pure trivial)
    fun _ => reads_pure trivial

theorem reads_readFields (inp : Space) {k : Nat} (hk : k ≤ 16) (n : Nat) :
    Reads inp (readFields inp k n) fun vs => vs.length = n := by
  induction n with
  | zero => exact reads_pure rfl
  | succ n ih =>
    refine (reads_readBits inp hk).bind fun v _ => ih.bind fun rest hrest => reads_pure ?_
    rw [List.length_cons, hrest]

theorem reads_runLength {precode : List Nat} (hb : buildTable reject precode 6 15 = some table)
    (hcount : precode.length = 20) (lens : List Nat) (i p : Nat) :
    Reads inp (runLength inp table lens i p) fun _ => True := by
  refine cbEnds_ite (fun _ => (reads_readBits inp (by decide)).bind fun _ _ => reads_pure trivial) fun _ => ?_
  refine cbEnds_ite (fun _ => (reads_readBits inp (by decide)).bind fun _ _ => reads_pure trivial) fun _ => ?_
  refine (reads_readBits inp (by decide)).bind fun x _ => ?_
  refine (reads_decodeSym inp hb (precode_limits hcount)).bind fun q _ => ?_
  exact cbEnds_ite (fun _ => cbEnds_fail (by decide)) fun _ => reads_pure trivial

theorem putRun_length (limit v run i : Nat) (lens : List Nat) : (putRun limit v run lens i).length = lens.length := by
  induction run generalizing lens i with
  | zero => rfl
  | succ run ih =>
    rw [putRun, ih]
    split_ifs <;> simp

theorem reads_lensLoop {precode : List Nat} (hb : buildTable reject precode 6 15 = some table)
    (hcount : precode.length = 20) (stop limit fuel : Nat) (lens : List Nat) (i : Nat) :
    Reads inp (lensLoop inp table stop limit fuel lens i) fun lens' => lens'.length = lens.length := by
  induction fuel generalizing lens i with
  | zero => exact reads_pure rfl
  | succ fuel ih =>
    have next : ∀ v run, Reads inp (lensLoop inp table stop limit fuel (putRun limit v run lens i) (i + run))
        fun lens' => lens'.length = lens.length := fun v run => by
      have h := ih (putRun limit v run lens i) (i + run)
      rwa [putRun_length] at h
    refine cbEnds_ite (fun _ => reads_pure rfl) fun _ => ?_
    refine (reads_decodeSym inp hb (precode_limits hcount)).bind fun p _ => ?_
    refine cbEnds_ite (fun _ => next _ 1) fun _ => ?_
    exact (reads_runLength hb hcount lens i p).bind fun x _ => next _ _

/-- ReadLens keeps the number of lengths. -/
theorem reads_readLens (inp : Space) (reject : Bool) (lens : List Nat) (start num limit : Nat) :
    Reads inp (readLens inp reject lens start num limit) fun lens' => lens'.length = lens.length := by
  refine (reads_readFields inp (by decide) 20).bind fun precode hcount => ?_
  exact (reads_buildOrFail inp reject precode 6 15).bind fun table hb => reads_lensLoop hb hcount _ _ _ _ _

theorem reads_alignedTable (inp : Space) (reject : Bool) : Reads inp (alignedTable inp reject) fun table =>
    ∃ lens : List Nat, lens.length = 8 ∧ buildTable reject lens 7 7 = some table := by
  refine (reads_readFields inp (by decide) 8).bind fun lens hcount => ?_
  exact CbEnds.mono (reads_buildOrFail inp reject lens 7 7) fun table r h => ⟨⟨lens, hcount, h.1⟩, h.2⟩

/-! ### The fields of an item (R204, R205) -/

variable {btype : Nat} {codes : CbCodes} {tables : CbTables}

theorem reads_matchLength (h : CodesBuilt reject btype codes tables) (lh : Nat) :
    Reads inp (matchLength inp tables.len lh) fun length => 1 ≤ length := by
  refine cbEnds_ite (fun _ => ?_) fun _ => reads_pure (by omega)
  exact (reads_decodeSym inp h.len (tableLimits_of_le (n := 249) (by decide) h.lenCount (by decide))).bind
    fun x _ => reads_pure (by omega)

/-- The explicit distance of a slot of the main code is at least 1. -/
theorem reads_explicitDistance (h : CodesBuilt reject btype codes tables) {slot : Nat} (h3 : 3 ≤ slot)
    (hslot : slot < 34) : Reads inp (explicitDistance inp tables.aligned btype slot) fun dist => 1 ≤ dist := by
  obtain ⟨hextra, hbase⟩ := offsetSlots_eq slot hslot
  obtain ⟨h15, -, hthree⟩ := offsetSlots_bounds slot hslot
  have hstart := hthree h3
  rw [← hextra] at h15
  rw [← hbase] at hstart
  refine cbEnds_ite (fun hcase => ?_) fun _ => (reads_readBits inp (by omega)).bind fun x _ => reads_pure (by omega)
  refine (reads_readBits inp (by omega)).bind fun high _ => ?_
  exact (reads_decodeSym inp (h.aligned hcase.1)
    (tableLimits_of_le (n := 8) (by decide) (h.alignedCount hcase.1) (by decide))).bind
      fun low _ => reads_pure (by omega)

/-- The header of an uncompressed block (R199). -/
theorem reads_readRecent (inp : Space) : Reads inp (readRecent inp) fun _ => True := by
  intro r hr
  obtain ⟨e, hens, -, -, hin, -⟩ := ensure_stream (n := 1) (by decide) hr
  rw [readRecent, bind_of_ok hens, bind_of_ok (modify_run _ e)]
  refine (reads_readLit inp 4).bind (fun _ _ => (reads_readLit inp 4).bind fun _ _ => (reads_readLit inp 4).bind
    fun _ _ => reads_pure trivial) (alignReader e) ?_
  exact hin.of_later (alignReader_ok hin.1) rfl le_rfl

end

/-! ### Sessions -/

section
variable {α : Type} {job : Job} {w p bend btype : Nat} {codes : CbCodes} {tables : CbTables} {s : CbSess}

/-- A session over written input at output position `p`, all bytes before it written. -/
structure CbDecoding (job : Job) (w p : Nat) (s : CbSess) : Prop where
  base : Decoding job s.base
  pos : s.base.pos = p
  positive : s.recent.Positive
  mainCount : s.mainLens.length = numMain w
  lenCount : s.lenLens.length = numLen

/-- Work on the reader leaves the session where it is. -/
theorem cbEnds_onCbReader {f : Run BitReader α} {Q : α → Prop} (hf : Reads job.inp f Q) :
    CbEnds (CbDecoding job w p) (onCbReader f) fun a s => Q a ∧ CbDecoding job w p s := by
  rintro s ⟨⟨hin, hroom, hfilled⟩, hpos, hpositive, hmain, hlen⟩
  rcases hf s.base.reader hin with ⟨a, r, hfr, ha, hr⟩ | ⟨e, he, r, hfr⟩
  · exact .inl ⟨a, _, onCbReader_of_ok hfr, ha, ⟨hr, hroom, hfilled⟩, hpos, hpositive, hmain, hlen⟩
  · exact .inr ⟨e, he, _, zoom_of_error (part := CbSess.base) (put := fun b s => { s with base := b })
      (zoom_of_error (part := Sess.reader) (put := fun r s => { s with reader := r }) hfr)⟩

/-! ### Items (R204, R206) -/

theorem cbEnds_offset (h : CodesBuilt job.params.rejectIncomplete btype codes tables) {slot : Nat}
    (hslot : slot < 34) :
    CbEnds (CbDecoding job w p) (offset job tables.aligned btype slot) fun dist s =>
      1 ≤ dist ∧ CbDecoding job w p s := by
  refine cbEnds_ite (fun hrecent => ?_) fun hexplicit => ?_
  · rintro s ⟨hbase, hpos, hpositive, hmain, hlen⟩
    exact .inl ⟨_, _, rfl, recentDistance_pos hpositive slot,
      ⟨hbase, hpos, reuseRecent_positive _ hpositive slot, hmain, hlen⟩⟩
  · refine (cbEnds_onCbReader (reads_explicitDistance h (Nat.not_lt.mp hexplicit) hslot)).bind fun dist => ?_
    rintro s ⟨hdist, hbase, hpos, hpositive, hmain, hlen⟩
    exact .inl ⟨_, _, rfl, hdist, ⟨hbase, hpos, pushRecent_positive hpositive hdist, hmain, hlen⟩⟩

/-- Bytes stored at the output position, and the position moved past them. -/
theorem CbDecoding.moved (h : CbDecoding job w p s) {out : Space} {k : Nat}
    (hchanged : ChangedWithin (job.outBase + p) (job.outBase + p + k) s.base.out out)
    (hwritten : Written out.cells (job.outBase + p) k) :
    CbDecoding job w (p + k) { s with base := { s.base with out := out, pos := p + k } } := by
  obtain ⟨⟨hin, hroom, hfilled⟩, rfl, hpositive, hmain, hlen⟩ := h
  exact ⟨⟨hin, hchanged.limit ▸ hroom, (Fills.of_written hchanged hwritten).2 hfilled⟩, rfl, hpositive, hmain, hlen⟩

theorem cbEnds_emitLiteral (hp : p < job.outSize) (sym : Nat) :
    CbEnds (CbDecoding job w p) (onBase (emitLiteral job sym)) fun _ s => CbDecoding job w (p + 1) s := by
  intro s hs
  obtain rfl := hs.pos
  have hroom := hs.base.room
  have hfit : job.outBase + s.base.pos + [BitVec.ofNat 8 sym].length ≤ s.base.out.limit := by
    simp only [List.length_singleton]
    omega
  obtain ⟨hchanged, hwritten⟩ := storeBytes_ok (storeBytes_of_le hfit)
  exact .inl ⟨(), _, zoom_of_ok (part := CbSess.base) (put := fun b s => { s with base := b }) (emitLiteral_of_le hfit),
    hs.moved hchanged hwritten⟩

theorem cbEnds_emitMatch {length dist : Nat} (hlength : 1 ≤ length) (hdist : 1 ≤ dist) (hback : dist ≤ p)
    (hend : p + length ≤ bend) (hbend : bend ≤ job.outSize) :
    CbEnds (CbDecoding job w p) (onBase (emitMatch job length dist bend)) fun _ s =>
      CbDecoding job w (p + length) s := by
  intro s hs
  obtain rfl := hs.pos
  have hroom := hs.base.room
  obtain ⟨out, hcopy, hchanged, hbytes⟩ := emitMatch_of_filled hs.base.filled hlength hdist hback hend
    (show job.outBase + bend ≤ s.base.out.limit by omega)
  refine .inl ⟨(), _, zoom_of_ok (part := CbSess.base) (put := fun b s => { s with base := b }) hcopy,
    hs.moved hchanged fun i hi => ?_⟩
  have hmod := Nat.mod_lt i hdist
  have hsource := hs.base.filled (s.base.pos - dist + i % dist) (by omega)
  rwa [hbytes i hi, show job.outBase + s.base.pos - dist + i % dist = job.outBase + (s.base.pos - dist + i % dist)
    by omega]

/-- An item is expanded inside its block, or is a match that R206 refuses. -/
theorem cbEnds_cbItem (h : CodesBuilt job.params.rejectIncomplete btype codes tables) (hp : p < bend)
    (hbend : bend ≤ job.outSize) :
    CbEnds (CbDecoding job w p) (cbItem job tables btype bend) fun _ s => ∃ p' ≤ bend, CbDecoding job w p' s := by
  have hcount := h.mainCount
  refine (cbEnds_onCbReader (reads_decodeSym job.inp h.main
    (tableLimits_of_le (n := 528) (by decide) hcount (by decide)))).bind_of fun sym hsym => ?_
  refine cbEnds_ite (fun _ => ?_) fun hmatch => ?_
  · exact (cbEnds_emitLiteral (by omega) sym).mono fun _ s hs => ⟨p + 1, hp, hs⟩
  · refine (cbEnds_onCbReader (reads_matchLength h _)).bind_of fun length hlength => ?_
    refine (cbEnds_offset h (by omega)).bind_of fun dist hdist => cbEnds_get fun s hs => ?_
    have hpos := hs.pos
    refine cbEnds_ite (fun _ => cbEnds_fail (by decide)) fun hend => ?_
    refine cbEnds_ite (fun _ => cbEnds_fail (by decide)) fun hback => ?_
    exact (cbEnds_emitMatch hlength hdist (by omega) (by omega) hbend).mono
      fun _ u hu => ⟨p + length, by omega, hu⟩

theorem cbEnds_cbItems (h : CodesBuilt job.params.rejectIncomplete btype codes tables) (hp : p ≤ bend)
    (hbend : bend ≤ job.outSize) (fuel : Nat) :
    CbEnds (CbDecoding job w p) (cbItems job tables btype bend fuel) fun _ s => ∃ p' ≤ bend, CbDecoding job w p' s := by
  induction fuel generalizing p with
  | zero => exact cbEnds_pure fun s hs => ⟨p, hp, hs⟩
  | succ fuel ih =>
    refine cbEnds_get fun s hs => ?_
    have hpos := hs.pos
    refine cbEnds_ite (fun _ => cbEnds_pure fun s hs => ⟨p, hp, hs⟩) fun hne => ?_
    exact (cbEnds_cbItem h (by omega) hbend).bind fun _ t ⟨p', hp', ht⟩ => ih hp' t ht

/-! ### Blocks (R194-R199) -/

/-- The bytes of an uncompressed block stored, and its pad byte passed over. -/
theorem cbEnds_storeBytes {bs : List Byte} (hend : p + bs.length ≤ job.outSize) {f : Run CbSess Unit}
    (hf : CbEnds (CbDecoding job w (p + bs.length)) f fun _ s => CbDecoding job w (p + bs.length) s) :
    CbEnds (CbDecoding job w p) (onBase (onOut (storeBytes (job.outBase + p) bs)) >>= fun _ =>
      onBase (moveTo (p + bs.length)) >>= fun _ => f) fun _ s => CbDecoding job w (p + bs.length) s := by
  intro s hs
  have hroom := hs.base.room
  have hstore := storeBytes_of_le (a := job.outBase + p) (bs := bs) (sp := s.base.out) (by omega)
  obtain ⟨hchanged, hwritten⟩ := storeBytes_ok hstore
  have hout : onBase (onOut (storeBytes (job.outBase + p) bs)) s = .ok () _ :=
    zoom_of_ok (part := CbSess.base) (put := fun b s => { s with base := b })
      (zoom_of_ok (part := Sess.out) (put := fun sp s => { s with out := sp }) hstore)
  rw [bind_of_ok hout]
  exact hf _ (hs.moved hchanged hwritten)

/-- An uncompressed block inside the output. -/
theorem cbEnds_uncompressed {bsize : Nat} (hend : p + bsize ≤ job.outSize) :
    CbEnds (CbDecoding job w p) (uncompressed job bsize) fun _ s => CbDecoding job w (p + bsize) s := by
  refine (cbEnds_onCbReader (reads_readRecent job.inp)).bind_of fun q _ s hs => ?_
  obtain ⟨hbase, hpos, -, hmain, hlen⟩ := hs
  rw [bind_of_ok (modify_run _ s)]
  by_cases hzero : q.r0 = 0 ∨ q.r1 = 0 ∨ q.r2 = 0
  · rw [if_pos hzero]
    exact .inr ⟨.metadata, by decide, _, rfl⟩
  rw [if_neg hzero]
  have hpositive : q.Positive := ⟨by omega, by omega, by omega⟩
  refine (cbEnds_onCbReader (w := w) (p := p) (reads_readBytes job.inp bsize)).bind_of (fun bs hbs => ?_)
    { s with recent := q } ⟨hbase, hpos, hpositive, hmain, hlen⟩
  subst hbs
  refine cbEnds_get fun s hs => ?_
  rw [hs.pos]
  refine cbEnds_storeBytes hend (cbEnds_ite (fun _ => ?_) fun _ => cbEnds_pure fun s hs => hs)
  exact (cbEnds_onCbReader (reads_readLit job.inp 1)).bind_of fun _ _ => cbEnds_pure fun s hs => hs

theorem cbEnds_blockAligned (job : Job) (w p btype : Nat) :
    CbEnds (CbDecoding job w p) (blockAligned job btype) fun table s =>
      (btype = 2 → ∃ lens : List Nat, lens.length = 8 ∧
        buildTable job.params.rejectIncomplete lens 7 7 = some table) ∧ CbDecoding job w p s := by
  refine cbEnds_ite (fun _ => ?_) fun hbtype => cbEnds_pure fun s hs => ⟨fun h => absurd h hbtype, hs⟩
  exact (cbEnds_onCbReader (reads_alignedTable job.inp _)).mono fun table s h => ⟨fun _ => h.1, h.2⟩

/-- A built table, or E_MALFORMED, in any session. -/
theorem cbEnds_buildOrFail {I : CbSess → Prop} (reject : Bool) (lens : List Nat) (tb maxLen : Nat) :
    CbEnds I (buildOrFail reject lens tb maxLen) fun table s =>
      buildTable reject lens tb maxLen = some table ∧ I s := by
  cases hb : buildTable reject lens tb maxLen with
  | none =>
    rw [buildOrFail_of_none hb]
    exact cbEnds_fail (by decide)
  | some table =>
    rw [buildOrFail_of_some hb]
    exact cbEnds_pure fun s hs => ⟨rfl, hs⟩

/-- CodeLengths gives tables of codes with no more symbols than the format has. -/
theorem cbEnds_codeLengths (hw : w ∈ [15, 16, 17]) (btype : Nat) :
    CbEnds (CbDecoding job w p) (codeLengths job w btype) fun tables s =>
      (∃ codes, CodesBuilt job.params.rejectIncomplete btype codes tables) ∧ CbDecoding job w p s := by
  refine (cbEnds_blockAligned job w p btype).bind_of fun aligned haligned => cbEnds_get fun s hs => ?_
  refine (cbEnds_onCbReader (reads_readLens _ _ _ _ _ _)).bind_of fun main1 hmain1 => ?_
  refine (cbEnds_onCbReader (reads_readLens _ _ _ _ _ _)).bind_of fun main2 hmain2 => ?_
  refine (cbEnds_onCbReader (reads_readLens _ _ _ _ _ _)).bind_of fun len hlen => ?_
  have hmainCount : main2.length = numMain w := hmain2.trans (hmain1.trans hs.mainCount)
  have hlenCount : len.length = numLen := hlen.trans hs.lenCount
  rintro t ⟨hbase, hpos, hpositive, -, -⟩
  rw [bind_of_ok (modify_run _ t)]
  refine (cbEnds_buildOrFail (I := CbDecoding job w p) _ main2 11 16).bind_of (fun mainTable hmainTable => ?_) _
    ⟨hbase, hpos, hpositive, hmainCount, hlenCount⟩
  refine (cbEnds_buildOrFail _ len 10 16).bind_of fun lenTable hlenTable => cbEnds_pure fun u hu => ⟨?_, hu⟩
  by_cases hbtype : btype = 2
  · obtain ⟨lens, hcount, htable⟩ := haligned hbtype
    exact ⟨⟨main2, len, lens⟩, hmainCount.trans_le (numMain_bounds hw).2, hlenCount.le, fun _ => hcount.le, hmainTable,
      hlenTable, fun _ => htable⟩
  · exact ⟨⟨main2, len, []⟩, hmainCount.trans_le (numMain_bounds hw).2, hlenCount.le, fun h => absurd h hbtype,
      hmainTable, hlenTable, fun h => absurd h hbtype⟩

theorem cbEnds_cbBlock (hw : w ∈ [15, 16, 17]) :
    CbEnds (CbDecoding job w p) (cbBlock job w) fun _ s => ∃ p' ≤ job.outSize, CbDecoding job w p' s := by
  refine (cbEnds_onCbReader (reads_blockHeader job.inp w)).bind_of fun header _ => cbEnds_get fun s hs => ?_
  rw [hs.pos]
  refine cbEnds_ite (fun hlegal => ?_) fun _ => cbEnds_fail (by decide)
  obtain ⟨-, -, hend⟩ := headerLegal_iff.mp hlegal
  refine cbEnds_ite (fun _ => ?_) fun _ => ?_
  · exact (cbEnds_uncompressed hend).mono fun _ t ht => ⟨_, hend, ht⟩
  · refine (cbEnds_codeLengths hw header.1).bind_of fun tables ⟨codes, hcodes⟩ => ?_
    exact (cbEnds_cbItems hcodes (Nat.le_add_right ..) hend _).mono fun _ t ⟨p', hp', ht⟩ => ⟨p', hp'.trans hend, ht⟩

theorem cbEnds_cbBlocks (hw : w ∈ [15, 16, 17]) (hp : p ≤ job.outSize) (fuel : Nat) :
    CbEnds (CbDecoding job w p) (cbBlocks job w fuel) fun _ s => ∃ p' ≤ job.outSize, CbDecoding job w p' s := by
  induction fuel generalizing p with
  | zero => exact cbEnds_pure fun s hs => ⟨p, hp, hs⟩
  | succ fuel ih =>
    refine cbEnds_get fun s hs => cbEnds_ite (fun _ => cbEnds_pure fun s hs => ⟨p, hp, hs⟩) fun _ => ?_
    exact (cbEnds_cbBlock hw).bind fun _ t ⟨p', hp', ht⟩ => ih hp' t ht

/-! ### The chunk -/

/-- CbDecode ends well or with E_MALFORMED, E_TRUNCATED, E_REFERENCE or E_METADATA. -/
theorem cbEnds_cbDecode (hw : w ∈ [15, 16, 17]) (hin : job.inBase + job.inSize ≤ job.inp.limit)
    (hwritten : Written job.inp.cells job.inBase job.inSize) :
    CbEnds (fun out => job.outBase + job.outSize ≤ out.limit) (cbDecode job w) fun _ _ => True := by
  intro out hroom
  have hstart : CbDecoding job w 0 (sessionStart job w out) :=
    ⟨⟨initReader_readsWritten hin hwritten, hroom, fun i hi => absurd hi (Nat.not_lt_zero i)⟩, rfl,
      ⟨le_rfl, le_rfl, le_rfl⟩, List.length_replicate, List.length_replicate⟩
  rcases cbEnds_cbBlocks hw (Nat.zero_le _) job.outSize _ hstart with ⟨_, t, hblocks, -⟩ | ⟨e, he, t, hblocks⟩
  · by_cases hpad : job.params.exhaustion = .failOnPadding ∧ t.base.reader.padused = true
    · exact .inr ⟨.truncated, by decide, _, cbDecode_of_padded hblocks hpad⟩
    · obtain ⟨m, -, hdecode⟩ := cbDecode_of_blocks hroom hblocks hpad
      exact .inl ⟨(), _, hdecode, trivial⟩
  · exact .inr ⟨e, he, _, cbDecode_of_session_error (bind_of_error hblocks)⟩

end

/-- Settles O44: the endings of CbDecode, the frame of the command, and that a chunk which ends well is wholly written. -/
theorem cbDecompressNeverFaultsOnInput : Obligations.CbDecompressNeverFaultsOnInput := by
  intro s inBase inSize outBase outSize w h0 h1 h2 h3 h4 hw hmax hin hout hdis hwritten
  have hrun := exec_cbDecompress h0 h1 h2 h3 h4 hw hmax hin hout hdis
  rcases cbEnds_cbDecode (job := lmemJob s inBase inSize outBase outSize) hw hin hwritten (lmemSpace s) hout with
    ⟨_, out, hdecode, -⟩ | ⟨e, he, out, hdecode⟩
  · have hexec := hrun.trans (runCommand_of_cbDecode hdecode)
    exact ⟨0#8, out.cells, hexec, by decide, cbDecompress_lmem hexec h2 h3, fun _ => cbDecode_written hdecode⟩
  · have hexec := hrun.trans (runCommand_of_cbDecode_fail hdecode)
    have hcode : statusCode e ∈ ([0#8, 1#8, 2#8, 3#8, 4#8] : List (BitVec 8)) ∧ statusCode e ≠ 0#8 := by
      simp only [cbFailures, List.mem_cons, List.not_mem_nil, or_false] at he
      rcases he with rfl | rfl | rfl | rfl <;> decide
    exact ⟨statusCode e, out.cells, hexec, hcode.1, cbDecompress_lmem hexec h2 h3, fun h => absurd h hcode.2⟩

end Sys2Proof.Machine

/-! ## The uncompressed blocks of a chunk -/

namespace Sys2Proof.Machine

/-! ### Bytes and units in memory (20_memory.md R57, R59) -/

section
variable {m : Memory} {a : Nat}

/-- Bytes one after another stand where their parts stand. -/
theorem holdsBytes_append {xs ys : List Byte} :
    HoldsBytes m a (xs ++ ys) ↔ HoldsBytes m a xs ∧ HoldsBytes m (a + xs.length) ys := by
  refine ⟨fun h => ⟨fun i hi => ?_, fun i hi => ?_⟩, fun ⟨hx, hy⟩ i hi => ?_⟩
  · rw [h i (by rw [List.length_append]; omega), List.getElem_append_left hi]
  · rw [Nat.add_assoc, h (xs.length + i) (by rw [List.length_append]; omega),
      List.getElem_append_right (Nat.le_add_right ..)]
    simp only [Nat.add_sub_cancel_left]
  · by_cases hlt : i < xs.length
    · rw [List.getElem_append_left hlt, hx i hlt]
    · rw [List.length_append] at hi
      rw [List.getElem_append_right (Nat.not_lt.mp hlt), ← hy (i - xs.length) (by omega), Nat.add_assoc,
        Nat.add_sub_cancel' (Nat.not_lt.mp hlt)]

theorem HoldsBytes.written {bs : List Byte} (h : HoldsBytes m a bs) : Written m a bs.length := fun i hi => by
  rw [h i hi]
  rfl

theorem unitAt_of_holdsBytes {u : Nat} (hu : u < 2 ^ 16) (h : HoldsBytes m a (leBytes 2 u)) : unitAt m a = u := by
  have hlow := h 0 (by simp)
  have hhigh := h 1 (by simp)
  rw [Nat.add_zero] at hlow
  rw [unitAt, hlow, hhigh]
  simp only [leBytes, List.getElem_cons_zero, List.getElem_cons_succ, Option.getD_some, BitVec.toNat_ofNat]
  omega

/-- Units one after another. -/
theorem unitAt_of_holdsBytes_units {us : List Nat} (hus : ∀ u ∈ us, u < 2 ^ 16)
    (h : HoldsBytes m a (us.flatMap (leBytes 2))) : ∀ i (hi : i < us.length), unitAt m (a + 2 * i) = us[i] := by
  induction us generalizing a with
  | nil => exact fun _ hi => absurd hi (Nat.not_lt_zero _)
  | cons u us ih =>
    obtain ⟨hu, hus⟩ := List.forall_mem_cons.mp hus
    rw [List.flatMap_cons, holdsBytes_append, leBytes_length] at h
    obtain ⟨hfirst, hrest⟩ := h
    intro i hi
    cases i with
    | zero => exact unitAt_of_holdsBytes hu hfirst
    | succ i =>
      rw [show a + 2 * (i + 1) = a + 2 + 2 * i by omega]
      exact ih hus hrest i (Nat.succ_lt_succ_iff.mp hi)

/-- A number's bytes are read back as the number. -/
theorem memRead_of_leBytes {sp : Space} {n v : Nat} (hv : v < 2 ^ (8 * n)) (h : HoldsBytes sp.cells a (leBytes n v))
    (hlim : a + n ≤ sp.limit) : memRead sp a n = .ok v := by
  have hread := memRead_of_holdsBytes h (by rwa [leBytes_length])
  rwa [leBytes_length, leNat_leBytes, Nat.mod_eq_of_lt hv] at hread

theorem eq_zero_of_leNat_eq_zero {bs : List Byte} (h : leNat bs = 0) : ∀ b ∈ bs, b = 0#8 := by
  induction bs with
  | nil => exact fun _ hb => absurd hb List.not_mem_nil
  | cons b bs ih =>
    rw [leNat] at h
    refine List.forall_mem_cons.mpr ⟨BitVec.eq_of_toNat_eq (by simp only [BitVec.toNat_ofNat]; omega), ih (by omega)⟩

/-- Written bytes that are not all 0 give a number other than 0. -/
theorem memRead_pos_of_written {sp : Space} {n : Nat} (hlim : a + n ≤ sp.limit) (hw : Written sp.cells a n)
    (hne : ∃ j < n, readByte sp.cells (a + j) ≠ some 0#8) : ∃ v, memRead sp a n = .ok v ∧ 1 ≤ v := by
  obtain ⟨bs, hbs⟩ := memReadBytes_of_written hlim hw
  obtain ⟨-, rfl, hget⟩ := (memReadBytes_ok_iff ..).mp hbs
  obtain ⟨j, hj, hne⟩ := hne
  refine ⟨leNat bs, by rw [memRead, hbs], Nat.one_le_iff_ne_zero.mpr fun hzero => hne ?_⟩
  rw [hget j hj, eq_zero_of_leNat_eq_zero hzero _ (List.getElem_mem hj)]

end

/-! ### The bits of units (20_memory.md R59) -/

theorem length_flatMap_of_length_eq {α β : Type} {f : α → List β} {n : Nat} (h : ∀ x, (f x).length = n) (l : List α) :
    (l.flatMap f).length = n * l.length := by
  induction l with
  | nil => rfl
  | cons x l ih => rw [List.flatMap_cons, List.length_append, h, ih, List.length_cons, Nat.mul_succ, Nat.add_comm]

theorem unitBits_length (us : List Nat) : (us.flatMap fun u => bitsOf u 16).length = 16 * us.length :=
  length_flatMap_of_length_eq (fun _ => bitsOf_length ..) us

theorem unitBits_getElem (us : List Nat) (i : Nat) (h : i < (us.flatMap fun u => bitsOf u 16).length) :
    (us.flatMap fun u => bitsOf u 16)[i] =
      (us[i / 16]'(by rw [unitBits_length] at h; omega)).testBit (15 - i % 16) := by
  induction us generalizing i with
  | nil => exact absurd h (Nat.not_lt_zero _)
  | cons u us ih =>
    by_cases hfirst : i < 16
    · simp only [List.flatMap_cons, List.getElem_append_left (show i < (bitsOf u 16).length by simpa using hfirst),
        Nat.div_eq_of_lt hfirst, Nat.mod_eq_of_lt hfirst, List.getElem_cons_zero]
      simp only [bitsOf, List.getElem_map, List.getElem_range]
    · obtain ⟨j, rfl⟩ := Nat.exists_eq_add_of_le (Nat.not_lt.mp hfirst)
      have hj : j < (us.flatMap fun u => bitsOf u 16).length := by
        rw [unitBits_length] at h ⊢
        rw [List.length_cons] at h
        omega
      simp only [List.flatMap_cons, List.getElem_append_right (show (bitsOf u 16).length ≤ 16 + j by simp), bitsOf_length,
        Nat.add_sub_cancel_left, ih j hj, show (16 + j) / 16 = j / 16 + 1 by omega, show (16 + j) % 16 = j % 16 by omega,
        List.getElem_cons_succ]

/-! ### A reader with an empty accumulator -/

/-- A reader at the cursor `next`, nothing buffered and no pad bit consumed, as at the start of a chunk and behind an
uncompressed block. -/
def readerAt (start stop next : Nat) : BitReader where
  start := start
  stop := stop
  next := next
  bitbuf := 0#32
  bitsleft := 0
  realbits := 0
  padused := false
  valid := true

theorem readerAt_ok {start stop next : Nat} (h1 : start ≤ next) (h2 : next ≤ stop) : ReaderOk (readerAt start stop next) :=
  ⟨h1, h2, Nat.zero_le _, le_rfl, rfl, .inl rfl, fun h => by cases h⟩

section
variable {inp : Space} {start stop a : Nat}

/-- It gives the bits of the units at its cursor. -/
theorem streamStarts_units {m : Memory} {us : List Nat} (h : ∀ i (hi : i < us.length), unitAt m (a + 2 * i) = us[i])
    (hstop : a + 2 * us.length ≤ stop) : StreamStarts m (readerAt start stop a) (us.flatMap fun u => bitsOf u 16) := by
  intro i hi
  have hlen := hi
  rw [unitBits_length] at hlen
  have hunit := upcomingBit_unit (m := m) (r := readerAt start stop a) (i := i) (Nat.zero_le i)
    (by simp only [readerAt, Nat.sub_zero]; omega)
  simp only [readerAt, Nat.sub_zero] at hunit ⊢
  rw [hunit, h (i / 16) (by omega), unitBits_getElem]

/-! ### The header and its alignment (44_codec_b.md R195, R199) -/

/-- The cursor moves by whole units. -/
theorem readBits_keeps_parity (inp : Space) (n : Nat) : Always (fun r t => t.next % 2 = r.next % 2) (readBits inp n) := by
  refine always_bind (fun _ _ _ h h' => h'.trans h) (fun r => ?_) fun _ r => ?_
  · rcases ensure_cases inp n r with ⟨-, h⟩ | ⟨-, -, h⟩ | ⟨-, -, ⟨u, -, h⟩ | ⟨c, -, h⟩⟩ <;> rw [h]
    · rfl
    · rfl
    · exact Nat.add_mod_right ..
    · rfl
  · rcases pop_cases n r with ⟨-, h⟩ | ⟨-, h⟩ <;> rw [h] <;> rfl

theorem blockHeader_keeps_parity (inp : Space) (w : Nat) :
    Always (fun r t => t.next % 2 = r.next % 2) (blockHeader inp w) := by
  have hrefl : ∀ r : BitReader, r.next % 2 = r.next % 2 := fun _ => rfl
  have htrans : ∀ r t u : BitReader, t.next % 2 = r.next % 2 → u.next % 2 = t.next % 2 → u.next % 2 = r.next % 2 :=
    fun _ _ _ h h' => h'.trans h
  have hread := readBits_keeps_parity inp
  exact always_bind htrans (hread 3) fun _ => always_bind htrans (hread 1) fun _ =>
    always_ite (always_pure hrefl _) (always_bind htrans (hread 16) fun _ =>
      always_ite (always_bind htrans (hread 8) fun _ => always_pure hrefl _) (always_pure hrefl _))

/-- A header that ends inside its last unit: the next unit is behind it, and a bit of it is still buffered. -/
theorem blockHeader_of_units {us : List Nat} {w btype size : Nat} {byDefault : Bool} {rest : List Bool}
    (hw : w ∈ [15, 16, 17]) (htype : btype < 8) (hdefault : byDefault = true → size = 32768)
    (hsize : byDefault = false → size < 2 ^ (if w = 15 then 16 else 24)) (hstart : start ≤ a)
    (hstop : a + 2 * us.length ≤ stop) (hlim : stop ≤ inp.limit) (hwritten : Written inp.cells a (2 * us.length))
    (hunits : ∀ i (hi : i < us.length), unitAt inp.cells (a + 2 * i) = us[i])
    (hbits : (us.flatMap fun u => bitsOf u 16) = blockHeaderBits w btype size byDefault ++ rest)
    (hrest : 1 ≤ rest.length ∧ rest.length < 16) :
    ∃ t, blockHeader inp w (readerAt start stop a) = .ok (btype, size) t ∧ ensure inp 1 t = .ok () t ∧
      alignReader t = readerAt start stop (a + 2 * us.length) := by
  have hlen := congrArg List.length hbits
  rw [unitBits_length, List.length_append] at hlen
  have hstream := streamStarts_units (start := start) hunits le_rfl
  rw [hbits] at hstream
  have hreads : ReadsWritten inp (readerAt start (a + 2 * us.length) a) := by
    refine ⟨readerAt_ok hstart (Nat.le_add_right ..), hstop.trans hlim, ?_⟩
    simpa [readerAt] using hwritten
  have hall : inputBits (readerAt start (a + 2 * us.length) a) = 16 * us.length := by
    simp [inputBits, readerAt]
  obtain ⟨t, hrun, ht, htstop⟩ := takesUnits_blockHeader inp hw htype hdefault hsize _ stop hreads hstream.left
    (.inr ⟨hstop, by omega⟩)
  obtain ⟨htstart, -, htvalid, -⟩ := (blockHeader_step inp w).ok hrun
  have hparity := (blockHeader_keeps_parity inp w).ok hrun
  have hleft := ht.left
  have hpadded := ht.padused
  obtain ⟨⟨-, hnext, -, hreal, -⟩, -⟩ := ht.reads
  rw [hall] at hleft hpadded
  rw [inputBits] at hleft
  simp only [readerAt] at htstart htvalid hparity htstop hpadded
  have hcursor : t.next = a + 2 * us.length := by omega
  refine ⟨_, hrun, ensure_of_le ?_, ?_⟩
  · change 1 ≤ t.bitsleft
    omega
  · rw [decide_eq_false (by omega), Bool.or_false] at hpadded
    simp only [alignReader, readerAt, htstart, htvalid, hcursor, hpadded]

/-- The two units of a header with an explicit size: `k` bits of the size stand in the second one, above the bits that
alignment discards. -/
theorem explicitUnits_bits {w n k u v low : Nat} (hk : k ≤ 16) (hn : n < 2 ^ (12 + k)) (hlow : low < 2 ^ (16 - k))
    (hw : (if w = 15 then 16 else 24) = 12 + k) (hu : u = 0x6000 + n / 2 ^ k)
    (hv : v = n % 2 ^ k * 2 ^ (16 - k) + low) :
    ([u, v].flatMap fun u => bitsOf u 16) = blockHeaderBits w 3 n false ++ bitsOf low (16 - k) := by
  subst hu hv
  have hhigh : n / 2 ^ k < 2 ^ 12 := Nat.div_lt_of_lt_mul (by rwa [← Nat.pow_add, Nat.add_comm k])
  have hfirst : bitsOf (0x6000 + n / 2 ^ k) 16 = bitsOf 6 4 ++ bitsOf (n / 2 ^ k) 12 :=
    bitsOf_mul_add (v := 6) (n := 4) hhigh
  have hsecond : bitsOf (n % 2 ^ k * 2 ^ (16 - k) + low) 16 = bitsOf (n % 2 ^ k) k ++ bitsOf low (16 - k) := by
    rw [← bitsOf_mul_add hlow, Nat.add_sub_cancel' hk]
  have htype : bitsOf 6 4 = bitsOf 3 3 ++ [false] := by decide
  rw [List.flatMap_cons, List.flatMap_cons, List.flatMap_nil, List.append_nil, hfirst, hsecond, htype, blockHeaderBits,
    if_neg Bool.false_ne_true, hw, bitsOf_add]
  simp only [List.append_assoc]

theorem defaultUnits_bits (w size : Nat) :
    ([0x7000].flatMap fun u => bitsOf u 16) = blockHeaderBits w 3 size true ++ bitsOf 0 12 := by
  rw [blockHeaderBits, if_pos rfl]
  decide

end

/-! ### An uncompressed block (R199) -/

section
variable {inp : Space} {start stop a : Nat} {w : Nat} {q : Recent} {bs : List Byte} {next : Nat}

theorem readLit_readerAt {k v : Nat} (hstop : a + k ≤ stop) (h : memRead inp a k = .ok v) :
    readLit inp k (readerAt start stop a) = .ok v (readerAt start stop (a + k)) :=
  readLit_of_ok (r := readerAt start stop a) hstop h

theorem readBytes_readerAt (hstop : a + bs.length ≤ stop) (hlim : stop ≤ inp.limit) (h : HoldsBytes inp.cells a bs) :
    readBytes inp bs.length (readerAt start stop a) = .ok bs (readerAt start stop (a + bs.length)) := by
  have hread : memReadBytes inp a bs.length = .ok bs :=
    (memReadBytes_ok_iff ..).mpr ⟨.inr (hstop.trans hlim), rfl, h⟩
  rcases readBytes_cases inp bs.length (readerAt start stop a) with ⟨hlt, -⟩ | ⟨-, ⟨bs', hbs, hrun⟩ | ⟨c, hc, -⟩⟩
  · exact absurd hlt (Nat.not_lt.mpr hstop)
  · cases hbs.symm.trans hread
    exact hrun
  · cases hc.symm.trans hread

/-- The three recent offsets stand at `a`, four bytes each. -/
structure RecentAt (inp : Space) (a : Nat) (q : Recent) : Prop where
  r0 : memRead inp a 4 = .ok q.r0
  r1 : memRead inp (a + 4) 4 = .ok q.r1
  r2 : memRead inp (a + 8) 4 = .ok q.r2

theorem readRecent_of_recentAt {t : BitReader} (hens : ensure inp 1 t = .ok () t)
    (halign : alignReader t = readerAt start stop a) (hstop : a + 12 ≤ stop) (h : RecentAt inp a q) :
    readRecent inp t = .ok q (readerAt start stop (a + 12)) := by
  obtain ⟨h0, h1, h2⟩ := h
  rw [readRecent, bind_of_ok hens, bind_of_ok (modify_run ..), halign,
    bind_of_ok (readLit_readerAt (by omega) h0), bind_of_ok (readLit_readerAt (by omega) h1),
    bind_of_ok (readLit_readerAt (by omega) h2)]
  rfl

/-- Behind the block's bytes the pad byte is taken when there is one to take. -/
theorem exists_cursor_behind_pad (n : Nat) (h : ReadsWritten inp (readerAt start stop a)) :
    ∃ next, if n % 2 = 1 then ∃ x, readLit inp 1 (readerAt start stop a) = .ok x (readerAt start stop next)
      else next = a := by
  split
  · exact ⟨_, _, readLit_of_written 1 h⟩
  · exact ⟨a, rfl⟩

/-- From the cursor `a` the reader takes an uncompressed block with these recent offsets and bytes, and the pad byte
behind an odd number of them, up to the cursor `next`. -/
def RawAt (inp : Space) (start stop w a : Nat) (q : Recent) (bs : List Byte) (next : Nat) : Prop :=
  ∃ t b c, blockHeader inp w (readerAt start stop a) = .ok (3, bs.length) t ∧
    readRecent inp t = .ok q (readerAt start stop b) ∧
    readBytes inp bs.length (readerAt start stop b) = .ok bs (readerAt start stop c) ∧
    if bs.length % 2 = 1 then ∃ x, readLit inp 1 (readerAt start stop c) = .ok x (readerAt start stop next) else next = c

/-- The session behind an uncompressed block. -/
def CbSess.copied (s : CbSess) (outBase : Nat) (q : Recent) (bs : List Byte) (r : BitReader) : CbSess :=
  { s with
    recent := q
    base :=
      { reader := r
        out := { s.base.out with cells := writeCells s.base.out.cells (outBase + s.base.pos) bs }
        pos := s.base.pos + bs.length } }

/-- An uncompressed block behind a header that passes. -/
theorem cbBlock_of_uncompressed {job : Job} {bsize : Nat} {s t : CbSess}
    (hread : onCbReader (blockHeader job.inp w) s = .ok (3, bsize) t) (hsize : 1 ≤ bsize)
    (hend : t.base.pos + bsize ≤ job.outSize) : cbBlock job w s = uncompressed job bsize t := by
  have hlegal : headerLegal 3 bsize t.base.pos job.outSize = true :=
    headerLegal_iff.mpr ⟨.inr (.inr rfl), by omega, hend⟩
  rw [cbBlock, bind_of_ok hread]
  change (if headerLegal 3 bsize t.base.pos job.outSize = true then if 3 = 3 then _ else _ else _ : Run CbSess Unit) t = _
  rw [if_pos hlegal, if_pos rfl]

theorem onOut_storeBytes_run {s : CbSess} {dst : Nat} (h : dst + bs.length ≤ s.base.out.limit) :
    onBase (onOut (storeBytes dst bs)) s =
      .ok () { s with base := { s.base with out := { s.base.out with cells := writeCells s.base.out.cells dst bs } } } :=
  zoom_of_ok (part := CbSess.base) (put := fun b s => { s with base := b })
    (zoom_of_ok (part := Sess.out) (put := fun sp s => { s with out := sp }) (storeBytes_of_le h))

theorem onBase_moveTo_run (p : Nat) (s : CbSess) :
    onBase (moveTo p) s = .ok () { s with base := { s.base with pos := p } } := rfl

/-- The block's bytes are stored and the recent offsets replaced. -/
theorem cbBlock_of_rawAt {job : Job} {s : CbSess} (h : RawAt job.inp start stop w a q bs next)
    (hreader : s.base.reader = readerAt start stop a) (hq : q.Positive) (hpos : 1 ≤ bs.length)
    (hend : s.base.pos + bs.length ≤ job.outSize) (hroom : job.outBase + job.outSize ≤ s.base.out.limit) :
    cbBlock job w s = .ok () (s.copied job.outBase q bs (readerAt start stop next)) := by
  obtain ⟨t, b, c, hhead, hrecent, hbytes, hpad⟩ := h
  obtain ⟨hq0, hq1, hq2⟩ := hq
  rw [← hreader] at hhead
  rw [cbBlock_of_uncompressed (onCbReader_of_ok hhead) hpos hend, uncompressed, bind_of_ok (onCbReader_of_ok hrecent),
    bind_of_ok (modify_run ..), if_neg (by omega), bind_of_ok (onCbReader_of_ok hbytes), bind_of_ok (get_run _),
    bind_of_ok (onOut_storeBytes_run (by change job.outBase + s.base.pos + bs.length ≤ s.base.out.limit; omega)),
    bind_of_ok (onBase_moveTo_run ..)]
  split at hpad
  · obtain ⟨x, hx⟩ := hpad
    rw [if_pos ‹_›, bind_of_ok (onCbReader_of_ok hx)]
    rfl
  · rw [if_neg ‹_›, hpad]
    rfl

end

/-! ### The block that encodes given bytes -/

section
variable {inp : Space} {start stop a w : Nat} {b : RawBlock}

/-- The recent offsets as their bytes. -/
theorem recentAt_of_holdsBytes {q : Recent} (h0 : q.r0 < 2 ^ 32) (h1 : q.r1 < 2 ^ 32) (h2 : q.r2 < 2 ^ 32)
    (hlim : a + 12 ≤ inp.limit) (h : HoldsBytes inp.cells a (leBytes 4 q.r0 ++ (leBytes 4 q.r1 ++ leBytes 4 q.r2))) :
    RecentAt inp a q := by
  rw [holdsBytes_append, holdsBytes_append, leBytes_length, leBytes_length] at h
  obtain ⟨hq0, hq1, hq2⟩ := h
  exact ⟨memRead_of_leBytes h0 hq0 (by omega), memRead_of_leBytes h1 hq1 (by omega),
    memRead_of_leBytes h2 hq2 (by omega)⟩

/-- The header's units. -/
theorem rawUnits_bits (hsize : b.bytes.length < 2 ^ (if w = 15 then 16 else 24)) :
    ∃ rest, ((b.units w).flatMap fun u => bitsOf u 16) = blockHeaderBits w 3 b.bytes.length b.byDefault ++ rest ∧
      1 ≤ rest.length ∧ rest.length < 16 := by
  unfold RawBlock.units
  cases b.byDefault with
  | true => exact ⟨_, defaultUnits_bits w _, by decide⟩
  | false =>
    rw [if_neg Bool.false_ne_true]
    split
    · rename_i h15
      rw [if_pos h15] at hsize
      refine ⟨bitsOf 0 12, ?_, by decide⟩
      exact explicitUnits_bits (k := 4) (by decide) hsize (by decide) (if_pos h15) (by norm_num) (by norm_num)
    · rename_i h15
      rw [if_neg h15] at hsize
      refine ⟨bitsOf 0 4, ?_, by decide⟩
      exact explicitUnits_bits (k := 12) (by decide) hsize (by decide) (if_neg h15) (by norm_num) (by norm_num; omega)

theorem rawUnits_lt (hsize : b.bytes.length < 2 ^ (if w = 15 then 16 else 24)) :
    ∀ u ∈ b.units w, u < 2 ^ 16 := by
  unfold RawBlock.units
  split_ifs at hsize ⊢ <;> simp only [List.forall_mem_cons, List.not_mem_nil, false_imp_iff, implies_true, and_true] <;>
    omega

theorem unitBytes_length (us : List Nat) : (us.flatMap (leBytes 2)).length = 2 * us.length :=
  length_flatMap_of_length_eq (leBytes_length 2) us

/-- The reader takes an encoded block. -/
theorem rawAt_of_encode (hw : w ∈ [15, 16, 17]) (hb : b.Legal)
    (hsize : b.bytes.length < 2 ^ (if w = 15 then 16 else 24)) (hstart : start ≤ a)
    (hstop : a + (b.encode w).length ≤ stop) (hlim : stop ≤ inp.limit) (h : HoldsBytes inp.cells a (b.encode w)) :
    RawAt inp start stop w a b.recent b.bytes (a + (b.encode w).length) := by
  obtain ⟨-, hdefault, ⟨-, hq0⟩, ⟨-, hq1⟩, -, hq2⟩ := hb
  obtain ⟨rest, hbits, hrest⟩ := rawUnits_bits (b := b) hsize
  have hlen : (b.encode w).length = 2 * (b.units w).length + 12 + b.bytes.length + b.bytes.length % 2 := by
    simp only [RawBlock.encode, List.length_append, unitBytes_length, leBytes_length]
    split <;> simp <;> omega
  rw [hlen] at hstop ⊢
  have hparts : b.encode w = (b.units w).flatMap (leBytes 2) ++
      ((leBytes 4 b.recent.r0 ++ (leBytes 4 b.recent.r1 ++ leBytes 4 b.recent.r2)) ++
        (b.bytes ++ if b.bytes.length % 2 = 1 then [0#8] else [])) := by
    simp only [RawBlock.encode, List.append_assoc]
  rw [hparts] at h
  obtain ⟨hunits, h⟩ := holdsBytes_append.mp h
  obtain ⟨hrecent, h⟩ := holdsBytes_append.mp h
  obtain ⟨hbytes, hpad⟩ := holdsBytes_append.mp h
  simp only [List.length_append, unitBytes_length, leBytes_length] at hrecent hbytes hpad
  have hwritten := hunits.written
  rw [unitBytes_length] at hwritten
  obtain ⟨t, hhead, hens, halign⟩ := blockHeader_of_units hw (by decide) hdefault (fun _ => hsize) hstart (by omega) hlim
    hwritten (unitAt_of_holdsBytes_units (rawUnits_lt hsize) hunits) hbits hrest
  refine ⟨t, _, _, hhead, readRecent_of_recentAt hens halign (by omega)
    (recentAt_of_holdsBytes hq0 hq1 hq2 (by omega) hrecent), readBytes_readerAt (by omega) hlim hbytes, ?_⟩
  split
  · rename_i hodd
    rw [if_pos hodd] at hpad
    simp only [hodd, ← Nat.add_assoc]
    exact ⟨_, readLit_readerAt (k := 1) (by omega) (memRead_of_holdsBytes hpad (by simp; omega))⟩
  · omega

end

/-! ### The blocks of a chunk (R194) -/

/-- The session over an output memory `m` stands at the cursor `a`, behind uncompressed blocks of the bytes `out`, and
has changed no other byte. -/
structure RawCopied (job : Job) (m : Memory) (a : Nat) (out : List Byte) (s : CbSess) : Prop where
  reader : s.base.reader = readerAt job.inBase (job.inBase + job.inSize) a
  room : job.outBase + job.outSize ≤ s.base.out.limit
  pos : s.base.pos = out.length
  bytes : HoldsBytes s.base.out.cells job.outBase out
  frame : UnchangedOutside m s.base.out.cells job.outBase (job.outBase + out.length)

section
variable {job : Job} {w a next : Nat} {m : Memory} {out bs : List Byte} {q : Recent} {s : CbSess}

theorem rawCopied_start {sp : Space} (hroom : job.outBase + job.outSize ≤ sp.limit) :
    RawCopied job sp.cells job.inBase [] (sessionStart job w sp) :=
  ⟨rfl, hroom, rfl, fun _ hi => absurd hi (Nat.not_lt_zero _), fun _ _ => rfl⟩

/-- One block more. -/
theorem RawCopied.block (h : RawCopied job m a out s)
    (hraw : RawAt job.inp job.inBase (job.inBase + job.inSize) w a q bs next) (hq : q.Positive) (hpos : 1 ≤ bs.length)
    (hend : out.length + bs.length ≤ job.outSize) :
    ∃ t, cbBlock job w s = .ok () t ∧ RawCopied job m next (out ++ bs) t := by
  obtain ⟨hreader, hroom, hlen, hbytes, hframe⟩ := h
  refine ⟨_, cbBlock_of_rawAt hraw hreader hq hpos (hlen ▸ hend) hroom, rfl, hroom, ?_, ?_, ?_⟩
  · rw [CbSess.copied, List.length_append, hlen]
  · rw [CbSess.copied, hlen]
    refine holdsBytes_append.mpr ⟨fun i hi => ?_, fun i hi => readByte_writeCells_inside hi _ _⟩
    rw [readByte_writeCells_outside (.inl (by omega)), hbytes i hi]
  · rw [CbSess.copied, hlen, List.length_append]
    intro x hx
    rw [readByte_writeCells_outside (by omega), hframe x (by omega)]

/-- The encodings of blocks, one after another, that fill the output. -/
theorem cbBlocks_of_raw {blocks : List RawBlock} {fuel : Nat} (h : RawCopied job m a out s) (hw : w ∈ [15, 16, 17])
    (hmax : job.outSize ≤ 2 ^ w) (hlegal : ∀ b ∈ blocks, b.Legal) (hstart : job.inBase ≤ a)
    (hstop : a + (blocks.flatMap (RawBlock.encode w)).length ≤ job.inBase + job.inSize)
    (hlim : job.inBase + job.inSize ≤ job.inp.limit)
    (hin : HoldsBytes job.inp.cells a (blocks.flatMap (RawBlock.encode w)))
    (hfull : (out ++ blocks.flatMap RawBlock.bytes).length = job.outSize)
    (hfuel : (blocks.flatMap RawBlock.bytes).length ≤ fuel) :
    ∃ t, cbBlocks job w fuel s = .ok () t ∧
      RawCopied job m (a + (blocks.flatMap (RawBlock.encode w)).length) (out ++ blocks.flatMap RawBlock.bytes) t := by
  induction blocks generalizing a out s fuel with
  | nil =>
    simp only [List.flatMap_nil, List.append_nil] at hfull ⊢
    exact ⟨s, cbBlocks_of_full (h.pos.trans hfull) fuel, h⟩
  | cons b blocks ih =>
    obtain ⟨hb, hlegal⟩ := List.forall_mem_cons.mp hlegal
    obtain ⟨hpos, -, ⟨hq0, -⟩, ⟨hq1, -⟩, hq2, -⟩ := id hb
    simp only [List.flatMap_cons] at hin hstop hfull hfuel ⊢
    rw [List.length_append, ← Nat.add_assoc] at hstop
    rw [List.length_append] at hfuel
    rw [← List.append_assoc] at hfull ⊢
    rw [List.length_append (as := b.encode w), ← Nat.add_assoc]
    have hsum := hfull
    simp only [List.length_append] at hsum
    obtain ⟨hfirst, hrest⟩ := holdsBytes_append.mp hin
    have hsize : b.bytes.length < 2 ^ (if w = 15 then 16 else 24) := by
      simp only [List.mem_cons, List.not_mem_nil, or_false] at hw
      rcases hw with rfl | rfl | rfl <;> simp <;> omega
    have hraw := rawAt_of_encode hw hb hsize hstart (by omega) hlim hfirst
    obtain ⟨t, hblock, ht⟩ := h.block hraw ⟨hq0, hq1, hq2⟩ hpos (by omega)
    obtain ⟨fuel, rfl⟩ := Nat.exists_eq_add_of_le' (show 1 ≤ fuel by omega)
    obtain ⟨u, hblocks, hu⟩ := ih (fuel := fuel) ht hlegal (by omega) hstop hrest hfull (by omega)
    refine ⟨u, ?_, hu⟩
    rw [cbBlocks_succ (by rw [h.pos]; omega), bind_of_ok hblock]
    exact hblocks

theorem RawCopied.padused (h : RawCopied job m a out s) : s.base.reader.padused = false := by
  rw [h.reader]
  rfl

end

section
variable {s : State} {inBase inSize outBase outSize : Nat}

/-- The chunk of the first clause: one block with its size in two units of an input that is written throughout. -/
theorem rawAt_of_chunk (hsize : outSize ≤ 32768) (hin : inBase + inSize ≤ 2 ^ s.world.params.addrBits)
    (hfit : 16 + outSize ≤ inSize) (hwritten : Written s.lmem inBase inSize)
    (hfirst : unitAt s.lmem inBase = 0x6000 + outSize / 16) (hsecond : unitAt s.lmem (inBase + 2) / 4096 = outSize % 16)
    (hrecent : ∀ k < 3, ∃ j < 4, readByte s.lmem (inBase + 4 + 4 * k + j) ≠ some 0#8) :
    ∃ q bs next, q.Positive ∧ bs.length = outSize ∧ HoldsBytes s.lmem (inBase + 16) bs ∧
      RawAt (lmemSpace s) inBase (inBase + inSize) 15 inBase q bs next := by
  have hpart : ∀ i n, i + n ≤ inSize → Written s.lmem (inBase + i) n := fun i n hle j hj => by
    rw [Nat.add_assoc]
    exact hwritten (i + j) (by omega)
  have hpositive : ∀ k < 3, ∃ v, memRead (lmemSpace s) (inBase + 4 + 4 * k) 4 = .ok v ∧ 1 ≤ v := fun k hk => by
    refine memRead_pos_of_written ?_ ?_ (hrecent k hk)
    · change inBase + 4 + 4 * k + 4 ≤ 2 ^ s.world.params.addrBits
      omega
    · rw [Nat.add_assoc inBase]
      exact hpart (4 + 4 * k) 4 (by omega)
  obtain ⟨q0, hq0, hq0'⟩ := hpositive 0 (by decide)
  obtain ⟨q1, hq1, hq1'⟩ := hpositive 1 (by decide)
  obtain ⟨q2, hq2, hq2'⟩ := hpositive 2 (by decide)
  obtain ⟨bs, hbs⟩ := memReadBytes_of_written (sp := lmemSpace s) (a := inBase + 16) (n := outSize)
    (by change _ ≤ 2 ^ s.world.params.addrBits; omega) (hpart 16 outSize hfit)
  obtain ⟨-, hlen, hholds⟩ := (memReadBytes_ok_iff ..).mp hbs
  have hunits : ∀ i (hi : i < [unitAt s.lmem inBase, unitAt s.lmem (inBase + 2)].length),
      unitAt s.lmem (inBase + 2 * i) = [unitAt s.lmem inBase, unitAt s.lmem (inBase + 2)][i]
    | 0, _ => rfl
    | 1, _ => rfl
  have hbits := explicitUnits_bits (w := 15) (k := 4) (n := outSize) (low := unitAt s.lmem (inBase + 2) % 4096)
    (by decide) (by norm_num; omega) (Nat.mod_lt _ (by decide)) rfl hfirst
    (show unitAt s.lmem (inBase + 2) = _ by norm_num; omega)
  obtain ⟨t, hhead, hens, halign⟩ := blockHeader_of_units (inp := lmemSpace s) (start := inBase) (a := inBase)
    (us := [unitAt s.lmem inBase, unitAt s.lmem (inBase + 2)]) (stop := inBase + inSize) (by decide) (by decide)
    (fun h => absurd h Bool.false_ne_true) (fun _ => by norm_num; omega) le_rfl
    (by simp; omega) hin (hpart 0 4 (by omega)) hunits hbits (by simp)
  have hreads : ReadsWritten (lmemSpace s) (readerAt inBase (inBase + inSize) (inBase + 16 + outSize)) := by
    refine ⟨readerAt_ok (by omega) (by omega), hin, ?_⟩
    have := hpart (16 + outSize) (inSize - (16 + outSize)) (by omega)
    rwa [← Nat.add_assoc, show inSize - (16 + outSize) = inBase + inSize - (inBase + 16 + outSize) by omega] at this
  obtain ⟨next, hpad⟩ := exists_cursor_behind_pad outSize hreads
  subst hlen
  have htaken := readRecent_of_recentAt hens halign (q := ⟨q0, q1, q2⟩) (by simp; omega) ⟨hq0, hq1, hq2⟩
  exact ⟨⟨q0, q1, q2⟩, bs, next, ⟨hq0', hq1', hq2'⟩, rfl, hholds, t, _, _, hhead, htaken,
    readBytes_readerAt (by simp; omega) hin hholds, hpad⟩

end

/-- One block that fills the output, with no 0xE8 for E8Undo to find. -/
theorem cbDecode_of_rawAt {job : Job} {sp : Space} {w next : Nat} {q : Recent} {bs : List Byte} (hq : q.Positive)
    (hlen : bs.length = job.outSize) (hpos : 1 ≤ job.outSize) (hroom : job.outBase + job.outSize ≤ sp.limit)
    (hraw : RawAt job.inp job.inBase (job.inBase + job.inSize) w job.inBase q bs next)
    (hcalls : ∀ b ∈ bs, b ≠ 0xE8#8) :
    ∃ m, cbDecode job w sp = .ok () { limit := sp.limit, cells := m } ∧ HoldsBytes m job.outBase bs ∧
      UnchangedOutside sp.cells m job.outBase (job.outBase + job.outSize) := by
  obtain ⟨t, hblock, ht⟩ := (rawCopied_start hroom).block hraw hq (hlen ▸ hpos) (by simp [hlen])
  rw [List.nil_append] at ht
  have hblocks : cbBlocks job w job.outSize (sessionStart job w sp) = .ok () t := by
    obtain ⟨fuel, hfuel⟩ := Nat.exists_eq_add_of_le' hpos
    rw [hfuel, cbBlocks_succ (by change 0 ≠ job.outSize; omega), bind_of_ok hblock]
    exact cbBlocks_of_full (ht.pos.trans hlen) fuel
  have hwritten := ht.bytes.written
  rw [hlen] at hwritten
  have hsame := e8Undo_of_noCalls (sp := { limit := sp.limit, cells := t.base.out.cells }) hroom hwritten
    fun j _ hj _ heq => by
      rw [ht.bytes j (by omega), Option.some_inj] at heq
      exact hcalls _ (List.getElem_mem _) heq
  have hframe := ht.frame
  rw [hlen] at hframe
  obtain ⟨m, hundo, hdecode⟩ := cbDecode_of_blocks hroom hblocks (by simp [ht.padused])
  cases hsame.symm.trans hundo
  exact ⟨_, hdecode, ht.bytes, hframe⟩

/-- Settles O39: the one block of the first clause, and by induction the blocks of the second, are copied; E8Undo is the
last step of both. -/
theorem cbUncompressedBlockIsCopied : Obligations.CbUncompressedBlockIsCopied := by
  constructor
  · intro s inBase inSize outBase outSize h0 h1 h2 h3 h4 hpos hsize hin hout hdis hfit hwritten hfirst hsecond hrecent
      hcalls
    have hrun := exec_cbDecompress h0 h1 h2 h3 h4 (by decide) hsize hin hout hdis
    obtain ⟨q, bs, next, hq, hlen, hbytes, hraw⟩ :=
      rawAt_of_chunk hsize hin hfit hwritten hfirst hsecond hrecent
    obtain ⟨m, hdecode, hm, hframe⟩ := cbDecode_of_rawAt (job := lmemJob s inBase inSize outBase outSize)
      (sp := lmemSpace s) hq hlen hpos hout hraw fun b hb heq => by
        obtain ⟨j, hj, rfl⟩ := List.getElem_of_mem hb
        exact hcalls j (by omega) ((hbytes j hj).trans (congrArg some heq))
    refine ⟨m, hrun.trans (runCommand_of_cbDecode hdecode), fun j hj => ?_, hframe⟩
    exact (hm j (by omega)).trans (hbytes j (by omega)).symm
  · intro s inBase inSize outBase outSize w blocks h0 h1 h2 h3 h4 hw hmax hin hout hdis hlegal hfit hbytes hlen
    have hrun := exec_cbDecompress h0 h1 h2 h3 h4 hw hmax hin hout hdis
    obtain ⟨t, hblocks, ht⟩ := cbBlocks_of_raw (job := lmemJob s inBase inSize outBase outSize)
      (rawCopied_start (sp := lmemSpace s) hout) hw hmax hlegal le_rfl (Nat.add_le_add_left hfit _) hin hbytes hlen
      hlen.le
    obtain ⟨m, hundo, hdecode⟩ := cbDecode_of_blocks (out := lmemSpace s) hout hblocks (by simp [ht.padused])
    refine ⟨t.base.out.cells, m, ht.bytes, ?_, hundo, hrun.trans (runCommand_of_cbDecode hdecode)⟩
    have hframe := ht.frame
    rwa [List.nil_append, hlen] at hframe

end Sys2Proof.Machine

/-! ## CTX_GET_SIZE and CTX_CLOSE -/

namespace Sys2Proof.Machine

theorem exec_ctxGetSize_of_opened {s : State} (h : s.ctx.opened = true) :
    exec .ctxGetSize s = .next (completed { s with res0 := BitVec.ofNat 64 s.ctx.lsize }) := by
  refine runCommand_of_ok (t := s.setRes0 (BitVec.ofNat 64 s.ctx.lsize)) ?_
  rw [bind_of_ok (get_run s), h, bind_of_ok (requireOperand_true _ s)]
  rfl

theorem exec_ctxGetSize_of_closed {s : State} (h : s.ctx.opened = false) :
    exec .ctxGetSize s = .next (reported 7#8 s) := by
  refine runCommand_of_fail (e := .state) ?_
  rw [bind_of_ok (get_run s), h]
  exact bind_of_error (requireOperand_false _ s)

/-- Settles O50: CTX_GET_SIZE on an open and on a closed context; CTX_CLOSE is one update and no check. -/
theorem ctxGetSizeAndCtxCloseAnswerEveryState : Obligations.CtxGetSizeAndCtxCloseAnswerEveryState := by
  refine ⟨decodeEncodeAgree .ctxGetSize rfl, fun s => ?_, decodeEncodeAgree .ctxClose rfl, fun s => rfl⟩
  cases h : s.ctx.opened with
  | true => exact exec_ctxGetSize_of_opened h
  | false => exact exec_ctxGetSize_of_closed h

end Sys2Proof.Machine

/-! ## CTX_OPEN, check by check -/

namespace Sys2Proof.Machine

/-! ### The index from the store's bytes (45_context.md R233) -/

/-- The index region of no chunk is as empty as that of one. -/
theorem indexSize_eq (lsize n : Nat) : indexSize lsize n = (n - 1) * entrySize lsize := by
  unfold indexSize
  split
  · rfl
  · rw [show n - 1 = 0 by omega, Nat.zero_mul]

theorem indexEntries_getD {esz k i : Nat} (hi : i < k) (bs : List Byte) :
    (indexEntries esz k bs).getD i 0 = leNat ((bs.drop (i * esz)).take esz) := by
  induction k generalizing i bs with
  | zero => omega
  | succ k ih =>
    cases i with
    | zero => simp [indexEntries]
    | succ i =>
      rw [indexEntries, List.getD_cons_succ, ih (by omega), List.drop_drop, Nat.succ_mul, Nat.add_comm esz]

/-- An entry that lies in the index region is read from the store's own bytes. -/
theorem take_drop_take {esz i n : Nat} (hi : i < n) (bytes : List Byte) :
    ((bytes.take (n * esz)).drop (i * esz)).take esz = (bytes.drop (i * esz)).take esz := by
  have hfit : (i + 1) * esz ≤ n * esz := Nat.mul_le_mul_right esz hi
  rw [Nat.succ_mul] at hfit
  rw [List.drop_take, List.take_take, min_eq_left (by omega)]

/-- The chunk starts that CTX_OPEN computes are those the store's bytes give. -/
theorem buildIndex_getD {n esz k : Nat} (bytes : List Byte) (hk : k ≤ n) :
    (buildIndex n esz (bytes.length - (n - 1) * esz) (bytes.take ((n - 1) * esz))).getD k 0 =
      chunkStart bytes n esz k := by
  unfold buildIndex chunkStart
  by_cases hn : n = 0
  · subst hn
    simp [Nat.le_zero.mp hk]
  · rw [if_neg hn]
    cases k with
    | zero => rw [if_neg (Ne.symm hn), if_pos rfl, List.getD_cons_zero]
    | succ k =>
      rw [List.getD_cons_succ, if_neg (Nat.succ_ne_zero k), Nat.add_sub_cancel]
      by_cases hlast : k + 1 = n
      · rw [if_pos hlast, List.getD_append_right _ _ _ _ (by rw [indexEntries_length]; omega), indexEntries_length,
          show k - (n - 1) = 0 by omega, List.getD_cons_zero]
      · rw [if_neg hlast, List.getD_append _ _ _ _ (by rw [indexEntries_length]; omega),
          indexEntries_getD (by omega), take_drop_take (by omega)]

/-- The index validation, chunk by chunk (R234). -/
theorem indexLegal_iff {lsize order n : Nat} {cstart : List Nat} :
    indexLegal lsize order n cstart = true ↔
      ∀ c < n, cstart.getD c 0 < cstart.getD (c + 1) 0 ∧
        cstart.getD (c + 1) 0 - cstart.getD c 0 ≤ chunkLength lsize order c := by
  simp only [indexLegal, List.all_eq_true, List.mem_range, chunkLegal, Bool.and_eq_true, decide_eq_true_eq]
  refine forall₂_congr fun c _ => ?_
  omega

/-! ### The collaborator (20_memory.md R51) -/

section
variable {s : State} {h : Word64} {off n : Nat}

theorem storeRead_of_le (hle : off + n ≤ storeLen s.world h) (hio : ioFails s.world s.ioCalls = false) :
    storeRead h off n s = .ok (some (storeSlice s.world h off n)) s.countIo := by
  simp [storeRead, storeSlice, hle, hio]

theorem storeRead_of_ioFails (hio : ioFails s.world s.ioCalls = true) : storeRead h off n s = .ok none s.countIo := by
  simp [storeRead, hio]

end

/-! ### The checks of the metadata (R231, R232) -/

theorem legalCodec_eq_some_iff {codec order : Nat} {cd : Codec} :
    legalCodec codec order = some cd ↔
      (codec = 0 ∧ cd = .a ∧ order ∈ [12, 13, 14]) ∨ (codec = 1 ∧ cd = .b ∧ order = 15) := by
  unfold legalCodec
  split
  · rename_i h
    cases cd <;> simp [h.1, h.2]
  · split
    · rename_i h
      cases cd <;> simp [h.1, h.2]
    · rename_i h1 h2
      simp only [reduceCtorEq, List.mem_cons, List.not_mem_nil, or_false, false_iff]
      tauto

/-- The legal pairs, whatever their codec. -/
theorem legalCodec_cases (codec order : Nat) :
    ((codec = 0 ∧ order ∈ [12, 13, 14]) ∨ (codec = 1 ∧ order = 15)) ∧ (∃ cd, legalCodec codec order = some cd) ∨
      ¬ ((codec = 0 ∧ order ∈ [12, 13, 14]) ∨ (codec = 1 ∧ order = 15)) ∧ legalCodec codec order = none := by
  cases h : legalCodec codec order with
  | some cd =>
    rcases legalCodec_eq_some_iff.mp h with ⟨h1, -, h2⟩ | ⟨h1, -, h2⟩
    · exact .inl ⟨.inl ⟨h1, h2⟩, cd, rfl⟩
    · exact .inl ⟨.inr ⟨h1, h2⟩, cd, rfl⟩
  | none =>
    refine .inr ⟨?_, rfl⟩
    rintro (⟨h1, h2⟩ | ⟨h1, h2⟩)
    · rw [legalCodec_eq_some_iff.mpr (.inl ⟨h1, rfl, h2⟩)] at h
      cases h
    · rw [legalCodec_eq_some_iff.mpr (.inr ⟨h1, rfl, h2⟩)] at h
      cases h

section
variable {s : State} {h : Word64} {lsize codec order : Nat} {cd : Codec}

theorem openChecked_of_large (hsize : 2 ^ 63 ≤ lsize) : openChecked h lsize cd order s = .error (.fail .metadata) s :=
  bind_of_error (by rw [decide_eq_false (Nat.not_lt.mpr hsize)]; rfl)

theorem openChecked_of_manyChunks (hsize : lsize < 2 ^ 63)
    (hcount : s.world.params.maxChunks < chunkCount lsize order) :
    openChecked h lsize cd order s = .error (.fail .capacity) s := by
  rw [openChecked, decide_eq_true hsize, bind_of_ok (requireOperand_true _ s), bind_of_ok (get_run s)]
  exact bind_of_error (by rw [decide_eq_false (Nat.not_le.mpr hcount)]; rfl)

theorem openChecked_of_shortStore (hsize : lsize < 2 ^ 63)
    (hcount : chunkCount lsize order ≤ s.world.params.maxChunks)
    (hregion : storeLen s.world h < indexSize lsize (chunkCount lsize order)) :
    openChecked h lsize cd order s = .error (.fail .metadata) s := by
  rw [openChecked, decide_eq_true hsize, bind_of_ok (requireOperand_true _ s), bind_of_ok (get_run s)]
  simp only
  rw [decide_eq_true hcount, bind_of_ok (requireOperand_true _ s)]
  exact bind_of_error (by rw [decide_eq_false (Nat.not_le.mpr hregion)]; rfl)

/-- The index region as CTX_OPEN reads it: one call of the collaborator, unless it is empty. -/
theorem readIndex_of_le {size : Nat} (hle : size ≤ storeLen s.world h)
    (hio : size = 0 ∨ ioFails s.world s.ioCalls = false) :
    readIndex h size s =
      .ok ((storeBytesOf s.world h).take size) { s with ioCalls := s.ioCalls + (if size = 0 then 0 else 1) } := by
  unfold readIndex
  by_cases h0 : size = 0
  · subst h0
    rfl
  · rw [if_neg h0, if_neg h0, bind_of_ok (storeRead_of_le (by omega) (hio.resolve_left h0))]
    rfl

theorem readIndex_of_ioFails {size : Nat} (h0 : 0 < size) (hio : ioFails s.world s.ioCalls = true) :
    readIndex h size s = .error (.fail .io) s.countIo := by
  rw [readIndex, if_neg (Nat.ne_of_gt h0), bind_of_ok (storeRead_of_ioFails hio)]
  rfl

/-! ### Reading and validating the index (R233, R234) -/

/-- What CTX_OPEN does with the bytes of the index region. -/
def openIndexed (h : Word64) (lsize : Nat) (codec : Codec) (order ssize : Nat) (region : List Byte) :
    Run State Unit := do
  let n := chunkCount lsize order
  let tsize := indexSize lsize n
  let cstart := buildIndex n (entrySize lsize) (ssize - tsize) region
  requireOperand (indexLegal lsize order n cstart) .metadata
  modify fun t => t.setCtx (openedContext t.ctx h lsize codec order n ssize tsize cstart)

theorem openChecked_of_region (hsize : lsize < 2 ^ 63) (hcount : chunkCount lsize order ≤ s.world.params.maxChunks)
    (hregion : indexSize lsize (chunkCount lsize order) ≤ storeLen s.world h) :
    openChecked h lsize cd order s =
      (readIndex h (indexSize lsize (chunkCount lsize order)) >>=
        openIndexed h lsize cd order (storeLen s.world h)) s := by
  rw [openChecked, decide_eq_true hsize, bind_of_ok (requireOperand_true _ s), bind_of_ok (get_run s)]
  simp only
  rw [decide_eq_true hcount, bind_of_ok (requireOperand_true _ s), decide_eq_true hregion,
    bind_of_ok (requireOperand_true _ s)]
  rfl

theorem openChecked_of_ioFails (hsize : lsize < 2 ^ 63) (hcount : chunkCount lsize order ≤ s.world.params.maxChunks)
    (hregion : indexSize lsize (chunkCount lsize order) ≤ storeLen s.world h)
    (hpos : 0 < indexSize lsize (chunkCount lsize order)) (hio : ioFails s.world s.ioCalls = true) :
    openChecked h lsize cd order s = .error (.fail .io) s.countIo := by
  rw [openChecked_of_region hsize hcount hregion, bind_of_error (readIndex_of_ioFails hpos hio)]

/-- Every chunk's stored size is legal, by the chunk starts that the store's bytes give (R234). -/
def StoredSizesLegal (bytes : List Byte) (lsize order : Nat) : Prop :=
  ∀ c < chunkCount lsize order,
    chunkStart bytes (chunkCount lsize order) (entrySize lsize) c <
        chunkStart bytes (chunkCount lsize order) (entrySize lsize) (c + 1) ∧
      chunkStart bytes (chunkCount lsize order) (entrySize lsize) (c + 1) -
        chunkStart bytes (chunkCount lsize order) (entrySize lsize) c ≤ chunkLength lsize order c

/-- The chunk starts that CTX_OPEN computes from a store's bytes. -/
def storedIndex (bytes : List Byte) (lsize order : Nat) : List Nat :=
  buildIndex (chunkCount lsize order) (entrySize lsize) (bytes.length - indexSize lsize (chunkCount lsize order))
    (bytes.take (indexSize lsize (chunkCount lsize order)))

theorem storedIndex_getD (bytes : List Byte) (lsize order : Nat) {k : Nat} (hk : k ≤ chunkCount lsize order) :
    (storedIndex bytes lsize order).getD k 0 = chunkStart bytes (chunkCount lsize order) (entrySize lsize) k := by
  rw [storedIndex, indexSize_eq, buildIndex_getD bytes hk]

theorem storedIndex_legal_iff (bytes : List Byte) (lsize order : Nat) :
    indexLegal lsize order (chunkCount lsize order) (storedIndex bytes lsize order) = true ↔
      StoredSizesLegal bytes lsize order := by
  rw [indexLegal_iff]
  refine forall₂_congr fun c hc => ?_
  rw [storedIndex_getD bytes lsize order hc.le, storedIndex_getD bytes lsize order hc]

theorem openChecked_of_legal (hsize : lsize < 2 ^ 63) (hcount : chunkCount lsize order ≤ s.world.params.maxChunks)
    (hregion : indexSize lsize (chunkCount lsize order) ≤ storeLen s.world h)
    (hio : indexSize lsize (chunkCount lsize order) = 0 ∨ ioFails s.world s.ioCalls = false)
    (hlegal : StoredSizesLegal (storeBytesOf s.world h) lsize order) :
    openChecked h lsize cd order s = .ok () { s with
      ioCalls := s.ioCalls + (if indexSize lsize (chunkCount lsize order) = 0 then 0 else 1)
      ctx := openedContext s.ctx h lsize cd order (chunkCount lsize order) (storeLen s.world h)
        (indexSize lsize (chunkCount lsize order)) (storedIndex (storeBytesOf s.world h) lsize order) } := by
  rw [openChecked_of_region hsize hcount hregion, bind_of_ok (readIndex_of_le hregion hio)]
  exact bind_of_ok (congrArg (requireOperand · _ _) ((storedIndex_legal_iff _ _ _).mpr hlegal))

theorem openChecked_of_illegal (hsize : lsize < 2 ^ 63) (hcount : chunkCount lsize order ≤ s.world.params.maxChunks)
    (hregion : indexSize lsize (chunkCount lsize order) ≤ storeLen s.world h)
    (hio : indexSize lsize (chunkCount lsize order) = 0 ∨ ioFails s.world s.ioCalls = false)
    (hillegal : ¬ StoredSizesLegal (storeBytesOf s.world h) lsize order) :
    openChecked h lsize cd order s = .error (.fail .metadata) { s with
      ioCalls := s.ioCalls + (if indexSize lsize (chunkCount lsize order) = 0 then 0 else 1) } := by
  rw [openChecked_of_region hsize hcount hregion, bind_of_ok (readIndex_of_le hregion hio)]
  exact bind_of_error (congrArg (requireOperand · _ _)
    (Bool.eq_false_iff.mpr (mt (storedIndex_legal_iff _ _ _).mp hillegal)))

/-! ### The command -/

theorem exec_ctxOpen_of_opened (hopen : s.ctx.opened = true) : exec .ctxOpen s = .next (reported 7#8 s) := by
  refine runCommand_of_fail (e := .state) ?_
  rw [bind_of_ok (get_run s), hopen]
  exact bind_of_error (requireOperand_false _ s)

/-- What CTX_OPEN does once its operands are read and its codec and order are looked up (R231). -/
def openPair (h : Word64) (lsize order : Nat) : Option Codec → Run State Unit
  | none => throw (.fail .metadata)
  | some cd => openChecked h lsize cd order

/-- CTX_OPEN of a closed context with written operands. -/
theorem exec_ctxOpen (hclosed : s.ctx.opened = false) (h0 : s.args.get 0 = some h) (h1 : ArgIs s 1 lsize)
    (h2 : ArgIs s 2 codec) (h3 : ArgIs s 3 order) :
    exec .ctxOpen s = runCommand .ctxOpen (openPair h lsize order (legalCodec codec order)) s := by
  change runCommand .ctxOpen _ s = _
  unfold runCommand
  rw [bind_of_ok (get_run s), hclosed, Bool.not_false, bind_of_ok (requireOperand_true _ s),
    bind_of_ok (readArgWord_of_some h0), bind_of_ok (readArg_of_argIs h1), bind_of_ok (readArg_of_argIs h2),
    bind_of_ok (readArg_of_argIs h3)]
  cases legalCodec codec order <;> rfl

end

/-- Settles O48: each check passes, the index region is read, and the index built from it is the store's own. -/
theorem ctxOpenBuildsTheContext : Obligations.CtxOpenBuildsTheContext := by
  intro s h lsize codec order cd hclosed h0 h1 h2 h3 hpair hsize n esz bytes hcount hregion hio hlegal
  have htsize : indexSize lsize n = (n - 1) * esz := indexSize_eq lsize n
  rw [← htsize] at hregion hio ⊢
  refine ⟨storedIndex bytes lsize order, ?_, buildIndex_length .., fun k hk => storedIndex_getD bytes lsize order hk⟩
  rw [exec_ctxOpen hclosed h0 h1 h2 h3, legalCodec_eq_some_iff.mpr hpair]
  exact runCommand_of_ok (body := openPair h lsize order (some cd))
    (openChecked_of_legal hsize hcount hregion hio hlegal)

/-- Settles O49: the checks in their order, each failing after those before it pass. -/
theorem ctxOpenRefusesBadMetadata : Obligations.CtxOpenRefusesBadMetadata := by
  intro s
  refine ⟨exec_ctxOpen_of_opened, fun h lsize codec order hclosed h0 h1 h2 h3 => ?_⟩
  intro legal n esz bytes
  have htsize : indexSize lsize n = (n - 1) * esz := indexSize_eq lsize n
  rw [exec_ctxOpen hclosed h0 h1 h2 h3, ← htsize]
  rcases legalCodec_cases codec order with ⟨hlegal, cd, hcd⟩ | ⟨hillegal, hcd⟩ <;> rw [hcd]
  · have reports : ∀ {e t}, openChecked h lsize cd order s = .error (.fail e) t →
        runCommand .ctxOpen (openPair h lsize order (some cd)) s = .next (t.finish e) :=
      fun {e t} he => runCommand_of_fail he
    exact ⟨fun hbad => reports (openChecked_of_large (hbad.resolve_left (not_not_intro hlegal))),
      fun _ hsize hcount => reports (openChecked_of_manyChunks hsize hcount),
      fun _ hsize hcount hshort => reports (openChecked_of_shortStore hsize hcount hshort),
      fun _ hsize hcount hpos hregion hio => reports (openChecked_of_ioFails hsize hcount hregion hpos hio),
      fun _ hsize hcount hregion hio hbad => reports (openChecked_of_illegal hsize hcount hregion hio hbad)⟩
  · exact ⟨fun _ => runCommand_of_fail rfl, fun h => absurd h hillegal, fun h => absurd h hillegal,
      fun h => absurd h hillegal, fun h => absurd h hillegal⟩

end Sys2Proof.Machine

/-! ## CTX_READ, ending by ending -/

namespace Sys2Proof.Machine

section
variable {s t : State} {p cnt dst m c : Nat}

/-! ### The command -/

theorem exec_ctxRead_of_closed (h : s.ctx.opened = false) :
    exec .ctxRead s = .next (reported 7#8 { s with res0 := 0#64 }) := by
  refine runCommand_of_fail (e := .state) (t := s.setRes0 0#64) ?_
  rw [bind_of_ok (get_run s), h]
  rfl

/-- What CTX_READ does once it knows the context is open. -/
def readOperands : Run State Unit := do
  let p ← readArg 0
  let cnt ← readArg 1
  let dst ← readArg 2
  readOpened p cnt dst

theorem exec_ctxRead_eq_readOperands (hopen : s.ctx.opened = true) :
    exec .ctxRead s = runCommand .ctxRead readOperands s := by
  change runCommand .ctxRead _ s = _
  unfold runCommand
  rw [bind_of_ok (get_run s), if_pos hopen]
  rfl

/-- CTX_READ of an open context with written operands. -/
theorem exec_ctxRead_of_opened (hopen : s.ctx.opened = true) (h0 : ArgIs s 0 p) (h1 : ArgIs s 1 cnt)
    (h2 : ArgIs s 2 dst) : exec .ctxRead s = runCommand .ctxRead (readOpened p cnt dst) s := by
  rw [exec_ctxRead_eq_readOperands hopen]
  unfold runCommand
  rw [readOperands, bind_of_ok (readArg_of_argIs h0), bind_of_ok (readArg_of_argIs h1),
    bind_of_ok (readArg_of_argIs h2)]

/-! ### The checks of the position, the range and the count (45_context.md R238) -/

theorem readOpened_of_end (h : s.ctx.lsize ≤ p) : readOpened p cnt dst s = .ok () (s.setRes0 0#64) := by
  rw [readOpened, bind_of_ok (get_run s), if_pos h]
  rfl

theorem readOpened_of_outside (hp : p < s.ctx.lsize)
    (hout : 2 ^ s.world.params.addrBits < dst + min cnt (s.ctx.lsize - p)) :
    readOpened p cnt dst s = .error (.fault .memRange) s := by
  rw [readOpened, bind_of_ok (get_run s), if_neg (Nat.not_le.mpr hp)]
  exact bind_of_error (requireLmem_of_lt hout)

theorem readOpened_of_inside (hp : p < s.ctx.lsize)
    (hfit : dst + min cnt (s.ctx.lsize - p) ≤ 2 ^ s.world.params.addrBits) :
    readOpened p cnt dst s =
      (if min cnt (s.ctx.lsize - p) = 0 then setResult 0
      else do
        copyChunks p (min cnt (s.ctx.lsize - p)) dst
          ((p + min cnt (s.ctx.lsize - p) - 1) / 2 ^ s.ctx.order + 1 - p / 2 ^ s.ctx.order) (p / 2 ^ s.ctx.order)
        setResult (min cnt (s.ctx.lsize - p)) : Run State Unit) s := by
  rw [readOpened, bind_of_ok (get_run s), if_neg (Nat.not_le.mpr hp)]
  simp only
  rw [bind_of_ok (requireLmem_of_le hfit)]

theorem readOpened_of_count_zero (hp : p < s.ctx.lsize) (hdst : dst ≤ 2 ^ s.world.params.addrBits) :
    readOpened p 0 dst s = .ok () (s.setRes0 0#64) := by
  rw [readOpened_of_inside hp (by rwa [Nat.zero_min]), if_pos (Nat.zero_min _)]
  rfl

end

/-- Settles O51: the branches of CTX_READ before its first chunk. -/
theorem ctxReadEndingsWithoutCopy : Obligations.CtxReadEndingsWithoutCopy := by
  intro s
  refine ⟨exec_ctxRead_of_closed, fun p cnt dst hopen h0 h1 h2 => ?_⟩
  rw [exec_ctxRead_of_opened hopen h0 h1 h2]
  refine ⟨fun hend => ?_, fun hp hout => ?_, fun hp hcnt hdst => ?_⟩
  · exact runCommand_of_ok (readOpened_of_end hend)
  · exact runCommand_of_fault (readOpened_of_outside hp hout)
  · subst hcnt
    exact runCommand_of_ok (readOpened_of_count_zero hp hdst)

section
variable {s t : State} {p cnt dst m c : Nat}

/-! ### The chunks of a read -/

/-- A read of at least one byte: its chunks one by one, then RES0. -/
theorem readOpened_of_copied (hp : p < s.ctx.lsize) (hcnt : 1 ≤ cnt) (hm : min cnt (s.ctx.lsize - p) = m)
    (hfit : dst + m ≤ 2 ^ s.world.params.addrBits)
    (hcopy : copyChunks p m dst ((p + m - 1) / 2 ^ s.ctx.order + 1 - p / 2 ^ s.ctx.order) (p / 2 ^ s.ctx.order) s =
      .ok () t) :
    readOpened p cnt dst s = .ok () (t.setRes0 (BitVec.ofNat 64 m)) := by
  subst hm
  rw [readOpened_of_inside hp hfit, if_neg (by omega), bind_of_ok hcopy]
  rfl

theorem readOpened_of_uncopied {e : Stop} (hp : p < s.ctx.lsize) (hcnt : 1 ≤ cnt) (hm : min cnt (s.ctx.lsize - p) = m)
    (hfit : dst + m ≤ 2 ^ s.world.params.addrBits)
    (hcopy : copyChunks p m dst ((p + m - 1) / 2 ^ s.ctx.order + 1 - p / 2 ^ s.ctx.order) (p / 2 ^ s.ctx.order) s =
      .error e t) :
    readOpened p cnt dst s = .error e t := by
  subst hm
  rw [readOpened_of_inside hp hfit, if_neg (by omega), bind_of_error hcopy]

/-- A read inside one chunk has that chunk alone. -/
theorem chunkSpan_one {size : Nat} (hm : 1 ≤ m) (h : p + m ≤ p / size * size + size) :
    (p + m - 1) / size + 1 - p / size = 1 := by
  have hge : p / size ≤ (p + m - 1) / size := Nat.div_le_div_right (by omega)
  have hlt : (p + m - 1) / size < p / size + 1 := by
    rw [Nat.div_lt_iff_lt_mul (by by_contra h0; simp_all), Nat.succ_mul]
    omega
  omega

theorem copyChunks_one (p m dst c : Nat) (s : State) : copyChunks p m dst 1 c s = copyChunk p m dst c s := by
  rw [copyChunks, bind_run]
  cases copyChunk p m dst c s <;> rfl

/-! ### EnsureChunk, case by case (R239) -/

theorem ensureChunk_of_cached (h : s.ctx.cacheValid = true ∧ s.ctx.cacheChunk = c) : ensureChunk c s = .ok () s := by
  rw [ensureChunk, bind_of_ok (get_run s), if_pos h]
  rfl

/-- The stored bytes of a chunk, as the store holds them. -/
def storedChunk (s : State) (c : Nat) : List Byte :=
  storeSlice s.world s.ctx.handle (s.ctx.tsize + s.ctx.cstart.getD c 0)
    (s.ctx.cstart.getD (c + 1) 0 - s.ctx.cstart.getD c 0)

/-- The stored range of chunk `k` lies in the store. -/
def StoredInside (w : World) (x : Context) (k : Nat) : Prop :=
  x.tsize + x.cstart.getD k 0 + (x.cstart.getD (k + 1) 0 - x.cstart.getD k 0) ≤ storeLen w x.handle

theorem ensureChunk_of_ioFails (hmiss : ¬ (s.ctx.cacheValid = true ∧ s.ctx.cacheChunk = c))
    (hio : ioFails s.world s.ioCalls = true) :
    ensureChunk c s = .error (.fail .io) (dropCache s).countIo := by
  rw [ensureChunk_eq, bind_of_ok (get_run s), if_neg hmiss, fetchChunk, bind_of_ok (modify_run dropCache s), chunkRead,
    bind_of_ok (storeRead_of_ioFails (s := dropCache s) hio)]
  rfl

section
variable (hmiss : ¬ (s.ctx.cacheValid = true ∧ s.ctx.cacheChunk = c)) (hin : StoredInside s.world s.ctx c)
  (hio : ioFails s.world s.ioCalls = false)
include hmiss hin hio

/-- A chunk that is not cached is read from the store and expanded into the cache buffer. -/
theorem ensureChunk_of_read :
    ensureChunk c s =
      (onCache (chunkLength s.ctx.lsize s.ctx.order c)
        (expandChunk s.world.params s.ctx.codec (storedChunk s c) (chunkLength s.ctx.lsize s.ctx.order c)) >>= fun _ =>
          modify (holdChunk c)) (dropCache s).countIo := by
  rw [ensureChunk_eq, bind_of_ok (get_run s), if_neg hmiss, fetchChunk, bind_of_ok (modify_run dropCache s), chunkRead,
    bind_of_ok (storeRead_of_le (s := dropCache s) hin hio)]
  rfl

theorem ensureChunk_of_expanded {sp : Space}
    (hexp : expandChunk s.world.params s.ctx.codec (storedChunk s c) (chunkLength s.ctx.lsize s.ctx.order c)
      (cacheSpace (chunkLength s.ctx.lsize s.ctx.order c) s) = .ok () sp) :
    ensureChunk c s = .ok () { s with
      ioCalls := s.ioCalls + 1
      ctx := { s.ctx with cacheValid := true, cacheChunk := c, cacheBuf := sp.cells } } := by
  rw [ensureChunk_of_read hmiss hin hio]
  exact bind_of_ok (zoom_of_ok (s := (dropCache s).countIo) hexp)

theorem ensureChunk_of_unexpanded {e : Stop} {sp : Space}
    (hexp : expandChunk s.world.params s.ctx.codec (storedChunk s c) (chunkLength s.ctx.lsize s.ctx.order c)
      (cacheSpace (chunkLength s.ctx.lsize s.ctx.order c) s) = .error e sp) :
    ensureChunk c s = .error e { s with
      ioCalls := s.ioCalls + 1
      ctx := { s.ctx with cacheValid := false, cacheBuf := sp.cells } } := by
  rw [ensureChunk_of_read hmiss hin hio]
  exact bind_of_error (zoom_of_error (s := (dropCache s).countIo) hexp)

end

/-! ### Copying a chunk's part of a read (R238) -/

theorem onFail_of_ok {σ α : Type} {g : σ → σ} {f : Run σ α} {u v : σ} {a : α} (h : f u = .ok a v) :
    onFail g f u = .ok a v := by
  simp only [onFail, h]

theorem onFail_of_fail {σ α : Type} {g : σ → σ} {f : Run σ α} {u v : σ} {e : Status} (h : f u = .error (.fail e) v) :
    onFail g f u = .error (.fail e) (g v) := by
  simp only [onFail, h]

theorem loadBytes_of_written {sp : Space} {a n : Nat} (h : a + n ≤ sp.limit) (hw : Written sp.cells a n) :
    ∃ bs, loadBytes a n sp = .ok bs sp ∧ bs.length = n ∧ HoldsBytes sp.cells a bs := by
  obtain ⟨bs, hbs⟩ := memReadBytes_of_written h hw
  obtain ⟨-, hlen, hget⟩ := (memReadBytes_ok_iff _ _ _ _).mp hbs
  exact ⟨bs, by rw [loadBytes, hbs], hlen, hget⟩

/-- Once its chunk is in the cache, the part [lo, hi) of a read is copied from the cache to its place after `dst`;
positions `x` are those of the logical file. -/
theorem copyChunk_of_ensured {start lo hi : Nat} (hens : ensureChunk c s = .ok () t)
    (hw : Written t.ctx.cacheBuf 0 (chunkLength t.ctx.lsize t.ctx.order c)) (hstart : start = c * 2 ^ t.ctx.order)
    (hlo : max p start = lo) (hhi : min (p + m) (start + 2 ^ t.ctx.order) = hi) (hle : lo ≤ hi)
    (hend : p + m ≤ t.ctx.lsize) (hfit : dst + m ≤ 2 ^ t.world.params.addrBits) :
    ∃ l, copyChunk p m dst c s = .ok () (t.setLmem l) ∧
      (∀ x, lo ≤ x → x < hi → readByte l (dst + (x - p)) = readByte t.ctx.cacheBuf (x - start)) ∧
      UnchangedOutside t.lmem l (dst + (lo - p)) (dst + (hi - p)) := by
  have hulen : chunkLength t.ctx.lsize t.ctx.order c = min (2 ^ t.ctx.order) (t.ctx.lsize - start) := by
    rw [hstart]
    rfl
  obtain ⟨bs, hload, hlen, hbs⟩ := loadBytes_of_written
    (sp := cacheSpace (chunkLength t.ctx.lsize t.ctx.order c) t) (a := lo - start) (n := hi - lo)
    (by change _ ≤ chunkLength _ _ _; omega) fun i hi' => by
      have := hw (lo - start + i) (by omega)
      rwa [Nat.zero_add] at this
  have hroom : dst + (lo - p) + bs.length ≤ 2 ^ t.world.params.addrBits := by omega
  refine ⟨writeCells t.lmem (dst + (lo - p)) bs, ?_, fun x h1 h2 => ?_, fun a ha => ?_⟩
  · rw [copyChunk, bind_of_ok (onFail_of_ok hens), bind_of_ok (get_run t)]
    rw [Nat.succ_mul, ← hstart, hlo, hhi]
    exact (bind_of_ok (zoom_of_ok (s := t) hload)).trans (zoom_of_ok (s := t) (storeBytes_of_le hroom))
  · have hx : dst + (x - p) = dst + (lo - p) + (x - lo) := by omega
    rw [hx, readByte_writeCells_inside (by omega), ← hbs (x - lo) (by omega)]
    congr 1
    omega
  · exact readByte_writeCells_outside (by omega) _

/-- A read of at least one byte inside one chunk, once that chunk is in the cache. -/
theorem exec_ctxRead_of_oneChunk (hopen : s.ctx.opened = true) (h0 : ArgIs s 0 p) (h1 : ArgIs s 1 cnt)
    (h2 : ArgIs s 2 dst) (hp : p < s.ctx.lsize) (hcnt : 1 ≤ cnt) (hm : min cnt (s.ctx.lsize - p) = m)
    (hc : p / 2 ^ s.ctx.order = c) (hone : p + m ≤ c * 2 ^ s.ctx.order + 2 ^ s.ctx.order)
    (hfit : dst + m ≤ 2 ^ s.world.params.addrBits) (hens : ensureChunk c s = .ok () t)
    (hw : Written t.ctx.cacheBuf 0 (chunkLength s.ctx.lsize s.ctx.order c)) :
    ∃ l, exec .ctxRead s = .next (completed { t with lmem := l, res0 := BitVec.ofNat 64 m }) ∧
      (∀ j < m, readByte l (dst + j) = readByte t.ctx.cacheBuf (p - c * 2 ^ s.ctx.order + j)) ∧
      UnchangedOutside t.lmem l dst (dst + m) := by
  have hframe := (ensureChunk_framed (r := reachOf .ctxRead) rfl rfl c).ends s
  rw [hens] at hframe
  have horder : t.ctx.order = s.ctx.order := by rw [← hframe.1.record rfl]
  have hlsize : t.ctx.lsize = s.ctx.lsize := by rw [← hframe.1.record rfl]
  have hbase : c * 2 ^ s.ctx.order ≤ p := hc ▸ Nat.div_mul_le_self p _
  obtain ⟨l, hcopy, hbytes, hout⟩ := copyChunk_of_ensured (p := p) (m := m) (dst := dst) (lo := p) (hi := p + m) hens
    (by rwa [horder, hlsize]) rfl (by rw [horder]; omega) (by rw [horder]; omega) (by omega) (by omega)
    (by rwa [hframe.1.world])
  refine ⟨l, ?_, fun j hj => ?_, ?_⟩
  · rw [exec_ctxRead_of_opened hopen h0 h1 h2]
    refine runCommand_of_ok (readOpened_of_copied hp hcnt hm hfit (t := t.setLmem l) ?_)
    rw [chunkSpan_one (by omega) (by rw [hc]; exact hone), hc, copyChunks_one, hcopy]
  · have := hbytes (p + j) (by omega) (by omega)
    rw [horder, Nat.add_sub_cancel_left, Nat.sub_add_comm hbase] at this
    exact this
  · rwa [Nat.sub_self, Nat.add_zero, Nat.add_sub_cancel_left] at hout

end

/-- Settles O52: the chunk is found in the cache, so that the state copied from is the one at the start. -/
theorem ctxReadCopiesFromTheCache : Obligations.CtxReadCopiesFromTheCache := by
  intro s p cnt dst hopen h0 h1 h2 hvalid hp hcnt m base hbase hone hfit hw
  have hc : p / 2 ^ s.ctx.order = s.ctx.cacheChunk :=
    Nat.div_eq_of_lt_le hbase (by rw [Nat.succ_mul]; change p < base + _; omega)
  obtain ⟨l, hrun, hbytes, hout⟩ := exec_ctxRead_of_oneChunk hopen h0 h1 h2 hp hcnt rfl hc hone hfit
    (ensureChunk_of_cached ⟨hvalid, rfl⟩) hw
  exact ⟨l, hrun, hbytes, hout⟩

/-- Settles O53: the chunk is read and stored as it is, then copied from the cache. -/
theorem ctxReadFetchesARawChunk : Obligations.CtxReadFetchesARawChunk := by
  intro s p cnt dst hopen h0 h1 h2 hp hcnt m c base first size hmiss hone hfit hraw hstore hio
  have hsize : s.ctx.cstart.getD (c + 1) 0 - s.ctx.cstart.getD c 0 = size := by
    rw [hraw, Nat.add_sub_cancel_left]
  have hbase : base ≤ p := Nat.div_mul_le_self p _
  have hin : StoredInside s.world s.ctx c := by
    rw [StoredInside, hsize]
    exact hstore
  have hstored : (storedChunk s c).length = size := by
    rw [storedChunk, hsize, storeSlice, List.length_take, List.length_drop]
    change min size ((storeBytesOf s.world s.ctx.handle).length - first) = size
    omega
  have hget : ∀ j < size, (storedChunk s c)[j]? = (storeBytesOf s.world s.ctx.handle)[first + j]? := fun j hj => by
    rw [storedChunk, hsize, storeSlice, List.getElem?_take_of_lt hj, List.getElem?_drop]
  have hexp : expandChunk s.world.params s.ctx.codec (storedChunk s c) size (cacheSpace size s) =
      .ok () { limit := size, cells := writeCells s.ctx.cacheBuf 0 (storedChunk s c) } := by
    unfold expandChunk
    rw [if_pos hstored]
    exact storeBytes_of_le (by rw [hstored, Nat.zero_add]; rfl)
  have hbuf : ∀ j < size, readByte (writeCells s.ctx.cacheBuf 0 (storedChunk s c)) j =
      (storeBytesOf s.world s.ctx.handle)[first + j]? := fun j hj => by
    rw [readByte_writeCells, if_pos (by omega), Nat.sub_zero, hget j hj]
  obtain ⟨l, hrun, hbytes, hout⟩ := exec_ctxRead_of_oneChunk hopen h0 h1 h2 hp hcnt rfl rfl hone hfit
    (ensureChunk_of_expanded hmiss hin hio hexp) (expandChunk_written hexp)
  refine ⟨l, _, hrun, fun j hj => ?_, hbuf, hout⟩
  rw [hbytes j hj, Nat.add_assoc]
  exact hbuf _ (by change p - base + j < min _ (s.ctx.lsize - base); omega)

end Sys2Proof.Machine

/-! ## A CTX_READ that fails -/

namespace Sys2Proof.Machine

section
variable {σ τ α β : Type}

/-! ### Computations that fault at most (00_scope.md R15) -/

/-- The computation never ends with a status. -/
structure NeverFails (f : Run σ α) : Prop where
  ne : ∀ s e t, f s ≠ .error (.fail e) t

theorem NeverFails.zoom {part : σ → τ} {put : τ → σ → σ} {f : Run τ α} (h : NeverFails f) :
    NeverFails (zoom part put f) := by
  refine ⟨fun s e t he => ?_⟩
  rcases zoom_cases part put f s with ⟨a, u, -, hz⟩ | ⟨x, u, hu, hz⟩ <;> rw [hz] at he <;> cases he
  exact h.ne _ _ _ hu

theorem loadBytes_neverFails (a n : Nat) : NeverFails (loadBytes a n) := by
  refine ⟨fun sp e t h => ?_⟩
  unfold loadBytes at h
  cases hb : memReadBytes sp a n <;> rw [hb] at h <;> cases h

theorem storeBytes_neverFails (a : Nat) (bs : List Byte) : NeverFails (storeBytes a bs) := by
  refine ⟨fun sp e t h => ?_⟩
  rcases storeBytes_cases a bs sp with ⟨-, e'⟩ | ⟨-, -, e'⟩ <;> rw [e'] at h <;> cases h

theorem readArg_neverFails (i : Fin 6) : NeverFails (readArg i) := by
  refine ⟨fun s e t h => ?_⟩
  rcases readArg_cases i s with ⟨v, -, e'⟩ | ⟨-, e'⟩ <;> rw [e'] at h <;> cases h

theorem requireLmem_neverFails (a n : Nat) : NeverFails (requireLmem a n) := by
  refine ⟨fun s e t h => ?_⟩
  unfold requireLmem at h
  split at h <;> cases h

end

/-! ### Failures that leave nothing (45_context.md R240) -/

section
variable {α β : Type}

/-- Every failure leaves RES0 = 0 and an empty cache. -/
structure FailsEmpty (f : Run State α) : Prop where
  empty : ∀ s e t, f s = .error (.fail e) t → t.res0 = 0#64 ∧ t.ctx.cacheValid = false

theorem NeverFails.failsEmpty {f : Run State α} (h : NeverFails f) : FailsEmpty f :=
  ⟨fun s e t he => absurd he (h.ne s e t)⟩

theorem FailsEmpty.bind {x : Run State α} {f : α → Run State β} (hx : FailsEmpty x) (hf : ∀ a, FailsEmpty (f a)) :
    FailsEmpty (x >>= f) := by
  refine ⟨fun s e u h => ?_⟩
  rcases bind_error_inv h with h | ⟨a, t, -, h⟩
  · exact hx.empty s e u h
  · exact (hf a).empty t e u h

theorem FailsEmpty.ite {c : Prop} [Decidable c] {x y : Run State α} (hx : FailsEmpty x) (hy : FailsEmpty y) :
    FailsEmpty (if c then x else y) := by
  split <;> assumption

theorem get_failsEmpty : FailsEmpty (get : Run State State) := ⟨fun _ _ _ => nofun⟩

theorem setResult_failsEmpty (v : Nat) : FailsEmpty (setResult v) := ⟨fun _ _ _ => nofun⟩

/-- Whatever fails, the handler of a failed CTX_READ leaves nothing. -/
theorem onFail_failsEmpty (f : Run State α) : FailsEmpty (onFail failRead f) := by
  refine ⟨fun s e t h => ?_⟩
  rcases onFail_cases failRead f s with ⟨a, u, -, hr⟩ | ⟨x, u, -, hr⟩ | ⟨c, u, -, hr⟩ <;> rw [hr] at h <;> cases h
  exact ⟨rfl, rfl⟩

theorem copyChunk_failsEmpty (p m dst c : Nat) : FailsEmpty (copyChunk p m dst c) :=
  .bind (onFail_failsEmpty _) fun _ => .bind get_failsEmpty fun _ =>
    .bind (NeverFails.zoom (loadBytes_neverFails _ _)).failsEmpty fun _ =>
      (NeverFails.zoom (storeBytes_neverFails _ _)).failsEmpty

theorem copyChunks_failsEmpty (p m dst count c : Nat) : FailsEmpty (copyChunks p m dst count c) := by
  induction count generalizing c with
  | zero => exact ⟨fun _ _ _ => nofun⟩
  | succ count ih => exact .bind (copyChunk_failsEmpty p m dst c) fun _ => ih (c + 1)

theorem readOpened_failsEmpty (p cnt dst : Nat) : FailsEmpty (readOpened p cnt dst) :=
  .bind get_failsEmpty fun _ => .ite (setResult_failsEmpty 0) (.bind (requireLmem_neverFails _ _).failsEmpty fun _ =>
    .ite (setResult_failsEmpty 0) (.bind (copyChunks_failsEmpty _ _ _ _ _) fun _ => setResult_failsEmpty _))

end

/-! ### The command -/

theorem readOperands_failsEmpty : FailsEmpty readOperands :=
  .bind (readArg_neverFails 0).failsEmpty fun _ => .bind (readArg_neverFails 1).failsEmpty fun _ =>
    .bind (readArg_neverFails 2).failsEmpty fun _ => readOpened_failsEmpty _ _ _

/-- The collaborator fails the call for the first chunk of a read (R262). -/
theorem exec_ctxRead_of_ioFails {s : State} {p cnt dst : Nat} (hopen : s.ctx.opened = true) (h0 : ArgIs s 0 p)
    (h1 : ArgIs s 1 cnt) (h2 : ArgIs s 2 dst) (hp : p < s.ctx.lsize) (hcnt : 1 ≤ cnt)
    (hfit : dst + min cnt (s.ctx.lsize - p) ≤ 2 ^ s.world.params.addrBits)
    (hmiss : ¬ (s.ctx.cacheValid = true ∧ s.ctx.cacheChunk = p / 2 ^ s.ctx.order))
    (hio : ioFails s.world s.ioCalls = true) :
    exec .ctxRead s = .next ((failRead (dropCache s).countIo).finish .io) := by
  rw [exec_ctxRead_of_opened hopen h0 h1 h2]
  refine runCommand_of_fail (readOpened_of_uncopied hp hcnt rfl hfit ?_)
  have hspan : p / 2 ^ s.ctx.order ≤ (p + min cnt (s.ctx.lsize - p) - 1) / 2 ^ s.ctx.order :=
    Nat.div_le_div_right (by omega)
  rw [Nat.sub_add_comm hspan]
  exact bind_of_error (bind_of_error (onFail_of_fail (ensureChunk_of_ioFails hmiss hio)))

/-- Settles O55: a status other than OK comes from a failure, and those leave nothing; the first chunk's call is the
first thing a read does after its checks. -/
theorem ctxReadFailureReportsZeroBytes : Obligations.CtxReadFailureReportsZeroBytes := by
  refine ⟨fun s t hopen _ hrun hnofault hcode => ?_, fun s p cnt dst hopen h0 h1 h2 hp hcnt hfit hmiss hio =>
    exec_ctxRead_of_ioFails hopen h0 h1 h2 hp hcnt hfit hmiss hio⟩
  rw [exec_ctxRead_eq_readOperands hopen] at hrun
  rcases runCommand_cases .ctxRead readOperands s with ⟨u, -, e⟩ | ⟨x, u, hu, e⟩ | ⟨c, u, -, e⟩ <;> rw [e] at hrun <;>
    cases hrun
  · exact absurd rfl hcode
  · exact readOperands_failsEmpty.empty s x u hu
  · exact absurd hnofault (by simp)

end Sys2Proof.Machine

/-! ## CTX_READ over any chunks -/

namespace Sys2Proof.Machine

/-! ### The stored chunks of an open context (45_context.md R233, R234) -/

/-- The validated chunk starts rise up to the last, which is the end of the store. -/
theorem ContextOk.cstart_le {w : World} {x : Context} (h : ContextOk w x) (hopen : x.opened = true) {k : Nat}
    (hk : k ≤ x.nchunks) : x.tsize + x.cstart.getD k 0 ≤ storeLen w x.handle := by
  obtain ⟨htsize, hregion⟩ := h.region hopen
  have hindex := h.index hopen
  rw [h.stored hopen] at hregion hindex
  induction hk using Nat.decreasingInduction with
  | self =>
    have hlast := buildIndex_getD (esz := entrySize x.lsize) (storeBytesOf w x.handle) (le_refl x.nchunks)
    rw [← indexSize_eq, ← htsize, chunkStart, if_pos rfl, ← indexSize_eq, ← htsize] at hlast
    have hget : x.cstart.getD x.nchunks 0 = storeLen w x.handle - x.tsize := by
      rw [hindex]
      exact hlast
    omega
  | of_succ k hk ih =>
    have hrise := (indexLegal_chunk (h.legal hopen) hk).1
    exact le_trans (by omega) ih

theorem ContextOk.storedInside {w : World} {x : Context} (h : ContextOk w x) (hopen : x.opened = true) {k : Nat}
    (hk : k < x.nchunks) : StoredInside w x k := by
  have h1 := h.cstart_le hopen (k := k + 1) hk
  have h2 := (indexLegal_chunk (h.legal hopen) hk).1
  unfold StoredInside
  omega

/-- A state whose context can be read: no call fails, every chunk lies in the store, and the cache is coherent. -/
structure Readable (s : State) : Prop where
  oracle : OracleNeverFails s.world
  coherent : CacheCoherent s
  inside : ∀ k < s.ctx.nchunks, StoredInside s.world s.ctx k

theorem Inv.readable {s : State} (h : Inv s) (hcoherent : CacheCoherent s) (horacle : OracleNeverFails s.world)
    (hopen : s.ctx.opened = true) : Readable s :=
  ⟨horacle, hcoherent, fun _ hk => h.ctx.storedInside hopen hk⟩

theorem Readable.within {r : Reach} {s t : State} (h : Readable s) (hw : Within r s t) (hr : r.record = false)
    (hcoherent : CacheCoherent t) : Readable t := by
  refine ⟨hw.world ▸ h.oracle, hcoherent, fun k hk => ?_⟩
  have hinside := h.inside
  rw [← hw.world, ← hw.record hr] at hinside
  exact hinside k hk

/-! ### A chunk's bytes, whatever the cache holds (R236, R239) -/

/-- Chunk `k` expanded over a buffer without values. -/
def chunkExpansion (w : World) (x : Context) (k : Nat) : EStateM.Result Stop Space Unit :=
  expandChunk w.params x.codec
    (storeSlice w x.handle (x.tsize + x.cstart.getD k 0) (x.cstart.getD (k + 1) 0 - x.cstart.getD k 0))
    (chunkLength x.lsize x.order k) { limit := chunkLength x.lsize x.order k, cells := [] }

theorem chunkDecodes_iff_expansion {w : World} {x : Context} {k : Nat} {cells : Memory} :
    ChunkDecodes w x k cells ↔
      chunkExpansion w x k = .ok () { limit := chunkLength x.lsize x.order k, cells := cells } := Iff.rfl

theorem Within.chunkExpansion {r : Reach} {s t : State} (hw : Within r s t) (hr : r.record = false) (k : Nat) :
    chunkExpansion t.world t.ctx k = chunkExpansion s.world s.ctx k := by
  conv_rhs => rw [← hw.world, ← hw.record hr]
  rfl

theorem Within.order {r : Reach} {s t : State} (hw : Within r s t) (hr : r.record = false) :
    t.ctx.order = s.ctx.order := by rw [← hw.record hr]

theorem Within.lsize {r : Reach} {s t : State} (hw : Within r s t) (hr : r.record = false) :
    t.ctx.lsize = s.ctx.lsize := by rw [← hw.record hr]

theorem Within.nchunks {r : Reach} {s t : State} (hw : Within r s t) (hr : r.record = false) :
    t.ctx.nchunks = s.ctx.nchunks := by rw [← hw.record hr]

theorem Within.chunkDecodes_iff {r : Reach} {s t : State} (hw : Within r s t) (hr : r.record = false) {k : Nat}
    {cells : Memory} : ChunkDecodes t.world t.ctx k cells ↔ ChunkDecodes s.world s.ctx k cells := by
  rw [chunkDecodes_iff_expansion, chunkDecodes_iff_expansion, hw.chunkExpansion hr, hw.lsize hr, hw.order hr]

/-- What a coherent cache holds is what its chunk decodes to. -/
theorem CacheCoherent.agreeOn {s : State} {c : Nat} {sp : Space} (h : CacheCoherent s)
    (hcached : s.ctx.cacheValid = true ∧ s.ctx.cacheChunk = c)
    (hdec : chunkExpansion s.world s.ctx c = .ok () sp) :
    AgreeOn sp.cells s.ctx.cacheBuf 0 (chunkLength s.ctx.lsize s.ctx.order c) := by
  obtain ⟨hvalid, rfl⟩ := hcached
  obtain ⟨cells, hcells, hagree⟩ := h hvalid
  cases hdec.symm.trans hcells
  exact hagree

/-- What EnsureChunk may change: the cache and the count of calls. -/
def cacheReach : Reach := { cache := true, calls := true }

/-- A part that may not write RES0 keeps it, however it ends. -/
theorem EndsFramed.kept {α : Type} {r : Reach} {s : State} {x : EStateM.Result Stop State α}
    (h : EndsFramed r false s x) (hr : r.failResult = false) : Within r s (stateOf x) ∧ (stateOf x).res0 = s.res0 := by
  match x, h with
  | .ok _ t, ⟨hw, hres⟩ => exact ⟨hw, hres rfl⟩
  | .error (.fail _) t, ⟨hw, hres⟩ => exact ⟨hw, hres hr⟩
  | .error (.fault _) t, ⟨hw, hres, _⟩ => exact ⟨hw, hres⟩

theorem ensureChunk_within (c : Nat) (s : State) :
    Within cacheReach s (stateOf (ensureChunk c s)) ∧ (stateOf (ensureChunk c s)).res0 = s.res0 :=
  ((ensureChunk_framed rfl rfl c).ends s).kept rfl

section
variable {s : State} {c : Nat}

/-- A chunk expands over the cache buffer as it does over a buffer without values. -/
theorem chunkExpansion_alike (s : State) (c : Nat) :
    EndsAlike (SpacesAlike 0 (chunkLength s.ctx.lsize s.ctx.order c)) AnyStates (chunkExpansion s.world s.ctx c)
      (expandChunk s.world.params s.ctx.codec (storedChunk s c) (chunkLength s.ctx.lsize s.ctx.order c)
        (cacheSpace (chunkLength s.ctx.lsize s.ctx.order c) s)) := expandChunk_alike rfl

/-- A chunk that decodes is brought into the cache by at most one call. -/
theorem ensureChunk_of_decodes {sp : Space} (h : Readable s) (hc : c < s.ctx.nchunks)
    (hdec : chunkExpansion s.world s.ctx c = .ok () sp) :
    ∃ t, ensureChunk c s = .ok () t ∧ (t.ctx.cacheValid = true ∧ t.ctx.cacheChunk = c) ∧
      s.ioCalls ≤ t.ioCalls ∧ t.ioCalls ≤ s.ioCalls + 1 := by
  by_cases hit : s.ctx.cacheValid = true ∧ s.ctx.cacheChunk = c
  · exact ⟨s, ensureChunk_of_cached hit, hit, le_rfl, Nat.le_succ _⟩
  · obtain ⟨sp', hexp, -⟩ := (chunkExpansion_alike s c).of_ok hdec
    exact ⟨_, ensureChunk_of_expanded hit (h.inside c hc) (h.oracle _) hexp, ⟨rfl, rfl⟩, Nat.le_succ _, le_rfl⟩

/-- A run that stops has its fellow stop. -/
theorem EndsAlike.of_error {σ α : Type} {R E : σ → σ → Prop} {x y : EStateM.Result Stop σ α} {e : Stop} {u : σ}
    (h : EndsAlike R E x y) (hx : x = .error e u) : ∃ v, y = .error e v := by
  subst hx
  cases h with
  | error _ _ => exact ⟨_, rfl⟩

/-- A chunk that does not decode is not in the cache, and ends EnsureChunk as its decoding ends. -/
theorem ensureChunk_of_undecoded {e : Stop} {sp : Space} (h : Readable s) (hc : c < s.ctx.nchunks)
    (hdec : chunkExpansion s.world s.ctx c = .error e sp) : ∃ t, ensureChunk c s = .error e t := by
  have hmiss : ¬ (s.ctx.cacheValid = true ∧ s.ctx.cacheChunk = c) := by
    rintro ⟨hvalid, rfl⟩
    obtain ⟨cells, hcells, -⟩ := h.coherent hvalid
    cases hdec.symm.trans hcells
  obtain ⟨sp', hexp⟩ := (chunkExpansion_alike s c).of_error hdec
  exact ⟨_, ensureChunk_of_unexpanded hmiss (h.inside c hc) (h.oracle _) hexp⟩

end

/-! ### Copying chunk after chunk (R238, R245) -/

/-- From `s` to `t` the bytes at the positions lo..hi-1 of the logical file, as its chunks of `size` bytes give them,
were copied to their place after `dst`, position `p` to `dst` itself, and LMEM changed nowhere else. -/
structure CopiedTo (chunk : Nat → Memory) (size p dst lo hi : Nat) (s t : State) : Prop where
  bytes : ∀ x, lo ≤ x → x < hi → readByte t.lmem (dst + (x - p)) = readByte (chunk (x / size)) (x % size)
  frame : UnchangedOutside s.lmem t.lmem (dst + (lo - p)) (dst + (hi - p))

theorem CopiedTo.of_le {chunk : Nat → Memory} {size p dst lo hi : Nat} (h : hi ≤ lo) (s : State) :
    CopiedTo chunk size p dst lo hi s s := ⟨fun x h1 h2 => by omega, fun _ _ => rfl⟩

/-- Two parts that meet at the position `mid`, or the first of which already ends the read at `stop`. -/
theorem CopiedTo.trans {chunk : Nat → Memory} {size p dst lo mid stop hi : Nat} {s t u : State} (hp : p ≤ lo)
    (h : CopiedTo chunk size p dst lo (min stop mid) s t) (h' : CopiedTo chunk size p dst (max p mid) (min stop hi) t u)
    (hlo : lo ≤ max p mid) (hhi : mid ≤ hi) : CopiedTo chunk size p dst lo (min stop hi) s u := by
  refine ⟨fun x h1 h2 => ?_, fun a ha => ?_⟩
  · by_cases hx : x < mid
    · rw [h'.frame _ (by omega), h.bytes x h1 (by omega)]
    · exact h'.bytes x (by omega) h2
  · rw [h'.frame a (by omega), h.frame a (by omega)]

section
variable {s : State} {p m dst c : Nat} {chunk : Nat → Memory}

theorem copyChunk_of_decodes (h : Readable s) (hc : c < s.ctx.nchunks) (hdec : ChunkDecodes s.world s.ctx c (chunk c))
    (hp : p < (c + 1) * 2 ^ s.ctx.order) (hbefore : c * 2 ^ s.ctx.order < p + m)
    (hend : p + m ≤ s.ctx.lsize) (hfit : dst + m ≤ 2 ^ s.world.params.addrBits) :
    ∃ t, copyChunk p m dst c s = .ok () t ∧ (t.ctx.cacheValid = true ∧ t.ctx.cacheChunk = c) ∧
      (s.ioCalls ≤ t.ioCalls ∧ t.ioCalls ≤ s.ioCalls + 1) ∧
      CopiedTo chunk (2 ^ s.ctx.order) p dst (max p (c * 2 ^ s.ctx.order))
        (min (p + m) ((c + 1) * 2 ^ s.ctx.order)) s t := by
  obtain ⟨t, hens, hcached, hcalls⟩ := ensureChunk_of_decodes h hc hdec
  have hw := (ensureChunk_within c s).1
  have hcoherent := ensureChunk_coherent c h.coherent
  rw [hens, stateOf_ok] at hw hcoherent
  have horder := hw.order rfl
  have hlsize := hw.lsize rfl
  have hagree := hcoherent.agreeOn hcached ((hw.chunkExpansion rfl c).trans hdec)
  have hwritten : Written t.ctx.cacheBuf 0 (chunkLength t.ctx.lsize t.ctx.order c) := fun i hi => by
    rw [hagree (0 + i) (Nat.zero_le _) (by omega), horder, hlsize] at *
    exact expandChunk_written hdec i hi
  rw [Nat.succ_mul] at hp ⊢
  have hsize := Nat.two_pow_pos s.ctx.order
  obtain ⟨l, hcopy, hbytes, hout⟩ := copyChunk_of_ensured (p := p) (m := m) (dst := dst) hens hwritten
    (by rw [horder]) rfl (by rw [horder]) (by omega) (by rwa [hlsize]) (by rwa [hw.world])
  refine ⟨t.setLmem l, hcopy, hcached, hcalls, fun x h1 h2 => ?_, ?_⟩
  · have hdiv : x / 2 ^ s.ctx.order = c := Nat.div_eq_of_lt_le (by omega) (by rw [Nat.succ_mul]; omega)
    have hmod : x % 2 ^ s.ctx.order = x - c * 2 ^ s.ctx.order := by
      rw [Nat.mod_eq_sub_mul_div, hdiv, Nat.mul_comm]
    rw [hdiv, hmod]
    refine (hbytes x h1 h2).trans (hagree _ (Nat.zero_le _) ?_)
    rw [horder, hlsize, chunkLength]
    omega
  · rwa [hw.lmem rfl] at hout

/-- What a copied chunk leaves: nothing but what CTX_READ may change is changed, and the context stays readable. -/
theorem Readable.copyChunk {s t : State} (h : Readable s) (hcopy : copyChunk p m dst c s = .ok () t) :
    Within (reachOf .ctxRead) s t ∧ Readable t := by
  have hframe := (copyChunk_framed p m dst c).ends s
  have hcoherent := copyChunk_coherent (p := p) (m := m) (dst := dst) (c := c) h.coherent
  rw [hcopy] at hframe hcoherent
  exact ⟨hframe.1, h.within hframe.1 rfl hcoherent⟩

/-- The chunks of a read one after another; the last of them stays in the cache. -/
theorem copyChunks_of_decodes {count : Nat} (h : Readable s) (hc : c + count ≤ s.ctx.nchunks)
    (hdec : ∀ k, c ≤ k → k < c + count → ChunkDecodes s.world s.ctx k (chunk k))
    (hp : p < (c + 1) * 2 ^ s.ctx.order) (hbefore : ∀ k < count, (c + k) * 2 ^ s.ctx.order < p + m)
    (hend : p + m ≤ s.ctx.lsize) (hfit : dst + m ≤ 2 ^ s.world.params.addrBits) :
    ∃ t, copyChunks p m dst count c s = .ok () t ∧
      (0 < count → t.ctx.cacheValid = true ∧ t.ctx.cacheChunk = c + count - 1) ∧
      (s.ioCalls ≤ t.ioCalls ∧ t.ioCalls ≤ s.ioCalls + count) ∧
      CopiedTo chunk (2 ^ s.ctx.order) p dst (max p (c * 2 ^ s.ctx.order))
        (min (p + m) ((c + count) * 2 ^ s.ctx.order)) s t := by
  induction count generalizing c s with
  | zero => exact ⟨s, rfl, nofun, ⟨le_rfl, le_rfl⟩, .of_le (by rw [Nat.add_zero]; omega) s⟩
  | succ count ih =>
    obtain ⟨t, hcopy, hcached, hcalls, hfirst⟩ := copyChunk_of_decodes h (by omega) (hdec c le_rfl (by omega)) hp
      (hbefore 0 (Nat.succ_pos count)) hend hfit
    obtain ⟨hw, ht⟩ := h.copyChunk hcopy
    have hnext : (c + 1) * 2 ^ s.ctx.order ≤ (c + 1 + 1) * 2 ^ s.ctx.order := Nat.mul_le_mul_right _ (by omega)
    have hreach : (c + 1) * 2 ^ s.ctx.order ≤ (c + (count + 1)) * 2 ^ s.ctx.order :=
      Nat.mul_le_mul_right _ (by omega)
    have hstart : c * 2 ^ s.ctx.order ≤ (c + 1) * 2 ^ s.ctx.order := Nat.mul_le_mul_right _ (by omega)
    obtain ⟨u, hrest, hcached', hcalls', hsecond⟩ := ih ht (c := c + 1) (by rw [hw.nchunks rfl]; omega)
      (fun k h1 h2 => (hw.chunkDecodes_iff rfl).mpr (hdec k (by omega) (by omega))) (by rw [hw.order rfl]; omega)
      (fun k hk => by
        rw [hw.order rfl, Nat.add_assoc, Nat.add_comm 1]
        exact hbefore (k + 1) (by omega))
      (by rwa [hw.lsize rfl]) (by rwa [hw.world])
    rw [hw.order rfl, Nat.add_assoc c 1 count, Nat.add_comm 1 count] at hsecond
    refine ⟨u, (bind_of_ok hcopy).trans hrest, fun _ => ?_, ⟨by omega, by omega⟩,
      hfirst.trans (Nat.le_max_left ..) hsecond (by omega) hreach⟩
    rcases Nat.eq_zero_or_pos count with rfl | hpos
    · cases hrest
      exact hcached
    · rw [show c + (count + 1) - 1 = c + 1 + count - 1 by omega]
      exact hcached' hpos

end

/-! ### The command -/

/-- A state that a part of CTX_READ leaves, put together from the state before. -/
theorem Within.eq_read {s t : State} (hw : Within (reachOf .ctxRead) s t) :
    t = { s with
      lmem := t.lmem, res0 := t.res0, ioCalls := t.ioCalls
      ctx := { s.ctx with
        cacheValid := t.ctx.cacheValid, cacheChunk := t.ctx.cacheChunk, cacheBuf := t.ctx.cacheBuf } } := by
  have hctx := congrArg (fun x : Context => { x with
    cacheValid := t.ctx.cacheValid, cacheChunk := t.ctx.cacheChunk, cacheBuf := t.ctx.cacheBuf }) (hw.record rfl)
  have hrest := congrArg (fun u : State => { u with
    lmem := t.lmem, res0 := t.res0, br0 := t.br0, ctx := t.ctx, ioCalls := t.ioCalls }) hw.rest
  refine hrest.trans ?_
  rw [hw.br0 rfl, ← hctx]

theorem copyChunks_within {p m dst count c : Nat} {s t : State} (hcopy : copyChunks p m dst count c s = .ok () t) :
    Within (reachOf .ctxRead) s t := by
  have hframe := (copyChunks_framed p m dst count c).ends s
  rw [hcopy] at hframe
  exact hframe.1

/-- Settles O54: the chunks one after another; the cache holds the last of them as its decoding gives it. -/
theorem ctxReadCopiesTheLogicalBytes : Obligations.CtxReadCopiesTheLogicalBytes := by
  intro s p cnt dst chunk hinv hcoherent horacle hopen h0 h1 h2 hp hcnt m size last hfit hdec
  have hreadable := hinv.readable hcoherent horacle hopen
  have hm : 0 < m := by change 0 < min _ _; omega
  have hend : p + m ≤ s.ctx.lsize := by change p + min _ _ ≤ _; omega
  have hspan : p / size ≤ last := Nat.div_le_div_right (by omega)
  have hpos : 0 < size := Nat.two_pow_pos _
  have hcount : p / size + (last + 1 - p / size) ≤ s.ctx.nchunks := by
    rw [(hinv.ctx.count hopen).1]
    exact lastChunk_lt hm hend
  obtain ⟨t, hcopy, hcached, ⟨hcalls, hcalls'⟩, hcopied⟩ := copyChunks_of_decodes (p := p) (m := m) (dst := dst)
    (chunk := chunk) hreadable hcount (fun k h1 h2 => hdec k h1 (by omega))
    ((Nat.div_lt_iff_lt_mul hpos).mp (Nat.lt_succ_self _)) (fun k hk => chunk_begins_before hm hk) hend hfit
  have hlast : p / size + (last + 1 - p / size) = last + 1 := by omega
  have hstart : max p (p / size * size) = p := max_eq_left (Nat.div_mul_le_self p size)
  have hstop : min (p + m) ((last + 1) * size) = p + m :=
    min_eq_left (Nat.le_of_pred_lt ((Nat.div_lt_iff_lt_mul hpos).mp (Nat.lt_succ_self last)))
  rw [hlast, hstart, hstop] at hcopied
  obtain ⟨hvalid, hchunk⟩ := hcached (by omega)
  rw [hlast, Nat.add_sub_cancel] at hchunk
  have hw := copyChunks_within hcopy
  refine ⟨t.lmem, t.ctx.cacheBuf, t.ioCalls - s.ioCalls, ?_, by omega, fun j hj => ?_, ?_, ?_⟩
  · have hstate := hw.eq_read
    rw [hvalid, hchunk] at hstate
    rw [exec_ctxRead_of_opened hopen h0 h1 h2, Nat.add_sub_cancel' hcalls]
    exact (runCommand_of_ok (readOpened_of_copied hp hcnt rfl hfit hcopy)).trans
      (congrArg (fun u : State => Host.Outcome.next ((u.setRes0 (BitVec.ofNat 64 m)).finish .ok)) hstate)
  · have := hcopied.bytes (p + j) (Nat.le_add_right p j) (Nat.add_lt_add_left hj p)
    rwa [Nat.add_sub_cancel_left] at this
  · have hcoherent' := copyChunks_coherent (p := p) (m := m) (dst := dst) (count := last + 1 - p / size)
      (c := p / size) hcoherent
    rw [hcopy, stateOf_ok] at hcoherent'
    have := hcoherent'.agreeOn ⟨hvalid, hchunk⟩ ((hw.chunkExpansion rfl last).trans (hdec last hspan le_rfl))
    rwa [hw.lsize rfl, hw.order rfl] at this
  · have := hcopied.frame
    rwa [Nat.sub_self, Nat.add_zero, Nat.add_sub_cancel_left] at this

end Sys2Proof.Machine

/-! ## The cache does not show in what CTX_READ writes -/

namespace Sys2Proof.Machine

/-! ### Two states with different caches (45_context.md R244) -/

theorem Within.symm {r : Reach} {s t : State} (h : Within r s t) : Within r t s where
  rest := (congrArg (fun u : State => { u with
    lmem := t.lmem, res0 := t.res0, br0 := t.br0, ctx := t.ctx, ioCalls := t.ioCalls }) h.rest).symm
  lmem hr := (h.lmem hr).symm
  br0 hr := (h.br0 hr).symm
  record hr := (congrArg (fun x : Context => { x with
    cacheValid := t.ctx.cacheValid, cacheChunk := t.ctx.cacheChunk, cacheBuf := t.ctx.cacheBuf }) (h.record hr)).symm
  cache hr := (h.cache hr).symm
  calls hr := (h.calls hr).symm

/-- The two states show the same LMEM, RES0, CODE, FAULT and CAUSE. -/
structure SameResults (s t : State) : Prop where
  lmem : s.lmem = t.lmem
  res0 : s.res0 = t.res0
  code : s.code = t.code
  fault : s.fault = t.fault
  cause : s.cause = t.cause

/-- Two readable states that differ at most in the cache and the count of calls. -/
structure ReadAlike (s t : State) : Prop where
  within : Within cacheReach s t
  res0 : t.res0 = s.res0
  left : Readable s
  right : Readable t

section
variable {s t u v : State} {p cnt m dst c : Nat}

theorem sameResults_of_within (h : Within cacheReach s t) (hres : t.res0 = s.res0) : SameResults s t :=
  ⟨(h.lmem rfl).symm, hres.symm, h.code.symm, h.fault.symm, h.cause.symm⟩

theorem ReadAlike.sameResults (h : ReadAlike s t) : SameResults s t := sameResults_of_within h.within h.res0

theorem SameResults.failRead (h : SameResults s t) : SameResults (failRead s) (failRead t) :=
  ⟨h.lmem, rfl, h.code, h.fault, h.cause⟩

theorem SameResults.setRes0 (h : SameResults s t) (x : Word64) : SameResults (s.setRes0 x) (t.setRes0 x) :=
  ⟨h.lmem, rfl, h.code, h.fault, h.cause⟩

theorem ReadAlike.setLmem (h : ReadAlike s t) (l : Memory) : ReadAlike (s.setLmem l) (t.setLmem l) where
  within := {
    rest := congrArg (State.setLmem · l) h.within.rest
    lmem := fun _ => rfl
    br0 := h.within.br0
    record := h.within.record
    cache := h.within.cache
    calls := h.within.calls }
  res0 := h.res0
  left := ⟨h.left.oracle, h.left.coherent, h.left.inside⟩
  right := ⟨h.right.oracle, h.right.coherent, h.right.inside⟩

/-! ### EnsureChunk -/

/-- Two readable states whose cache buffers read alike over chunk `c`. -/
structure HeldAlike (c : Nat) (s t : State) : Prop extends ReadAlike s t where
  agree : AgreeOn s.ctx.cacheBuf t.ctx.cacheBuf 0 (chunkLength s.ctx.lsize s.ctx.order c)

/-- From two such states EnsureChunk leaves two such states, however it ends. -/
theorem ensureChunk_within_pair (h : ReadAlike s t) (c : Nat) :
    Within cacheReach (stateOf (ensureChunk c s)) (stateOf (ensureChunk c t)) ∧
      (stateOf (ensureChunk c t)).res0 = (stateOf (ensureChunk c s)).res0 := by
  obtain ⟨hs, hsres⟩ := ensureChunk_within c s
  obtain ⟨ht, htres⟩ := ensureChunk_within c t
  exact ⟨(hs.symm.trans h.within).trans ht, htres.trans (h.res0.trans hsres.symm)⟩

theorem Readable.ensureChunk (h : Readable s) (c : Nat) : Readable (stateOf (ensureChunk c s)) :=
  h.within (ensureChunk_within c s).1 rfl (ensureChunk_coherent c h.coherent)

/-- Whether a chunk is cached does not show in how EnsureChunk ends, nor in the bytes it leaves in the cache. -/
theorem ensureChunk_alike (h : ReadAlike s t) (hc : c < s.ctx.nchunks) :
    EndsAlike (HeldAlike c) SameResults (ensureChunk c s) (ensureChunk c t) := by
  have hpair := ensureChunk_within_pair h c
  have hs := h.left.ensureChunk c
  have ht := h.right.ensureChunk c
  have hct : c < t.ctx.nchunks := by rwa [h.within.nchunks rfl]
  cases hdec : chunkExpansion s.world s.ctx c with
  | ok a sp =>
    have hdec' := (h.within.chunkExpansion rfl c).trans hdec
    obtain ⟨u, hu, hcached, -⟩ := ensureChunk_of_decodes h.left hc hdec
    obtain ⟨v, hv, hcached', -⟩ := ensureChunk_of_decodes h.right hct hdec'
    have hsu := (ensureChunk_within c s).1
    have htv := (ensureChunk_within c t).1
    rw [hu, hv] at hpair
    rw [hu] at hs hsu ⊢
    rw [hv] at ht htv ⊢
    have hagree := hs.coherent.agreeOn hcached ((hsu.chunkExpansion rfl c).trans hdec)
    have hagree' := ht.coherent.agreeOn hcached' ((htv.chunkExpansion rfl c).trans hdec')
    refine .ok () ⟨⟨hpair.1, hpair.2, hs, ht⟩, fun x h1 h2 => ?_⟩
    exact (hagree' x h1 (by rwa [hpair.1.lsize rfl, hpair.1.order rfl])).trans (hagree x h1 h2).symm
  | error e sp =>
    obtain ⟨u, hu⟩ := ensureChunk_of_undecoded h.left hc hdec
    obtain ⟨v, hv⟩ := ensureChunk_of_undecoded h.right hct ((h.within.chunkExpansion rfl c).trans hdec)
    rw [hu, hv] at hpair ⊢
    exact .error e (sameResults_of_within hpair.1 hpair.2)

/-! ### A chunk's part of a read (R238) -/

theorem onFail_alike {σ α : Type} {R E : σ → σ → Prop} {g : σ → σ} {f : Run σ α} {a b : σ}
    (h : EndsAlike R E (f a) (f b)) (hg : ∀ x y, E x y → E (g x) (g y)) :
    EndsAlike R E (onFail g f a) (onFail g f b) := by
  unfold onFail
  generalize f a = x at h
  generalize f b = y at h
  cases h with
  | ok r h => exact .ok r h
  | error e h =>
    cases e with
    | fail e => exact .error _ (hg _ _ h)
    | fault c => exact .error _ h

/-- A read of memories that are alike up to their end. -/
theorem memReadBytes_alike {sp sp' : Space} (h : SpacesAlike 0 sp.limit sp sp') (a n : Nat) :
    memReadBytes sp' a n = memReadBytes sp a n := by
  by_cases hin : n = 0 ∨ a + n ≤ sp.limit
  · refine memReadBytes_congr ⟨h.limit, fun x h1 h2 => h.agree x (Nat.zero_le x) ?_⟩
    rcases hin with rfl | hin <;> omega
  · rw [memReadBytes, memReadBytes, h.limit, if_neg hin, if_neg hin]

/-- The two memories are `sp` and `sp'` themselves. -/
def ThesePair (sp sp' a b : Space) : Prop := a = sp ∧ b = sp'

theorem loadBytes_alike_whole {sp sp' : Space} (h : SpacesAlike 0 sp.limit sp sp') (a n : Nat) :
    EndsAlike (ThesePair sp sp') (ThesePair sp sp') (loadBytes a n sp) (loadBytes a n sp') := by
  unfold loadBytes
  rw [memReadBytes_alike h]
  cases memReadBytes sp a n with
  | ok bs => exact .ok bs ⟨rfl, rfl⟩
  | error x => exact .error _ ⟨rfl, rfl⟩

/-- Loading from the cache leaves both states as they are. -/
theorem onCache_loadBytes_alike {a n : Nat} (h : HeldAlike c s t) :
    EndsAlike ReadAlike SameResults
      (onCache (chunkLength s.ctx.lsize s.ctx.order c) (loadBytes a n) s)
      (onCache (chunkLength s.ctx.lsize s.ctx.order c) (loadBytes a n) t) := by
  refine .zoom (loadBytes_alike_whole (sp := cacheSpace _ s) (sp' := cacheSpace _ t) ⟨rfl, h.agree⟩ a n) ?_ ?_
  · rintro _ _ ⟨rfl, rfl⟩
    exact h.toReadAlike
  · rintro _ _ ⟨rfl, rfl⟩
    exact h.toReadAlike.sameResults

theorem onLmem_alike {α : Type} {f : Run Space α} (h : ReadAlike s t) :
    EndsAlike ReadAlike SameResults (onLmem f s) (onLmem f t) := by
  refine .zoom_same ?_ (fun sp => h.setLmem sp.cells) fun sp => (h.setLmem sp.cells).sameResults
  rw [lmemSpace, lmemSpace, h.within.world, h.within.lmem rfl]

theorem copyChunk_alike (h : ReadAlike s t) (hc : c < s.ctx.nchunks) :
    EndsAlike ReadAlike SameResults (copyChunk p m dst c s) (copyChunk p m dst c t) := by
  refine (onFail_alike (ensureChunk_alike h hc) fun _ _ => SameResults.failRead).bind fun _ u v _ huv => ?_
  refine .get_bind ?_
  rw [huv.within.order rfl, huv.within.lsize rfl]
  exact (onCache_loadBytes_alike huv).bind fun bs u v _ huv => onLmem_alike huv

theorem copyChunks_alike {count : Nat} (h : ReadAlike s t) (hc : c + count ≤ s.ctx.nchunks) :
    EndsAlike ReadAlike SameResults (copyChunks p m dst count c s) (copyChunks p m dst count c t) := by
  induction count generalizing c s t with
  | zero => exact .ok () h
  | succ count ih =>
    refine (copyChunk_alike h (by omega)).bind fun _ u v hu huv => ih huv ?_
    rw [(copyChunk_record hu).2]
    omega

/-! ### The command -/

theorem setResult_alike (h : SameResults s t) (x : Nat) :
    EndsAlike SameResults SameResults (setResult x s) (setResult x t) := .ok () (h.setRes0 _)

theorem requireLmem_alike {a n : Nat} (h : ReadAlike s t) :
    EndsAlike ReadAlike SameResults (requireLmem a n s) (requireLmem a n t) := by
  unfold requireLmem
  rw [h.within.world]
  split
  · exact .ok () h
  · exact .error _ h.sameResults

theorem readArg_alike {i : Fin 6} (h : ReadAlike s t) :
    EndsAlike ReadAlike SameResults (readArg i s) (readArg i t) := by
  rcases readArg_cases i s with ⟨x, hx, e⟩ | ⟨hx, e⟩ <;> rw [e] <;> rw [← h.within.args] at hx
  · rw [readArg_of_some hx]
    exact .ok _ h
  · rw [readArg_of_none hx]
    exact .error _ h.sameResults

theorem readOpened_alike (h : ReadAlike s t) (hcount : s.ctx.nchunks = chunkCount s.ctx.lsize s.ctx.order) :
    EndsAlike SameResults SameResults (readOpened p cnt dst s) (readOpened p cnt dst t) := by
  refine .get_bind ?_
  simp only
  rw [h.within.lsize rfl, h.within.order rfl]
  refine .ite (fun _ => setResult_alike h.sameResults 0) fun hp => ?_
  refine (requireLmem_alike h).bind fun _ u v hu huv => ?_
  cases (requireLmem_keeps _ _).ok hu
  refine .ite (fun _ => setResult_alike huv.sameResults 0) fun hm => ?_
  refine (copyChunks_alike huv ?_).bind fun _ u v _ huv => setResult_alike huv.sameResults _
  rw [hcount]
  exact lastChunk_lt (by omega) (by omega)

theorem readOperands_alike (h : ReadAlike s t) (hcount : s.ctx.nchunks = chunkCount s.ctx.lsize s.ctx.order) :
    EndsAlike SameResults SameResults (readOperands s) (readOperands t) := by
  refine (readArg_alike h).bind fun p u v hu huv => ?_
  cases (readArg_keeps 0).ok hu
  refine (readArg_alike huv).bind fun cnt u v hu huv => ?_
  cases (readArg_keeps 1).ok hu
  refine (readArg_alike huv).bind fun dst u v hu huv => ?_
  cases (readArg_keeps 2).ok hu
  exact readOpened_alike huv hcount

theorem runCommand_alike {i : Instr} {body : Run State Unit}
    (h : EndsAlike SameResults SameResults (body s) (body t)) :
    ∃ u v, runCommand i body s = .next u ∧ runCommand i body t = .next v ∧ SameResults u v := by
  unfold runCommand
  generalize body s = x at h
  generalize body t = y at h
  cases h with
  | ok a h => exact ⟨_, _, rfl, rfl, h.lmem, h.res0, rfl, h.fault, h.cause⟩
  | error e h =>
    cases e with
    | fail e => exact ⟨_, _, rfl, rfl, h.lmem, h.res0, rfl, h.fault, h.cause⟩
    | fault c => exact ⟨_, _, rfl, rfl, h.lmem, h.res0, h.code, rfl, rfl⟩

end

/-- Settles O58: the state and the one with its cache dropped are read alike, chunk by chunk. -/
theorem cacheIsTransparent : Obligations.CacheIsTransparent := by
  intro s hinv hcoherent horacle
  cases hopen : s.ctx.opened with
  | false => exact ⟨_, _, exec_ctxRead_of_closed hopen, exec_ctxRead_of_closed (s := dropCache s) hopen, rfl, rfl, rfl,
      rfl, rfl⟩
  | true =>
    have hs := hinv.readable hcoherent horacle hopen
    have hw : Within cacheReach s (dropCache s) := dropCache_within rfl s
    have halike : ReadAlike s (dropCache s) := ⟨hw, rfl, hs, hs.within hw rfl (cacheCoherent_of_invalid rfl)⟩
    obtain ⟨u, v, hu, hv, hsame⟩ := runCommand_alike (i := .ctxRead)
      (readOperands_alike halike (hinv.ctx.count hopen).1)
    exact ⟨u, v, (exec_ctxRead_eq_readOperands hopen).trans hu,
      (exec_ctxRead_eq_readOperands (s := dropCache s) hopen).trans hv, hsame.lmem, hsame.res0, hsame.code, hsame.fault,
      hsame.cause⟩

end Sys2Proof.Machine

/-! ## CTX_OPEN and CTX_READ never fault on what the store holds -/

namespace Sys2Proof.Machine

/-! ### Ending well or with a listed status (60_exceptions.md R264) -/

section
variable {σ τ α β : Type} {l : List Status}

/-- The ending is good or one of the statuses `l`; it is no fault. -/
def EndsWith (l : List Status) (x : EStateM.Result Stop σ α) : Prop :=
  (∃ a t, x = .ok a t) ∨ ∃ e ∈ l, ∃ t, x = .error (.fail e) t

theorem endsWith_ok (a : α) (t : σ) : EndsWith l (.ok a t : EStateM.Result Stop σ α) := .inl ⟨a, t, rfl⟩

theorem endsWith_fail {e : Status} (he : e ∈ l) (t : σ) : EndsWith l (.error (.fail e) t : EStateM.Result Stop σ α) :=
  .inr ⟨e, he, t, rfl⟩

theorem EndsWith.mono {l' : List Status} {x : EStateM.Result Stop σ α} (h : EndsWith l x) (hl : l ⊆ l') :
    EndsWith l' x := h.imp_right fun ⟨e, he, t, hx⟩ => ⟨e, hl he, t, hx⟩

theorem EndsWith.bind {x : Run σ α} {f : α → Run σ β} {s : σ} (hx : EndsWith l (x s))
    (hf : ∀ a t, x s = .ok a t → EndsWith l (f a t)) : EndsWith l ((x >>= f) s) := by
  rcases hx with ⟨a, t, hx⟩ | ⟨e, he, t, hx⟩
  · rw [bind_of_ok hx]
    exact hf a t hx
  · rw [bind_of_error hx]
    exact endsWith_fail he t

theorem EndsWith.zoom {part : σ → τ} {put : τ → σ → σ} {f : Run τ α} {s : σ} (h : EndsWith l (f (part s))) :
    EndsWith l (zoom part put f s) := by
  rcases h with ⟨a, t, hf⟩ | ⟨e, he, t, hf⟩
  · rw [zoom_of_ok hf]
    exact endsWith_ok a _
  · rw [zoom_of_error hf]
    exact endsWith_fail he _

theorem EndsWith.onFail {g : σ → σ} {f : Run σ α} {s : σ} (h : EndsWith l (f s)) : EndsWith l (onFail g f s) := by
  rcases h with ⟨a, t, hf⟩ | ⟨e, he, t, hf⟩
  · rw [onFail_of_ok hf]
    exact endsWith_ok a t
  · rw [onFail_of_fail hf]
    exact endsWith_fail he _

end

theorem requireOperand_endsWith {l : List Status} {e : Status} (he : e ∈ l) (ok : Bool) (s : State) :
    EndsWith l (requireOperand ok e s) := by
  cases ok with
  | true => exact endsWith_ok () s
  | false => exact endsWith_fail he s

/-- A command whose body ends so keeps FAULT and shows OK or one of the statuses. -/
theorem runCommand_endsWith {l : List Status} {r : Reach} {answers : Bool} {i : Instr} {body : Run State Unit}
    {s : State} (hframe : Framed r answers body) (h : EndsWith l (body s)) :
    ∃ t, runCommand i body s = .next t ∧ t.fault = s.fault ∧ t.code ∈ (Status.ok :: l).map statusCode := by
  have hends := hframe.ends s
  rcases h with ⟨_, t, hbody⟩ | ⟨e, he, t, hbody⟩ <;> rw [hbody] at hends
  · exact ⟨_, runCommand_of_ok hbody, hends.1.fault, List.mem_map_of_mem List.mem_cons_self⟩
  · exact ⟨_, runCommand_of_fail hbody, hends.1.fault, List.mem_map_of_mem (List.mem_cons_of_mem _ he)⟩

/-! ### CTX_OPEN (45_context.md R232-R234) -/

/-- The statuses CTX_OPEN can fail with. -/
def openFailures : List Status := [.metadata, .io, .state, .capacity]

theorem readIndex_endsWith (h : Word64) (size : Nat) (s : State) : EndsWith openFailures (readIndex h size s) := by
  unfold readIndex
  split
  · exact endsWith_ok [] s
  · rcases storeRead_run h 0 size s with ⟨-, -, e⟩ | e <;> rw [bind_of_ok e]
    · exact endsWith_ok _ _
    · exact endsWith_fail (e := .io) (by decide) _

theorem openChecked_endsWith (h : Word64) (lsize : Nat) (cd : Codec) (order : Nat) (s : State) :
    EndsWith openFailures (openChecked h lsize cd order s) := by
  refine .bind (requireOperand_endsWith (by decide) _ _) fun _ _ _ => ?_
  refine .bind (endsWith_ok _ _) fun _ _ _ => ?_
  refine .bind (requireOperand_endsWith (by decide) _ _) fun _ _ _ => ?_
  refine .bind (requireOperand_endsWith (by decide) _ _) fun _ _ _ => ?_
  refine .bind (readIndex_endsWith _ _ _) fun _ _ _ => ?_
  exact .bind (requireOperand_endsWith (by decide) _ _) fun _ _ _ => endsWith_ok _ _

theorem openPair_endsWith (h : Word64) (lsize order : Nat) (pair : Option Codec) (s : State) :
    EndsWith openFailures (openPair h lsize order pair s) := by
  cases pair with
  | none => exact endsWith_fail (e := .metadata) (by decide) s
  | some cd => exact openChecked_endsWith h lsize cd order s

theorem openPair_framed (h : Word64) (lsize order : Nat) (pair : Option Codec) :
    Framed (reachOf .ctxOpen) false (openPair h lsize order pair) := by
  cases pair with
  | none => exact .fail .metadata
  | some cd => exact openChecked_framed h lsize cd order

theorem exec_ctxOpen_endsWith {s : State} (hargs : ∀ k ∈ operandRegisters .ctxOpen, (s.args.get k).isSome = true) :
    ∃ t, exec .ctxOpen s = .next t ∧ t.fault = s.fault ∧ t.code ∈ (Status.ok :: openFailures).map statusCode := by
  cases hopen : s.ctx.opened with
  | true => exact ⟨_, exec_ctxOpen_of_opened hopen, rfl, List.mem_map_of_mem (a := Status.state) (by decide)⟩
  | false =>
    obtain ⟨h, h0⟩ := Option.isSome_iff_exists.mp (hargs 0 (by decide))
    obtain ⟨lsize, h1⟩ := Option.isSome_iff_exists.mp (hargs 1 (by decide))
    obtain ⟨codec, h2⟩ := Option.isSome_iff_exists.mp (hargs 2 (by decide))
    obtain ⟨order, h3⟩ := Option.isSome_iff_exists.mp (hargs 3 (by decide))
    rw [exec_ctxOpen hopen h0 ⟨lsize, h1, rfl⟩ ⟨codec, h2, rfl⟩ ⟨order, h3, rfl⟩]
    exact runCommand_endsWith (openPair_framed ..) (openPair_endsWith ..)

/-! ### A chunk brought into the cache (R236, R239) -/

/-- The statuses CTX_READ can fail with: a chunk's, the collaborator's, and that of a closed context. -/
def readFailures : List Status := cbFailures ++ [.io, .state]

/-- The stage buffer holds all the stored bytes. -/
theorem stageJob_written (params : Params) (stored : List Byte) (u : Nat) :
    Written (stageJob params stored u).inp.cells 0 stored.length := fun i hi => by
  rw [stageJob, readByte_writeCells_inside hi]
  rfl

theorem expandChunk_endsWith (params : Params) (codec : Codec) (stored : List Byte) {u : Nat} {out : Space}
    (hout : out.limit = u) : EndsWith cbFailures (expandChunk params codec stored u out) := by
  have hin : (stageJob params stored u).inBase + (stageJob params stored u).inSize ≤
      (stageJob params stored u).inp.limit := (Nat.zero_add _).le
  have hroom : (stageJob params stored u).outBase + (stageJob params stored u).outSize ≤ out.limit :=
    hout ▸ (Nat.zero_add _).le
  have hwritten := stageJob_written params stored u
  unfold expandChunk
  split
  · rename_i hraw
    rw [storeBytes_of_le (by omega)]
    exact endsWith_ok () _
  · cases codec with
    | a =>
      rcases caDecode_ends hin hroom hwritten with ⟨out', hdec⟩ | ⟨e, he, out', hdec⟩
      · exact .inl ⟨(), out', hdec⟩
      · exact .inr ⟨e, List.mem_append_left [Status.metadata] he, out', hdec⟩
    | b => exact (cbEnds_cbDecode (by decide) hin hwritten out hroom).imp_left fun ⟨a, t, hdec, _⟩ => ⟨a, t, hdec⟩

theorem ensureChunk_endsWith (c : Nat) (s : State) : EndsWith readFailures (ensureChunk c s) := by
  rcases ensureChunk_cases c s with ⟨-, -, e⟩ | ⟨-, e | ⟨bs, -, e⟩⟩ <;> rw [e]
  · exact endsWith_ok () s
  · exact endsWith_fail (by decide) _
  · refine EndsWith.bind (EndsWith.zoom ?_) fun _ t _ => endsWith_ok _ _
    exact (expandChunk_endsWith _ _ bs (out := cacheSpace _ s) rfl).mono (List.subset_append_left ..)

/-- A chunk that EnsureChunk leaves is the one asked for. -/
theorem ensureChunk_holds {c : Nat} {s t : State} (h : ensureChunk c s = .ok () t) :
    t.ctx.cacheValid = true ∧ t.ctx.cacheChunk = c := by
  rcases ensureChunk_cases c s with ⟨hvalid, hchunk, e⟩ | ⟨-, e | ⟨bs, -, e⟩⟩ <;> rw [e] at h
  · cases h
    exact ⟨hvalid, hchunk⟩
  · cases h
  · obtain ⟨_, u, -, hhold⟩ := bind_ok_inv h
    cases hhold
    exact ⟨rfl, rfl⟩

/-! ### The chunks of a read (R238) -/

/-- A read of the bytes [p, p+m) of an open context to `dst`, before, between or behind its chunks. -/
structure Reading (p m dst : Nat) (s : State) : Prop where
  units : UnitsOk s
  opened : s.ctx.opened = true
  nonempty : 0 < m
  stop : p + m ≤ s.ctx.lsize
  room : dst + m ≤ 2 ^ s.world.params.addrBits

section
variable {s t : State} {p m dst c : Nat}

theorem Reading.chunk_lt (h : Reading p m dst s) (hlast : c ≤ (p + m - 1) / 2 ^ s.ctx.order) : c < s.ctx.nchunks := by
  rw [(h.units.ctx.count h.opened).1]
  have := lastChunk_lt (order := s.ctx.order) h.nonempty h.stop
  omega

/-- What a part of CTX_READ that keeps the units in order leaves is a read still. -/
theorem Reading.within (h : Reading p m dst s) (hw : Within (reachOf .ctxRead) s t) (ht : UnitsOk t) :
    Reading p m dst t where
  units := ht
  opened := by
    rw [← h.opened, ← hw.record rfl]
  nonempty := h.nonempty
  stop := by
    rw [hw.lsize rfl]
    exact h.stop
  room := by
    rw [hw.world]
    exact h.room

theorem Reading.copyChunk (h : Reading p m dst s) (hlast : c ≤ (p + m - 1) / 2 ^ s.ctx.order)
    (hcopy : copyChunk p m dst c s = .ok () t) : Reading p m dst t ∧ t.ctx.order = s.ctx.order := by
  have hunits := copyChunk_units (p := p) (m := m) (dst := dst) h.units h.opened (h.chunk_lt hlast)
  have hframe := (copyChunk_framed p m dst c).ends s
  rw [hcopy] at hunits hframe
  exact ⟨h.within hframe.1 hunits, hframe.1.order rfl⟩

/-- A chunk that is brought into the cache is wholly written there, so its part of the read can be copied. -/
theorem copyChunk_endsWith (h : Reading p m dst s) (hfirst : p / 2 ^ s.ctx.order ≤ c)
    (hlast : c ≤ (p + m - 1) / 2 ^ s.ctx.order) : EndsWith readFailures (copyChunk p m dst c s) := by
  rcases ensureChunk_endsWith c s with ⟨_, t, hens⟩ | ⟨e, he, t, hens⟩
  · have hunits := ensureChunk_units h.units h.opened (h.chunk_lt hlast)
    have hw := (ensureChunk_within c s).1
    rw [hens, stateOf_ok] at hunits hw
    obtain ⟨hvalid, hchunk⟩ := ensureChunk_holds hens
    have hwritten := (hunits.ctx.cached hvalid).2
    rw [hchunk] at hwritten
    have hsize := Nat.two_pow_pos s.ctx.order
    have hbegin : c * 2 ^ s.ctx.order ≤ p + m - 1 := (Nat.le_div_iff_mul_le hsize).mp hlast
    have hend : p < c * 2 ^ s.ctx.order + 2 ^ s.ctx.order := by
      rw [← Nat.succ_mul]
      exact (Nat.div_lt_iff_lt_mul hsize).mp (Nat.lt_succ_of_le hfirst)
    have hm := h.nonempty
    obtain ⟨l, hcopy, -⟩ := copyChunk_of_ensured (p := p) (m := m) (dst := dst) hens hwritten (by rw [hw.order rfl]) rfl
      (by rw [hw.order rfl]) (by omega) (by rw [hw.lsize rfl]; exact h.stop) (by rw [hw.world]; exact h.room)
    exact .inl ⟨(), _, hcopy⟩
  · exact .inr ⟨e, he, _, bind_of_error (onFail_of_fail hens)⟩

theorem copyChunks_endsWith {count : Nat} (h : Reading p m dst s) (hfirst : p / 2 ^ s.ctx.order ≤ c)
    (hlast : c + count ≤ (p + m - 1) / 2 ^ s.ctx.order + 1) : EndsWith readFailures (copyChunks p m dst count c s) := by
  induction count generalizing c s with
  | zero => exact endsWith_ok () s
  | succ count ih =>
    refine (copyChunk_endsWith h hfirst (by omega)).bind fun _ t hcopy => ?_
    obtain ⟨ht, horder⟩ := h.copyChunk (by omega) hcopy
    exact ih ht (by rw [horder]; omega) (by rw [horder]; omega)

theorem readOpened_endsWith {cnt : Nat} (hs : UnitsOk s) (hopen : s.ctx.opened = true)
    (hfit : dst + min cnt (s.ctx.lsize - p) ≤ 2 ^ s.world.params.addrBits) :
    EndsWith readFailures (readOpened p cnt dst s) := by
  by_cases hp : s.ctx.lsize ≤ p
  · rw [readOpened_of_end hp]
    exact endsWith_ok () _
  · rw [readOpened_of_inside (Nat.not_le.mp hp) hfit]
    split
    · exact endsWith_ok () _
    · have hspan : p / 2 ^ s.ctx.order ≤ (p + min cnt (s.ctx.lsize - p) - 1) / 2 ^ s.ctx.order :=
        Nat.div_le_div_right (by omega)
      exact (copyChunks_endsWith ⟨hs, hopen, by omega, by omega, hfit⟩ le_rfl (by omega)).bind
        fun _ _ _ => endsWith_ok _ _

theorem exec_ctxRead_endsWith {cnt : Nat} (hs : UnitsOk s) (h0 : ArgIs s 0 p) (h1 : ArgIs s 1 cnt) (h2 : ArgIs s 2 dst)
    (hfit : dst + min cnt (s.ctx.lsize - p) ≤ 2 ^ s.world.params.addrBits) :
    ∃ t, exec .ctxRead s = .next t ∧ t.fault = s.fault ∧ t.code ∈ (Status.ok :: readFailures).map statusCode := by
  cases hopen : s.ctx.opened with
  | false => exact ⟨_, exec_ctxRead_of_closed hopen, rfl, List.mem_map_of_mem (a := Status.state) (by decide)⟩
  | true =>
    rw [exec_ctxRead_of_opened hopen h0 h1 h2]
    exact runCommand_endsWith (readOpened_framed p cnt dst) (readOpened_endsWith hs hopen hfit)

end

/-- Settles O56: CTX_OPEN's checks end with its own statuses; every chunk of a CTX_READ expands or fails with a codec's
status, and what is expanded is written and can be copied. -/
theorem ctxOpenAndReadNeverFaultOnInput : Obligations.CtxOpenAndReadNeverFaultOnInput := fun _ hinv =>
  ⟨exec_ctxOpen_endsWith, fun _ _ _ h0 h1 h2 hfit => exec_ctxRead_endsWith hinv.units h0 h1 h2 hfit⟩

end Sys2Proof.Machine

/-! ## Reset (70_reset_and_hazards.md R280) -/

namespace Sys2Proof.Machine

/-- The block has the values of R280 after reset, whatever the fields hold that are the model's own
(notes/assumptions/15.md). -/
theorem atResetValues_resetWith (w : World) (host : List HostEvent) (hostData : Word64) (ioCalls resets : Nat) :
    AtResetValues { State.resetWith w with host, hostData, ioCalls, resets } where
  status := ⟨rfl, rfl, rfl⟩
  faultInfo := ⟨rfl, rfl⟩
  args := fun i => Vector.getElem_replicate i.isLt
  res0 := rfl
  cursor := ⟨rfl, rfl, rfl⟩
  accumulator := ⟨rfl, rfl, rfl⟩
  flags := ⟨rfl, rfl⟩
  closed := ⟨rfl, rfl⟩
  sizes := ⟨rfl, rfl, rfl, rfl, rfl, rfl, rfl⟩
  buffer := fun _ => rfl
  lmem := fun _ => rfl
  version := rfl
  narrow := fun off hoff => by
    obtain ⟨word, hword, hzero⟩ := narrowAt_of_mem
      (s := { State.resetWith w with host, hostData, ioCalls, resets }) (v := 0)
      (Nat.zero_lt_succ _) (Nat.zero_lt_succ _) (List.mem_cons_of_mem _ (List.mem_map_of_mem (f := (·, 0)) hoff))
    rw [hword, BitVec.eq_of_toNat_eq (y := 0#32) hzero]
  wide := fun off hoff => (wideAt_of_mem (List.mem_map_of_mem (f := (·, 0#64)) hoff)).1

/-- A reset action takes the block to its reset state. -/
theorem step_reset {s : State} {rest : List HostEvent} (h : s.host = .reset :: rest) :
    step s = .next (s.nextActions rest).resetBlock :=
  step_action h

/-- Settles O8: `State.reset` and the state a reset action leaves differ in the parameters and the model's own fields
only. -/
theorem resetLeavesTheSpecValues : Obligations.ResetLeavesTheSpecValues :=
  ⟨atResetValues_resetWith World.standard [] 0#64 0 0, fun s rest h =>
    ⟨_, step_reset h, atResetValues_resetWith s.world rest s.hostData s.ioCalls (s.resets + 1), rfl, rfl⟩⟩

/-- The invariant does not see how many resets there have been, and this is all that resetting the reset state
changes. -/
theorem inv_resetWith (w : World) : Inv (State.resetWith w) :=
  have h := inv_resetBlock (State.resetWith w)
  ⟨h.lmem_wf, h.lmem_range, h.busy, h.code, h.noFault, h.cause, h.reader, h.reader_range, h.reader_fresh, h.ctx⟩

/-- Settles O10: `State.reset` is the reset state of one world. -/
theorem resetMeetsTheInvariant : Obligations.ResetMeetsTheInvariant :=
  ⟨inv_resetWith World.standard, inv_resetWith⟩

end Sys2Proof.Machine

/-! ## MC_COPY with a broken precondition (42_match_copier.md R162) -/

namespace Sys2Proof.Machine

section
variable {s : State} {outBegin cursor length distance bufend : Nat}

theorem copyAllowed_iff :
    copyAllowed outBegin cursor length distance bufend = true ↔
      outBegin ≤ cursor ∧ 1 ≤ length ∧ 1 ≤ distance ∧ distance ≤ cursor - outBegin ∧ cursor + length ≤ bufend := by
  simp only [copyAllowed, Bool.and_eq_true, decide_eq_true_eq, and_assoc]

/-- CopyMatch tests its preconditions before it copies a byte (R160). -/
theorem copyMatch_of_not_allowed (h : ¬ copyAllowed outBegin cursor length distance bufend = true) (sp : Space) :
    copyMatch outBegin cursor length distance bufend sp = .error (.fault .copyPrecond) sp := by
  rw [copyMatch, if_neg h, throw_run]

theorem copyChecked_of_outside (h : 2 ^ s.world.params.addrBits < bufend) :
    copyChecked outBegin cursor length distance bufend s = .error (.fault .memRange) s :=
  bind_of_error (requireLmem_of_lt h)

theorem copyChecked_of_not_allowed (hend : bufend ≤ 2 ^ s.world.params.addrBits)
    (h : ¬ copyAllowed outBegin cursor length distance bufend = true) :
    copyChecked outBegin cursor length distance bufend s = .error (.fault .copyPrecond) s := by
  rw [copyChecked, bind_of_ok (requireLmem_of_le hend)]
  exact bind_of_error (zoom_of_error (part := lmemSpace) (copyMatch_of_not_allowed h (lmemSpace s)))

end

/-- Settles O34: the range test comes before CopyMatch's own, and both come before the first byte is stored. -/
theorem mcCopyFaultsOnBrokenPreconditions : Obligations.McCopyFaultsOnBrokenPreconditions := by
  intro s ob c len d be ml h0 h1 h2 h3 h4 h5
  rw [exec_mcCopy h0 h1 h2 h3 h4 h5]
  exact ⟨fun hout => runCommand_of_fault (copyChecked_of_outside hout),
    fun hend hbroken => runCommand_of_fault (copyChecked_of_not_allowed hend (mt copyAllowed_iff.mp hbroken))⟩

end Sys2Proof.Machine
